-- ==== Sys2Proof/Word.lean ====
section
/-!
DEFINITION. The word types of the block (R6, R8): registers, sample words and descriptor fields are 32-bit words,
arithmetic on them is modulo 2^32, and memory is kept in bytes.
-/

namespace Sys2Proof

/-- A register, a sample word, a field of a control block, an address of the DMA view (R6 `WORD`, R8). -/
abbrev Word := BitVec 32

/-- One byte of system memory. -/
abbrev Byte := BitVec 8

/-- `ceil_div(a, b)` of R8. -/
def ceilDiv (a b : Nat) : Nat := (a + b - 1) / b

/-- `bit(g) = 1 << g` of R8. -/
def pinBit (g : Nat) : Word := BitVec.ofNat 32 1 <<< g

end Sys2Proof
end

