-- ==== Sys2Proof/Config.lean ====
section
/-!
DEFINITION. What R6 calls the parameters. The three numbers D00 fixes are constants here; every other parameter is a field
of `Board`, its register maps (R79, D9 to D13, D26, U40) in `RegisterMap`. The machine's state carries the board and every
rule reads it there, so that "a different board revision requires substituting these constants" (R6, R47) is another value
of one field (log 3). What the spec leaves open altogether stands as an `opaque` constant, of which nothing can be proved
but its type (log 3, log 10, log 27, log 33).
-/

namespace Sys2Proof

/-- How host writes reach the engines: the parameter `VISIBILITY` (R6, R80, D22). -/
inductive Visibility where
  /-- At once: one total order of all accesses. -/
  | sc
  /-- Each host write lands later, in program order. -/
  | buffered
deriving DecidableEq, Repr

/-- The numbers of the register maps (R21 to R36, R79): "each is also a parameter, so that a model can be built with
symbolic offsets" (10_state, D9 to D13, D26, U40). Fields the rules name and the state holds apart (`CS`, `DEBUG`, the
clock's control register) have their places only inside the values written. -/
structure RegisterMap where
  /-- Offsets in a DMA channel's window (R22 to R24). -/
  dmaCs : Nat
  dmaConblk : Nat
  dmaDebug : Nat
  /-- Offsets in the PWM window (R26 to R29). -/
  pwmCtl : Nat
  pwmDmac : Nat
  pwmRng1 : Nat
  pwmFif1 : Nat
  /-- Offsets in the clock manager's window (R31, R32). -/
  clkCntl : Nat
  clkDiv : Nat
  /-- Offsets in the GPIO window; `FSEL[n]` lies `4n` above the first (R33 to R35). -/
  gpioFsel : Nat
  gpioSet0 : Nat
  gpioClr0 : Nat
  /-- Places of `CTL.PWEN1`, `CTL.USEF1` and `DMAC.ENAB` (R26, R27), and of the clock divisor's low bit (R32). -/
  pwen1 : Nat
  usef1 : Nat
  enab : Nat
  divi : Nat
  /-- Pins in a function-select register, bits of a pin's field, and the value that makes it an output (R33). -/
  fselPins : Nat
  fselBits : Nat
  fselOutput : Nat
  /-- `CS.RESET` alone (R160), the start value of `CS` (R163), the value that clears the error flags (R161). -/
  dmaReset : Word
  dmaStart : Word
  dmaClrdbg : Word
  /-- "Mid priority" (R23, R163). -/
  midPriority : BitVec 4
  /-- `pwm.CTL` disabled (R164), `CLRF1` (R170), `USEF1 | PWEN1` (R171). -/
  pwmOff : Word
  pwmClrf : Word
  pwmOn : Word
  /-- `ENAB`, PANIC 15, DREQ 15 (R169). -/
  pwmEnable : Word
  /-- The clock source (R165); the source selected with the generator stopped (R165) and running (R167). -/
  clkSource : BitVec 4
  clkStopped : Word
  clkRunning : Word
  /-- The password of the divisor register (R32, R166). -/
  clkPassword : Word
  /-- The `info` words of a CBA (R103) and of a CBB (R104). -/
  infoCba : Word
  infoCbb : Word
deriving DecidableEq, Repr

/-- The parameters of R6 that D00 does not fix. -/
structure Board where
  /-- `INCREMENT_US_DEFAULT`; no rule reads it (`Initialize` is given its increment, R201). -/
  incrementUsDefault : Int
  /-- `SUBCYCLE_US_DEFAULT`; no rule reads it (`InitChannel` is given its subcycle, R205). -/
  subcycleUsDefault : Int
  /-- `SUBCYCLE_US_MIN`, the floor. -/
  subcycleUsMin : Int
  /-- `SUBCYCLE_US_MAX`, the largest admitted subcycle. -/
  subcycleUsMax : Int
  /-- `CB_SIZE`. -/
  cbSize : Nat
  /-- `CB_ALIGN`. -/
  cbAlign : Nat
  /-- `PAGE_SHIFT`. -/
  pageShift : Nat
  /-- `DMA_BUS_OFFSET` (D8). -/
  dmaBusOffset : Nat
  /-- `*_BASE_HOST` and `*_LEN` of the register windows (R79), and `DMA_CHANNEL_STRIDE` (R25). -/
  dmaBaseHost : Nat
  dmaLen : Nat
  dmaChannelStride : Nat
  pwmBaseHost : Nat
  pwmLen : Nat
  clkBaseHost : Nat
  clkLen : Nat
  gpioBaseHost : Nat
  gpioLen : Nat
  pcmBaseHost : Nat
  pcmLen : Nat
  /-- `*_BASE_DMA` (R79). -/
  pwmBaseDma : Word
  gpioBaseDma : Word
  pcmBaseDma : Word
  /-- The numbers of the register maps (R79, U40). -/
  regs : RegisterMap
  /-- `FIFO_CAP` and `DREQ_LEVEL` (R44, R139, D14). -/
  fifoCap : Nat
  dreqLevel : Nat
  /-- `SETTLE_SHORT_US` and `SETTLE_LONG_US` (R176, D15). -/
  settleShortUs : Nat
  settleLongUs : Nat
  /-- `CLK_SRC_HZ` and `CLK_DIVI` (R112, D13). -/
  clkSrcHz : Nat
  clkDivi : Nat
  /-- `VISIBILITY`. -/
  visibility : Visibility
  /-- `PAGEMAP_VALID` (D7), as a list of alternatives (mask, value): an entry is valid when under some mask it is that
  mask's value. Every predicate on 64 bits has this form (log 31). -/
  pagemapValid : List (BitVec 64 × BitVec 64)
deriving DecidableEq, Repr

namespace Config

/-! ## What D00 fixes (R6) -/

/-- `CHANNEL_COUNT`. -/
abbrev channelCount : Nat := 15
/-- `GPIO_COUNT`. -/
abbrev gpioCount : Nat := 32
/-- `XFER_LEN`: bytes moved by one control block. -/
def xferLen : Word := 4
/-- How many bytes of system memory the DMA view shows above `DMA_BUS_OFFSET` (R73: `2^30`). -/
def busMemorySize : Nat := 2 ^ 30

/-! ## What the spec leaves open -/

/-- OPEN (D14): how far `DREQ_LEVEL` lies above its least value 1. Nothing can be proved of it. -/
opaque dreqAboveOne : Nat
/-- OPEN (D14): how far `FIFO_CAP` lies above `DREQ_LEVEL`. Nothing can be proved of it. -/
opaque fifoAboveDreq : Nat

/-- FREE VALUE (log 10): what the data latch holds after a channel reset (R45 "latch unspecified"). -/
opaque freeLatch : Nat → Word
/-- FREE VALUE (log 10): the DEBUG error flags after a channel reset (R24, U15). -/
opaque freeDebug : Nat → BitVec 3
/-- FREE VALUE (log 10): whether a write already read is still performed when a channel reset arrives (R160, U14). -/
opaque freeInFlight : Nat → Bool
/-- FREE VALUE (log 33): `a div b` where R8 does not define it, for a negative `a` or a `b` that is not positive (R7,
R110). -/
opaque freeQuotient : Int → Int → Int
/-- FREE VALUE (log 27): what the bits of a function-select register that belong to no pin read as (R33, R114, U11). -/
opaque freeReserved : Nat → Word

end Config

/-- The register maps as the spec has them. -/
def RegisterMap.default : RegisterMap where
  dmaCs := 0x00
  dmaConblk := 0x04
  dmaDebug := 0x20
  pwmCtl := 0x00
  pwmDmac := 0x08
  pwmRng1 := 0x10
  pwmFif1 := 0x18
  clkCntl := 0xA0
  clkDiv := 0xA4
  gpioFsel := 0x00
  gpioSet0 := 0x1C
  gpioClr0 := 0x28
  pwen1 := 0
  usef1 := 5
  enab := 31
  divi := 12
  fselPins := 10
  fselBits := 3
  fselOutput := 1
  dmaReset := 0x80000000
  dmaStart := 0x10880001
  dmaClrdbg := 7
  midPriority := 8
  pwmOff := 0
  pwmClrf := 0x40
  pwmOn := 0x21
  pwmEnable := 0x80000F0F
  clkSource := 6
  clkStopped := 0x5A000006
  clkRunning := 0x5A000016
  clkPassword := 0x5A000000
  infoCba := 0x04000008
  infoCbb := 0x04050048

namespace Board

/-- The values R6, R79 and the registers' rules give. `FIFO_CAP` and `DREQ_LEVEL` are any two with
`1 ≤ DREQ_LEVEL ≤ FIFO_CAP` (R139). -/
def default : Board where
  incrementUsDefault := 10
  subcycleUsDefault := 20000
  subcycleUsMin := 3000
  subcycleUsMax := 1000000
  cbSize := 32
  cbAlign := 32
  pageShift := 12
  dmaBusOffset := 0x40000000
  dmaBaseHost := 0x20007000
  dmaLen := 0x24
  dmaChannelStride := 0x100
  pwmBaseHost := 0x2020C000
  pwmLen := 0x28
  clkBaseHost := 0x20101000
  clkLen := 0xA8
  gpioBaseHost := 0x20200000
  gpioLen := 0x100
  pcmBaseHost := 0x20203000
  pcmLen := 0x24
  pwmBaseDma := 0x7E20C000
  gpioBaseDma := 0x7E200000
  pcmBaseDma := 0x7E203000
  regs := RegisterMap.default
  fifoCap := Config.dreqAboveOne + 1 + Config.fifoAboveDreq
  dreqLevel := Config.dreqAboveOne + 1
  settleShortUs := 10
  settleLongUs := 100
  clkSrcHz := 500000000
  clkDivi := 50
  visibility := .sc
  pagemapValid := [(0xC000000000000000, 0x8000000000000000)]

end Board

end Sys2Proof
end

