-- ==== Sys2Proof/Syntax.lean ====
section
/-!
DEFINITION. What the block executes (R117): control blocks, register commands and host operations, one constructor for
each row of `spec/opcode_table.json`, and who decodes them (R100).
-/

namespace Sys2Proof

/-- A channel of the pool, which is also the number of its DMA engine (R6, R25). -/
abbrev Chan := Fin Config.channelCount

/-- A GPIO pin (R6, R36). -/
abbrev Pin := Fin Config.gpioCount

/-- The two write-only registers over the GPIO output latch (R34, R35). -/
inductive GpioReg where
  | set0
  | clr0
deriving DecidableEq, Repr

/-- The register windows (R79). -/
inductive Window where
  | dma (c : Chan)
  | pwm
  | clk
  | gpio
  | pcm
deriving DecidableEq, Repr

/-- The six words of a control block that the engine loads (R101, R131). The two pad words are "ignored by the
engine" (R101), so they are no part of what is decoded. -/
structure ControlBlock where
  info   : Word
  src    : Word
  dst    : Word
  length : Word
  stride : Word
  next   : Word
deriving DecidableEq, Repr

/-- A control block as the engine recognises it: form CBA (R103), form CBB (R104), or anything else (CBX, R134). -/
inductive Block where
  | formA (src : Word) (dst : GpioReg) (next : Word)
  | formB (src next : Word)
  | formX (raw : ControlBlock)
deriving DecidableEq, Repr

/-- The instructions of the block, a constructor for each row of the opcode table (R117). Arguments of host
operations are mathematical integers (R8). -/
inductive Instr where
  /-- CBA: engine `c` writes the word at `src` to the GPIO register `dst` (R132). -/
  | cba (c : Chan) (src : Word) (dst : GpioReg) (next : Word)
  /-- CBB: engine `c` writes the word at `src` to the PWM FIFO, paced (R133). -/
  | cbb (c : Chan) (src next : Word)
  /-- CBX: any other control block (R134); at `CONBLK_AD = 0` no block at all (R136). -/
  | cbx (c : Chan) (raw : ControlBlock)
  | dmaReset (c : Chan)
  | dmaClrdbg (c : Chan)
  | dmaSetcb (c : Chan) (a : Word)
  | dmaStart (c : Chan)
  | pwmOff
  | clkSrc
  | clkDiv
  | clkOn
  /-- PWM_RNG: the 32-bit value written, `incrementUs * 10` in the design (R112, R168). -/
  | pwmRng (value : Word)
  | pwmDmac
  | pwmClrf
  | pwmOn
  | gpioFselOut (p : Pin)
  | gpioSet (m : Word)
  | gpioClr (m : Word)
  | gpioFselRd (n : Fin 4)
  | settle (us : Nat)
  /-- `Initialize(incrementUs)` (R201). -/
  | initEngine (incrementUs : Int)
  | initChannel (channel subcycleUs : Int)
  | addChannelPulse (channel gpio start width : Int)
  | setChannelPercent (channel gpio percent : Int)
  | clearChannelGpio (channel gpio : Int)
  | map (physicalBase length : Int)
  | allocate (pageCount : Int)
  | compile (channel : Int)
  | configureGlobalClock (incrementUs : Int)
  | claim (gpio : Int)
deriving DecidableEq, Repr

/-- Who decodes an instruction (R100): a DMA engine its control blocks, the host side its commands and calls. -/
inductive Decoder where
  | engine (c : Chan)
  | host
deriving DecidableEq, Repr

/-- Why a decoder rejects a word, by name. -/
inductive DecodeError where
  /-- The words end before the instruction does. -/
  | truncated
  /-- No command addresses this register (R177). -/
  | noSuchRegister (address : Word)
  /-- The register is a command's, the value is none of its (R106, R114). -/
  | noSuchValue (address value : Word)
  /-- An unassigned selector (R107). -/
  | noSuchSelector (selector : Word)
  /-- An argument that is not written in its shortest form (log 6). -/
  | longArgument
deriving DecidableEq, Repr

/-- The instruction a recognised block is, on engine `c`. -/
def Block.toInstr (c : Chan) : Block → Instr
  | .formA src dst next => .cba c src dst next
  | .formB src next => .cbb c src next
  | .formX raw => .cbx c raw

/-- Which decoder reads this instruction. -/
def Instr.decoder : Instr → Decoder
  | .cba c _ _ _ => .engine c
  | .cbb c _ _ => .engine c
  | .cbx c _ => .engine c
  | .dmaReset _ | .dmaClrdbg _ | .dmaSetcb _ _ | .dmaStart _ => .host
  | .pwmOff | .clkSrc | .clkDiv | .clkOn | .pwmRng _ | .pwmDmac | .pwmClrf | .pwmOn => .host
  | .gpioFselOut _ | .gpioSet _ | .gpioClr _ | .gpioFselRd _ | .settle _ => .host
  | .initEngine _ | .initChannel _ _ | .addChannelPulse _ _ _ _ | .setChannelPercent _ _ _ => .host
  | .clearChannelGpio _ _ | .map _ _ | .allocate _ | .compile _ | .configureGlobalClock _ | .claim _ => .host

end Sys2Proof
end

