-- ==== Sys2Proof/Decode.lean ====
section
/-!
DEFINITION. The decoders (R100) and the encoder. An engine decodes the eight words of a control block (R101 to R104,
R113). The host side decodes its call stream, whose layout is the model's (log 6): a register command is its value
(R106) and then a word that names the window, the byte offset and the kind of access; a host operation is its selector
(R107), a zero word, and its arguments, integers of any size (R8). Every decoder is total and rejects by name.
-/

namespace Sys2Proof

/-! ## Addresses and values a board's constants give (R34, R35, R108, R112) -/

/-- `GPSET`, the set register in the DMA view. -/
def Board.gpSet (b : Board) : Word := b.gpioBaseDma + BitVec.ofNat 32 b.regs.gpioSet0
/-- `GPCLR`, the clear register in the DMA view. -/
def Board.gpClr (b : Board) : Word := b.gpioBaseDma + BitVec.ofNat 32 b.regs.gpioClr0
/-- `FIFO`, the PWM FIFO register in the DMA view (R29). -/
def Board.fifo (b : Board) : Word := b.pwmBaseDma + BitVec.ofNat 32 b.regs.pwmFif1
/-- `0x5A000000 | (CLK_DIVI << 12)` (R166). -/
def Board.clkDivValue (b : Board) : Word := b.regs.clkPassword ||| (BitVec.ofNat 32 b.clkDivi <<< b.regs.divi)

/-! ## Control blocks -/

/-- The DMA-view address of a GPIO register (R108). -/
def GpioReg.busAddress (b : Board) : GpioReg → Word
  | .set0 => b.gpSet
  | .clr0 => b.gpClr

/-- What the two forms share: length 4, stride 0, a word-aligned source and a block-aligned or zero `next`
(R76, R103, R104, R113). -/
def commonForm (b : Board) (blk : ControlBlock) : Bool :=
  blk.length = Config.xferLen && blk.stride = 0 && blk.src.toNat % 4 = 0 && blk.next.toNat % b.cbAlign = 0

/-- Recognise a control block by its own words (R103, R104, R113). -/
def recognise (b : Board) (blk : ControlBlock) : Block :=
  if commonForm b blk then
    if blk.info = b.regs.infoCba then
      if blk.dst = b.gpClr then .formA blk.src .clr0 blk.next
      else if blk.dst = b.gpSet then .formA blk.src .set0 blk.next
      else .formX blk
    else if blk.info = b.regs.infoCbb then
      if blk.dst = b.fifo then .formB blk.src blk.next else .formX blk
    else .formX blk
  else .formX blk

/-- The words of a CBA (R103). -/
def cbaWords (b : Board) (src : Word) (dst : GpioReg) (next : Word) : ControlBlock :=
  { info := b.regs.infoCba, src, dst := dst.busAddress b, length := Config.xferLen, stride := 0, next }

/-- The words of a CBB (R104). -/
def cbbWords (b : Board) (src next : Word) : ControlBlock :=
  { info := b.regs.infoCbb, src, dst := b.fifo, length := Config.xferLen, stride := 0, next }

/-- The words a recognised block was read from. -/
def Block.words (b : Board) : Block → ControlBlock
  | .formA src dst next => cbaWords b src dst next
  | .formB src next => cbbWords b src next
  | .formX raw => raw

/-- The eight words of a control block (R101); the pads are 0. -/
def ControlBlock.toWords (blk : ControlBlock) : List Word :=
  [blk.info, blk.src, blk.dst, blk.length, blk.stride, blk.next, 0, 0]

/-- An engine's decoder: eight words, the pads ignored (R101, R115). -/
def decodeBlockWords (b : Board) (c : Chan) : List Word → Except DecodeError (Instr × List Word)
  | info :: src :: dst :: length :: stride :: next :: _ :: _ :: rest =>
    .ok ((recognise b { info, src, dst, length, stride, next }).toInstr c, rest)
  | _ => .error .truncated

/-! ## Register commands -/

/-- The function-select register of pin `p` and the shift of its field (R33, R111). -/
def fselIndex (b : Board) (p : Nat) : Nat := p / b.regs.fselPins
def fselShift (b : Board) (p : Nat) : Nat := b.regs.fselBits * (p % b.regs.fselPins)

/-- The byte offset of `gpio.FSEL[n]` (R33). -/
def fselOff (b : Board) (n : Nat) : Nat := b.regs.gpioFsel + 4 * n

/-- The value bits of a `GPIO_FSEL_OUT` that the table fixes: `1 << 3*(p mod 10)` (R111). -/
def fselOutValue (b : Board) (p : Nat) : Word := BitVec.ofNat 32 b.regs.fselOutput <<< fselShift b p

/-- The number of a window in a register word (log 6); a settle delay names window 0. -/
def Window.code : Window → Nat
  | .pwm => 1
  | .clk => 2
  | .gpio => 3
  | .pcm => 4
  | .dma c => 16 + c.val

/-- The window a number names. -/
def windowOf (n : Nat) : Option Window :=
  if n = 1 then some .pwm
  else if n = 2 then some .clk
  else if n = 3 then some .gpio
  else if n = 4 then some .pcm
  else if h : 16 ≤ n ∧ n - 16 < Config.channelCount then some (.dma ⟨n - 16, h.2⟩)
  else none

/-- The kinds of access, in bits 1:0 of a register word (log 6): a write, a read, a settle delay, a read-modify-write. -/
def tagRead : Nat := 1
def tagSettle : Nat := 2
def tagModify : Nat := 3

/-- The register word: the window's number in bits 31:16, the byte offset, a multiple of 4, and the kind of access. -/
def registerWord (w : Window) (off tag : Nat) : Word := BitVec.ofNat 32 (w.code * 65536 + off + tag)

/-- The pin below `k` whose function-select command has this offset and value. -/
def pinOfFsel (b : Board) (off : Nat) (v : Word) : Nat → Option Pin
  | 0 => none
  | k + 1 =>
    if h : k < Config.gpioCount then
      if fselOff b (fselIndex b k) = off ∧ fselOutValue b k = v then some ⟨k, h⟩ else pinOfFsel b off v k
    else none

/-- A write to a DMA channel's window (R160 to R163); `t` is the register word. -/
def decodeDmaWrite (b : Board) (c : Chan) (off : Nat) (t v : Word) : Except DecodeError Instr :=
  if off = b.regs.dmaCs then
    if v = b.regs.dmaReset then .ok (.dmaReset c)
    else if v = b.regs.dmaStart then .ok (.dmaStart c)
    else .error (.noSuchValue t v)
  else if off = b.regs.dmaConblk then
    if v.toNat % b.cbAlign = 0 then .ok (.dmaSetcb c v) else .error (.noSuchValue t v)
  else if off = b.regs.dmaDebug then
    if v = b.regs.dmaClrdbg then .ok (.dmaClrdbg c) else .error (.noSuchValue t v)
  else .error (.noSuchRegister t)

/-- A write to the PWM window (R164, R168 to R171). -/
def decodePwmWrite (b : Board) (off : Nat) (t v : Word) : Except DecodeError Instr :=
  if off = b.regs.pwmCtl then
    if v = b.regs.pwmOff then .ok .pwmOff
    else if v = b.regs.pwmClrf then .ok .pwmClrf
    else if v = b.regs.pwmOn then .ok .pwmOn
    else .error (.noSuchValue t v)
  else if off = b.regs.pwmDmac then
    if v = b.regs.pwmEnable then .ok .pwmDmac else .error (.noSuchValue t v)
  else if off = b.regs.pwmRng1 then .ok (.pwmRng v)
  else .error (.noSuchRegister t)

/-- A write to the clock manager's window (R165 to R167). -/
def decodeClkWrite (b : Board) (off : Nat) (t v : Word) : Except DecodeError Instr :=
  if off = b.regs.clkCntl then
    if v = b.regs.clkStopped then .ok .clkSrc
    else if v = b.regs.clkRunning then .ok .clkOn
    else .error (.noSuchValue t v)
  else if off = b.regs.clkDiv then
    if v = b.clkDivValue then .ok .clkDiv else .error (.noSuchValue t v)
  else .error (.noSuchRegister t)

/-- A write to the GPIO window (R173, R174). -/
def decodeGpioWrite (b : Board) (off : Nat) (t v : Word) : Except DecodeError Instr :=
  if off = b.regs.gpioSet0 then .ok (.gpioSet v)
  else if off = b.regs.gpioClr0 then .ok (.gpioClr v)
  else .error (.noSuchRegister t)

/-- A register write (R106): the admitted triples of window, offset and value. -/
def decodeWrite (b : Board) (w : Window) (off : Nat) (t v : Word) : Except DecodeError Instr :=
  match w with
  | .dma c => decodeDmaWrite b c off t v
  | .pwm => decodePwmWrite b off t v
  | .clk => decodeClkWrite b off t v
  | .gpio => decodeGpioWrite b off t v
  | .pcm => .error (.noSuchRegister t)

/-- The one admitted register read, `gpio.FSEL[n]` with n = 0..3 (R106, R175). -/
def decodeRead (b : Board) (w : Window) (off : Nat) (t v : Word) : Except DecodeError Instr :=
  if w = .gpio then
    if v ≠ 0 then .error (.noSuchValue t v)
    else if off = fselOff b 0 then .ok (.gpioFselRd 0)
    else if off = fselOff b 1 then .ok (.gpioFselRd 1)
    else if off = fselOff b 2 then .ok (.gpioFselRd 2)
    else if off = fselOff b 3 then .ok (.gpioFselRd 3)
    else .error (.noSuchRegister t)
  else .error (.noSuchRegister t)

/-- The read-modify-write of a function-select register (R172). -/
def decodeModify (b : Board) (w : Window) (off : Nat) (t v : Word) : Except DecodeError Instr :=
  if w = .gpio then
    match pinOfFsel b off v Config.gpioCount with
    | some p => .ok (.gpioFselOut p)
    | none => .error (.noSuchValue t v)
  else .error (.noSuchRegister t)

/-- A register command: its value and its register word (log 6). -/
def decodeCommand (b : Board) (v t : Word) : Except DecodeError Instr :=
  if t.toNat = tagSettle then .ok (.settle v.toNat)
  else
    match windowOf (t.toNat / 65536) with
    | none => .error (.noSuchRegister t)
    | some w =>
      if t.toNat % 4 = 0 then decodeWrite b w (t.toNat % 65536) t v
      else if t.toNat % 4 = tagRead then decodeRead b w (t.toNat % 65536 - tagRead) t v
      else if t.toNat % 4 = tagModify then decodeModify b w (t.toNat % 65536 - tagModify) t v
      else .error (.noSuchRegister t)

/-! ## Host operations -/

/-- An integer as a natural number, signs alternating (log 6): 0, -1, 1, -2, 2, … -/
def natOfInt : Int → Nat
  | .ofNat n => 2 * n
  | .negSucc n => 2 * n + 1

def intOfNat (n : Nat) : Int := if n % 2 = 0 then Int.ofNat (n / 2) else Int.negSucc (n / 2)

/-- A natural number in digits of 31 bits, the least first; bit 31 of a digit says that another follows (log 6). -/
def digitsOf : Nat → Nat → List Word
  | 0, n => [BitVec.ofNat 32 n]
  | fuel + 1, n =>
    if n < 2 ^ 31 then [BitVec.ofNat 32 n]
    else BitVec.ofNat 32 (2 ^ 31 + n % 2 ^ 31) :: digitsOf fuel (n / 2 ^ 31)

/-- The number at the head of the words, in its shortest form. -/
def decodeDigits : List Word → Except DecodeError (Nat × List Word)
  | [] => .error .truncated
  | w :: ws =>
    if w.toNat < 2 ^ 31 then .ok (w.toNat, ws)
    else
      match decodeDigits ws with
      | .ok (n, rest) => if n = 0 then .error .longArgument else .ok (w.toNat - 2 ^ 31 + 2 ^ 31 * n, rest)
      | .error e => .error e

/-- One argument of a host operation (R8: signed, unbounded). -/
def argWords (x : Int) : List Word := digitsOf (natOfInt x) (natOfInt x)

/-- `n` arguments. -/
def decodeArgs : Nat → List Word → Except DecodeError (List Int × List Word)
  | 0, ws => .ok ([], ws)
  | n + 1, ws =>
    match decodeDigits ws with
    | .error e => .error e
    | .ok (a, rest) =>
      match decodeArgs n rest with
      | .ok (as, rest) => .ok (intOfNat a :: as, rest)
      | .error e => .error e

/-- How many arguments the operation of a selector takes (R107). -/
def argCount (selector : Nat) : Option Nat :=
  match selector with
  | 0 => some 1
  | 1 => some 2
  | 2 => some 4
  | 3 => some 3
  | 4 => some 2
  | 8 => some 2
  | 9 => some 1
  | 10 => some 1
  | 11 => some 1
  | 12 => some 1
  | _ => none

/-- The operation of a selector on its arguments (R107). -/
def callOf (selector : Nat) (args : List Int) : Option Instr :=
  match selector, args with
  | 0, [inc] => some (.initEngine inc)
  | 1, [c, sub] => some (.initChannel c sub)
  | 2, [c, g, s, w] => some (.addChannelPulse c g s w)
  | 3, [c, g, p] => some (.setChannelPercent c g p)
  | 4, [c, g] => some (.clearChannelGpio c g)
  | 8, [base, len] => some (.map base len)
  | 9, [n] => some (.allocate n)
  | 10, [c] => some (.compile c)
  | 11, [inc] => some (.configureGlobalClock inc)
  | 12, [g] => some (.claim g)
  | _, _ => none

/-- A host operation by its selector (R107). -/
def decodeCall (selector : Word) (ws : List Word) : Except DecodeError (Instr × List Word) :=
  match argCount selector.toNat with
  | none => .error (.noSuchSelector selector)
  | some n =>
    match decodeArgs n ws with
    | .error e => .error e
    | .ok (args, rest) =>
      match callOf selector.toNat args with
      | some i => .ok (i, rest)
      | none => .error (.noSuchSelector selector)

/-- The host side's decoder. -/
def decodeHostWords (b : Board) : List Word → Except DecodeError (Instr × List Word)
  | v :: t :: rest =>
    if t = 0 then decodeCall v rest
    else
      match decodeCommand b v t with
      | .ok i => .ok (i, rest)
      | .error e => .error e
  | _ => .error .truncated

/-- The decoder of each agent (R100): the instruction at the head of the words, and the words after it. -/
def decode (b : Board) (d : Decoder) (ws : List Word) : Except DecodeError (Instr × List Word) :=
  match d with
  | .engine c => decodeBlockWords b c ws
  | .host => decodeHostWords b ws

/-! ## The encoder, from the same tables -/

/-- A register write command's two words. -/
def encodeWrite (w : Window) (off : Nat) (v : Word) : List Word := [v, registerWord w off 0]

/-- A host operation's words. -/
def encodeCall (selector : Nat) (args : List Int) : List Word :=
  BitVec.ofNat 32 selector :: 0 :: args.flatMap argWords

/-- The words of an instruction (R101 to R107, log 6). -/
def encode (b : Board) : Instr → List Word
  | .cba _ src dst next => (cbaWords b src dst next).toWords
  | .cbb _ src next => (cbbWords b src next).toWords
  | .cbx _ raw => raw.toWords
  | .dmaReset c => encodeWrite (.dma c) b.regs.dmaCs b.regs.dmaReset
  | .dmaClrdbg c => encodeWrite (.dma c) b.regs.dmaDebug b.regs.dmaClrdbg
  | .dmaSetcb c a => encodeWrite (.dma c) b.regs.dmaConblk a
  | .dmaStart c => encodeWrite (.dma c) b.regs.dmaCs b.regs.dmaStart
  | .pwmOff => encodeWrite .pwm b.regs.pwmCtl b.regs.pwmOff
  | .clkSrc => encodeWrite .clk b.regs.clkCntl b.regs.clkStopped
  | .clkDiv => encodeWrite .clk b.regs.clkDiv b.clkDivValue
  | .clkOn => encodeWrite .clk b.regs.clkCntl b.regs.clkRunning
  | .pwmRng v => encodeWrite .pwm b.regs.pwmRng1 v
  | .pwmDmac => encodeWrite .pwm b.regs.pwmDmac b.regs.pwmEnable
  | .pwmClrf => encodeWrite .pwm b.regs.pwmCtl b.regs.pwmClrf
  | .pwmOn => encodeWrite .pwm b.regs.pwmCtl b.regs.pwmOn
  | .gpioFselOut p => [fselOutValue b p.val, registerWord .gpio (fselOff b (fselIndex b p.val)) tagModify]
  | .gpioSet m => encodeWrite .gpio b.regs.gpioSet0 m
  | .gpioClr m => encodeWrite .gpio b.regs.gpioClr0 m
  | .gpioFselRd n => [0, registerWord .gpio (fselOff b n.val) tagRead]
  | .settle us => [BitVec.ofNat 32 us, BitVec.ofNat 32 tagSettle]
  | .initEngine inc => encodeCall 0 [inc]
  | .initChannel c sub => encodeCall 1 [c, sub]
  | .addChannelPulse c g s w => encodeCall 2 [c, g, s, w]
  | .setChannelPercent c g p => encodeCall 3 [c, g, p]
  | .clearChannelGpio c g => encodeCall 4 [c, g]
  | .map base len => encodeCall 8 [base, len]
  | .allocate n => encodeCall 9 [n]
  | .compile c => encodeCall 10 [c]
  | .configureGlobalClock inc => encodeCall 11 [inc]
  | .claim g => encodeCall 12 [g]

/-! ## The opcode table's words -/

/-- `n` words of a number, its least significant word first. -/
def wordsOf : Nat → Nat → List Word
  | 0, _ => []
  | n + 1, w => BitVec.ofNat 32 w :: wordsOf n (w / 2 ^ 32)

/-- The instruction a decoder's answer holds. -/
def answered : Except DecodeError (Instr × List Word) → Option Instr
  | .ok (i, _) => some i
  | .error _ => none

/-- The first of some registers that takes the value as a command. -/
def firstCommand (v : Word) : List (Window × Nat) → Option Instr
  | [] => none
  | (w, off) :: rest =>
    match decodeWrite Board.default w off (registerWord w off 0) v with
    | .ok i => some i
    | .error _ => firstCommand v rest

/-- The registers whose commands the value alone tells apart, in the table's order, channel 0's for a DMA command. -/
def valuedRegisters : List (Window × Nat) :=
  [(.dma 0, RegisterMap.default.dmaCs), (.dma 0, RegisterMap.default.dmaDebug), (.pwm, RegisterMap.default.pwmCtl),
   (.clk, RegisterMap.default.clkCntl), (.clk, RegisterMap.default.clkDiv), (.pwm, RegisterMap.default.pwmDmac)]

/-- The instruction of a word of the opcode table. The table numbers a host operation's selector in one byte, a
control block's `info` bits 20:0 in three and a register command's value in four, and gives the registers' addresses no
bits: each width goes to its own decoder (R100), a register value to the registers in turn (log 26). Wider words carry
their register or arguments and are decoded as they stand. The board is the default one. -/
def decodeTableWord (nbits w : Nat) : Option Instr :=
  if nbits ≤ 8 then
    match answered (decode Board.default .host (BitVec.ofNat 32 w :: wordsOf 12 0)) with
    | some i => some i
    | none => firstCommand (BitVec.ofNat 32 w) [(.dma 0, RegisterMap.default.dmaConblk)]
  else if nbits ≤ 24 then answered (decode Board.default (.engine 0) (wordsOf 8 w))
  else if nbits ≤ 32 then
    match firstCommand (BitVec.ofNat 32 w) valuedRegisters with
    | some i => some i
    | none => answered (decode Board.default (.engine 0) (wordsOf 8 w))
  else if nbits ≤ 192 then answered (decode Board.default .host (wordsOf 12 w))
  else answered (decode Board.default (.engine 0) (wordsOf 8 w))

end Sys2Proof
end

