-- ==== Sys2Proof/Machine/State.lean ====
section
/-!
DEFINITION. The state of the machine (R20), as plain data: the DMA engines, the PWM pacer, the clock manager, the GPIO
block, system memory, the host's context, the trace; the board's parameters (R6); and the model's own fields (host writes
under way, host threads, the host program, the agenda, the environment's answers, the count of free values drawn). With it
the reasons a step can stop, and the state at process start (R301).
-/

namespace Sys2Proof.Machine

/-! ## The DMA engine (R21 to R25, R45) -/

/-- The engine's phase (R45). -/
inductive Phase where
  | idle
  | fetch
  | exec
  | write
deriving DecidableEq, Repr

/-- The stored fields of `dma[c].CS` (R23). RESET and ABORT are commands, not storage; ERROR is derived from DEBUG
(`DmaEngine.error`, log 11); the read-only and reserved bits read as any value and nothing reads them (log 27). -/
structure Cs where
  active : Bool
  endFlag : Bool
  int : Bool
  priority : BitVec 4
  panicPriority : BitVec 4
  waitForOutstandingWrites : Bool
  disdebug : Bool
deriving DecidableEq, Repr

/-- The registers and the hidden state of one channel's DMA engine. -/
structure DmaEngine where
  cs : Cs
  /-- The current control block register, the channel's program counter (R22). -/
  conblkAd : Word
  ti : Word
  sourceAd : Word
  destAd : Word
  txfrLen : Word
  stride : Word
  nextconbk : Word
  /-- The three error flags, bit 2 READ_ERROR, bit 1 FIFO_ERROR, bit 0 READ_LAST_NOT_SET_ERROR (R24). -/
  debug : BitVec 3
  phase : Phase
  /-- The data latch (R45). -/
  data : Word
  /-- The model's own: the engine runs a chain that an earlier process left behind, so that what it reads and writes is
  unconstrained until DMA_RESET (R275, R301, R314, U2; log 37). -/
  foreign : Bool
deriving DecidableEq, Repr

/-! ## The other windows -/

/-- The PWM window and the pacer's hidden level (R26 to R28, R44). -/
structure Pwm where
  ctl : Word
  dmac : Word
  rng1 : Word
  fifoLevel : Nat
deriving DecidableEq, Repr

/-- The clock manager (R31, R32). -/
structure Clk where
  src : BitVec 4
  enab : Bool
  divi : BitVec 12
deriving DecidableEq, Repr

/-- The GPIO window: the function-select registers (R33) and the output latch (R36). -/
structure Gpio where
  fsel : Vector Word 6
  out : Word
deriving DecidableEq, Repr

/-! ## Memory -/

/-- System memory: pairs of a physical byte address and a byte, addresses strictly rising, no byte 0; an unlisted
address reads 0 (log 2). -/
abbrev Memory := List Host.Cell

/-! ## The host's context (R38 to R40) -/

/-- A channel record (R38). -/
structure ChanRec where
  initialized : Bool
  subcycleUs : Nat
  sampleCount : Nat
  maxWidth : Nat
  controlBlockCount : Nat
  pageCount : Nat
  /-- Byte offset of the control-block array in the arena (R74). -/
  cbOffset : Nat
  virtBase : Nat
  /-- DMA-view addresses of the arena's pages (R43); empty while there is no arena. -/
  pageMap : List Word
  /-- The handle of `dma[c]`: the physical base of the mapped window (log 17). -/
  dmaWindow : Option Nat
deriving DecidableEq, Repr

/-- The four error kinds (R260). What an error records is dropped (log 23). -/
inductive ErrorKind where
  | mapError
  | pageResolutionError
  | channelStateError
  | pulseRangeError
deriving DecidableEq, Repr

/-- What the last host call returned to its caller (R175, R200, R203, R268). -/
inductive HostResult where
  | none
  | ok
  | error (e : ErrorKind)
  | word (v : Word)
  | window (physicalBase length : Int)
  | arena (virtBase : Nat) (pageMap : List Word)
deriving DecidableEq, Repr

/-- The process-wide context of the host (R39, R40) and its channel records. -/
structure HostContext where
  windowsMapped : Bool
  clockConfigured : Bool
  incrementUs : Int
  gpioSetup : Word
  chan : Vector ChanRec Config.channelCount
  result : HostResult
deriving DecidableEq, Repr

/-! ## The trace (R46) -/

/-- Who writes a GPIO register. -/
inductive Agent where
  | dma (c : Chan)
  | host
deriving DecidableEq, Repr

/-- An event of the observation trace. -/
inductive Event where
  | gpioWrite (agent : Agent) (reg : GpioReg) (value : Word)
  | fifoWrite (c : Chan)
  | paceTick
  | regWrite (window : Window) (offset : Nat) (value : Word)
deriving DecidableEq, Repr

/-! ## The model's own inputs -/

/-- The environment's answers (R47, log 9): what the operating system says when the host asks. -/
structure Env where
  /-- Whether the physical-memory device opens (R200). -/
  physMemOpens : Bool
  /-- The physical bases whose mapping call fails (R200). -/
  unmappable : List Int
  /-- Whether an anonymous locked region can be made (R203). -/
  locksRegion : Bool
  /-- The virtual base of the next region (opaque, R47). -/
  virtBase : Nat
  /-- The page-table export (R72): entries by virtual page number; a page not listed cannot be read. -/
  pageExport : List (Nat × BitVec 64)
deriving DecidableEq, Repr

/-- A turn of the agenda (log 4): the agent that may step next, or a change of the environment. -/
inductive Turn where
  | engine (c : Chan)
  | pacer
  /-- The host's main thread, which runs a call whole (log 5). -/
  | host
  /-- Host thread `k`, which runs its calls one access a turn (R274, log 36). -/
  | thread (k : Nat)
  /-- The oldest host write under way lands (R80 `buffered`, log 35). -/
  | land
  /-- An engine that an earlier process left running writes some word to some address (R314, log 37). -/
  | foreign (c : Chan) (address value : Word)
  | env (e : Env)
deriving DecidableEq, Repr

/-! ## Host writes, accesses and threads -/

/-- One write of the host: a register command's (R160 to R174) or a word of an arena, by its physical address. -/
inductive HostWrite where
  | dmaReset (c : Chan)
  | dmaClrdbg (c : Chan)
  | dmaSetcb (c : Chan) (a : Word)
  | dmaStart (c : Chan)
  | pwmOff
  | clkSrc
  | clkDiv
  | clkOn
  | pwmRng (value : Word)
  | pwmDmac
  | pwmClrf
  | pwmOn
  | fsel (n : Fin 6) (value : Word)
  | gpio (reg : GpioReg) (m : Word)
  | arena (pa : Nat) (value : Word)
deriving DecidableEq, Repr

/-- One access of a host operation, or one entry it makes in the host's context: what the operation does at one of its
turns (R10c, log 5). -/
inductive Action where
  /-- A register command (R160 to R171, R174). -/
  | write (w : HostWrite)
  /-- GPIO_FSEL_OUT's read and its write (R172). -/
  | readSelect (p : Pin)
  | writeSelect (p : Pin)
  /-- GPIO_FSEL_RD by itself (R175). -/
  | readRegister (n : Fin 4)
  /-- Record a claimed pin (R230). -/
  | recordClaim (p : Pin)
  /-- Read a sample word; write it with a pin's bit set, or cleared (R231, R233). -/
  | readSample (c : Chan) (i : Nat)
  | setSample (c : Chan) (p : Pin) (i : Nat)
  | clearSample (c : Chan) (p : Pin) (i : Nat)
  /-- Write the destination of slot `i`'s CBA (R231). -/
  | retarget (c : Chan) (i : Nat) (reg : GpioReg)
  /-- `map` of a window the operation keeps (R200, R201, R205). -/
  | mapWindow (base : Nat)
  | recordWindows
  /-- The locked region; then for each page its first byte touched and its frame resolved (R72, R203, R315). -/
  | makeRegion
  | touchPage (j : Nat)
  | resolvePage (j : Nat)
  /-- Record a channel's new arena and layout (R205 step 10). -/
  | recordArena (c : Chan) (subcycleUs : Int) (n : Nat)
  /-- Hand the arena to the caller of `allocate` (R203). -/
  | handArena
  /-- Write field `f` of control block `k` (R206). -/
  | writeField (c : Chan) (k : Nat) (f : Fin 6)
  /-- DMA_SETCB with the head of the channel's chain (R207). -/
  | setHead (c : Chan)
  /-- Record the configured clock (R202). -/
  | recordClock (incrementUs : Int)
  /-- The channel is initialized (R205 step 12). -/
  | recordChannel (c : Chan)
deriving DecidableEq, Repr

/-- What a host operation keeps between its accesses. -/
structure Scratch where
  /-- The word last read. -/
  word : Word
  /-- The base of the region being allocated, and the pages resolved so far. -/
  virtBase : Nat
  pages : List Word
deriving DecidableEq, Repr

/-- What the callers' locks protect (R83, R240, R274, R309, log 36). -/
inductive Resource where
  /-- A channel's tables and record. -/
  | channel (c : Chan)
  /-- `gpio.FSEL` and `gpioSetup`, which all claims share. -/
  | functionSelects
  /-- The clock's configuration, which runs once: `Initialize`, `configureGlobalClock` (R201, R202, R308). -/
  | clock
deriving DecidableEq, Repr

/-- A host thread (R274): the words of its calls not yet made, and its call in progress, if any: what is left of it to do,
the locks it holds, what it has read. -/
structure Thread where
  program : List Word
  todo : List Action
  holds : List Resource
  scratch : Scratch
  /-- What its last call returned. -/
  result : HostResult
deriving DecidableEq, Repr

/-! ## The state -/

structure State where
  dma : Vector DmaEngine Config.channelCount
  pwm : Pwm
  clk : Clk
  gpio : Gpio
  mem : Memory
  host : HostContext
  /-- Oldest event first (R46). -/
  trace : List Event
  /-- The parameters (R6, R47); no step changes them (log 3). -/
  board : Board
  /-- The model's own: host writes under way, oldest first; empty under `sc` (R80, log 35). -/
  landing : List HostWrite
  /-- The model's own: the host threads beside the main one (R274, log 36). -/
  threads : List Thread
  /-- The model's own: the words of the calls the host's main thread has not yet made (log 6). -/
  program : List Word
  /-- The model's own: who takes the coming turns; when it is empty the host goes on (log 4). -/
  agenda : List Turn
  /-- The model's own: the environment's answers (log 9). -/
  env : Env
  /-- The model's own: how many free values have been drawn (log 10). -/
  draws : Nat
deriving DecidableEq, Repr

/-! ## Why a step stops -/

/-- The one fault. The hardware has no trap (R266, R268): a failing host operation is a next state. -/
inductive Fault where
  /-- Raised by an arena access through a page-map entry that lies outside the DMA view of memory, so that no physical
  address exists (R70, R71). Safe: the machine stops where it would access nothing. -/
  | noPhysicalAddress (busAddress : Word)
deriving DecidableEq, Repr

/-- The spec's refusals ("outside the admitted subset", part 1 of 93_implementation_defined). All are safe: the model
stops where the spec gives no effect. -/
inductive Refusal where
  /-- An instruction without a meaning. Raised by no meaning. -/
  | notModelled (mnemonic : String)
  /-- Raised by the host's fetch: the call stream holds no instruction (R106, R107, R177). -/
  | undecodable (e : DecodeError)
  /-- Raised by the load of a control block that is not an admitted CBA or CBB of its chain (R113, R134, U7). -/
  | notAdmitted (c : Chan)
  /-- Raised by an engine's read outside the arenas or not word-aligned (R73, R76, U9, U10). -/
  | busRead (address : Word)
  /-- Raised by an engine's write to anything but SET0, CLR0 and the PWM FIFO (R73, U9); an engine left by an earlier
  process may write memory outside the arenas too (R306 P2, P3, log 37). -/
  | busWrite (address : Word)
  /-- Raised by a FIFO push at `FIFO_CAP` (R140). -/
  | fifoFull
  /-- Raised by a register access before the windows are mapped (R177, U12). -/
  | windowsNotMapped
  /-- Raised by DMA_SETCB while the engine is active (R162, R178, U12). -/
  | channelActive (c : Chan)
  /-- Raised by DMA_SETCB with an address that is no multiple of CB_ALIGN (R76, R162, U10). -/
  | misalignedBlock (address : Word)
  /-- Raised by a second Initialize (R201, U28). -/
  | secondInitialize
  /-- Raised by configureGlobalClock without its requirement (R202, R308). -/
  | clockNotConfigurable
  /-- Raised by InitChannel above SUBCYCLE_US_MAX (R205 step 5, U21). -/
  | subcycleAboveMax
  /-- Raised by allocate for a frame at or above DMA_BUS_OFFSET (R72, U27). -/
  | frameAboveBusOffset
  /-- Raised where a new arena's page map breaks what R72 assumes of the export: a frame given twice, owned by another
  arena, outside the DMA view of memory or overlapping a register window (R72, R86, R306 P2). -/
  | pageMapNotExact
  /-- Raised by an arena access beyond the channel's pages (R71). -/
  | outsideArena (c : Chan)
  /-- Raised by compile for a channel outside the pool (R206). -/
  | noSuchChannel (channel : Int)
  /-- Raised by claim for a pin outside 0..31 (R230). -/
  | noSuchPin (gpio : Int)
  /-- Raised by claim for a pin already claimed (R230). -/
  | alreadyClaimed (p : Pin)
  /-- Raised where the callers' lock is missing, which the spec takes as a premise: by a call on a channel on which another
  thread's call is in progress, by a claim while another's is, by a second clock configuration while the first runs (R83,
  R240, R274, R306 P4, R308, R309, U6). -/
  | notSerialized
deriving DecidableEq, Repr

/-- The three outcomes of this machine's steps. -/
abbrev Outcome := Host.Outcome State Fault Refusal

/-! ## Process start (R301, R48; unspecified registers at 0, log 1) -/

def Cs.zero : Cs :=
  { active := false, endFlag := false, int := false, priority := 0, panicPriority := 0,
    waitForOutstandingWrites := false, disdebug := false }

def DmaEngine.zero : DmaEngine :=
  { cs := Cs.zero, conblkAd := 0, ti := 0, sourceAd := 0, destAd := 0, txfrLen := 0, stride := 0, nextconbk := 0,
    debug := 0, phase := .idle, data := 0, foreign := false }

/-- A channel without an arena (R48). R38 leaves every field but `initialized` unspecified; the model has them 0, the page
map empty and the handle of `dma[c]` none (log 1). -/
def ChanRec.empty : ChanRec :=
  { initialized := false, subcycleUs := 0, sampleCount := 0, maxWidth := 0, controlBlockCount := 0, pageCount := 0,
    cbOffset := 0, virtBase := 0, pageMap := [], dmaWindow := none }

def HostContext.start : HostContext :=
  { windowsMapped := false, clockConfigured := false, incrementUs := 0, gpioSetup := 0,
    chan := Vector.replicate Config.channelCount ChanRec.empty, result := .none }

/-- The environment before anyone changes it: every mapping succeeds, no page is resident (log 9). -/
def Env.start : Env :=
  { physMemOpens := true, unmappable := [], locksRegion := true, virtBase := 0, pageExport := [] }

/-- An operation that has read nothing yet. -/
def Scratch.empty : Scratch := { word := 0, virtBase := 0, pages := [] }

/-- The machine at process start. -/
def State.reset : State :=
  { dma := Vector.replicate Config.channelCount DmaEngine.zero
    pwm := { ctl := 0, dmac := 0, rng1 := 0, fifoLevel := 0 }
    clk := { src := 0, enab := false, divi := 0 }
    gpio := { fsel := Vector.replicate 6 0, out := 0 }
    mem := []
    host := HostContext.start
    trace := []
    board := Board.default
    landing := []
    threads := []
    program := []
    agenda := []
    env := Env.start
    draws := 0 }

end Sys2Proof.Machine
end

