-- ==== Sys2Proof/Machine/Operands.lean ====
section
/-!
DEFINITION. Operand assembly (R71, R72, R108 to R112) and the positions of the tables in an arena (R41, R42, R74), all
computed from the board's parameters (R6).
-/

namespace Sys2Proof.Machine

/-! ## Quotients and sizes (R8, R74, R110, R112) -/

/-- `a div b`. R8 defines it for non-negative operands; for a negative `a`, or a `b` that is not positive, the quotient is
a free value (log 33): an increment that `configureGlobalClock` was given alone may be 0 or negative. -/
def quotient (a b : Int) : Int := if 0 ≤ a ∧ 0 < b then a / b else Config.freeQuotient a b

/-- `PAGE_SIZE`. -/
def pageSize (b : Board) : Nat := 2 ^ b.pageShift

/-- Clock periods a microsecond: `CLK_SRC_HZ div CLK_DIVI div 1000000`, as R168 has it. R112 has `incrementUs * tickHz /
1000000`, which differs where `CLK_SRC_HZ / CLK_DIVI` is no multiple of 1000000: the choice of R168's is the model's
(log 19). -/
def tickMHz (b : Board) : Int := quotient (quotient b.clkSrcHz b.clkDivi) 1000000

/-- `sampleCount` (R7, R110): a free value where the increment is 0 or negative (log 33). -/
def sampleCountOf (subcycleUs incrementUs : Int) : Int := quotient subcycleUs incrementUs
def cbOffsetOf (b : Board) (n : Nat) : Nat := b.cbAlign * ceilDiv (4 * n) b.cbAlign
def usedBytesOf (b : Board) (n : Nat) : Nat := cbOffsetOf b n + b.cbSize * (2 * n)
def pageCountOf (b : Board) (n : Nat) : Nat := ceilDiv (usedBytesOf b n) (pageSize b)

/-- The physical base of a register window (R25, R79), and the host address of a register in it. -/
def windowBase (b : Board) : Window → Nat
  | .dma c => b.dmaBaseHost + b.dmaChannelStride * c.val
  | .pwm => b.pwmBaseHost
  | .clk => b.clkBaseHost
  | .gpio => b.gpioBaseHost
  | .pcm => b.pcmBaseHost

def registerAddress (b : Board) (w : Window) (off : Nat) : Nat := windowBase b w + off

/-- The length of a register window (R79). -/
def windowLength (b : Board) : Window → Nat
  | .dma _ => b.dmaLen
  | .pwm => b.pwmLen
  | .clk => b.clkLen
  | .gpio => b.gpioLen
  | .pcm => b.pcmLen

/-- All register windows. -/
def allWindows : List Window := [.pwm, .clk, .gpio, .pcm] ++ (List.finRange Config.channelCount).map Window.dma

/-- The record `InitChannel` makes of its derived values (R205 step 10); not yet initialized. -/
def layoutOf (b : Board) (c : Chan) (subcycleUs : Int) (n virtBase : Nat) (pageMap : List Word) : ChanRec :=
  { initialized := false
    subcycleUs := subcycleUs.toNat
    sampleCount := n
    maxWidth := n
    controlBlockCount := 2 * n
    pageCount := pageCountOf b n
    cbOffset := cbOffsetOf b n
    virtBase := virtBase
    pageMap := pageMap
    dmaWindow := some (windowBase b (.dma c)) }

/-! ## Translation (R71) -/

/-- `phys(c, off)`: none beyond the channel's pages. -/
def phys (b : Board) (ch : ChanRec) (off : Nat) : Option Word :=
  (ch.pageMap[off / pageSize b]?).map fun page => page + BitVec.ofNat 32 (off % pageSize b)

/-- The byte offset, in the pages from number `j` on, of a DMA-view address. -/
def offsetFrom (b : Board) (a : Word) : Nat → List Word → Option Nat
  | _, [] => none
  | j, page :: pages =>
    if page.toNat ≤ a.toNat ∧ a.toNat < page.toNat + pageSize b then
      some (j * pageSize b + (a.toNat - page.toNat))
    else offsetFrom b a (j + 1) pages

/-- The arena byte offset a DMA-view address names. -/
def arenaOffset (b : Board) (ch : ChanRec) (a : Word) : Option Nat := offsetFrom b a 0 ch.pageMap

/-- The address lies in the DMA view of memory (R73). -/
def inBusMemory (b : Board) (a : Word) : Bool :=
  decide (b.dmaBusOffset ≤ a.toNat) && decide (a.toNat < b.dmaBusOffset + Config.busMemorySize)

/-- The physical address behind a DMA-view address (R71). -/
def physicalOf (b : Board) (a : Word) : Nat := a.toNat - b.dmaBusOffset

/-! ## The tables (R41, R42, R101) -/

/-- Arena byte offset of `sample[c][i]`. -/
def sampleOffset (i : Nat) : Nat := 4 * i

/-- Arena byte offset of control block `k`, and of its `dst` field. -/
def blockOffset (b : Board) (ch : ChanRec) (k : Nat) : Nat := ch.cbOffset + b.cbSize * k
def dstOffset (b : Board) (ch : ChanRec) (k : Nat) : Nat := blockOffset b ch k + 8

/-- DMA-view address of control block `k`. -/
def blockAddress (b : Board) (ch : ChanRec) (k : Nat) : Option Word := phys b ch (blockOffset b ch k)

/-- The block after block `k`: `(k + 1) mod 2N` (R137). -/
def nextBlock (ch : ChanRec) (k : Nat) : Nat := (k + 1) % (2 * ch.sampleCount)

/-- The number of the control block at a DMA-view address, if one of the chain starts there. -/
def blockIndex (b : Board) (ch : ChanRec) (a : Word) : Option Nat :=
  match arenaOffset b ch a with
  | none => none
  | some off =>
    if ch.cbOffset ≤ off ∧ (off - ch.cbOffset) % b.cbSize = 0 ∧
        (off - ch.cbOffset) / b.cbSize < 2 * ch.sampleCount then
      some ((off - ch.cbOffset) / b.cbSize)
    else none

/-- Control block `k` as `compile` writes it (R206): an even one its slot's CBA, to the clear register, an odd one its
slot's CBB. -/
def compiledBlock (b : Board) (ch : ChanRec) (k : Nat) : Option ControlBlock :=
  match phys b ch (sampleOffset (if k % 2 = 0 then k / 2 else 0)), blockAddress b ch (nextBlock ch k) with
  | some src, some next => some (if k % 2 = 0 then cbaWords b src .clr0 next else cbbWords b src next)
  | _, _ => none

/-- Field `f` of a control block (R101). -/
def blockField (blk : ControlBlock) (f : Fin 6) : Word :=
  [blk.info, blk.src, blk.dst, blk.length, blk.stride, blk.next].get f

/-! ## Pulse and register operands -/

/-- Percent to width, half up, clamped (R109). -/
def percentWidth (percent : Int) (maxWidth : Nat) : Nat :=
  ((max (min percent 100) 0).toNat * maxWidth + 50) / 100

/-- The function-select word with pin `p` made an output (R111). -/
def fselOutput (b : Board) (p : Nat) (old : Word) : Word :=
  (old &&& ~~~(BitVec.ofNat 32 (2 ^ b.regs.fselBits - 1) <<< fselShift b p)) ||| fselOutValue b p

/-- The bits of a function-select register that are some pin's (R33). -/
def fselFields (b : Board) : Word := BitVec.ofNat 32 (2 ^ (b.regs.fselBits * b.regs.fselPins) - 1)

/-- The function-select register of a pin (R33, R111). -/
def fselOf (b : Board) (p : Pin) : Fin 6 := ⟨fselIndex b p.val % 6, Nat.mod_lt _ (by decide)⟩

/-- The range value of an increment (R168; R112 where the two agree), modulo 2^32 (R8, log 19). -/
def rangeValue (b : Board) (incrementUs : Int) : Word := BitVec.ofInt 32 (incrementUs * tickMHz b)

/-- A channel argument as an index of the pool. -/
def chanIndex (channel : Int) : Option Chan :=
  if h : 0 ≤ channel ∧ channel < (Config.channelCount : Int) then some ⟨channel.toNat, by omega⟩ else none

/-- A pin argument as a pin. -/
def pinIndex (gpio : Int) : Option Pin :=
  if h : 0 ≤ gpio ∧ gpio < (Config.gpioCount : Int) then some ⟨gpio.toNat, by omega⟩ else none

/-! ## Page resolution (R72, R118) -/

/-- `PAGEMAP_VALID` on an entry: one of the board's alternatives fits it (D7, log 31). -/
def pagemapValid (b : Board) (entry : BitVec 64) : Bool := b.pagemapValid.any fun alt => entry &&& alt.1 == alt.2

/-- Bits 54:0 of an export entry, the page frame number (R118). -/
def frameNumber (entry : BitVec 64) : Nat := (entry.setWidth 55).toNat

/-- What resolving one page answers. -/
inductive PageAnswer where
  | page (a : Word)
  | unresolved
  | aboveBusOffset
deriving DecidableEq, Repr

/-- Resolve a virtual page through the export (R72). -/
def resolveFrame (b : Board) (env : Env) (vpn : Nat) : PageAnswer :=
  match env.pageExport.lookup vpn with
  | none => .unresolved
  | some entry =>
    if pagemapValid b entry then
      if b.dmaBusOffset ≤ frameNumber entry * pageSize b then .aboveBusOffset
      else .page (BitVec.ofNat 32 (frameNumber entry * pageSize b) ||| BitVec.ofNat 32 b.dmaBusOffset)
    else .unresolved

/-- The virtual page of page `j` of a region (R72). -/
def virtualPage (b : Board) (virtBase j : Nat) : Nat := (virtBase + j * pageSize b) / pageSize b

/-- The register windows of the DMA view, by base and length (R79). -/
def busWindows (b : Board) : List (Word × Nat) :=
  [(b.pwmBaseDma, b.pwmLen), (b.gpioBaseDma, b.gpioLen), (b.pcmBaseDma, b.pcmLen)]

/-- Two ranges of addresses share one. -/
def rangesMeet (lo n lo' n' : Nat) : Bool := decide (lo < lo' + n') && decide (lo' < lo + n)

/-- A page overlaps one of the register windows (R72, R79). R72 does not say in which view it means the overlap: the model
takes both, the frame against the windows the host maps and the page against those the engine addresses (log 20). -/
def overlapsWindow (b : Board) (page : Word) : Bool :=
  (allWindows.any fun w => rangesMeet (physicalOf b page) (pageSize b) (windowBase b w) (windowLength b w)) ||
    (busWindows b).any fun w => rangesMeet page.toNat (pageSize b) w.1.toNat w.2

/-- The page is in the page map of some channel. -/
def pageInUse (s : State) (page : Word) : Bool := s.host.chan.toList.any fun ch => ch.pageMap.contains page

/-- No page stands twice in the list. -/
def allDistinct : List Word → Bool
  | [] => true
  | page :: pages => !pages.contains page && allDistinct pages

/-- The pages are what R72 and R86 assume of the export: page-aligned frames of plain memory, no two the same, none in
another arena, none over a register window (log 20). -/
def exactPages (s : State) (pages : List Word) : Bool :=
  allDistinct pages && pages.all fun page =>
    decide (page.toNat % pageSize s.board = 0) && inBusMemory s.board page && !pageInUse s page
      && !overlapsWindow s.board page

end Sys2Proof.Machine
end

