-- ==== Sys2Proof/Machine/Flags.lean ====
section
/-!
DEFINITION. Every flag and derived signal the spec gives (R23, R24, R36, R44, R50): the hardware has no condition codes.
-/

namespace Sys2Proof.Machine

/-- `CS.ERROR`: 1 when a DEBUG error flag is set (R23, R48). -/
def DmaEngine.error (e : DmaEngine) : Bool := e.debug != 0

/-- `DEBUG.READ_LAST_NOT_SET_ERROR`, `FIFO_ERROR`, `READ_ERROR` (R24). -/
def DmaEngine.readLastNotSetError (e : DmaEngine) : Bool := BitVec.getLsbD e.debug 0
def DmaEngine.fifoError (e : DmaEngine) : Bool := BitVec.getLsbD e.debug 1
def DmaEngine.readError (e : DmaEngine) : Bool := BitVec.getLsbD e.debug 2

/-- `pwm.CTL.PWEN1`, `pwm.CTL.USEF1` (R26). -/
def pwen1 (s : State) : Bool := s.pwm.ctl.getLsbD s.board.regs.pwen1
def usef1 (s : State) : Bool := s.pwm.ctl.getLsbD s.board.regs.usef1

/-- `pwm.DMAC.ENAB` (R27). -/
def dmacEnab (s : State) : Bool := s.pwm.dmac.getLsbD s.board.regs.enab

/-- The request signal: `(pwm.DMAC.ENAB = 1) and (pwm.fifoLevel < DREQ_LEVEL)` (R44, R139). -/
def dreq (s : State) : Bool := dmacEnab s && decide (s.pwm.fifoLevel < s.board.dreqLevel)

/-- The pacer runs: `PWEN1 = 1`, `USEF1 = 1`, `clk.enab = 1` (R44, R138). -/
def pacerRunning (s : State) : Bool := pwen1 s && usef1 s && s.clk.enab

/-- The function-select field of a pin (R33). -/
def fselField (s : State) (p : Pin) : Nat :=
  (s.gpio.fsel.get (fselOf s.board p)).toNat / 2 ^ fselShift s.board p.val % 2 ^ s.board.regs.fselBits

/-- The level of a pin: its latch bit when it is configured as output, otherwise nothing the model says (R36). -/
def pinLevel (s : State) (p : Pin) : Option Bool :=
  if fselField s p = s.board.regs.fselOutput then some (s.gpio.out.getLsbD p.val) else none

/-- A pin is claimed (R39). -/
def claimed (s : State) (p : Pin) : Bool := s.host.gpioSetup.getLsbD p.val

end Sys2Proof.Machine
end

