-- ==== Sys2Proof/Machine/Ops.lean ====
section
/-!
DEFINITION. The named operations: memory by bytes and words, the register files, the trace, raising an error kind, the
DMA bus, the FIFO, what the host reads. Instruction meanings are built of these.
-/

namespace Sys2Proof.Machine

/-! ## Memory (R70, R75, R77; log 2) -/

/-- The byte at an address; an unlisted address reads 0. -/
def Memory.read : Memory → Nat → Byte
  | [], _ => 0
  | (a, b) :: m, x => if a = x then b else Memory.read m x

/-- Write one byte, keeping addresses rising and no byte 0 listed. -/
def Memory.write : Memory → Nat → Byte → Memory
  | [], x, v => if v = 0 then [] else [(x, v)]
  | (a, b) :: m, x, v =>
    if x < a then (if v = 0 then (a, b) :: m else (x, v) :: (a, b) :: m)
    else if x = a then (if v = 0 then m else (x, v) :: m)
    else (a, b) :: Memory.write m x v

/-- The canonical form above an address: addresses rising from `lo`, no byte 0. -/
def Memory.wfFrom : Nat → Memory → Bool
  | _, [] => true
  | lo, (a, b) :: m => decide (lo ≤ a) && b != 0 && Memory.wfFrom (a + 1) m

/-- The canonical form holds. -/
def Memory.wf (m : Memory) : Bool := Memory.wfFrom 0 m

/-- `MemRead(pa, 4)`, little-endian (R9, R75). -/
def Memory.readWord (m : Memory) (pa : Nat) : Word :=
  Memory.read m (pa + 3) ++ Memory.read m (pa + 2) ++ Memory.read m (pa + 1) ++ Memory.read m pa

/-- `MemWrite(pa, 4, v)`, little-endian (R9, R75). -/
def Memory.writeWord (m : Memory) (pa : Nat) (v : Word) : Memory :=
  Memory.write (Memory.write (Memory.write (Memory.write m pa (v.extractLsb' 0 8)) (pa + 1) (v.extractLsb' 8 8))
    (pa + 2) (v.extractLsb' 16 8)) (pa + 3) (v.extractLsb' 24 8)

/-- The bytes of a range read 0 afterwards (R203 "every byte of the region reads 0"). -/
def Memory.clearRange (m : Memory) (lo n : Nat) : Memory :=
  m.filter fun cell => decide (cell.1 < lo) || decide (lo + n ≤ cell.1)

/-- Clear the pages of a new arena (R203). -/
def Memory.clearPages (b : Board) : Memory → List Word → Memory
  | m, [] => m
  | m, page :: pages => Memory.clearPages b (Memory.clearRange m (physicalOf b page) (pageSize b)) pages

/-! ## Register files, trace, results -/

def State.eng (s : State) (c : Chan) : DmaEngine := s.dma.get c
def State.setEng (s : State) (c : Chan) (e : DmaEngine) : State := { s with dma := s.dma.set c.val e c.isLt }
def State.chan (s : State) (c : Chan) : ChanRec := s.host.chan.get c
def State.setChan (s : State) (c : Chan) (r : ChanRec) : State :=
  { s with host := { s.host with chan := s.host.chan.set c.val r c.isLt } }
def State.fsel (s : State) (n : Fin 6) : Word := s.gpio.fsel.get n
def State.setFsel (s : State) (n : Fin 6) (v : Word) : State :=
  { s with gpio := { s.gpio with fsel := s.gpio.fsel.set n.val v n.isLt } }
def State.setThread (s : State) (k : Nat) (th : Thread) : State := { s with threads := s.threads.set k th }

/-- The free values of the count so far are used up: the next ones are fresh (log 10, log 27). -/
def State.drawn (s : State) : State := { s with draws := s.draws + 1 }

/-- `emit(e)` (R9, R46). -/
def State.emit (s : State) (e : Event) : State := { s with trace := s.trace ++ [e] }

/-- The call returns a value to its caller. -/
def State.answer (s : State) (r : HostResult) : State := { s with host := { s.host with result := r } }

/-- `raise E`: the one way an error kind is reported. The operation ends and its caller gets the value; no state is
saved, no mode changes, no handler is entered, and the engines go on (R9, R268). There is no return from it (R269). -/
def raise (e : ErrorKind) (s : State) : Outcome := .next (s.answer (.error e))

/-- The next state with the call answered `ok`. -/
def succeed (s : State) : Outcome := .next (s.answer .ok)

/-- Go on with `f` where `o` is a next state. -/
def andThen (o : Outcome) (f : State → Outcome) : Outcome :=
  match o with
  | .next s => f s
  | .fault r => .fault r
  | .refused r => .refused r

/-! ## The GPIO latch, the FIFO and the DMA bus -/

/-- What a write of a mask does to the latch (R34, R35). -/
def latchAfter (reg : GpioReg) (out m : Word) : Word :=
  match reg with
  | .set0 => out ||| m
  | .clr0 => out &&& ~~~m

/-- A write to the set or clear register (R34, R35, R46). -/
def gpioWrite (agent : Agent) (reg : GpioReg) (m : Word) (s : State) : State :=
  { s with gpio := { s.gpio with out := latchAfter reg s.gpio.out m } }.emit (.gpioWrite agent reg m)

/-- A word pushed into the FIFO by engine `c`; its value is no state (R44, R140). -/
def pushed (c : Chan) (s : State) : State :=
  { s with pwm := { s.pwm with fifoLevel := s.pwm.fifoLevel + 1 } }.emit (.fifoWrite c)

/-- `FifoPush()` by engine `c`: refused when the FIFO is full (R140). -/
def fifoPush (c : Chan) (s : State) : Outcome :=
  if s.pwm.fifoLevel < s.board.fifoCap then .next (pushed c s) else .refused .fifoFull

/-- `BusWrite(ba, 4, v)` by engine `c` (R73). -/
def busWrite (c : Chan) (ba v : Word) (s : State) : Outcome :=
  if ba = s.board.gpSet then .next (gpioWrite (.dma c) .set0 v s)
  else if ba = s.board.gpClr then .next (gpioWrite (.dma c) .clr0 v s)
  else if ba = s.board.fifo then fifoPush c s
  else .refused (.busWrite ba)

/-- The address lies in an arena (R73). -/
def inAnArena (s : State) (ba : Word) : Bool := s.host.chan.toList.any fun ch => (arenaOffset s.board ch ba).isSome

/-- `BusRead` answers at this address (R73, R76). -/
def busReadable (s : State) (ba : Word) : Bool :=
  inBusMemory s.board ba && decide (ba.toNat % 4 = 0) && inAnArena s ba

/-- The word `BusRead(ba, 4)` returns (R73). -/
def busWord (s : State) (ba : Word) : Word := Memory.readWord s.mem (physicalOf s.board ba)

/-- `BusRead(ba, 4)` by an engine, and what the engine does with the word. -/
def busRead (ba : Word) (s : State) (f : Word → Outcome) : Outcome :=
  if busReadable s ba then f (busWord s ba) else .refused (.busRead ba)

/-! ## What the host reads -/

/-- A settle delay: the host waits, no state changes (R176); what other agents do meanwhile is the agenda's. -/
def settle (_us : Nat) (s : State) : State := s

/-- The host writes under way: none under `sc`, where a write lands as it is made (R80). -/
def pending (s : State) : List HostWrite :=
  match s.board.visibility with
  | .sc => []
  | .buffered => s.landing

/-- The arena word at a physical address, and the function-select register, as the host reads them: its own writes under
way included, the latest first (R80 "program order", log 35). -/
def seenWord (s : State) (pa : Nat) : Word :=
  (pending s).foldl (fun v w => match w with
    | .arena a x => if a = pa then x else v
    | _ => v) (Memory.readWord s.mem pa)

def seenSelect (s : State) (n : Fin 6) : Word :=
  (pending s).foldl (fun v w => match w with
    | .fsel m x => if m = n then x else v
    | _ => v) (s.fsel n)

/-- What a read of a function-select register returns: the pins' fields as they stand; a bit that belongs to no pin reads as
any value (R33, R114, U11, log 27). -/
def selectRead (s : State) (n : Fin 6) : Word :=
  (seenSelect s n &&& fselFields s.board) ||| (Config.freeReserved s.draws &&& ~~~(fselFields s.board))

/-- The host's access through a mapped window: refused before the windows are mapped (R177, log 17). -/
def throughWindow (s : State) (access : State → Outcome) : Outcome :=
  if s.host.windowsMapped then access s else .refused .windowsNotMapped

/-- The physical address of the arena word at byte offset `off` of channel `c` (R71), and the access made there. -/
def atArena (c : Chan) (off : Nat) (s : State) (f : Nat → Outcome) : Outcome :=
  match phys s.board (s.chan c) off with
  | none => .refused (.outsideArena c)
  | some a => if inBusMemory s.board a then f (physicalOf s.board a) else .fault (.noPhysicalAddress a)

end Sys2Proof.Machine
end

