-- ==== Sys2Proof/Machine/ControlBlocks.lean ====
section
/-!
DEFINITION. The control-block engine (R130 to R137, R148), the engine an earlier process left (R314) and the pacer
(R138). A control block takes three steps of its engine: FETCH loads it, EXEC reads its source word, WRITE writes the word
and advances. An execution of the block's meaning is the one step its engine's phase calls for; an engine that is not
active has no step (R130), and one that an earlier process left running executes no block of this process (log 37).
-/

namespace Sys2Proof.Machine

/-! ## The steps -/

/-- The engine executes this process's control blocks: it is active (R130), and started by this process (R314, log 37). -/
def DmaEngine.runs (e : DmaEngine) : Bool := e.cs.active && !e.foreign

/-- The load step's copies (R131). -/
def DmaEngine.load (e : DmaEngine) (b : ControlBlock) : DmaEngine :=
  { e with ti := b.info, sourceAd := b.src, destAd := b.dst, txfrLen := b.length, stride := b.stride,
           nextconbk := b.next, phase := .exec }

/-- The block in the working registers (R21). -/
def DmaEngine.loaded (e : DmaEngine) : ControlBlock :=
  { info := e.ti, src := e.sourceAd, dst := e.destAd, length := e.txfrLen, stride := e.stride, next := e.nextconbk }

/-- `next` is the block after block `k` of the chain, or the stop (R113, R135, R137). -/
def admittedNext (b : Board) (ch : ChanRec) (k : Nat) (next : Word) : Bool :=
  next == 0 || blockAddress b ch (nextBlock ch k) == some next

/-- The block at `a` is exactly the CBA of its slot (R103, R113). -/
def admittedA (b : Board) (ch : ChanRec) (a src next : Word) : Bool :=
  match blockIndex b ch a with
  | none => false
  | some k =>
    decide (a.toNat % b.cbAlign = 0) && decide (k % 2 = 0) && phys b ch (sampleOffset (k / 2)) == some src
      && admittedNext b ch k next

/-- The block at `a` is exactly the CBB of its slot (R104, R113). -/
def admittedB (b : Board) (ch : ChanRec) (a src next : Word) : Bool :=
  match blockIndex b ch a with
  | none => false
  | some k =>
    decide (a.toNat % b.cbAlign = 0) && decide (k % 2 = 1) && phys b ch (sampleOffset 0) == some src
      && admittedNext b ch k next

/-- The FETCH step of a block (R131); a block that is not admitted is refused (R113, R134). -/
def fetchHalf (c : Chan) (b : ControlBlock) (admitted : Bool) (s : State) : Outcome :=
  if admitted then .next (s.setEng c ((s.eng c).load b)) else .refused (.notAdmitted c)

/-- The EXEC step: read the source word into the latch (R132, R133). -/
def readHalf (c : Chan) (src : Word) (s : State) : Outcome :=
  busRead src s fun w => .next (s.setEng c { s.eng c with data := w, phase := .write })

/-- Advance: `CONBLK_AD <- NEXTCONBK`, then FETCH (R135). -/
def advance (c : Chan) (next : Word) (s : State) : State :=
  s.setEng c { s.eng c with conblkAd := next, phase := .fetch }

/-- The WRITE step: write the latch to the destination and advance (R132, R133, R135). -/
def writeHalf (c : Chan) (dst next : Word) (s : State) : Outcome :=
  andThen (busWrite c dst (s.eng c).data s) fun t => .next (advance c next t)

/-- The stop on a zero `CONBLK_AD` (R136). -/
def stopEngine (c : Chan) (s : State) : State :=
  s.setEng c { s.eng c with cs := { (s.eng c).cs with active := false, endFlag := true }, phase := .idle }

/-! ## The meanings -/

/-- CBA, the GPIO mask write (R132). -/
def execCba (c : Chan) (src : Word) (dst : GpioReg) (next : Word) (s : State) : Outcome :=
  if (s.eng c).runs then
    match (s.eng c).phase with
    | .idle => .next s
    | .fetch => fetchHalf c (cbaWords s.board src dst next) (admittedA s.board (s.chan c) (s.eng c).conblkAd src next) s
    | .exec => readHalf c src s
    | .write => writeHalf c (dst.busAddress s.board) next s
  else .next s

/-- CBB, the paced throwaway write (R133). While the request is deasserted the engine holds (R148a, R148b). -/
def execCbb (c : Chan) (src next : Word) (s : State) : Outcome :=
  if (s.eng c).runs then
    match (s.eng c).phase with
    | .idle => .next s
    | .fetch => fetchHalf c (cbbWords s.board src next) (admittedB s.board (s.chan c) (s.eng c).conblkAd src next) s
    | .exec => readHalf c src s
    | .write => if dreq s then writeHalf c s.board.fifo next s else .next s
  else .next s

/-- CBX: any other control block is refused (R113, R134); with `CONBLK_AD = 0` at the load there is no block, and the
engine stops (R136). -/
def execCbx (c : Chan) (_raw : ControlBlock) (s : State) : Outcome :=
  if (s.eng c).runs then
    match (s.eng c).phase with
    | .idle => .next s
    | .fetch => if (s.eng c).conblkAd = 0 then .next (stopEngine c s) else .refused (.notAdmitted c)
    | .exec => .refused (.notAdmitted c)
    | .write => .refused (.notAdmitted c)
  else .next s

/-! ## The engine's fetch -/

/-- No control block: what a load at `CONBLK_AD = 0` finds (R22, R136). -/
def nullBlock : ControlBlock := { info := 0, src := 0, dst := 0, length := 0, stride := 0, next := 0 }

/-- The six word reads of a load, taken as one (R131). -/
def loadBlock (s : State) (a : Word) : Option ControlBlock :=
  if busReadable s a && busReadable s (a + 4) && busReadable s (a + 8) && busReadable s (a + 12)
      && busReadable s (a + 16) && busReadable s (a + 20) then
    some { info := busWord s a, src := busWord s (a + 4), dst := busWord s (a + 8), length := busWord s (a + 12),
           stride := busWord s (a + 16), next := busWord s (a + 20) }
  else none

/-- The block engine `c` is at: the one in memory while it fetches, the one in its registers afterwards (R45, R84). -/
def currentBlock (c : Chan) (s : State) : Except Refusal Block :=
  if (s.eng c).phase = .fetch then
    if (s.eng c).conblkAd = 0 then .ok (.formX nullBlock)
    else
      match loadBlock s (s.eng c).conblkAd with
      | some b => .ok (recognise s.board b)
      | none => .error (.busRead (s.eng c).conblkAd)
  else .ok (recognise s.board (s.eng c).loaded)

/-- A turn of engine `c` (R130): the meaning of the block it is at. `Step.engineStep` is the same through `exec`. -/
def engineTurn (c : Chan) (s : State) : Outcome :=
  if (s.eng c).runs then
    match currentBlock c s with
    | .error r => .refused r
    | .ok (.formA src dst next) => execCba c src dst next s
    | .ok (.formB src next) => execCbb c src next s
    | .ok (.formX raw) => execCbx c raw s
  else .next s

/-! ## Holds (R148) -/

/-- The holds and stuck states of an engine, by name (R148). -/
inductive Hold where
  /-- (a) lifted by a pace tick. -/
  | dreqHold
  /-- (b) never lifted. -/
  | pacerDead
  /-- (c) `CS.ACTIVE = 0` after the stop of R136. -/
  | stopped
deriving DecidableEq, Repr

/-- The engine waits to write a CBB: phase WRITE, and the block it has loaded is one. -/
def atPacedWrite (b : Board) (e : DmaEngine) : Bool :=
  e.runs && decide (e.phase = .write) &&
    match recognise b e.loaded with
    | .formB _ _ => true
    | .formA _ _ _ | .formX _ => false

/-- Which of them engine `c` is in, if any. An engine that was never started, or was reset, is in none: (c) is the stop,
which sets END (R136, U8). -/
def holdOf (s : State) (c : Chan) : Option Hold :=
  if !(s.eng c).cs.active && (s.eng c).cs.endFlag then some .stopped
  else if atPacedWrite s.board (s.eng c) && !dreq s then
    if pacerRunning s && dmacEnab s then some .dreqHold else some .pacerDead
  else none

/-! ## An engine left running by an earlier process (R275, R301, R314) -/

/-- The address lies in a peripheral's window of the DMA view (R79). -/
def inPeripheral (b : Board) (a : Word) : Bool :=
  (busWindows b).any fun w => decide (w.1.toNat ≤ a.toNat) && decide (a.toNat < w.1.toNat + w.2)

/-- Such an engine may write a word of memory here: it is a word (R77) of memory, and of no arena (R306 P2). -/
def foreignWritable (s : State) (a : Word) : Bool :=
  inBusMemory s.board a && decide (a.toNat % 4 = 0) && !inPeripheral s.board a && !inAnArena s a

/-- One write of such an engine: any word to any address of the DMA view, at any turn, until the channel is reset. A write
into an arena, or to a register other than the engines' three, breaks premise P2 or P3 of R306 and is refused. What it
reads, and its registers meanwhile, are nothing this process depends on (log 37). -/
def foreignWrite (c : Chan) (a v : Word) (s : State) : Outcome :=
  if (s.eng c).cs.active && (s.eng c).foreign then
    if foreignWritable s a then .next { s with mem := Memory.writeWord s.mem (physicalOf s.board a) v }
    else busWrite c a v s
  else .next s

/-! ## The pacer -/

/-- The pace tick (R138). -/
def paceTick (s : State) : State :=
  { s with pwm := { s.pwm with fifoLevel := s.pwm.fifoLevel - 1 } }.emit .paceTick

/-- A turn of the pacer: it has a step exactly when it is running (R138). -/
def paceTurn (s : State) : Outcome := .next (if pacerRunning s then paceTick s else s)

end Sys2Proof.Machine
end

