-- ==== Sys2Proof/Machine/RegisterCommands.lean ====
section
/-!
DEFINITION. The register commands (R160 to R176): what each write does where it lands, how a write is issued (R80), and
the commands' meanings. Every command but SETTLE needs the windows mapped; the settle delay that a command carries is part
of it (log 16).
-/

namespace Sys2Proof.Machine

/-! ## What a write does where it lands -/

/-- A write still under way when the reset arrives, performed: what its WRITE step would have written, if that step was
enabled (R160 "a model must allow both", log 10). -/
def inFlightWrite (c : Chan) (s : State) : State :=
  match recognise s.board (s.eng c).loaded with
  | .formA _ dst _ => gpioWrite (.dma c) dst (s.eng c).data s
  | .formB _ _ => if dreq s then pushed c s else s
  | .formX _ => s

/-- What the free value lets happen to a write in flight (U14). An engine that an earlier process left running makes its
last write, whatever it is, at a turn of its own before the reset, or does not make it (log 37). -/
def resolveInFlight (c : Chan) (s : State) : State :=
  if (s.eng c).runs && decide ((s.eng c).phase = .write) && Config.freeInFlight s.draws then inFlightWrite c s else s

/-- The engine after the channel reset (R160): the DEBUG flags and the latch are free values (R24, R45); it is this
process's engine from here on (R314). -/
def resetEngine (e : DmaEngine) (draws : Nat) : DmaEngine :=
  { e with
    cs := { e.cs with active := false, endFlag := false, int := false, priority := 0, panicPriority := 0,
                      waitForOutstandingWrites := false, disdebug := false }
    conblkAd := 0, ti := 0, sourceAd := 0, destAd := 0, txfrLen := 0, stride := 0, nextconbk := 0
    phase := .idle
    debug := Config.freeDebug draws
    data := Config.freeLatch draws
    foreign := false }

/-- The channel reset's effect on the engine; its free values are drawn (R160). -/
def resetChannel (c : Chan) (s : State) : State :=
  (s.setEng c (resetEngine (s.eng c) s.draws)).drawn

/-- The three DEBUG flags are cleared, each by writing 1 to it; ERROR follows (R161, R23). -/
def clearDebug (c : Chan) (s : State) : State := s.setEng c { s.eng c with debug := 0 }

/-- The start (R163). END and INT are written 0, which does not clear them. -/
def startEngine (c : Chan) (s : State) : State :=
  s.setEng c { s.eng c with
    cs := { (s.eng c).cs with waitForOutstandingWrites := true, panicPriority := s.board.regs.midPriority,
                              priority := s.board.regs.midPriority, active := true, disdebug := false }
    phase := .fetch }

/-- A register write takes effect and enters the trace (R46). -/
def logged (w : Window) (off : Nat) (v : Word) (s : State) : Outcome := .next (s.emit (.regWrite w off v))

/-- A host write lands. `CONBLK_AD` of an active engine takes no write (R162, R178). -/
def land (w : HostWrite) (s : State) : Outcome :=
  match w with
  | .dmaReset c => logged (.dma c) s.board.regs.dmaCs s.board.regs.dmaReset (resetChannel c (resolveInFlight c s))
  | .dmaClrdbg c => logged (.dma c) s.board.regs.dmaDebug s.board.regs.dmaClrdbg (clearDebug c s)
  | .dmaSetcb c a =>
    if (s.eng c).cs.active then .refused (.channelActive c)
    else logged (.dma c) s.board.regs.dmaConblk a (s.setEng c { s.eng c with conblkAd := a })
  | .dmaStart c => logged (.dma c) s.board.regs.dmaCs s.board.regs.dmaStart (startEngine c s)
  | .pwmOff => logged .pwm s.board.regs.pwmCtl s.board.regs.pwmOff { s with pwm := { s.pwm with ctl := s.board.regs.pwmOff } }
  | .clkSrc => logged .clk s.board.regs.clkCntl s.board.regs.clkStopped
      { s with clk := { s.clk with src := s.board.regs.clkSource, enab := false } }
  | .clkDiv => logged .clk s.board.regs.clkDiv s.board.clkDivValue
      { s with clk := { s.clk with divi := BitVec.ofNat 12 s.board.clkDivi } }
  | .clkOn => logged .clk s.board.regs.clkCntl s.board.regs.clkRunning
      { s with clk := { s.clk with src := s.board.regs.clkSource, enab := true } }
  | .pwmRng v => logged .pwm s.board.regs.pwmRng1 v { s with pwm := { s.pwm with rng1 := v } }
  | .pwmDmac => logged .pwm s.board.regs.pwmDmac s.board.regs.pwmEnable
      { s with pwm := { s.pwm with dmac := s.board.regs.pwmEnable } }
  | .pwmClrf => logged .pwm s.board.regs.pwmCtl s.board.regs.pwmClrf
      { s with pwm := { s.pwm with fifoLevel := 0, ctl := 0 } }
  | .pwmOn => logged .pwm s.board.regs.pwmCtl s.board.regs.pwmOn { s with pwm := { s.pwm with ctl := s.board.regs.pwmOn } }
  | .fsel n v => logged .gpio (fselOff s.board n.val) v (s.setFsel n v)
  | .gpio reg m => .next (gpioWrite .host reg m s)
  | .arena pa v => .next { s with mem := Memory.writeWord s.mem pa v }

/-- The settle delay a write is followed by (R160, R164 to R171); 0 for none. -/
def settleTime (b : Board) : HostWrite → Nat
  | .dmaReset _ | .pwmOff | .pwmRng _ | .pwmDmac | .pwmClrf | .pwmOn => b.settleShortUs
  | .clkSrc | .clkDiv | .clkOn => b.settleLongUs
  | .dmaClrdbg _ | .dmaSetcb _ _ | .dmaStart _ | .fsel _ _ | .gpio _ _ | .arena _ _ => 0

/-! ## Issuing a write (R80) -/

/-- The host makes a write: under `sc` it lands at once, under `buffered` it joins the writes under way. -/
def issue (w : HostWrite) (s : State) : Outcome :=
  match s.board.visibility with
  | .sc => land w s
  | .buffered => .next { s with landing := s.landing ++ [w] }

/-- The oldest write under way lands: what the memory system does of itself under `buffered` (D22). -/
def landOldest (s : State) : Outcome :=
  match s.board.visibility, s.landing with
  | .buffered, w :: rest => land w { s with landing := rest }
  | _, _ => .next s

/-- A register command: its write through a mapped window, then its settle delay. -/
def command (w : HostWrite) (s : State) : Outcome :=
  throughWindow s fun s => andThen (issue w s) fun t => .next (settle (settleTime s.board w) t)

/-- DMA_SETCB with an aligned address (R76, R162). -/
def setHeadTo (c : Chan) (a : Word) (s : State) : Outcome :=
  if a.toNat % s.board.cbAlign = 0 then command (.dmaSetcb c a) s else .refused (.misalignedBlock a)

/-! ## DMA channel commands -/

/-- DMA_RESET (R160). -/
def execDmaReset (c : Chan) (s : State) : Outcome := command (.dmaReset c) s

/-- DMA_CLRDBG (R161). -/
def execDmaClrdbg (c : Chan) (s : State) : Outcome := command (.dmaClrdbg c) s

/-- DMA_SETCB: refused off the alignment, and where it lands on an active engine (R162, R178, R76). That its address is the
head of a chain is not checked (log 18). -/
def execDmaSetcb (c : Chan) (a : Word) (s : State) : Outcome := setHeadTo c a s

/-- DMA_START (R163). Its preconditions are the caller's: with a DEBUG flag still set, or a `CONBLK_AD` that is no chain's
head, the model starts the engine all the same, which the spec leaves open (log 18). -/
def execDmaStart (c : Chan) (s : State) : Outcome := command (.dmaStart c) s

/-! ## PWM and clock commands -/

/-- PWM_OFF (R164). -/
def execPwmOff (s : State) : Outcome := command .pwmOff s

/-- CLK_SRC (R165). -/
def execClkSrc (s : State) : Outcome := command .clkSrc s

/-- CLK_DIV (R166). That the generator is stopped is not checked (log 18). -/
def execClkDiv (s : State) : Outcome := command .clkDiv s

/-- CLK_ON (R167). -/
def execClkOn (s : State) : Outcome := command .clkOn s

/-- PWM_RNG (R168): the value written. -/
def execPwmRng (value : Word) (s : State) : Outcome := command (.pwmRng value) s

/-- PWM_DMAC (R169). -/
def execPwmDmac (s : State) : Outcome := command .pwmDmac s

/-- PWM_CLRF: the FIFO is emptied; CLRF1 clears itself and the rest is written 0 (R170). -/
def execPwmClrf (s : State) : Outcome := command .pwmClrf s

/-- PWM_ON (R171). -/
def execPwmOn (s : State) : Outcome := command .pwmOn s

/-! ## GPIO commands -/

/-- GPIO_SET, the digital-I/O collaborator's direct set (R173, R279). -/
def execGpioSet (m : Word) (s : State) : Outcome := command (.gpio .set0 m) s

/-- GPIO_CLR, the host's direct clear (R174). -/
def execGpioClr (m : Word) (s : State) : Outcome := command (.gpio .clr0 m) s

/-- GPIO_FSEL_RD: the one admitted register read (R175). What belongs to no pin reads as any value, drawn anew (log 27). -/
def execGpioFselRd (n : Fin 4) (s : State) : Outcome :=
  throughWindow s fun s => .next ((s.answer (.word (selectRead s (n.castLE (by omega))))).drawn)

/-- SETTLE: a step of the host that changes no state (R176). It runs before the windows are mapped too, on which R176 is
silent (log 16). -/
def execSettle (us : Nat) (s : State) : Outcome := .next (settle us s)

end Sys2Proof.Machine
end

