-- ==== Sys2Proof/Machine/Accesses.lean ====
section
/-!
DEFINITION. The accesses of the host operations, one meaning an `Action` (R9, R10c): what an operation does at one of its
turns, on what it keeps between them (`Scratch`). An operation is a list of these (BringUp, Pulse), so that the accesses
of two host threads can interleave (R274).
-/

namespace Sys2Proof.Machine

/-- What an access comes to: the operation goes on, or it ends here and answers its caller, or the machine stops. -/
inductive Did where
  | went (x : Scratch) (s : State)
  | ended (r : HostResult) (s : State)
  | fault (f : Fault)
  | refused (r : Refusal)
deriving DecidableEq, Repr

/-- A next state, with nothing more to remember. -/
def Did.of (x : Scratch) (o : Outcome) : Did :=
  match o with
  | .next s => .went x s
  | .fault f => .fault f
  | .refused r => .refused r

/-- An access through a mapped window (R177). -/
def throughWindowDid (s : State) (d : Did) : Did := if s.host.windowsMapped then d else .refused .windowsNotMapped

/-! ## Arena accesses -/

/-- `ArenaRead(c, off)` (R9, R80), kept. -/
def arenaRead (c : Chan) (off : Nat) (x : Scratch) (s : State) : Did :=
  match phys s.board (s.chan c) off with
  | none => .refused (.outsideArena c)
  | some a =>
    if inBusMemory s.board a then .went { x with word := seenWord s (physicalOf s.board a) } s
    else .fault (.noPhysicalAddress a)

/-- `ArenaWrite(c, off, v)` (R9, R80). -/
def arenaWrite (c : Chan) (off : Nat) (v : Word) (s : State) : Outcome :=
  atArena c off s fun pa => issue (.arena pa v) s

/-! ## The host's context -/

/-- The four process-wide windows are mapped (R201). -/
def markMapped (s : State) : State := { s with host := { s.host with windowsMapped := true } }

/-- Record a claim (R39, R230). -/
def markClaimed (p : Pin) (s : State) : State :=
  { s with host := { s.host with gpioSetup := s.host.gpioSetup ||| pinBit p.val } }

/-- The clock is configured (R202). -/
def markConfigured (inc : Int) (s : State) : State :=
  { s with host := { s.host with incrementUs := inc, clockConfigured := true } }

/-- Step 12 of `InitChannel` (R205). -/
def markInitialized (c : Chan) (s : State) : State := s.setChan c { s.chan c with initialized := true }

/-! ## Regions and pages (R72, R200, R203) -/

/-- The environment opens the device and makes the mapping (R200). -/
def mapSucceeds (physicalBase : Int) (s : State) : Bool :=
  s.env.physMemOpens && !(s.env.unmappable.contains physicalBase)

/-- Page `j` of the region is touched: a read, or a write of its value, so that no word changes. What it does, "forces
residency", is the environment's, whose export answers next (R72, R203, R315, log 34). -/
def touch (_j : Nat) (s : State) : State := s

/-- The frame of page `j` is resolved (R72). -/
def resolve (j : Nat) (x : Scratch) (s : State) : Did :=
  match resolveFrame s.board s.env (virtualPage s.board x.virtBase j) with
  | .unresolved => .ended (.error .pageResolutionError) s
  | .aboveBusOffset => .refused .frameAboveBusOffset
  | .page a => .went { x with pages := x.pages ++ [a] } s

/-- The arena's pages, all resolved, are the process's now and read 0 (R203); a page map that breaks what R72 assumes of
the export is refused (log 20). -/
def takePages (x : Scratch) (s : State) (k : State → Did) : Did :=
  if exactPages s x.pages then k { s with mem := Memory.clearPages s.board s.mem x.pages }
  else .refused .pageMapNotExact

/-- Record the layout of a channel that is not initialized (R38 "immutable layout thereafter", R205 step 10), over as
many pages as it needs. -/
def recordArena (c : Chan) (subcycleUs : Int) (n : Nat) (x : Scratch) (s : State) : Did :=
  if (s.chan c).initialized then .refused .notSerialized
  else if n = 0 ∨ x.pages.length ≠ pageCountOf s.board n then .refused .pageMapNotExact
  else takePages x s fun s => .went x (s.setChan c (layoutOf s.board c subcycleUs n x.virtBase x.pages))

/-! ## Every access -/

/-- The function-select word a claim writes (R111, R172). -/
def selectWrite (b : Board) (p : Pin) (old : Word) : HostWrite := .fsel (fselOf b p) (fselOutput b p.val old)

/-- What each action does. A clock is configured once (R308), and only a channel with an arena is initialized (R205). -/
def perform (a : Action) (x : Scratch) (s : State) : Did :=
  match a with
  | .write w => .of x (command w s)
  | .readSelect p => throughWindowDid s (.went { x with word := selectRead s (fselOf s.board p) } s.drawn)
  | .writeSelect p => .of x (command (selectWrite s.board p x.word) s)
  | .readRegister n => throughWindowDid s (.ended (.word (selectRead s (n.castLE (by omega)))) s.drawn)
  | .recordClaim p => .went x (markClaimed p s)
  | .readSample c i => arenaRead c (sampleOffset i) x s
  | .setSample c p i => .of x (arenaWrite c (sampleOffset i) (x.word ||| pinBit p.val) s)
  | .clearSample c p i => .of x (arenaWrite c (sampleOffset i) (x.word &&& ~~~(pinBit p.val)) s)
  | .retarget c i reg => .of x (arenaWrite c (dstOffset s.board (s.chan c) (2 * i)) (reg.busAddress s.board) s)
  | .mapWindow base => if mapSucceeds base s then .went x s else .ended (.error .mapError) s
  | .recordWindows => .went x (markMapped s)
  | .makeRegion =>
    if s.env.locksRegion then .went { x with virtBase := s.env.virtBase, pages := [] } s
    else .ended (.error .mapError) s
  | .touchPage j => .went x (touch j s)
  | .resolvePage j => resolve j x s
  | .recordArena c sub n => recordArena c sub n x s
  | .handArena => takePages x s fun s => .ended (.arena x.virtBase x.pages) s
  | .writeField c k f =>
    match compiledBlock s.board (s.chan c) k with
    | none => .refused (.outsideArena c)
    | some blk => .of x (arenaWrite c (blockOffset s.board (s.chan c) k + 4 * f.val) (blockField blk f) s)
  | .setHead c =>
    match blockAddress s.board (s.chan c) 0 with
    | none => .refused (.outsideArena c)
    | some head => .of x (setHeadTo c head s)
  | .recordClock inc =>
    if s.host.clockConfigured then .refused .clockNotConfigurable else .went x (markConfigured inc s)
  | .recordChannel c =>
    if (s.chan c).pageMap = [] then .refused (.outsideArena c) else .went x (markInitialized c s)

/-! ## Calls -/

/-- How a host operation begins: it answers at once, or is refused, or goes on to its accesses under the locks it needs
(R83, R240). -/
inductive Call where
  | answer (r : HostResult)
  | refuse (r : Refusal)
  | go (locks : List Resource) (todo : List Action)
deriving DecidableEq, Repr

/-- `raise E` where an operation begins (R268). -/
def Call.raise (e : ErrorKind) : Call := .answer (.error e)

end Sys2Proof.Machine
end

