-- ==== Sys2Proof/Machine/BringUp.lean ====
section
/-!
DEFINITION. How the bring-up operations begin and what they then do, access by access (R200 to R207). The checks are made
at the call; the accesses follow one a turn (log 5).
-/

namespace Sys2Proof.Machine

/-! ## map (R200) -/

/-- `map(physicalBase, length)` (R200). -/
def callMap (physicalBase length : Int) (s : State) : Call :=
  if mapSucceeds physicalBase s then .answer (.window physicalBase length) else .raise .mapError

/-! ## The clock (R201, R202) -/

/-- The eight register commands, in order, then the context (R202). -/
def clockActions (b : Board) (incrementUs : Int) : List Action :=
  [.write .pwmOff, .write .clkSrc, .write .clkDiv, .write .clkOn, .write (.pwmRng (rangeValue b incrementUs)),
   .write .pwmDmac, .write .pwmClrf, .write .pwmOn, .recordClock incrementUs]

/-- `configureGlobalClock(incrementUs)` (R202). -/
def callConfigureGlobalClock (incrementUs : Int) (s : State) : Call :=
  if s.host.windowsMapped && !s.host.clockConfigured then .go [.clock] (clockActions s.board incrementUs)
  else .refuse .clockNotConfigurable

/-- `Initialize(incrementUs)` (R201). -/
def callInitialize (incrementUs : Int) (s : State) : Call :=
  if s.host.windowsMapped || s.host.clockConfigured then .refuse .secondInitialize
  else if incrementUs < 1 then .raise .channelStateError
  else .go [.clock]
    ([.mapWindow (windowBase s.board .pwm), .mapWindow (windowBase s.board .pcm), .mapWindow (windowBase s.board .clk),
      .mapWindow (windowBase s.board .gpio), .recordWindows] ++ clockActions s.board incrementUs)

/-! ## allocate (R203) -/

/-- A locked region of `n` pages, each touched and then resolved (R203, R315). -/
def regionActions (n : Nat) : List Action :=
  .makeRegion :: (List.range n).flatMap fun j => [.touchPage j, .resolvePage j]

/-- `allocate(pageCount)` (R203). A count below 1 asks for no page (log 29). -/
def callAllocate (pageCount : Int) (_s : State) : Call :=
  .go [] (regionActions pageCount.toNat ++ [.handArena])

/-! ## compile (R206, R207) -/

/-- The six field writes of every control block, in the chain's order (R206). -/
def chainActions (c : Chan) (sampleCount : Nat) : List Action :=
  (List.range (2 * sampleCount)).flatMap fun k => (List.finRange 6).map fun f => .writeField c k f

/-- The start sequence (R207). -/
def startActions (c : Chan) : List Action :=
  [.write (.dmaReset c), .write (.dmaClrdbg c), .setHead c, .write (.dmaStart c)]

/-- `compile(channel)` (R206). A channel that has no arena is refused (log 22). On a channel whose engine already runs its
chain, of which R206 says nothing, the same accesses are made: the model's choice (log 38). -/
def callCompile (channel : Int) (s : State) : Call :=
  match chanIndex channel with
  | none => .refuse (.noSuchChannel channel)
  | some c =>
    if (s.chan c).pageMap = [] then .refuse (.outsideArena c)
    else .go [.channel c] (chainActions c (s.chan c).sampleCount ++ startActions c)

/-! ## InitChannel (R205) -/

/-- Steps 8 to 12 of `InitChannel`, after the checks. -/
def bringUpActions (b : Board) (c : Chan) (subcycleUs : Int) (n : Nat) : List Action :=
  .mapWindow (windowBase b (.dma c)) :: regionActions (pageCountOf b n) ++ [.recordArena c subcycleUs n]
    ++ chainActions c n ++ startActions c ++ [.recordChannel c]

/-- `InitChannel(channel, subcycleUs)`: the checks in the order of R205; the first that fails decides. -/
def callInitChannel (channel subcycleUs : Int) (s : State) : Call :=
  if !(s.host.windowsMapped && s.host.clockConfigured) then .raise .channelStateError
  else
    match chanIndex channel with
    | none => .raise .channelStateError
    | some c =>
      if (s.chan c).initialized then .raise .channelStateError
      else if subcycleUs < s.board.subcycleUsMin then .raise .channelStateError
      else if s.board.subcycleUsMax < subcycleUs then .refuse .subcycleAboveMax
      else if sampleCountOf subcycleUs s.host.incrementUs < 1 then .raise .channelStateError
      else .go [.channel c]
        (bringUpActions s.board c subcycleUs (sampleCountOf subcycleUs s.host.incrementUs).toNat)

end Sys2Proof.Machine
end

