-- ==== Sys2Proof/Machine/Pulse.lean ====
section
/-!
DEFINITION. How the pulse operations begin and what they then do, access by access (R230 to R233): claim, addPulse,
setPercent, clearGpio. All checks precede the first write (R238).
-/

namespace Sys2Proof.Machine

/-! ## claim (R230) -/

/-- A read-modify-write of the pin's function select (R172). -/
def selectActions (p : Pin) : List Action := [.readSelect p, .writeSelect p]

/-- Claim a pin: function select, then drive it low, then record it (R230). -/
def claimActions (p : Pin) : List Action :=
  selectActions p ++ [.write (.gpio .clr0 (pinBit p.val)), .recordClaim p]

/-- GPIO_FSEL_OUT by itself (R172). -/
def callSelectOutput (p : Pin) (s : State) : Call :=
  if s.host.windowsMapped then .go [.functionSelects] (selectActions p) else .refuse .windowsNotMapped

/-- The claim procedure called by itself (R230). -/
def callClaim (gpio : Int) (s : State) : Call :=
  match pinIndex gpio with
  | none => .refuse (.noSuchPin gpio)
  | some p => if claimed s p then .refuse (.alreadyClaimed p) else .go [.functionSelects] (claimActions p)

/-! ## addPulse (R231) -/

/-- Read a sample word, then write it with the pin's bit cleared, for `n` slots from slot `i` on, ascending. -/
def clearActions (c : Chan) (p : Pin) (i n : Nat) : List Action :=
  (List.range' i n).flatMap fun j => [.readSample c j, .clearSample c p j]

/-- Steps 7 to 10: start, intermediate slots, end. -/
def pulseActions (c : Chan) (p : Pin) (start width maxWidth : Nat) : List Action :=
  [.readSample c start, .setSample c p start, .retarget c start .set0] ++ clearActions c p (start + 1) (width - 1)
    ++ if start + width < maxWidth then clearActions c p (start + width) 1 ++ [.retarget c (start + width) .clr0]
       else []

/-- Steps 3 to 10 on an initialized channel. The claim of step 6 needs the lock all claims share (R240). -/
def pulseCall (c : Chan) (gpio start width : Int) (s : State) : Call :=
  match pinIndex gpio with
  | none => .raise .pulseRangeError
  | some p =>
    if start < 0 ∨ width < 0 ∨ ((s.chan c).maxWidth : Int) < start + width then .raise .pulseRangeError
    else if ((s.chan c).maxWidth : Int) ≤ start then .raise .pulseRangeError
    else if claimed s p then .go [.channel c] (pulseActions c p start.toNat width.toNat (s.chan c).maxWidth)
    else .go [.channel c, .functionSelects]
      (claimActions p ++ pulseActions c p start.toNat width.toNat (s.chan c).maxWidth)

/-- The channel checks every pulse operation begins with (R231 to R233, steps 1 and 2). -/
def onChannel (channel : Int) (s : State) (k : Chan → Call) : Call :=
  match chanIndex channel with
  | none => .raise .channelStateError
  | some c => if (s.chan c).initialized then k c else .raise .channelStateError

/-- `addPulse(channel, gpio, start, width)` (R231). -/
def callAddPulse (channel gpio start width : Int) (s : State) : Call :=
  onChannel channel s fun c => pulseCall c gpio start width s

/-- `setPercent(channel, gpio, percent)` (R232). -/
def callSetPercent (channel gpio percent : Int) (s : State) : Call :=
  onChannel channel s fun c => pulseCall c gpio 0 (percentWidth percent (s.chan c).maxWidth) s

/-! ## clearGpio (R233) -/

/-- `clearGpio(channel, gpio)`: the pin's bit plane cleared, then the pin driven low once (R233). -/
def callClearGpio (channel gpio : Int) (s : State) : Call :=
  onChannel channel s fun c =>
    match pinIndex gpio with
    | none => .raise .channelStateError
    | some p =>
      if claimed s p then
        .go [.channel c] (clearActions c p 0 (s.chan c).sampleCount ++ [.write (.gpio .clr0 (pinBit p.val))])
      else .raise .channelStateError

end Sys2Proof.Machine
end

