-- ==== Sys2Proof/Machine/Threads.lean ====
section
/-!
DEFINITION. Who steps between the accesses of a host operation (R10, R80, R82; log 4, log 5): the engines, the pacer, the
memory system, and the host's other threads, which run calls of their own one access a turn (R274). Two calls in progress
never share what the callers' locks protect (R83, R240, R309): a call that would is refused (U6, log 36).
-/

namespace Sys2Proof.Machine

/-! ## Locks -/

/-- None of the locks is held by a call in progress: the main thread's, which holds `busy`, or another thread's. -/
def mayBegin (busy locks : List Resource) (s : State) : Bool :=
  locks.all fun r => !busy.contains r && s.threads.all fun th => !th.holds.contains r

/-- The access is part of a claim's read-modify-writes (R172, R230). -/
def ofClaim : Action → Bool
  | .readSelect _ | .writeSelect _ | .recordClaim _ => true
  | .write _ | .readRegister _ | .readSample _ _ | .setSample _ _ _ | .clearSample _ _ _ | .retarget _ _ _ => false
  | .mapWindow _ | .recordWindows | .makeRegion | .touchPage _ | .resolvePage _ | .recordArena _ _ _ => false
  | .handArena | .writeField _ _ _ | .setHead _ | .recordClock _ | .recordChannel _ => false

/-- What a call still holds with these accesses left: the claims' lock only until its claim is done (R83, R240, R309). -/
def stillHeld (todo : List Action) (locks : List Resource) : List Resource :=
  locks.filter fun r => r != .functionSelects || todo.any ofClaim

/-! ## A thread's calls -/

/-- How each of the host's instructions begins as a call of a thread. A register command is one access; what it checks is
checked there. No control block comes from the host's decoder (R100). -/
def callOfInstr (i : Instr) (s : State) : Call :=
  match i with
  | .cba c _ _ _ => .refuse (.notAdmitted c)
  | .cbb c _ _ => .refuse (.notAdmitted c)
  | .cbx c _ => .refuse (.notAdmitted c)
  | .dmaReset c => .go [] [.write (.dmaReset c)]
  | .dmaClrdbg c => .go [] [.write (.dmaClrdbg c)]
  | .dmaSetcb c a =>
    if a.toNat % s.board.cbAlign = 0 then .go [] [.write (.dmaSetcb c a)] else .refuse (.misalignedBlock a)
  | .dmaStart c => .go [] [.write (.dmaStart c)]
  | .pwmOff => .go [] [.write .pwmOff]
  | .clkSrc => .go [] [.write .clkSrc]
  | .clkDiv => .go [] [.write .clkDiv]
  | .clkOn => .go [] [.write .clkOn]
  | .pwmRng v => .go [] [.write (.pwmRng v)]
  | .pwmDmac => .go [] [.write .pwmDmac]
  | .pwmClrf => .go [] [.write .pwmClrf]
  | .pwmOn => .go [] [.write .pwmOn]
  | .gpioFselOut p => callSelectOutput p s
  | .gpioSet m => .go [] [.write (.gpio .set0 m)]
  | .gpioClr m => .go [] [.write (.gpio .clr0 m)]
  | .gpioFselRd n => .go [] [.readRegister n]
  | .settle _ => .answer .ok
  | .initEngine inc => callInitialize inc s
  | .initChannel c sub => callInitChannel c sub s
  | .addChannelPulse c g a w => callAddPulse c g a w s
  | .setChannelPercent c g p => callSetPercent c g p s
  | .clearChannelGpio c g => callClearGpio c g s
  | .map base len => callMap base len s
  | .allocate n => callAllocate n s
  | .compile c => callCompile c s
  | .configureGlobalClock inc => callConfigureGlobalClock inc s
  | .claim g => callClaim g s

/-- What the host finds in a stream of calls. -/
inductive HostFetch where
  /-- No call left: nothing to do. -/
  | idle
  /-- The next instruction, and the words after it. -/
  | call (i : Instr) (rest : List Word)
  | bad (e : DecodeError)
deriving DecidableEq, Repr

/-- The host's fetch from a stream of calls. -/
def fetchCall (b : Board) (program : List Word) : HostFetch :=
  match program with
  | [] => .idle
  | w :: ws =>
    match decode b .host (w :: ws) with
    | .ok (i, rest) => .call i rest
    | .error e => .bad e

/-- The thread has returned from its call. -/
def Thread.returned (th : Thread) (r : HostResult) : Thread :=
  { th with todo := [], holds := [], scratch := Scratch.empty, result := r }

/-- The thread after an access: with none left the call has returned `ok`. -/
def Thread.goesOn (th : Thread) (todo : List Action) (x : Scratch) : Thread :=
  match todo with
  | [] => th.returned .ok
  | a :: as => { th with todo := a :: as, holds := stillHeld (a :: as) th.holds, scratch := x }

/-- An idle thread begins its next call. -/
def beginNext (busy : List Resource) (k : Nat) (th : Thread) (s : State) : Outcome :=
  match fetchCall s.board th.program with
  | .idle => .next s
  | .bad e => .refused (.undecodable e)
  | .call i rest =>
    match callOfInstr i s with
    | .answer r => .next (s.setThread k { th.returned r with program := rest })
    | .refuse r => .refused r
    | .go locks todo =>
      if mayBegin busy locks s then
        .next (s.setThread k { th with program := rest, todo, holds := locks, scratch := Scratch.empty })
      else .refused .notSerialized

/-- A turn of thread `k`: the next access of its call, or its next call. -/
def threadTurn (busy : List Resource) (k : Nat) (s : State) : Outcome :=
  match s.threads[k]? with
  | none => .next s
  | some th =>
    match th.todo with
    | [] => beginNext busy k th s
    | a :: todo =>
      match perform a th.scratch s with
      | .went x t => .next (t.setThread k (th.goesOn todo x))
      | .ended r t => .next (t.setThread k (th.returned r))
      | .fault f => .fault f
      | .refused r => .refused r

/-! ## The other agents' turns -/

/-- One turn of an agent other than the host's main thread, or a change of the environment. -/
def otherTurn (busy : List Resource) (t : Turn) (s : State) : Outcome :=
  match t with
  | .engine c => engineTurn c s
  | .pacer => paceTurn s
  | .host => .next s
  | .thread k => threadTurn busy k s
  | .land => landOldest s
  | .foreign c a v => foreignWrite c a v s
  | .env e => .next { s with env := e }

/-- Run the agenda's turns up to the host's next one, which is taken off; an empty agenda is the host's. -/
def runAgenda (busy : List Resource) : List Turn → State → Outcome
  | [], s => .next { s with agenda := [] }
  | t :: rest, s =>
    if t = .host then .next { s with agenda := rest }
    else andThen (otherTurn busy t s) (runAgenda busy rest)

/-- Wait for the host's turn, the main thread's call holding `busy`. -/
def hostTurn (busy : List Resource) (s : State) : Outcome := runAgenda busy s.agenda s

/-! ## A call of the main thread -/

/-- An operation's accesses, each at the host's next turn; with none left, `finish`. -/
def runActions (busy : List Resource) (finish : State → Outcome) : List Action → Scratch → State → Outcome
  | [], _, s => finish s
  | a :: todo, x, s =>
    andThen (hostTurn busy s) fun s =>
      match perform a x s with
      | .went x t => runActions (stillHeld todo busy) finish todo x t
      | .ended r t => .next (t.answer r)
      | .fault f => .fault f
      | .refused r => .refused r

/-- The main thread runs a call whole. -/
def runCall (finish : State → Outcome) (call : Call) (s : State) : Outcome :=
  match call with
  | .answer r => .next (s.answer r)
  | .refuse r => .refused r
  | .go locks todo =>
    if mayBegin [] locks s then runActions locks finish todo Scratch.empty s else .refused .notSerialized

end Sys2Proof.Machine
end

