-- ==== Sys2Proof/Machine/HostCalls.lean ====
section
/-!
DEFINITION. The meanings of the host operations as instructions of the main thread (R200 to R206, R230 to R233): the call
whole, the other agents' turns run between its accesses (log 5). An operation that returns nothing else answers `ok`.
-/

namespace Sys2Proof.Machine

/-- GPIO_FSEL_OUT: a read and a write, two accesses (R172); a register command, it answers nothing. -/
def execGpioFselOut (p : Pin) (s : State) : Outcome := runCall (fun t => .next t) (callSelectOutput p s) s

/-- `Initialize(incrementUs)` (R201). -/
def execInitialize (incrementUs : Int) (s : State) : Outcome := runCall succeed (callInitialize incrementUs s) s

/-- `InitChannel(channel, subcycleUs)` (R205). -/
def execInitChannel (channel subcycleUs : Int) (s : State) : Outcome :=
  runCall succeed (callInitChannel channel subcycleUs s) s

/-- `addPulse(channel, gpio, start, width)` (R231). -/
def execAddChannelPulse (channel gpio start width : Int) (s : State) : Outcome :=
  runCall succeed (callAddPulse channel gpio start width s) s

/-- `setPercent(channel, gpio, percent)` (R232). -/
def execSetChannelPercent (channel gpio percent : Int) (s : State) : Outcome :=
  runCall succeed (callSetPercent channel gpio percent s) s

/-- `clearGpio(channel, gpio)` (R233). -/
def execClearChannelGpio (channel gpio : Int) (s : State) : Outcome :=
  runCall succeed (callClearGpio channel gpio s) s

/-- `map(physicalBase, length)` (R200). -/
def execMap (physicalBase length : Int) (s : State) : Outcome := runCall succeed (callMap physicalBase length s) s

/-- `allocate(pageCount)` (R203). -/
def execAllocate (pageCount : Int) (s : State) : Outcome := runCall succeed (callAllocate pageCount s) s

/-- `compile(channel)` (R206); on a running channel too, which is the model's choice (log 38). -/
def execCompile (channel : Int) (s : State) : Outcome := runCall succeed (callCompile channel s) s

/-- `configureGlobalClock(incrementUs)` (R202). -/
def execConfigureGlobalClock (incrementUs : Int) (s : State) : Outcome :=
  runCall succeed (callConfigureGlobalClock incrementUs s) s

/-- The claim procedure (R230). -/
def execClaim (gpio : Int) (s : State) : Outcome := runCall succeed (callClaim gpio s) s

end Sys2Proof.Machine
end

