-- ==== Sys2Proof/Machine/Dispatch.lean ====
section
/-! DEFINITION. The dispatch: one arm for each row of the opcode table, each a call of its meaning. -/

namespace Sys2Proof.Machine

def exec (i : Instr) (s : State) : Host.Outcome State Fault Refusal :=
  match i with
  | .cba c src dst next => Sys2Proof.Machine.execCba c src dst next s
  | .cbb c src next => Sys2Proof.Machine.execCbb c src next s
  | .cbx c raw => Sys2Proof.Machine.execCbx c raw s
  | .dmaReset c => Sys2Proof.Machine.execDmaReset c s
  | .dmaClrdbg c => Sys2Proof.Machine.execDmaClrdbg c s
  | .dmaSetcb c a => Sys2Proof.Machine.execDmaSetcb c a s
  | .dmaStart c => Sys2Proof.Machine.execDmaStart c s
  | .pwmOff => Sys2Proof.Machine.execPwmOff s
  | .clkSrc => Sys2Proof.Machine.execClkSrc s
  | .clkDiv => Sys2Proof.Machine.execClkDiv s
  | .clkOn => Sys2Proof.Machine.execClkOn s
  | .pwmRng value => Sys2Proof.Machine.execPwmRng value s
  | .pwmDmac => Sys2Proof.Machine.execPwmDmac s
  | .pwmClrf => Sys2Proof.Machine.execPwmClrf s
  | .pwmOn => Sys2Proof.Machine.execPwmOn s
  | .gpioFselOut p => Sys2Proof.Machine.execGpioFselOut p s
  | .gpioSet m => Sys2Proof.Machine.execGpioSet m s
  | .gpioClr m => Sys2Proof.Machine.execGpioClr m s
  | .gpioFselRd n => Sys2Proof.Machine.execGpioFselRd n s
  | .settle us => Sys2Proof.Machine.execSettle us s
  | .initEngine incrementUs => Sys2Proof.Machine.execInitialize incrementUs s
  | .initChannel channel subcycleUs => Sys2Proof.Machine.execInitChannel channel subcycleUs s
  | .addChannelPulse channel gpio start width => Sys2Proof.Machine.execAddChannelPulse channel gpio start width s
  | .setChannelPercent channel gpio percent => Sys2Proof.Machine.execSetChannelPercent channel gpio percent s
  | .clearChannelGpio channel gpio => Sys2Proof.Machine.execClearChannelGpio channel gpio s
  | .map physicalBase length => Sys2Proof.Machine.execMap physicalBase length s
  | .allocate pageCount => Sys2Proof.Machine.execAllocate pageCount s
  | .compile channel => Sys2Proof.Machine.execCompile channel s
  | .configureGlobalClock incrementUs => Sys2Proof.Machine.execConfigureGlobalClock incrementUs s
  | .claim gpio => Sys2Proof.Machine.execClaim gpio s

end Sys2Proof.Machine
end

