-- ==== Sys2Proof/Machine/Fetch.lean ====
section
/-!
DEFINITION. The places `withFetchWord` puts an instruction so that the next step runs it (log 26).
-/

namespace Sys2Proof.Machine

/-- The instruction's first action goes through a mapped window (R160 to R177, R202, R230). -/
def needsWindows : Instr → Bool
  | .cba _ _ _ _ | .cbb _ _ _ | .cbx _ _ => false
  | .dmaReset _ | .dmaClrdbg _ | .dmaSetcb _ _ | .dmaStart _ => true
  | .pwmOff | .clkSrc | .clkDiv | .clkOn | .pwmRng _ | .pwmDmac | .pwmClrf | .pwmOn => true
  | .gpioFselOut _ | .gpioSet _ | .gpioClr _ | .gpioFselRd _ => true
  | .settle _ => false
  | .initEngine _ | .initChannel _ _ | .addChannelPulse _ _ _ _ | .setChannelPercent _ _ _ => false
  | .clearChannelGpio _ _ | .map _ _ | .allocate _ | .compile _ => false
  | .configureGlobalClock _ | .claim _ => true

/-- The arena page of the spec's program P1, and the head of its chain. -/
def examplePage : Word := 0x52345000
def exampleHead : Word := 0x52345020

/-- Where a block of P1's chain stands, told by its `next`; any other block is put at the head. -/
def exampleAddress (next : Word) : Word :=
  if next = exampleHead then exampleHead + 7 * 32
  else if exampleHead.toNat < next.toNat ∧ next.toNat < exampleHead.toNat + 8 * 32 then next - 32
  else exampleHead

/-- Words stored from a physical address on. -/
def storeWords : Memory → Nat → List Word → Memory
  | m, _, [] => m
  | m, pa, w :: ws => storeWords (Memory.writeWord m pa w) (pa + 4) ws

/-- Channel `c` with P1's arena, the block in it, its engine about to load it and next to step. -/
def placeBlock (c : Chan) (b : ControlBlock) (s : State) : State :=
  let s := s.setChan c { layoutOf s.board c 4000 4 0 [examplePage] with initialized := true }
  let s := s.setEng c { s.eng c with
    cs := { (s.eng c).cs with active := true }, conblkAd := exampleAddress b.next, phase := .fetch,
    foreign := false }
  { s with mem := storeWords s.mem (physicalOf s.board (exampleAddress b.next)) b.toWords, agenda := [.engine c] }

/-- The call stream holds the instruction, the windows it goes through are mapped, and the host is next. -/
def placeCall (i : Instr) (s : State) : State :=
  { (if needsWindows i then markMapped s else s) with program := encode s.board i, agenda := [] }

/-- The control block of an engine's instruction. -/
def blockOf (b : Board) : Instr → Option (Chan × ControlBlock)
  | .cba c src dst next => some (c, cbaWords b src dst next)
  | .cbb c src next => some (c, cbbWords b src next)
  | .cbx c raw => some (c, raw)
  | .dmaReset _ | .dmaClrdbg _ | .dmaSetcb _ _ | .dmaStart _ => none
  | .pwmOff | .clkSrc | .clkDiv | .clkOn | .pwmRng _ | .pwmDmac | .pwmClrf | .pwmOn => none
  | .gpioFselOut _ | .gpioSet _ | .gpioClr _ | .gpioFselRd _ | .settle _ => none
  | .initEngine _ | .initChannel _ _ | .addChannelPulse _ _ _ _ | .setChannelPercent _ _ _ => none
  | .clearChannelGpio _ _ | .map _ _ | .allocate _ | .compile _ | .configureGlobalClock _ | .claim _ => none

/-- Put a decoded instruction where the next step fetches it. -/
def placeInstr (i : Instr) (s : State) : State :=
  match blockOf s.board i with
  | some (c, b) => placeBlock c b s
  | none => placeCall i s

end Sys2Proof.Machine
end

