-- ==== Sys2Proof/Machine/Step.lean ====
section
/-!
DEFINITION. One step of the machine: the agent whose turn it is by the agenda steps (R10, log 4). An engine executes the
control block it is at; the host executes the next instruction of its call stream.
-/

namespace Sys2Proof.Machine

/-- The turn of the host's main thread. -/
def hostStep (s : State) : Outcome :=
  match fetchCall s.board s.program with
  | .idle => .next s
  | .call i rest => exec i { s with program := rest }
  | .bad e => .refused (.undecodable e)

/-- Engine `c`'s turn (R130). -/
def engineStep (c : Chan) (s : State) : Outcome :=
  if (s.eng c).runs then
    match currentBlock c s with
    | .error r => .refused r
    | .ok b => exec (b.toInstr c) s
  else .next s

/-- One step: the turn at the head of the agenda, the host's when there is none. -/
def step (s : State) : Host.Outcome State Fault Refusal :=
  match s.agenda with
  | [] => hostStep s
  | .host :: rest => hostStep { s with agenda := rest }
  | .engine c :: rest => engineStep c { s with agenda := rest }
  | .pacer :: rest => paceTurn { s with agenda := rest }
  | .thread k :: rest => threadTurn [] k { s with agenda := rest }
  | .land :: rest => landOldest { s with agenda := rest }
  | .foreign c a v :: rest => foreignWrite c a v { s with agenda := rest }
  | .env e :: rest => .next { s with agenda := rest, env := e }

/-- `s` with the opcode table's word stored where `step` fetches its next instruction (log 26). -/
def State.withFetchWord (s : State) (nbits w : Nat) : State :=
  match decodeTableWord nbits w with
  | some i => placeInstr i s
  | none => { s with program := wordsOf 12 w, agenda := [] }

end Sys2Proof.Machine
end

