-- ==== Sys2Proof/WellFormed.lean ====
section
/-!
DEFINITION. Which instructions have an encoding: the operand ranges and alignments of the formats (R76, R101 to R107).
Arguments of host operations are integers of any size (R8), so a call is always well formed.
-/

namespace Sys2Proof

/-- The register maps tell the commands apart: registers at multiples of 4 inside their windows (R76, R79, R106), no two of
a window at one offset, no two values of a register the same, the function-select fields apart and inside their
registers, pins 0..31 in `FSEL[0]` to `FSEL[3]` (R33). The value that enables the PWM sets the bits it is named for (R171). -/
structure RegistersOk (b : Board) : Prop where
  short : ∀ len ∈ [b.dmaLen, b.pwmLen, b.clkLen, b.gpioLen], len ≤ 2 ^ 16
  dma : ∀ off ∈ [b.regs.dmaCs, b.regs.dmaConblk, b.regs.dmaDebug], off % 4 = 0 ∧ off + 4 ≤ b.dmaLen
  pwm : ∀ off ∈ [b.regs.pwmCtl, b.regs.pwmDmac, b.regs.pwmRng1, b.regs.pwmFif1], off % 4 = 0 ∧ off + 4 ≤ b.pwmLen
  clk : ∀ off ∈ [b.regs.clkCntl, b.regs.clkDiv], off % 4 = 0 ∧ off + 4 ≤ b.clkLen
  gpio : ∀ off ∈ [b.regs.gpioFsel, b.regs.gpioFsel + 20, b.regs.gpioSet0, b.regs.gpioClr0],
    off % 4 = 0 ∧ off + 4 ≤ b.gpioLen
  dmaApart : [b.regs.dmaCs, b.regs.dmaConblk, b.regs.dmaDebug].Nodup
  pwmApart : [b.regs.pwmCtl, b.regs.pwmDmac, b.regs.pwmRng1, b.regs.pwmFif1].Nodup
  clkApart : b.regs.clkCntl ≠ b.regs.clkDiv
  gpioApart : b.regs.gpioSet0 ≠ b.regs.gpioClr0
  dmaValues : b.regs.dmaReset ≠ b.regs.dmaStart
  pwmValues : [b.regs.pwmOff, b.regs.pwmClrf, b.regs.pwmOn].Nodup
  clkValues : b.regs.clkStopped ≠ b.regs.clkRunning
  infos : b.regs.infoCba ≠ b.regs.infoCbb
  enabled : b.regs.pwmOn.getLsbD b.regs.pwen1 = true ∧ b.regs.pwmOn.getLsbD b.regs.usef1 = true
  fields : 0 < b.regs.fselBits ∧ b.regs.fselBits * b.regs.fselPins ≤ 32 ∧ 8 ≤ b.regs.fselPins
  output : 0 < b.regs.fselOutput ∧ b.regs.fselOutput < 2 ^ b.regs.fselBits

/-- The instruction can be written in its format. -/
def WellFormed (b : Board) : Instr → Prop
  | .cba _ src _ next => src.toNat % 4 = 0 ∧ next.toNat % b.cbAlign = 0
  | .cbb _ src next => src.toNat % 4 = 0 ∧ next.toNat % b.cbAlign = 0
  | .cbx _ raw => recognise b raw = .formX raw
  | .dmaReset _ | .dmaClrdbg _ | .dmaStart _ => True
  | .dmaSetcb _ a => a.toNat % b.cbAlign = 0
  | .pwmOff | .clkSrc | .clkDiv | .clkOn | .pwmRng _ | .pwmDmac | .pwmClrf | .pwmOn => True
  | .gpioFselOut _ | .gpioSet _ | .gpioClr _ | .gpioFselRd _ => True
  | .settle us => us < 2 ^ 32
  | .initEngine _ | .initChannel _ _ | .addChannelPulse _ _ _ _ | .setChannelPercent _ _ _ => True
  | .clearChannelGpio _ _ | .map _ _ | .allocate _ | .compile _ | .configureGlobalClock _ | .claim _ => True

end Sys2Proof
end

