-- ==== Sys2Proof/Safety.lean ====
section
/-!
DEFINITION. What the claims about runs are stated in: the well-formedness of a state, the soundness of a channel's arena,
the reading of the tables, and the levels the trace accounts for.
-/

namespace Sys2Proof.Machine

/-! ## Reading the tables (R9, R41, R42) -/

/-- The word at arena byte offset `off` of channel record `ch`, read from memory. -/
def arenaWordOf (s : State) (ch : ChanRec) (off : Nat) : Option Word :=
  (phys s.board ch off).map fun a => Memory.readWord s.mem (physicalOf s.board a)

/-- `sample[c][i]`. -/
def sampleWord (s : State) (c : Chan) (i : Nat) : Option Word := arenaWordOf s (s.chan c) (sampleOffset i)

/-- `cb[c][k].dst`. -/
def dstWord (s : State) (c : Chan) (k : Nat) : Option Word := arenaWordOf s (s.chan c) (dstOffset s.board (s.chan c) k)

/-- The byte addresses of the arena word at byte offset `off` of channel record `ch`. -/
def inArenaWord (b : Board) (ch : ChanRec) (off a : Nat) : Prop :=
  ∃ w, phys b ch off = some w ∧ physicalOf b w ≤ a ∧ a < physicalOf b w + 4

/-! ## Sound boards (R6, R73, R74, R139) -/

/-- What the rules take for granted of the parameters: control blocks fill pages without straddling (R74 "Because `CB_SIZE
= CB_ALIGN = 32` divides `PAGE_SIZE`"), a frame below the bus offset and the offset share no bit (R72), the three ports of
the engine are apart (R73), the register maps tell the commands apart, `1 ≤ DREQ_LEVEL ≤ FIFO_CAP` (R139). The spec's own
values have it (`Board.default_ok`). -/
structure BoardOk (b : Board) : Prop where
  block : 32 ∣ b.cbSize
  positive : 0 < b.cbSize
  aligned : b.cbAlign = b.cbSize
  pages : b.cbSize ∣ pageSize b
  offset : ∃ k, b.pageShift ≤ k ∧ k ≤ 30 ∧ b.dmaBusOffset = 2 ^ k
  ports : b.fifo ≠ b.gpSet ∧ b.fifo ≠ b.gpClr
  registers : RegistersOk b
  level : 1 ≤ b.dreqLevel ∧ b.dreqLevel ≤ b.fifoCap

/-! ## Soundness of arenas (R43, R71, R74, R86) -/

/-- A page of an arena: page-aligned and in the DMA view of memory (R43, R72). -/
def pageOk (b : Board) (page : Word) : Prop := page.toNat % pageSize b = 0 ∧ inBusMemory b page = true

/-- The channel's arena is laid out as R74 and R110 say over distinct pages (R43, R72). -/
structure ArenaOk (b : Board) (ch : ChanRec) : Prop where
  board : BoardOk b
  pages : ∀ page ∈ ch.pageMap, pageOk b page
  distinct : ch.pageMap.Nodup
  width : ch.maxWidth = ch.sampleCount
  blocks : ch.controlBlockCount = 2 * ch.sampleCount
  nonempty : 1 ≤ ch.sampleCount
  offset : ch.cbOffset = cbOffsetOf b ch.sampleCount
  count : ch.pageCount = pageCountOf b ch.sampleCount
  length : ch.pageMap.length = ch.pageCount

/-- The page is in the page map of some channel. -/
def PageTaken (s : State) (page : Word) : Prop := ∃ c, page ∈ (s.chan c).pageMap

/-- The board is sound, every arena is, every initialized channel has one, and no page belongs to two channels (R43, R72,
R86, R273). -/
structure ArenasOk (s : State) : Prop where
  board : BoardOk s.board
  each : ∀ c, (s.chan c).pageMap ≠ [] → ArenaOk s.board (s.chan c)
  present : ∀ c, (s.chan c).initialized = true → (s.chan c).pageMap ≠ []
  apart : ∀ c d, c ≠ d → ∀ page ∈ (s.chan c).pageMap, page ∉ (s.chan d).pageMap

/-! ## The compiled chain (R42, R103, R104, R206) -/

/-- The words of the control block at arena byte offset `off`. -/
def blockAt (s : State) (ch : ChanRec) (off : Nat) : Option ControlBlock :=
  match arenaWordOf s ch off, arenaWordOf s ch (off + 4), arenaWordOf s ch (off + 8), arenaWordOf s ch (off + 12),
      arenaWordOf s ch (off + 16), arenaWordOf s ch (off + 20) with
  | some info, some src, some dst, some length, some stride, some next =>
    some { info, src, dst, length, stride, next }
  | _, _, _, _, _, _ => none

/-- Slot `i`'s two blocks stand in memory: the CBA with the destination `reg`, and the CBB, each with its source and the
next block of the chain (R103, R104, R137). -/
structure SlotBlocks (s : State) (ch : ChanRec) (i : Nat) (reg : GpioReg) : Prop where
  formA : ∃ src next, phys s.board ch (sampleOffset i) = some src ∧
    blockAddress s.board ch (2 * i + 1) = some next ∧
    blockAt s ch (blockOffset s.board ch (2 * i)) = some (cbaWords s.board src reg next)
  formB : ∃ src next, phys s.board ch (sampleOffset 0) = some src ∧
    blockAddress s.board ch ((2 * i + 2) % (2 * ch.sampleCount)) = some next ∧
    blockAt s ch (blockOffset s.board ch (2 * i + 1)) = some (cbbWords s.board src next)

/-- Every slot's pair stands in memory as `compile` writes it: every CBA clears (R42, R206). -/
def ChainCompiled (s : State) (ch : ChanRec) : Prop := ∀ i, i < ch.sampleCount → SlotBlocks s ch i .clr0

/-! ## What the operations leave behind, with nothing else stepping meanwhile (R160 to R163, R203, R206, R230 to R233) -/

/-- An engine right after the start sequence: its chain's head to be loaded, the flags clear, mid priority (R207). -/
def startedEngine (b : Board) (head data : Word) : DmaEngine :=
  { cs := { active := true, endFlag := false, int := false, priority := b.regs.midPriority,
            panicPriority := b.regs.midPriority, waitForOutstandingWrites := true, disdebug := false }
    conblkAd := head, ti := 0, sourceAd := 0, destAd := 0, txfrLen := 0, stride := 0, nextconbk := 0
    debug := 0, phase := .fetch, data := data, foreign := false }

/-- The register writes of the start sequence, in order (R207). -/
def startEvents (b : Board) (c : Chan) (head : Word) : List Event :=
  [.regWrite (.dma c) b.regs.dmaCs b.regs.dmaReset, .regWrite (.dma c) b.regs.dmaDebug b.regs.dmaClrdbg,
   .regWrite (.dma c) b.regs.dmaConblk head, .regWrite (.dma c) b.regs.dmaCs b.regs.dmaStart]

/-- The engine has no write under way that a reset could still let happen (R160). -/
def noWriteInFlight (e : DmaEngine) : Prop := e.runs = false ∨ e.phase ≠ .write

/-- `w` has pin `p` an output and every other pin of its function-select register as `old` has it; the bits that are no
pin's are left open, since they read as any value (R33, R111, R114). -/
def SelectsOutput (b : Board) (p : Pin) (old w : Word) : Prop :=
  ∀ bit, bit < b.regs.fselBits * b.regs.fselPins → w.getLsbD bit =
    if bit / b.regs.fselBits = p.val % b.regs.fselPins then b.regs.fselOutput.testBit (bit % b.regs.fselBits)
    else old.getLsbD bit

/-- The state after pin `p` is claimed, `w` being the function-select word written (R230). -/
def claimedState (p : Pin) (w : Word) (s : State) : State :=
  { s with
    gpio := { fsel := s.gpio.fsel.set (fselOf s.board p).val w (fselOf s.board p).isLt
              out := s.gpio.out &&& ~~~(pinBit p.val) }
    host := { s.host with gpioSetup := s.host.gpioSetup ||| pinBit p.val }
    trace := s.trace ++
      [.regWrite .gpio (s.board.regs.gpioFsel + 4 * (p.val / s.board.regs.fselPins)) w,
       .gpioWrite .host .clr0 (pinBit p.val)]
    draws := s.draws + 1 }

/-- `u` is `s` with pin `p` claimed if it was not (R231 step 6). -/
def AfterClaim (s u : State) (p : Pin) : Prop :=
  (claimed s p = true ∧ u = s) ∨
  (claimed s p = false ∧
    ∃ w, SelectsOutput s.board p (s.gpio.fsel.get (fselOf s.board p)) w ∧ u = claimedState p w s)

/-- Channel `c`'s tables after a pulse of pin `p` from slot `start` for `width` slots: the pin's bit set at the start,
cleared behind it up to the end slot; the start slot sets, the end slot clears, a pulse of width 0 ends where it starts;
every other byte of memory as before (R231, R234). -/
structure PulseTables (s t : State) (c : Chan) (p : Pin) (start width : Nat) : Prop where
  samples : ∀ i w, i < (s.chan c).sampleCount → sampleWord s c i = some w → sampleWord t c i = some
    (if i = start ∧ width ≠ 0 then w ||| pinBit p.val
     else if start ≤ i ∧ i ≤ start + width then w &&& ~~~(pinBit p.val) else w)
  startSlot : width ≠ 0 → dstWord t c (2 * start) = some s.board.gpSet
  endSlot : start + width < (s.chan c).sampleCount → dstWord t c (2 * (start + width)) = some s.board.gpClr
  frame : ∀ a, (∀ i, start ≤ i → i ≤ start + width → i < (s.chan c).sampleCount →
        ¬ inArenaWord s.board (s.chan c) (sampleOffset i) a) →
      ¬ inArenaWord s.board (s.chan c) (dstOffset s.board (s.chan c) (2 * start)) a →
      (start + width < (s.chan c).sampleCount →
        ¬ inArenaWord s.board (s.chan c) (dstOffset s.board (s.chan c) (2 * (start + width))) a) →
    Memory.read t.mem a = Memory.read s.mem a

/-- A pulse operation's whole effect: the pin claimed if it was not, the tables written, `ok` returned (R231). -/
structure PulseApplied (s t : State) (c : Chan) (p : Pin) (start width : Nat) : Prop where
  tables : PulseTables s t c p start width
  rest : ∃ u, AfterClaim s u p ∧ t = { u with mem := t.mem, host := { u.host with result := .ok } }

/-- `clearGpio`'s whole effect: the pin's bit plane cleared, every other byte of memory as before, the pin driven low
once, `ok` returned (R233). -/
structure PlaneCleared (s t : State) (c : Chan) (p : Pin) : Prop where
  samples : ∀ i w, i < (s.chan c).sampleCount → sampleWord s c i = some w →
    sampleWord t c i = some (w &&& ~~~(pinBit p.val))
  frame : ∀ a, (∀ i, i < (s.chan c).sampleCount → ¬ inArenaWord s.board (s.chan c) (sampleOffset i) a) →
    Memory.read t.mem a = Memory.read s.mem a
  rest : t = { s with
    mem := t.mem
    gpio := { s.gpio with out := s.gpio.out &&& ~~~(pinBit p.val) }
    host := { s.host with result := .ok }
    trace := s.trace ++ [.gpioWrite .host .clr0 (pinBit p.val)] }

/-- The main thread runs a call alone: nobody else has a turn between its accesses, its writes land at once, and no other
thread's call in progress holds what it locks (R80, R83). -/
structure Quiet (locks : List Resource) (s : State) : Prop where
  agenda : s.agenda = []
  direct : s.board.visibility = .sc
  free : mayBegin [] locks s = true

/-- The locks `addPulse` and `setPercent` take: the channel, and the claims' where the pin is not claimed (R231, R240). -/
def pulseLocks (s : State) (c : Chan) (p : Pin) : List Resource :=
  if claimed s p then [.channel c] else [.channel c, .functionSelects]

/-- The export gives the pages of a new arena, in order: each resolves, no two are the same, none belongs to a channel and
none overlaps a register window (R72). -/
structure PagesResolve (s : State) (pages : List Word) : Prop where
  resolved : ∀ j page, pages[j]? = some page →
    resolveFrame s.board s.env (virtualPage s.board s.env.virtBase j) = .page page
  distinct : pages.Nodup
  free : ∀ page ∈ pages, ¬ PageTaken s page
  clear : ∀ page ∈ pages, overlapsWindow s.board page = false

/-- The physical byte address lies in one of the pages. -/
def inPages (b : Board) (pages : List Word) (a : Nat) : Prop :=
  ∃ page ∈ pages, physicalOf b page ≤ a ∧ a < physicalOf b page + pageSize b

/-- What the host's accesses can read or write, and the engines and the pacer cannot change: two states that agree here
differ only in the engines, the FIFO, the latch, the trace, the agenda and the environment. -/
structure HostAgrees (s t : State) : Prop where
  mem : t.mem = s.mem
  host : t.host = s.host
  clk : t.clk = s.clk
  fsel : t.gpio.fsel = s.gpio.fsel
  ctl : t.pwm.ctl = s.pwm.ctl
  dmac : t.pwm.dmac = s.pwm.dmac
  rng1 : t.pwm.rng1 = s.pwm.rng1
  program : t.program = s.program
  board : t.board = s.board
  landing : t.landing = s.landing
  threads : t.threads = s.threads
  draws : t.draws = s.draws

/-- The operation asks the environment after it has begun (R201, R203, R205). -/
def asksEnvironment : Instr → Bool
  | .initEngine _ | .initChannel _ _ | .allocate _ => true
  | .cba _ _ _ _ | .cbb _ _ _ | .cbx _ _ => false
  | .dmaReset _ | .dmaClrdbg _ | .dmaSetcb _ _ | .dmaStart _ => false
  | .pwmOff | .clkSrc | .clkDiv | .clkOn | .pwmRng _ | .pwmDmac | .pwmClrf | .pwmOn => false
  | .gpioFselOut _ | .gpioSet _ | .gpioClr _ | .gpioFselRd _ | .settle _ => false
  | .addChannelPulse _ _ _ _ | .setChannelPercent _ _ _ | .clearChannelGpio _ _ | .map _ _ => false
  | .compile _ | .configureGlobalClock _ | .claim _ => false

/-- A turn of an engine, the pacer or the main thread; or, where the operation asks it nothing, of the environment. -/
def sparesHost (asks : Bool) : Turn → Prop
  | .engine _ | .pacer | .host => True
  | .env _ => asks = false
  | .thread _ | .land | .foreign _ _ _ => False

/-- An access to the tables of channel `c` (R41, R42, R231, R233, R206). -/
def tableAccess (c : Chan) : Action → Prop
  | .readSample d _ | .setSample d _ _ | .clearSample d _ _ | .retarget d _ _ | .writeField d _ _ => d = c
  | .write _ | .readSelect _ | .writeSelect _ | .readRegister _ | .recordClaim _ => False
  | .mapWindow _ | .recordWindows | .makeRegion => False
  | .touchPage _ | .resolvePage _ | .recordArena _ _ _ | .handArena => False
  | .setHead _ | .recordClock _ | .recordChannel _ => False

/-! ## Laps (R137) -/

/-- The turns of one slot: six steps of the engine, two blocks' worth, and a pace tick. -/
def slotTurns (c : Chan) : List Turn :=
  [.engine c, .engine c, .engine c, .engine c, .engine c, .engine c, .pacer]

/-- The turns of `n` slots. -/
def lapTurns (c : Chan) (n : Nat) : List Turn := (List.replicate n (slotTurns c)).flatten

/-- The trace of `n` slots from slot `i` on: each a GPIO write of the slot's sample to the slot's register, a FIFO write
and a pace tick. -/
def lapEvents (c : Chan) (regs : Nat → GpioReg) (samples : Nat → Word) : Nat → Nat → List Event
  | 0, _ => []
  | n + 1, i =>
    .gpioWrite (.dma c) (regs i) (samples i) :: .fifoWrite c :: .paceTick :: lapEvents c regs samples n (i + 1)

/-! ## The invariant of the state -/

/-- An engine is idle exactly when it is not active (R45). -/
def phaseOk (e : DmaEngine) : Prop := e.phase = .idle ↔ e.cs.active = false

/-- What every step keeps: memory in canonical form (log 2), every engine's phase in agreement with ACTIVE (R45), and no
more words in the FIFO than it holds (R44, R140), where the board's levels are sound (R139). -/
structure StateOk (s : State) : Prop where
  level : s.board.dreqLevel ≤ s.board.fifoCap
  memory : Memory.wf s.mem = true
  phases : ∀ c, phaseOk (s.eng c)
  fifo : s.pwm.fifoLevel ≤ s.board.fifoCap

/-- The FIFO is at or below the request level, and every engine is this process's (R140, R314). -/
structure Paced (s : State) : Prop where
  own : ∀ c, (s.eng c).foreign = false
  fifo : s.pwm.fifoLevel ≤ s.board.dreqLevel

/-! ## What the trace says of the latch (R11, R46) -/

/-- The output latch after an event. -/
def latchAfterEvent (out : Word) : Event → Word
  | .gpioWrite _ reg m => latchAfter reg out m
  | .fifoWrite _ => out
  | .paceTick => out
  | .regWrite _ _ _ => out

/-- The output latch after a run of events: pin levels are a function of the trace and the initial latch (R46). -/
def replay (out : Word) (events : List Event) : Word := events.foldl latchAfterEvent out

/-- `t` has the trace of `s`, grown by events that account for its latch. -/
def Accounted (s t : State) : Prop := ∃ events, t.trace = s.trace ++ events ∧ t.gpio.out = replay s.gpio.out events

end Sys2Proof.Machine
end

