-- ==== Sys2Proof/Certificates/Slice0/Obligations.lean ====
section
/-!
DEFINITION. The statements for the provers. `Quiet` in a statement about a host operation says that the main thread runs it
alone: nobody else steps between its accesses, its writes land at once, no thread holds its locks.
`ConcurrentTurnsLeaveHostWritesAlone` carries what the host writes to agendas of engines and pacer,
`BufferedWritesEndWhereDirectOnesDo` to writes that land late, `ThreadCallsDoWhatHostCallsDo` to the host's other threads.
-/

section
open Sys2Proof Sys2Proof.Machine

/-! ## Decoding and encoding -/

/-- Decoding an encoded instruction gives it back, whatever follows it, on every board whose register maps tell its
commands apart (R101 to R107; the call stream's layout is the model's, log 6). -/
def Obligations.EncodeThenDecodeReturnsTheInstruction : Prop :=
  ∀ (b : Board) (i : Instr) (rest : List Word), RegistersOk b → WellFormed b i →
    decode b i.decoder (encode b i ++ rest) = .ok (i, rest)

/-- What decodes, on a board whose register maps tell its commands apart, is well formed and is what its encoder writes:
every bit of a control block's words is told apart but the two pad words, which the engine ignores (R101), and every bit of
a host instruction's words. The host's half rests on the call stream's layout, which is the model's own (log 6). -/
def Obligations.DecodedWordsHaveOneMeaning : Prop :=
  ∀ b : Board, RegistersOk b →
    (∀ (ws rest : List Word) (i : Instr), decode b .host ws = .ok (i, rest) →
      WellFormed b i ∧ i.decoder = .host ∧ ws = encode b i ++ rest) ∧
    (∀ (c : Chan) (ws rest : List Word) (i : Instr), decode b (.engine c) ws = .ok (i, rest) →
      WellFormed b i ∧ i.decoder = .engine c ∧ ∃ pad0 pad1, ws = (encode b i).take 6 ++ [pad0, pad1] ++ rest)

/-- A block is recognised as a CBA or CBB exactly when its words are that form's, aligned; what is not is kept whole. On the
spec's board the `info` bits 20:16 and 6 are those the table tells the forms by, and the `info` words and the ports are the
spec's (R76, R103, R104, R108, R113). -/
def Obligations.ControlBlockFormsAreExact : Prop :=
  (∀ (b : Board) (blk : ControlBlock), RegistersOk b →
    (∀ src dst next, recognise b blk = .formA src dst next ↔
      blk = { info := b.regs.infoCba, src, dst := (match dst with | .set0 => b.gpSet | .clr0 => b.gpClr),
              length := 4, stride := 0, next } ∧ src.toNat % 4 = 0 ∧ next.toNat % b.cbAlign = 0) ∧
    (∀ src next, recognise b blk = .formB src next ↔
      blk = { info := b.regs.infoCbb, src, dst := b.fifo, length := 4, stride := 0, next } ∧
        src.toNat % 4 = 0 ∧ next.toNat % b.cbAlign = 0) ∧
    (∀ raw, recognise b blk = .formX raw → raw = blk)) ∧
  (∀ blk : ControlBlock,
    (∀ src dst next, recognise Board.default blk = .formA src dst next → blk.info &&& 0x001F0040 = 0) ∧
    (∀ src next, recognise Board.default blk = .formB src next → blk.info &&& 0x001F0040 = 0x00050040)) ∧
  Board.default.regs.infoCba = 0x04000008 ∧ Board.default.regs.infoCbb = 0x04050048 ∧
  Board.default.gpSet = 0x7E20001C ∧ Board.default.gpClr = 0x7E200028 ∧ Board.default.fifo = 0x7E20C018 ∧
  Board.default.cbAlign = 32

/-- Words written out from the spec's tables decode to the instructions they stand for (R79, R101 to R107). The order of the
words of the host's five, the value and then the register, the selector and then a zero word, and the digits of an argument
are the model's choice (log 6). -/
def Obligations.HandWrittenWordsDecode : Prop :=
  decode Board.default (.engine 0) [0x04000008, 0x52345004, 0x7E200028, 4, 0, 0x52345080, 0, 0] =
    .ok (.cba 0 0x52345004 .clr0 0x52345080, []) ∧
  decode Board.default (.engine 0) [0x04050048, 0x52345000, 0x7E20C018, 4, 0, 0x52345020, 0, 0] =
    .ok (.cbb 0 0x52345000 0x52345020, []) ∧
  decode Board.default .host [0x10880001, 0x001E0000] = .ok (.dmaStart 14, []) ∧
  decode Board.default .host [0x00000021, 0x00010000] = .ok (.pwmOn, []) ∧
  decode Board.default .host [0x5A032000, 0x000200A4] = .ok (.clkDiv, []) ∧
  decode Board.default .host [0x00040000, 0x00030028] = .ok (.gpioClr 0x00040000, []) ∧
  decode Board.default .host [3, 0, 0, 36, 100] = .ok (.setChannelPercent 0 18 50, [])

/-! ## A step runs the decoded instruction -/

/-- When the host is next, a step is the instruction its call stream decodes to, on the state with that instruction taken
off the stream and the host's turn taken off the agenda (R100, R107; log 4, log 6). -/
def Obligations.StepRunsTheHostCall : Prop :=
  ∀ (s : State) (i : Instr) (rest : List Word), decode s.board .host s.program = .ok (i, rest) →
    (s.agenda = [] → step s = exec i { s with program := rest }) ∧
    (∀ turns, s.agenda = .host :: turns → step s = exec i { s with program := rest, agenda := turns })

/-- When a running engine is next, a step is the control block it is at, on the state with the turn taken off the agenda:
while it fetches, the block its eight words in memory decode to, at address 0 the null block (the model's choice, R131 has
no block there, log 12); afterwards the block its working registers hold (R45, R84, R130, R131). -/
def Obligations.StepRunsTheControlBlock : Prop :=
  ∀ (s : State) (c : Chan) (turns : List Turn), s.agenda = .engine c :: turns → (s.eng c).runs = true →
    ((s.eng c).phase = .fetch → (s.eng c).conblkAd ≠ 0 → ∀ i pad0 pad1,
      (∀ k, k < 6 → busReadable s ((s.eng c).conblkAd + BitVec.ofNat 32 (4 * k)) = true) →
      decode s.board (.engine c) ((List.range 6).map
        (fun k => busWord s ((s.eng c).conblkAd + BitVec.ofNat 32 (4 * k))) ++ [pad0, pad1]) = .ok (i, []) →
      step s = exec i { s with agenda := turns }) ∧
    ((s.eng c).phase = .fetch → (s.eng c).conblkAd = 0 →
      step s = exec (.cbx c nullBlock) { s with agenda := turns }) ∧
    ((s.eng c).phase ≠ .fetch → ∀ i pad0 pad1,
      decode s.board (.engine c) [(s.eng c).ti, (s.eng c).sourceAd, (s.eng c).destAd, (s.eng c).txfrLen,
        (s.eng c).stride, (s.eng c).nextconbk, pad0, pad1] = .ok (i, []) →
      step s = exec i { s with agenda := turns })

/-! ## The engine -/

/-- An engine that is not active has no step: its turn changes nothing (R130; that a turn without a step is a next state is
the model's choice, log 4, log 15; an engine an earlier process left running executes no block of this one, log 37). -/
def Obligations.InactiveEngineHasNoStep : Prop :=
  ∀ (s : State) (c : Chan) (turns : List Turn), s.agenda = .engine c :: turns →
    ((s.eng c).cs.active = false ∨ (s.eng c).foreign = true) →
    step s = .next { s with agenda := turns } ∧
    (∀ src dst next, exec (.cba c src dst next) s = .next s) ∧
    (∀ src next, exec (.cbb c src next) s = .next s) ∧
    (∀ raw, exec (.cbx c raw) s = .next s)

/-- FETCH: the block of a slot, exactly as its place in the chain asks, is copied into the working registers and nothing
else changes; every other CBA or CBB is refused. A last block's `next` wraps to the head; a `next` of 0 is taken too,
the model's reading (R103, R104, R113, R131, R134; log 13). -/
def Obligations.FetchLoadsExactlyTheChainsBlocks : Prop :=
  ∀ (s : State) (c : Chan), ArenaOk s.board (s.chan c) → (s.eng c).runs = true → (s.eng c).phase = .fetch →
    (∀ src dst next,
      ((∃ i, i < (s.chan c).sampleCount ∧ blockAddress s.board (s.chan c) (2 * i) = some (s.eng c).conblkAd ∧
          phys s.board (s.chan c) (4 * i) = some src ∧
          (next = 0 ∨ blockAddress s.board (s.chan c) (2 * i + 1) = some next)) →
        exec (.cba c src dst next) s = .next (s.setEng c { s.eng c with
          ti := s.board.regs.infoCba, sourceAd := src
          destAd := (match dst with | .set0 => s.board.gpSet | .clr0 => s.board.gpClr)
          txfrLen := 4, stride := 0, nextconbk := next, phase := .exec })) ∧
      ((¬ ∃ i, i < (s.chan c).sampleCount ∧ blockAddress s.board (s.chan c) (2 * i) = some (s.eng c).conblkAd ∧
          phys s.board (s.chan c) (4 * i) = some src ∧
          (next = 0 ∨ blockAddress s.board (s.chan c) (2 * i + 1) = some next)) →
        exec (.cba c src dst next) s = .refused (.notAdmitted c))) ∧
    (∀ src next,
      ((∃ i, i < (s.chan c).sampleCount ∧ blockAddress s.board (s.chan c) (2 * i + 1) = some (s.eng c).conblkAd ∧
          phys s.board (s.chan c) 0 = some src ∧
          (next = 0 ∨
            blockAddress s.board (s.chan c) ((2 * i + 2) % (2 * (s.chan c).sampleCount)) = some next)) →
        exec (.cbb c src next) s = .next (s.setEng c { s.eng c with
          ti := s.board.regs.infoCbb, sourceAd := src, destAd := s.board.fifo,
          txfrLen := 4, stride := 0, nextconbk := next, phase := .exec })) ∧
      ((¬ ∃ i, i < (s.chan c).sampleCount ∧ blockAddress s.board (s.chan c) (2 * i + 1) = some (s.eng c).conblkAd ∧
          phys s.board (s.chan c) 0 = some src ∧
          (next = 0 ∨
            blockAddress s.board (s.chan c) ((2 * i + 2) % (2 * (s.chan c).sampleCount)) = some next)) →
        exec (.cbb c src next) s = .refused (.notAdmitted c)))

/-- A block of neither form is refused at the load; the engine's step refuses it too (R113, R134). -/
def Obligations.OtherBlocksAreRefused : Prop :=
  ∀ (s : State) (c : Chan) (turns : List Turn), s.agenda = .engine c :: turns → (s.eng c).runs = true →
    (s.eng c).phase = .fetch → (s.eng c).conblkAd ≠ 0 →
    (∀ raw, exec (.cbx c raw) s = .refused (.notAdmitted c)) ∧
    (∀ blk, loadBlock s (s.eng c).conblkAd = some blk → recognise s.board blk = .formX blk →
      step s = .refused (.notAdmitted c))

/-- A load at address 0 stops the engine: ACTIVE cleared, END set, phase IDLE, nothing else changed; and from then on its
turns change nothing (R136, the spec's own decision; the instruction with no block there is the model's CBX, log 12). -/
def Obligations.ZeroNextStopsTheEngine : Prop :=
  ∀ (s : State) (c : Chan) (raw : ControlBlock) (turns : List Turn), (s.eng c).runs = true →
    (s.eng c).phase = .fetch → (s.eng c).conblkAd = 0 →
    exec (.cbx c raw) s = .next (s.setEng c { s.eng c with
      cs := { (s.eng c).cs with active := false, endFlag := true }, phase := .idle }) ∧
    (s.agenda = .engine c :: .engine c :: turns →
      Host.Core.run Sys2Proof.core 2 s = .next (State.setEng { s with agenda := turns } c { s.eng c with
        cs := { (s.eng c).cs with active := false, endFlag := true }, phase := .idle }))

/-- EXEC, of a CBA or a CBB: the word at the source is read into the data latch, little-endian, and nothing else changes
(R45, R73, R132, R133). -/
def Obligations.ExecReadsTheSourceWord : Prop :=
  ∀ (s : State) (c : Chan) (off : Nat) (src : Word), ArenaOk s.board (s.chan c) →
    phys s.board (s.chan c) off = some src → off % 4 = 0 → (s.eng c).runs = true → (s.eng c).phase = .exec →
    (∀ dst next, exec (.cba c src dst next) s = .next (s.setEng c { s.eng c with
      data := Memory.readWord s.mem (src.toNat - s.board.dmaBusOffset), phase := .write })) ∧
    (∀ next, exec (.cbb c src next) s = .next (s.setEng c { s.eng c with
      data := Memory.readWord s.mem (src.toNat - s.board.dmaBusOffset), phase := .write }))

/-- WRITE of a CBA: the latched word sets or clears the output latch by the register the block names, the write enters the
trace, and the engine advances; nothing else changes (R34, R35, R132, R135). -/
def Obligations.CbaWritesTheLatch : Prop :=
  ∀ (s : State) (c : Chan) (src next : Word) (dst : GpioReg), BoardOk s.board → (s.eng c).runs = true →
    (s.eng c).phase = .write →
    exec (.cba c src dst next) s = .next (State.setEng { s with
      gpio := { s.gpio with out := (match dst with
        | .set0 => s.gpio.out ||| (s.eng c).data
        | .clr0 => s.gpio.out &&& ~~~(s.eng c).data) }
      trace := s.trace ++ [.gpioWrite (.dma c) dst (s.eng c).data] } c
        { s.eng c with conblkAd := next, phase := .fetch })

/-- WRITE of a CBB: with the request asserted (`pwm.DMAC.ENAB = 1` and the FIFO below `DREQ_LEVEL`) one word is pushed and
the engine advances; with it deasserted nothing changes (R44, R133, R135, R139, R140; that the turn of an engine that holds
is a next state is the model's choice, log 15). -/
def Obligations.CbbPushesOrHolds : Prop :=
  ∀ (s : State) (c : Chan) (src next : Word), BoardOk s.board → (s.eng c).runs = true → (s.eng c).phase = .write →
    (dmacEnab s = true ∧ s.pwm.fifoLevel < s.board.dreqLevel →
      exec (.cbb c src next) s = .next (State.setEng { s with
        pwm := { s.pwm with fifoLevel := s.pwm.fifoLevel + 1 }
        trace := s.trace ++ [.fifoWrite c] } c { s.eng c with conblkAd := next, phase := .fetch })) ∧
    (¬(dmacEnab s = true ∧ s.pwm.fifoLevel < s.board.dreqLevel) →
      exec (.cbb c src next) s = .next s)

/-- A pacer turn: a running pacer lowers a nonzero FIFO level by one and enters a tick in the trace; one that is not
running has no step (R44, R138; that its turn is then a next state with the turn taken off is the model's choice, log 4,
log 15). -/
def Obligations.PacerTicksExactlyWhenRunning : Prop :=
  ∀ (s : State) (turns : List Turn), s.agenda = .pacer :: turns →
    (pwen1 s = true ∧ usef1 s = true ∧ s.clk.enab = true →
      step s = .next { s with
        agenda := turns
        pwm := { s.pwm with fifoLevel := if s.pwm.fifoLevel > 0 then s.pwm.fifoLevel - 1 else 0 }
        trace := s.trace ++ [.paceTick] }) ∧
    (¬(pwen1 s = true ∧ usef1 s = true ∧ s.clk.enab = true) →
      step s = .next { s with agenda := turns })

/-- The DREQ hold and what lifts it: with the FIFO at the request level a CBB about to write waits; after one pace tick it
pushes, which takes the level back, and advances (R133, R138, R142, R148; that the waiting turn is a next state is the
model's choice, log 15). -/
def Obligations.PaceTickLiftsTheHold : Prop :=
  ∀ (s : State) (c : Chan) (src next : Word) (turns : List Turn), BoardOk s.board →
    s.agenda = .engine c :: .pacer :: .engine c :: turns → (s.eng c).runs = true → (s.eng c).phase = .write →
    recognise s.board (s.eng c).loaded = .formB src next → pacerRunning s = true → dmacEnab s = true →
    s.pwm.fifoLevel = s.board.dreqLevel →
    step s = .next { s with agenda := .pacer :: .engine c :: turns } ∧
    Host.Core.run Sys2Proof.core 3 s = .next (State.setEng { s with
      agenda := turns, trace := s.trace ++ [.paceTick, .fifoWrite c] } c
        { s.eng c with conblkAd := next, phase := .fetch })

/-- The pacer-dead hold is never lifted by engines and pacer: while the request is deasserted and either the pacer is not
running or the request signal is off, no turn of theirs asserts the request, starts the pacer or moves an engine that
waits to write a CBB (R133, R148). -/
def Obligations.DeadPacerNeverLiftsTheHold : Prop :=
  ∀ (s t : State) (turns : List Turn), (s.agenda = .pacer :: turns ∨ ∃ d, s.agenda = .engine d :: turns) →
    dreq s = false → (pacerRunning s && dmacEnab s) = false → step s = .next t →
    dreq t = false ∧ (pacerRunning t && dmacEnab t) = false ∧
    ∀ (c : Chan) (src next : Word), (s.eng c).phase = .write → recognise s.board (s.eng c).loaded = .formB src next →
      t.eng c = s.eng c

/-- The holds of an engine, by name: stopped exactly when `CS.ACTIVE = 0` with END set, as the stop leaves it; with a CBB
loaded and its write due, the DREQ hold while the request is deasserted and ticks may come, pacer dead when none can; in
any of them its turn changes nothing (R136, R148; that such a turn is a next state is the model's choice, log 15). -/
def Obligations.HoldsAreNamedAndChangeNothing : Prop :=
  ∀ (s : State) (c : Chan),
    (holdOf s c = some .stopped ↔ (s.eng c).cs.active = false ∧ (s.eng c).cs.endFlag = true) ∧
    (holdOf s c = some .dreqHold ↔ ((s.eng c).runs = true ∧ (s.eng c).phase = .write ∧
      ∃ src next, recognise s.board (s.eng c).loaded = .formB src next) ∧ dreq s = false ∧
        (pacerRunning s && dmacEnab s) = true) ∧
    (holdOf s c = some .pacerDead ↔ ((s.eng c).runs = true ∧ (s.eng c).phase = .write ∧
      ∃ src next, recognise s.board (s.eng c).loaded = .formB src next) ∧ dreq s = false ∧
        (pacerRunning s && dmacEnab s) = false) ∧
    (∀ turns, s.agenda = .engine c :: turns → holdOf s c ≠ none → step s = .next { s with agenda := turns })

/-- The engine writes no memory and no register but SET0, CLR0 and the FIFO, and none of another engine: after its step
memory, the host's context, the function selects, the PWM's and the clock's registers and every other engine are as
before, and the trace has grown by at most one write of its own (R25, R73, R146). -/
def Obligations.EngineStepsWriteNoMemory : Prop :=
  ∀ (s t : State) (c : Chan) (turns : List Turn), s.agenda = .engine c :: turns → step s = .next t →
    t.agenda = turns ∧ t.mem = s.mem ∧ t.host = s.host ∧ t.gpio.fsel = s.gpio.fsel ∧ t.clk = s.clk ∧
    t.pwm.ctl = s.pwm.ctl ∧ t.pwm.dmac = s.pwm.dmac ∧ t.pwm.rng1 = s.pwm.rng1 ∧ t.program = s.program ∧
    t.env = s.env ∧ t.draws = s.draws ∧ t.board = s.board ∧ t.landing = s.landing ∧ t.threads = s.threads ∧
    (∀ d, d ≠ c → t.eng d = s.eng d) ∧
    ((t.trace = s.trace ∧ t.gpio.out = s.gpio.out ∧ t.pwm.fifoLevel = s.pwm.fifoLevel) ∨
     (∃ reg, t.trace = s.trace ++ [.gpioWrite (.dma c) reg (s.eng c).data] ∧
        t.gpio.out = latchAfter reg s.gpio.out (s.eng c).data ∧ t.pwm.fifoLevel = s.pwm.fifoLevel) ∨
     (t.trace = s.trace ++ [.fifoWrite c] ∧ t.gpio.out = s.gpio.out ∧ t.pwm.fifoLevel = s.pwm.fifoLevel + 1))

/-- Once a block is loaded, the memory it was loaded from no longer matters to its write: the engine uses the destination
it loaded and the word it read, whatever the host has written since (R45, R84, R242). -/
def Obligations.LoadedWriteIgnoresMemory : Prop :=
  ∀ (s t : State) (c : Chan) (turns : List Turn) (m : Memory), s.agenda = .engine c :: turns →
    (s.eng c).phase = .write → step s = .next t → step { s with mem := m } = .next { t with mem := m }

/-- One slot's CBA, from its load to its write, on a sound arena whose chain stands in memory: three steps of the engine
write the slot's sample to the register its `dst` names. Every pin with its bit set in the sample goes to that register's
level, every other pin keeps its own, and the engine stands before the slot's CBB (R131, R132, R135, R144, R147). -/
def Obligations.SlotWritesItsSample : Prop :=
  ∀ (s : State) (c : Chan) (i : Nat) (reg : GpioReg) (sample : Word) (turns : List Turn),
    ArenaOk s.board (s.chan c) → i < (s.chan c).sampleCount → SlotBlocks s (s.chan c) i reg →
    sampleWord s c i = some sample → (s.eng c).runs = true → (s.eng c).phase = .fetch →
    blockAddress s.board (s.chan c) (2 * i) = some (s.eng c).conblkAd →
    s.agenda = .engine c :: .engine c :: .engine c :: turns →
    ∃ t, Host.Core.run Sys2Proof.core 3 s = .next t ∧
      (∀ p : Pin, t.gpio.out.getLsbD p.val =
        if sample.getLsbD p.val then decide (reg = .set0) else s.gpio.out.getLsbD p.val) ∧
      t.trace = s.trace ++ [.gpioWrite (.dma c) reg sample] ∧
      blockAddress s.board (s.chan c) (2 * i + 1) = some (t.eng c).conblkAd ∧ (t.eng c).phase = .fetch ∧
      (t.eng c).cs = (s.eng c).cs ∧ t.mem = s.mem ∧ t.host = s.host ∧ t.pwm = s.pwm ∧ t.agenda = turns

/-- One lap: from the head of a compiled chain, with a running pacer and a place in the FIFO, six engine steps and a tick a
slot write the whole sample table in order, each word to its slot's register, with a FIFO write after each; the engine is
back at the head and nothing but the latch and the trace has changed outside it (R81, R135, R137, R147). -/
def Obligations.LapReplaysTheTables : Prop :=
  ∀ (s : State) (c : Chan) (regs : Nat → GpioReg) (samples : Nat → Word) (turns : List Turn),
    ArenaOk s.board (s.chan c) →
    (∀ i, i < (s.chan c).sampleCount →
      SlotBlocks s (s.chan c) i (regs i) ∧ sampleWord s c i = some (samples i)) →
    (s.eng c).runs = true → (s.eng c).phase = .fetch →
    blockAddress s.board (s.chan c) 0 = some (s.eng c).conblkAd →
    pacerRunning s = true → dmacEnab s = true → s.pwm.fifoLevel < s.board.dreqLevel →
    s.agenda = lapTurns c (s.chan c).sampleCount ++ turns →
    ∃ t, Host.Core.run Sys2Proof.core (7 * (s.chan c).sampleCount) s = .next t ∧
      t.trace = s.trace ++ lapEvents c regs samples (s.chan c).sampleCount 0 ∧
      t.gpio = { s.gpio with out := replay s.gpio.out (lapEvents c regs samples (s.chan c).sampleCount 0) } ∧
      (t.eng c).conblkAd = (s.eng c).conblkAd ∧ (t.eng c).phase = .fetch ∧ (t.eng c).cs = (s.eng c).cs ∧
      (∀ d, d ≠ c → t.eng d = s.eng d) ∧
      t.mem = s.mem ∧ t.host = s.host ∧ t.pwm = s.pwm ∧ t.clk = s.clk ∧ t.agenda = turns

/-- An engine that an earlier process left running writes what it likes where it likes until its channel is reset: to a
memory word outside every arena, and to SET0 and CLR0; its write changes no arena's page, no register of this process and
no other engine; without such an engine the turn changes nothing (R275, R306, R314; the turn that names the write, and that
a write into an arena is refused, are the model's choice, log 37). -/
def Obligations.ForeignEngineSparesTheArenas : Prop :=
  ∀ (s : State) (c : Chan) (a v : Word) (turns : List Turn), s.agenda = .foreign c a v :: turns →
    (¬((s.eng c).cs.active = true ∧ (s.eng c).foreign = true) → step s = .next { s with agenda := turns }) ∧
    ((s.eng c).cs.active = true → (s.eng c).foreign = true →
      (foreignWritable s a = true →
        step s = .next { s with agenda := turns, mem := Memory.writeWord s.mem (a.toNat - s.board.dmaBusOffset) v }) ∧
      (∀ reg : GpioReg, BoardOk s.board → foreignWritable s a = false →
        a = (match reg with | .set0 => s.board.gpSet | .clr0 => s.board.gpClr) → step s = .next { s with
          agenda := turns
          gpio := { s.gpio with out := (match reg with | .set0 => s.gpio.out ||| v | .clr0 => s.gpio.out &&& ~~~v) }
          trace := s.trace ++ [.gpioWrite (.dma c) reg v] })) ∧
    (∀ t, ArenasOk s → Memory.wf s.mem = true → step s = .next t →
      (∀ d x, inPages s.board (s.chan d).pageMap x → Memory.read t.mem x = Memory.read s.mem x) ∧
      t.dma = s.dma ∧ t.host = s.host ∧ t.clk = s.clk ∧ t.gpio.fsel = s.gpio.fsel ∧
      t.pwm = { s.pwm with fifoLevel := t.pwm.fifoLevel } ∧ t.program = s.program ∧ t.landing = s.landing ∧
      t.threads = s.threads ∧ t.env = s.env ∧ t.draws = s.draws ∧ t.agenda = turns)

/-! ## Register commands -/

/-- DMA_RESET: CS, `CONBLK_AD` and the working registers are 0, the engine idle and this process's; the DEBUG flags and the
data latch hold some value; a write already read may be performed first, or not; nothing else changes but the model's count
of free values. On the spec's board the word is 0x80000000, at 0x00 (R24, R45, R160, R302, R314; log 10, log 37). -/
def Obligations.DmaResetIdlesTheEngine : Prop :=
  (∀ (s : State) (c : Chan), s.host.windowsMapped = true → s.board.visibility = .sc →
    ∃ (u : State) (debug : BitVec 3) (data : Word),
      (u = s ∨ ((s.eng c).runs = true ∧ (s.eng c).phase = .write ∧
        ((∃ src dst next, recognise s.board (s.eng c).loaded = .formA src dst next ∧
            u = { s with gpio := { s.gpio with out := latchAfter dst s.gpio.out (s.eng c).data },
                         trace := s.trace ++ [.gpioWrite (.dma c) dst (s.eng c).data] }) ∨
         (∃ src next, recognise s.board (s.eng c).loaded = .formB src next ∧ dreq s = true ∧
            u = { s with pwm := { s.pwm with fifoLevel := s.pwm.fifoLevel + 1 },
                         trace := s.trace ++ [.fifoWrite c] })))) ∧
      exec (.dmaReset c) s = .next (State.setEng { u with
        draws := u.draws + 1, trace := u.trace ++ [.regWrite (.dma c) s.board.regs.dmaCs s.board.regs.dmaReset] } c
          { cs := { active := false, endFlag := false, int := false, priority := 0, panicPriority := 0,
                    waitForOutstandingWrites := false, disdebug := false }
            conblkAd := 0, ti := 0, sourceAd := 0, destAd := 0, txfrLen := 0, stride := 0, nextconbk := 0
            debug := debug, phase := .idle, data := data, foreign := false })) ∧
  Board.default.regs.dmaCs = 0x00 ∧ Board.default.regs.dmaReset = 0x80000000

/-- DMA_CLRDBG clears the three error flags and with them CS.ERROR, derived from them (log 11). DMA_START sets ACTIVE,
wait-for-writes and both priorities, leaves END and INT, and the engine fetches next. Neither changes anything else. The
words and offsets are the spec's on its board (R23, R24, R161, R163; that the start checks neither the DEBUG flags nor
that `CONBLK_AD` is a chain's head is the model's choice, log 18). -/
def Obligations.ClearDebugAndStartWriteTheEngine : Prop :=
  (∀ (s : State) (c : Chan), s.host.windowsMapped = true → s.board.visibility = .sc →
    (∃ t, exec (.dmaClrdbg c) s = .next t ∧ (t.eng c).error = false ∧
      t = State.setEng { s with
        trace := s.trace ++ [.regWrite (.dma c) s.board.regs.dmaDebug s.board.regs.dmaClrdbg] } c
          { s.eng c with debug := 0 }) ∧
    exec (.dmaStart c) s = .next (State.setEng { s with
      trace := s.trace ++ [.regWrite (.dma c) s.board.regs.dmaCs s.board.regs.dmaStart] } c
        { s.eng c with
          cs := { active := true, endFlag := (s.eng c).cs.endFlag, int := (s.eng c).cs.int,
                  priority := s.board.regs.midPriority, panicPriority := s.board.regs.midPriority,
                  waitForOutstandingWrites := true, disdebug := false }
          phase := .fetch })) ∧
  Board.default.regs.dmaDebug = 0x20 ∧ Board.default.regs.dmaClrdbg = 7 ∧ Board.default.regs.dmaCs = 0x00 ∧
  Board.default.regs.dmaStart = 0x10880001 ∧ Board.default.regs.midPriority = 8

/-- DMA_SETCB writes `CONBLK_AD` of an engine that is not active, and nothing else; it is refused while the engine is
active, and off the alignment; the register's offset is 0x04 on the spec's board (R76, R162, R178; that any aligned
address is taken, where R162 asks for the head of the channel's chain, is the model's choice, log 18). -/
def Obligations.DmaSetcbNeedsAStoppedEngine : Prop :=
  (∀ (s : State) (c : Chan) (a : Word),
    (a.toNat % s.board.cbAlign = 0 → s.host.windowsMapped = true → s.board.visibility = .sc →
      ((s.eng c).cs.active = false →
        exec (.dmaSetcb c a) s = .next (State.setEng { s with
          trace := s.trace ++ [.regWrite (.dma c) s.board.regs.dmaConblk a] } c { s.eng c with conblkAd := a })) ∧
      ((s.eng c).cs.active = true → exec (.dmaSetcb c a) s = .refused (.channelActive c))) ∧
    (a.toNat % s.board.cbAlign ≠ 0 → exec (.dmaSetcb c a) s = .refused (.misalignedBlock a))) ∧
  Board.default.regs.dmaConblk = 0x04

/-- The commands of the PWM and clock windows write their registers and nothing else. The FIFO clear empties the FIFO and
leaves the pacer off; after PWM_ON the pacer runs exactly if the clock is enabled. The offsets and words are the spec's on
its board (R31, R32, R138, R164 to R171; that CLK_DIV does not check the generator to be stopped is the model's choice,
log 18). -/
def Obligations.PwmAndClockCommandsWriteTheirRegisters : Prop :=
  (∀ s : State, s.host.windowsMapped = true → s.board.visibility = .sc →
    exec .pwmOff s = .next { s with
      pwm := { s.pwm with ctl := s.board.regs.pwmOff }
      trace := s.trace ++ [.regWrite .pwm s.board.regs.pwmCtl s.board.regs.pwmOff] } ∧
    (∀ v, exec (.pwmRng v) s = .next { s with
      pwm := { s.pwm with rng1 := v }, trace := s.trace ++ [.regWrite .pwm s.board.regs.pwmRng1 v] }) ∧
    exec .pwmDmac s = .next { s with
      pwm := { s.pwm with dmac := s.board.regs.pwmEnable }
      trace := s.trace ++ [.regWrite .pwm s.board.regs.pwmDmac s.board.regs.pwmEnable] } ∧
    exec .pwmClrf s = .next { s with
      pwm := { s.pwm with fifoLevel := 0, ctl := 0 }
      trace := s.trace ++ [.regWrite .pwm s.board.regs.pwmCtl s.board.regs.pwmClrf] } ∧
    (∃ t, exec .pwmOn s = .next t ∧ (RegistersOk s.board → pacerRunning t = s.clk.enab) ∧
      t = { s with
        pwm := { s.pwm with ctl := s.board.regs.pwmOn }
        trace := s.trace ++ [.regWrite .pwm s.board.regs.pwmCtl s.board.regs.pwmOn] }) ∧
    exec .clkSrc s = .next { s with
      clk := { s.clk with src := s.board.regs.clkSource, enab := false }
      trace := s.trace ++ [.regWrite .clk s.board.regs.clkCntl s.board.regs.clkStopped] } ∧
    exec .clkDiv s = .next { s with
      clk := { s.clk with divi := BitVec.ofNat 12 s.board.clkDivi }
      trace := s.trace ++ [.regWrite .clk s.board.regs.clkDiv
        (s.board.regs.clkPassword ||| (BitVec.ofNat 32 s.board.clkDivi <<< s.board.regs.divi))] } ∧
    exec .clkOn s = .next { s with
      clk := { s.clk with src := s.board.regs.clkSource, enab := true }
      trace := s.trace ++ [.regWrite .clk s.board.regs.clkCntl s.board.regs.clkRunning] }) ∧
  (Board.default.regs.pwmCtl = 0x00 ∧ Board.default.regs.pwmDmac = 0x08 ∧ Board.default.regs.pwmRng1 = 0x10 ∧
    Board.default.regs.clkCntl = 0xA0 ∧ Board.default.regs.clkDiv = 0xA4) ∧
  (Board.default.regs.pwmOff = 0 ∧ Board.default.regs.pwmClrf = 0x40 ∧ Board.default.regs.pwmOn = 0x21 ∧
    Board.default.regs.pwmEnable = 0x80000F0F) ∧
  (Board.default.regs.clkSource = 6 ∧ Board.default.regs.clkStopped = 0x5A000006 ∧
    Board.default.regs.clkRunning = 0x5A000016 ∧
    (Board.default.regs.clkPassword ||| (BitVec.ofNat 32 Board.default.clkDivi <<< Board.default.regs.divi)) = 0x5A032000)

/-- Before the windows are mapped every register access is refused (R177; that the four process-wide windows stand for the
DMA windows too is the model's choice, log 17). -/
def Obligations.RegisterAccessNeedsTheWindows : Prop :=
  ∀ (s : State) (i : Instr), s.host.windowsMapped = false →
    (match i with
      | .dmaReset _ | .dmaClrdbg _ | .dmaStart _ => True
      | .dmaSetcb _ a => a.toNat % s.board.cbAlign = 0
      | .pwmOff | .clkSrc | .clkDiv | .clkOn | .pwmRng _ | .pwmDmac | .pwmClrf | .pwmOn => True
      | .gpioFselOut _ | .gpioSet _ | .gpioClr _ | .gpioFselRd _ => True
      | _ => False) →
    exec i s = .refused .windowsNotMapped

/-- No register word of the PCM window, of any kind of access, is an instruction (R37, R177; the call stream and its
register words are the model's, log 6). -/
def Obligations.PcmAccessesHaveNoInstruction : Prop :=
  ∀ (b : Board) (v : Word) (off tag : Nat) (rest : List Word), off + tag < 65536 →
    ∃ e, decode b .host (v :: registerWord .pcm off tag :: rest) = .error e

/-- GPIO_FSEL_OUT makes its pin an output and leaves every other pin's function select, and everything else, as it was but
for the model's count of free values; the register's bits that are no pin's are written as they were read, which is with any
value. From then on the pin's level is its latch bit (R33, R36, R111, R114, R172; log 27). -/
def Obligations.FselOutSelectsOnePin : Prop :=
  (∀ (s : State) (p : Pin), RegistersOk s.board → s.host.windowsMapped = true → Quiet [.functionSelects] s →
    ∃ (t : State) (w : Word), exec (.gpioFselOut p) s = .next t ∧
      t = { s with gpio := { s.gpio with fsel := t.gpio.fsel }
                   trace := s.trace ++
                     [.regWrite .gpio (s.board.regs.gpioFsel + 4 * (p.val / s.board.regs.fselPins)) w]
                   draws := s.draws + 1 } ∧
      t.gpio.fsel.toList = s.gpio.fsel.toList.set (p.val / s.board.regs.fselPins) w ∧
      SelectsOutput s.board p (s.gpio.fsel.toList.getD (p.val / s.board.regs.fselPins) 0) w ∧
      (∀ q : Pin, q ≠ p → fselField t q = fselField s q) ∧
      fselField t p = s.board.regs.fselOutput ∧ pinLevel t p = some (s.gpio.out.getLsbD p.val)) ∧
  Board.default.regs.gpioFsel = 0x00 ∧ Board.default.regs.fselPins = 10 ∧ Board.default.regs.fselBits = 3 ∧
  Board.default.regs.fselOutput = 1

/-- GPIO_SET sets exactly the latch bits of its mask, and the write enters the trace; nothing else changes (R173). -/
def Obligations.HostSetsTheLatch : Prop :=
  ∀ (s : State) (m : Word), s.host.windowsMapped = true → s.board.visibility = .sc →
    exec (.gpioSet m) s = .next { s with
      gpio := { s.gpio with out := s.gpio.out ||| m }, trace := s.trace ++ [.gpioWrite .host .set0 m] }

/-- GPIO_CLR clears exactly the latch bits of its mask, and the write enters the trace; nothing else changes (R174). -/
def Obligations.HostClearsTheLatch : Prop :=
  ∀ (s : State) (m : Word), s.host.windowsMapped = true → s.board.visibility = .sc →
    exec (.gpioClr m) s = .next { s with
      gpio := { s.gpio with out := s.gpio.out &&& ~~~m }, trace := s.trace ++ [.gpioWrite .host .clr0 m] }

/-- GPIO_FSEL_RD returns the pins' fields of the register it names, and in the bits that are no pin's (31:30 on the spec's
board) any value; it changes nothing but the model's count of free values (R33, R114, R175; log 27). SETTLE is a step that
changes no state (R176); that it runs before the windows are mapped too is the model's choice (log 16). -/
def Obligations.ReadsAndDelaysChangeNothing : Prop :=
  (∀ s : State,
    (RegistersOk s.board → s.host.windowsMapped = true → s.board.visibility = .sc →
      ∀ n : Fin 4, ∃ w : Word,
        exec (.gpioFselRd n) s = .next { s with
          host := { s.host with result := .word w }, draws := s.draws + 1 } ∧
        ∀ bit, bit < s.board.regs.fselBits * s.board.regs.fselPins →
          w.getLsbD bit = (s.gpio.fsel.toList.getD n.val 0).getLsbD bit) ∧
    (∀ us, exec (.settle us) s = .next s)) ∧
  Board.default.regs.fselBits * Board.default.regs.fselPins = 30

/-! ## Bring-up -/

/-- `map` returns the window it was asked for, or raises `MapError` where the device does not open or the mapping fails, by
the environment's answers (log 9); nothing else changes (R200, R261, R268). -/
def Obligations.MapAnswersAsTheEnvironmentSays : Prop :=
  ∀ (s : State) (base length : Int),
    exec (.map base length) s = .next { s with host := { s.host with
      result := if s.env.physMemOpens = true ∧ base ∉ s.env.unmappable then .window base length
                else .error .mapError } }

/-- `configureGlobalClock` issues the eight writes in order; the pacer then runs, the FIFO is empty, the increment is
recorded; nothing else changes (R202). The range is the increment times the clock's periods a microsecond (10 on the spec's
board), modulo 2^32: R168's formula, the model's choice where R112's differs (log 19). R202 requires the windows mapped and
R308 that it be called once; that a second call, or one before, is refused is the model's choice (log 22). -/
def Obligations.ConfigureClockRunsThePacer : Prop :=
  (∀ (s : State) (inc : Int),
    (Quiet [.clock] s → s.host.windowsMapped = true → s.host.clockConfigured = false →
      ∃ t, exec (.configureGlobalClock inc) s = .next t ∧ (RegistersOk s.board → pacerRunning t = true) ∧
        t = { s with
          pwm := { ctl := s.board.regs.pwmOn, dmac := s.board.regs.pwmEnable
                   rng1 := BitVec.ofInt 32 (inc * tickMHz s.board), fifoLevel := 0 }
          clk := { src := s.board.regs.clkSource, enab := true, divi := BitVec.ofNat 12 s.board.clkDivi }
          host := { s.host with incrementUs := inc, clockConfigured := true, result := .ok }
          trace := s.trace ++ [.regWrite .pwm s.board.regs.pwmCtl s.board.regs.pwmOff,
            .regWrite .clk s.board.regs.clkCntl s.board.regs.clkStopped,
            .regWrite .clk s.board.regs.clkDiv
              (s.board.regs.clkPassword ||| (BitVec.ofNat 32 s.board.clkDivi <<< s.board.regs.divi)),
            .regWrite .clk s.board.regs.clkCntl s.board.regs.clkRunning,
            .regWrite .pwm s.board.regs.pwmRng1 (BitVec.ofInt 32 (inc * tickMHz s.board)),
            .regWrite .pwm s.board.regs.pwmDmac s.board.regs.pwmEnable,
            .regWrite .pwm s.board.regs.pwmCtl s.board.regs.pwmClrf,
            .regWrite .pwm s.board.regs.pwmCtl s.board.regs.pwmOn] }) ∧
    (s.host.windowsMapped = false ∨ s.host.clockConfigured = true →
      exec (.configureGlobalClock inc) s = .refused .clockNotConfigurable)) ∧
  tickMHz Board.default = 10

/-- `Initialize` where every mapping succeeds: the windows are mapped, then the clock is configured as
`configureGlobalClock` does it, the range modulo 2^32 (log 19). A second one is refused; an increment below 1 raises
`ChannelStateError`; a device that does not open, or a window that does not map, raises `MapError`; a raise changes nothing
but the answer (R201, R202, R208, R263). -/
def Obligations.InitializeMapsAndConfiguresOrFails : Prop :=
  ∀ (s : State) (inc : Int),
    (s.host.windowsMapped = true ∨ s.host.clockConfigured = true →
      exec (.initEngine inc) s = .refused .secondInitialize) ∧
    (s.host.windowsMapped = false → s.host.clockConfigured = false →
      (inc < 1 → exec (.initEngine inc) s =
        .next { s with host := { s.host with result := .error .channelStateError } }) ∧
      (1 ≤ inc → Quiet [.clock] s →
        (s.env.physMemOpens = true →
          (∀ base ∈ [s.board.pwmBaseHost, s.board.pcmBaseHost, s.board.clkBaseHost, s.board.gpioBaseHost],
            (base : Int) ∉ s.env.unmappable) →
          ∃ t, exec (.initEngine inc) s = .next t ∧ (RegistersOk s.board → pacerRunning t = true) ∧
            exec (.configureGlobalClock inc) { s with host := { s.host with windowsMapped := true } } = .next t ∧
            t.host = { s.host with windowsMapped := true, clockConfigured := true, incrementUs := inc, result := .ok } ∧
            t.pwm.rng1 = BitVec.ofInt 32 (inc * tickMHz s.board) ∧ t.mem = s.mem ∧
            t.dma = s.dma ∧ t.gpio = s.gpio) ∧
        ((s.env.physMemOpens = false ∨
            ∃ base ∈ [s.board.pwmBaseHost, s.board.pcmBaseHost, s.board.clkBaseHost, s.board.gpioBaseHost],
              (base : Int) ∈ s.env.unmappable) →
          exec (.initEngine inc) s = .next { s with host := { s.host with result := .error .mapError } })))

/-- Page resolution on a sound board: an entry that is valid gives its frame's address with the bus offset's bit set,
page-aligned and in the DMA view; a frame at or above the offset is turned away; any other entry, or none, is unresolved.
Which entries are valid is the open parameter PAGEMAP_VALID; its default, present (bit 63) and not swapped (bit 62), is the
model's choice (R72, R118; log 31). -/
def Obligations.PageResolutionReadsTheExport : Prop :=
  (∀ (b : Board) (env : Env) (vpn : Nat), BoardOk b →
    (∀ entry, env.pageExport.lookup vpn = some entry → pagemapValid b entry = true →
      (entry.toNat % 2 ^ 55 * pageSize b < b.dmaBusOffset → ∃ a, resolveFrame b env vpn = .page a ∧
        a.toNat = entry.toNat % 2 ^ 55 * pageSize b + b.dmaBusOffset ∧ pageOk b a) ∧
      (b.dmaBusOffset ≤ entry.toNat % 2 ^ 55 * pageSize b → resolveFrame b env vpn = .aboveBusOffset)) ∧
    (∀ entry, env.pageExport.lookup vpn = some entry → pagemapValid b entry = false →
      resolveFrame b env vpn = .unresolved) ∧
    (env.pageExport.lookup vpn = none → resolveFrame b env vpn = .unresolved)) ∧
  (∀ entry : BitVec 64, pagemapValid Board.default entry = (entry.getLsbD 63 && !entry.getLsbD 62))

/-- `allocate` where the environment makes the region and the export gives its pages: it returns the region's base and page
map; every byte of the pages reads 0 and every other byte as before; nothing else changes. Otherwise nothing changes but the
answer: `MapError` where the region cannot be made, `PageResolutionError` at the first page that does not resolve; a frame
at or above the bus offset is refused (R72, R203, R208, R262, R303, R315). That no byte is cleared then, what is asked of
the pages, and that a count below 1 asks for an empty region, with the same answers, are the model's choice (log 20, log 21,
log 29). -/
def Obligations.AllocateReturnsZeroedPagesOrFails : Prop :=
  ∀ (s : State) (pages : List Word), s.agenda = [] → BoardOk s.board →
    (s.env.locksRegion = true → PagesResolve s pages →
      ∃ t, exec (.allocate (pages.length : Int)) s = .next t ∧
        t = { s with mem := t.mem, host := { s.host with result := .arena s.env.virtBase pages } } ∧
        (∀ a, inPages s.board pages a → Memory.read t.mem a = 0) ∧
        (∀ a, ¬ inPages s.board pages a → Memory.read t.mem a = Memory.read s.mem a)) ∧
    (∀ n, s.env.locksRegion = false → exec (.allocate n) s =
      .next { s with host := { s.host with result := .error .mapError } }) ∧
    (∀ n : Nat, pages.length < n → s.env.locksRegion = true → PagesResolve s pages →
      (resolveFrame s.board s.env (virtualPage s.board s.env.virtBase pages.length) = .unresolved →
        exec (.allocate (n : Int)) s =
          .next { s with host := { s.host with result := .error .pageResolutionError } }) ∧
      (resolveFrame s.board s.env (virtualPage s.board s.env.virtBase pages.length) = .aboveBusOffset →
        exec (.allocate (n : Int)) s = .refused .frameAboveBusOffset))

/-- `compile` on a sound arena: every slot's pair of blocks stands in memory, the CBA clearing, the last `next` the head;
every byte outside the six written fields of each block is as before; the start sequence's four writes follow in order
and the engine is at the head, about to load it; no other engine and no other register changes (R42, R206, R207). R206 has
`compile` run before the engine runs on the arena; that it does the same on an initialized channel, running or not, is the
model's choice (log 38). -/
def Obligations.CompileWritesTheChainAndStarts : Prop :=
  ∀ (s : State) (c : Chan), Quiet [.channel c] s → s.host.windowsMapped = true → ArenaOk s.board (s.chan c) →
    Memory.wf s.mem = true →
    ∃ (t : State) (head data : Word), exec (.compile (c.val : Int)) s = .next t ∧
      blockAddress s.board (s.chan c) 0 = some head ∧ ChainCompiled t (s.chan c) ∧
      (∀ a, (∀ k f, k < 2 * (s.chan c).sampleCount → f ∈ [0, 4, 8, 12, 16, 20] →
        ¬ inArenaWord s.board (s.chan c) (blockOffset s.board (s.chan c) k + f) a) →
        Memory.read t.mem a = Memory.read s.mem a) ∧
      t.eng c = startedEngine s.board head data ∧ (∀ d, d ≠ c → t.eng d = s.eng d) ∧
      t.host = { s.host with result := .ok } ∧ t.clk = s.clk ∧ t.gpio.fsel = s.gpio.fsel ∧
      t.pwm = { s.pwm with fifoLevel := t.pwm.fifoLevel } ∧ t.env = s.env ∧ t.program = s.program ∧ t.agenda = [] ∧
      t.board = s.board ∧ t.landing = s.landing ∧ t.threads = s.threads ∧
      (noWriteInFlight (s.eng c) → t.gpio.out = s.gpio.out ∧ t.pwm.fifoLevel = s.pwm.fifoLevel ∧
        t.trace = s.trace ++ startEvents s.board c head)

/-- `InitChannel` makes its checks in order and the first that fails decides: before `Initialize`, a channel outside 0..14,
a channel already initialized, a subcycle below the floor, no whole sample: each raises `ChannelStateError`, with nothing
changed but the answer; above the ceiling it is refused (R110, R205 steps 1 to 6, R208, R267; the sample count for an
increment that is not positive is a free value, log 33). -/
def Obligations.InitChannelChecksInOrder : Prop :=
  ∀ (s : State) (channel sub : Int),
    ((s.host.windowsMapped = false ∨ s.host.clockConfigured = false) → exec (.initChannel channel sub) s =
      .next { s with host := { s.host with result := .error .channelStateError } }) ∧
    (s.host.windowsMapped = true → s.host.clockConfigured = true →
      (channel < 0 ∨ 15 ≤ channel → exec (.initChannel channel sub) s =
        .next { s with host := { s.host with result := .error .channelStateError } }) ∧
      (∀ c : Chan, channel = (c.val : Int) →
        ((s.chan c).initialized = true ∨ sub < s.board.subcycleUsMin → exec (.initChannel channel sub) s =
          .next { s with host := { s.host with result := .error .channelStateError } }) ∧
        ((s.chan c).initialized = false → s.board.subcycleUsMin ≤ sub → s.board.subcycleUsMax < sub →
          exec (.initChannel channel sub) s = .refused .subcycleAboveMax) ∧
        ((s.chan c).initialized = false → s.board.subcycleUsMin ≤ sub → sub ≤ s.board.subcycleUsMax →
          sampleCountOf sub s.host.incrementUs < 1 → exec (.initChannel channel sub) s =
            .next { s with host := { s.host with result := .error .channelStateError } }))) ∧
    (0 ≤ sub → 0 < s.host.incrementUs → sampleCountOf sub s.host.incrementUs = sub / s.host.incrementUs)

/-- `InitChannel` that succeeds: the channel's record holds the counts of R110 and the page map, every sample is 0, every
CBA clears, the engine is active at the head of its chain with its flags clear; no pin is claimed; nothing outside the
arena, the channel's record and its engine changes (R110, R205, R206, R207, R211; the recorded DMA window handle: log 17;
what is asked of the pages: log 20). -/
def Obligations.InitChannelStartsTheChannel : Prop :=
  ∀ (s : State) (c : Chan) (sub : Int) (n : Nat) (pages : List Word), BoardOk s.board →
    Quiet [.channel c] s → s.host.windowsMapped = true → s.host.clockConfigured = true →
    (s.chan c).initialized = false → s.board.subcycleUsMin ≤ sub → sub ≤ s.board.subcycleUsMax →
    sampleCountOf sub s.host.incrementUs = (n : Int) → 1 ≤ n → s.env.physMemOpens = true →
    ((s.board.dmaBaseHost + s.board.dmaChannelStride * c.val : Nat) : Int) ∉ s.env.unmappable →
    s.env.locksRegion = true → PagesResolve s pages →
    pages.length = (s.board.cbAlign * ((4 * n + s.board.cbAlign - 1) / s.board.cbAlign) + s.board.cbSize * (2 * n)
      + pageSize s.board - 1) / pageSize s.board → Memory.wf s.mem = true →
    ∃ (t : State) (head data : Word), exec (.initChannel (c.val : Int) sub) s = .next t ∧
      t.chan c = { initialized := true, subcycleUs := sub.toNat, sampleCount := n, maxWidth := n,
                   controlBlockCount := 2 * n, pageCount := pages.length,
                   cbOffset := s.board.cbAlign * ((4 * n + s.board.cbAlign - 1) / s.board.cbAlign),
                   virtBase := s.env.virtBase, pageMap := pages,
                   dmaWindow := some (s.board.dmaBaseHost + s.board.dmaChannelStride * c.val) } ∧
      t.host = { s.host with chan := s.host.chan.set c.val (t.chan c), result := .ok } ∧
      (∀ i, i < n → sampleWord t c i = some 0) ∧ ChainCompiled t (t.chan c) ∧
      blockAddress t.board (t.chan c) 0 = some head ∧ t.eng c = startedEngine s.board head data ∧
      (∀ d, d ≠ c → t.eng d = s.eng d) ∧
      (∀ a, ¬ inPages s.board pages a → Memory.read t.mem a = Memory.read s.mem a) ∧
      t.clk = s.clk ∧ t.gpio.fsel = s.gpio.fsel ∧ t.board = s.board ∧ t.landing = s.landing ∧
      t.threads = s.threads ∧
      (noWriteInFlight (s.eng c) → t.gpio = s.gpio ∧ t.pwm = s.pwm ∧ t.trace = s.trace ++ startEvents s.board c head)

/-- `InitChannel` whose checks pass but whose window does not map, whose region cannot be made or one of whose pages does
not resolve: the error is the caller's, and nothing else has changed: no block written, the engine not reset (R205 steps
8 and 9, R208, R261, R262; that no byte is cleared when a page does not resolve is the model's choice, log 21). -/
def Obligations.InitChannelFailsCleanly : Prop :=
  ∀ (s : State) (c : Chan) (sub : Int) (pages : List Word),
    Quiet [.channel c] s → s.host.windowsMapped = true → s.host.clockConfigured = true →
    (s.chan c).initialized = false → s.board.subcycleUsMin ≤ sub → sub ≤ s.board.subcycleUsMax →
    1 ≤ sampleCountOf sub s.host.incrementUs →
    ((s.env.physMemOpens = false ∨
        ((s.board.dmaBaseHost + s.board.dmaChannelStride * c.val : Nat) : Int) ∈ s.env.unmappable ∨
        s.env.locksRegion = false) →
      exec (.initChannel (c.val : Int) sub) s =
        .next { s with host := { s.host with result := .error .mapError } }) ∧
    (s.env.physMemOpens = true →
      ((s.board.dmaBaseHost + s.board.dmaChannelStride * c.val : Nat) : Int) ∉ s.env.unmappable →
      s.env.locksRegion = true → PagesResolve s pages →
      pages.length < pageCountOf s.board (sampleCountOf sub s.host.incrementUs).toNat →
      resolveFrame s.board s.env (virtualPage s.board s.env.virtBase pages.length) = .unresolved →
      exec (.initChannel (c.val : Int) sub) s =
        .next { s with host := { s.host with result := .error .pageResolutionError } })

/-! ## Pulse operations -/

/-- A claim makes the pin an output, then drives it low, then records it; nothing else changes (R230, R322). A pin outside
0..31 and a pin already claimed are refused: R230 requires neither and names no error, the refusals are the model's choice
(log 22). -/
def Obligations.ClaimMakesALowOutput : Prop :=
  (∀ (s : State) (p : Pin), RegistersOk s.board → Quiet [.functionSelects] s → s.host.windowsMapped = true →
    claimed s p = false → ∃ (t : State) (w : Word), exec (.claim (p.val : Int)) s = .next t ∧
      SelectsOutput s.board p (s.gpio.fsel.get (fselOf s.board p)) w ∧
      t = { claimedState p w s with host := { (claimedState p w s).host with result := .ok } } ∧
      claimed t p = true ∧ pinLevel t p = some false ∧
      (∀ q : Pin, q ≠ p → claimed t q = claimed s q ∧ fselField t q = fselField s q ∧
        t.gpio.out.getLsbD q.val = s.gpio.out.getLsbD q.val)) ∧
  (∀ (s : State) (g : Int), (g < 0 ∨ 32 ≤ g) → exec (.claim g) s = .refused (.noSuchPin g)) ∧
  (∀ (s : State) (p : Pin), claimed s p = true → exec (.claim (p.val : Int)) s = .refused (.alreadyClaimed p))

/-- `addPulse` in range on an initialized channel with a sound arena: the pin is claimed if it was not, and the tables hold
the pulse; every other bit of the sample words, every other destination and every other byte is as before (R230, R231,
R234, R235). -/
def Obligations.AddPulseWritesThePulse : Prop :=
  ∀ (s : State) (c : Chan) (p : Pin) (start width : Nat), Quiet (pulseLocks s c p) s → (s.chan c).initialized = true →
    ArenaOk s.board (s.chan c) → Memory.wf s.mem = true → (s.host.windowsMapped = true ∨ claimed s p = true) →
    start < (s.chan c).maxWidth → start + width ≤ (s.chan c).maxWidth →
    ∃ t, exec (.addChannelPulse (c.val : Int) (p.val : Int) (start : Int) (width : Int)) s = .next t ∧
      PulseApplied s t c p start width

/-- `addPulse` and `clearGpio` that are rejected change nothing but the answer: no pin is claimed, no word written. Of
`addPulse` the first failing check decides (channel, its state, then pin, range, start: `PulseRangeError`); `clearGpio`
raises `ChannelStateError` for the channel, its state, a pin outside 0..31 and an unclaimed pin (R231 steps 1 to 5, R233
steps 1 to 3, R238, R263, R264, R267). -/
def Obligations.RejectedPulseOperationsChangeNothing : Prop :=
  ∀ (s : State) (channel g start width : Int),
    (channel < 0 ∨ 15 ≤ channel → exec (.addChannelPulse channel g start width) s =
      .next { s with host := { s.host with result := .error .channelStateError } }) ∧
    (∀ c : Chan, channel = (c.val : Int) →
      ((s.chan c).initialized = false → exec (.addChannelPulse channel g start width) s =
        .next { s with host := { s.host with result := .error .channelStateError } }) ∧
      ((s.chan c).initialized = true →
        (g < 0 ∨ 32 ≤ g ∨ start < 0 ∨ width < 0 ∨ ((s.chan c).maxWidth : Int) < start + width ∨
          ((s.chan c).maxWidth : Int) ≤ start) →
        exec (.addChannelPulse channel g start width) s =
          .next { s with host := { s.host with result := .error .pulseRangeError } })) ∧
    (((channel < 0 ∨ 15 ≤ channel) ∨ (∃ c : Chan, channel = (c.val : Int) ∧ (s.chan c).initialized = false) ∨
        (g < 0 ∨ 32 ≤ g) ∨ (∃ p : Pin, g = (p.val : Int) ∧ claimed s p = false)) →
      exec (.clearChannelGpio channel g) s =
        .next { s with host := { s.host with result := .error .channelStateError } })

/-- The percent conversion: the formula of R109, its range, its ends and its monotony. -/
def Obligations.PercentToWidthIsMonotone : Prop :=
  ∀ (percent : Int) (maxWidth : Nat),
    ((percentWidth percent maxWidth : Nat) : Int) = (min (max percent 0) 100 * maxWidth + 50) / 100 ∧
    percentWidth percent maxWidth ≤ maxWidth ∧
    (percent ≤ 0 → percentWidth percent maxWidth = 0) ∧
    (100 ≤ percent → percentWidth percent maxWidth = maxWidth) ∧
    (∀ percent', percent ≤ percent' → percentWidth percent maxWidth ≤ percentWidth percent' maxWidth)

/-- `setPercent` writes the pulse from slot 0 of the width its percentage stands for, out-of-range percentages clamped; on a
channel outside the pool or not initialized it raises `ChannelStateError`, with a pin outside 0..31 `PulseRangeError`, and
changes nothing but the answer (R109, R232). -/
def Obligations.SetPercentWritesThePulse : Prop :=
  (∀ (s : State) (c : Chan) (p : Pin) (percent : Int), Quiet (pulseLocks s c p) s → (s.chan c).initialized = true →
    ArenaOk s.board (s.chan c) → Memory.wf s.mem = true → (s.host.windowsMapped = true ∨ claimed s p = true) →
    ∃ t, exec (.setChannelPercent (c.val : Int) (p.val : Int) percent) s = .next t ∧
      PulseApplied s t c p 0 (((max (min percent 100) 0).toNat * (s.chan c).maxWidth + 50) / 100)) ∧
  (∀ (s : State) (channel g percent : Int),
    ((channel < 0 ∨ 15 ≤ channel ∨ ∃ c : Chan, channel = (c.val : Int) ∧ (s.chan c).initialized = false) →
      exec (.setChannelPercent channel g percent) s =
        .next { s with host := { s.host with result := .error .channelStateError } }) ∧
    (∀ c : Chan, channel = (c.val : Int) → (s.chan c).initialized = true → (g < 0 ∨ 32 ≤ g) →
      exec (.setChannelPercent channel g percent) s =
        .next { s with host := { s.host with result := .error .pulseRangeError } }))

/-- `clearGpio` on a claimed pin: its bit is cleared in every sample of the channel and the pin driven low once; other
bits, every control block and every other byte are as before; the pin stays claimed (R233). -/
def Obligations.ClearGpioClearsTheBitPlane : Prop :=
  ∀ (s : State) (c : Chan) (p : Pin), Quiet [.channel c] s → (s.chan c).initialized = true →
    ArenaOk s.board (s.chan c) → Memory.wf s.mem = true → s.host.windowsMapped = true → claimed s p = true →
    ∃ t, exec (.clearChannelGpio (c.val : Int) (p.val : Int)) s = .next t ∧ PlaneCleared s t c p ∧
      (∀ k, k < 2 * (s.chan c).sampleCount → dstWord t c k = dstWord s c k) ∧ claimed t p = true

/-- Round trip: from a table without a pin's bits, a pulse of that pin followed by a clear leaves every sample word as it
was; the pin stays claimed and low, the destinations the pulse wrote stay (R231, R233). -/
def Obligations.PulseThenClearRestoresTheSamples : Prop :=
  ∀ (s : State) (c : Chan) (p : Pin) (start width : Nat), Quiet [.channel c, .functionSelects] s →
    (s.chan c).initialized = true → ArenaOk s.board (s.chan c) → Memory.wf s.mem = true →
    s.host.windowsMapped = true → start < (s.chan c).maxWidth → start + width ≤ (s.chan c).maxWidth →
    (∀ i w, i < (s.chan c).sampleCount → sampleWord s c i = some w → w.getLsbD p.val = false) →
    ∃ t u, exec (.addChannelPulse (c.val : Int) (p.val : Int) (start : Int) (width : Int)) s = .next t ∧
      exec (.clearChannelGpio (c.val : Int) (p.val : Int)) t = .next u ∧
      (∀ i, i < (s.chan c).sampleCount → sampleWord u c i = sampleWord s c i) ∧
      (∀ k, k < 2 * (s.chan c).sampleCount → dstWord u c k = dstWord t c k) ∧
      claimed u p = true ∧ u.gpio.out.getLsbD p.val = false ∧ u.dma = s.dma

/-- The last call to name a slot decides its register, for every pin: after two pulses, of any pins and widths, a slot the
second names as its end clears, one it names as its start sets, one only the first names has the register the first gave
it, and every other slot keeps its own. For different pins the samples come out the same in either order of the calls
(R144, R234, R236). -/
def Obligations.LastCallDecidesASlotsRegister : Prop :=
  ∀ (s : State) (c : Chan) (p q : Pin) (start width start' width' : Nat), Quiet [.channel c, .functionSelects] s →
    (s.chan c).initialized = true → ArenaOk s.board (s.chan c) → Memory.wf s.mem = true →
    s.host.windowsMapped = true → start < (s.chan c).maxWidth → start + width ≤ (s.chan c).maxWidth →
    start' < (s.chan c).maxWidth → start' + width' ≤ (s.chan c).maxWidth →
    ∃ t u t' u',
      exec (.addChannelPulse (c.val : Int) (p.val : Int) (start : Int) (width : Int)) s = .next t ∧
      exec (.addChannelPulse (c.val : Int) (q.val : Int) (start' : Int) (width' : Int)) t = .next u ∧
      exec (.addChannelPulse (c.val : Int) (q.val : Int) (start' : Int) (width' : Int)) s = .next t' ∧
      exec (.addChannelPulse (c.val : Int) (p.val : Int) (start : Int) (width : Int)) t' = .next u' ∧
      (∀ j, j < (s.chan c).sampleCount → dstWord u c (2 * j) =
        if j = start' + width' then some s.board.gpClr else if j = start' then some s.board.gpSet
        else if j = start + width then some s.board.gpClr else if j = start then some s.board.gpSet
        else dstWord s c (2 * j)) ∧
      (p ≠ q → ∀ i, i < (s.chan c).sampleCount → sampleWord u c i = sampleWord u' c i)

/-! ## Whole-machine rules -/

/-- Whatever the engines and the pacer do between its accesses, a host operation that completes writes what it writes when
nothing else steps: the same memory, the same host context, the same function selects and PWM and clock registers, the same
writes under way. The environment's answers may change meanwhile too, but for the three operations that ask it (R10, R80,
R82, R83, R146, R241; log 5). -/
def Obligations.ConcurrentTurnsLeaveHostWritesAlone : Prop :=
  ∀ (i : Instr) (s t : State), (∀ turn ∈ s.agenda, sparesHost (asksEnvironment i) turn) →
    exec i s = .next t → ∃ u, exec i { s with agenda := [] } = .next u ∧ HostAgrees u t

/-- Under `VISIBILITY = buffered` a register command only joins the writes under way; a landing turn gives the oldest its
effect, so that they land in program order; under `sc` nothing is under way (R80; the landing turn and one buffer for the
process are the model's choice, log 35). -/
def Obligations.BufferedWritesLandInProgramOrder : Prop :=
  ∀ (s : State) (turns : List Turn),
    (s.board.visibility = .buffered → s.host.windowsMapped = true →
      (∀ i w, (i, w) ∈ [(Instr.pwmOff, HostWrite.pwmOff), (.clkSrc, .clkSrc), (.clkDiv, .clkDiv), (.clkOn, .clkOn),
          (.pwmDmac, .pwmDmac), (.pwmClrf, .pwmClrf), (.pwmOn, .pwmOn)] →
        exec i s = .next { s with landing := s.landing ++ [w] }) ∧
      (∀ c, exec (.dmaReset c) s = .next { s with landing := s.landing ++ [.dmaReset c] } ∧
        exec (.dmaClrdbg c) s = .next { s with landing := s.landing ++ [.dmaClrdbg c] } ∧
        exec (.dmaStart c) s = .next { s with landing := s.landing ++ [.dmaStart c] } ∧
        (∀ a, a.toNat % s.board.cbAlign = 0 →
          exec (.dmaSetcb c a) s = .next { s with landing := s.landing ++ [.dmaSetcb c a] })) ∧
      (∀ v, exec (.pwmRng v) s = .next { s with landing := s.landing ++ [.pwmRng v] } ∧
        exec (.gpioSet v) s = .next { s with landing := s.landing ++ [.gpio .set0 v] } ∧
        exec (.gpioClr v) s = .next { s with landing := s.landing ++ [.gpio .clr0 v] })) ∧
    (s.agenda = .land :: turns →
      (∀ w rest, s.board.visibility = .buffered → s.landing = w :: rest →
        step s = land w { s with agenda := turns, landing := rest }) ∧
      (s.landing = [] ∨ s.board.visibility = .sc → step s = .next { s with agenda := turns }))

/-- Writes that land late end where direct ones do: an instruction run alone under `buffered`, all its writes then landing,
leaves the state it leaves under `sc`, the host having read its own writes (R80; log 35). -/
def Obligations.BufferedWritesEndWhereDirectOnesDo : Prop :=
  ∀ (i : Instr) (s t : State), s.board.visibility = .sc → s.landing = [] → s.agenda = [] → ArenasOk s →
    Memory.wf s.mem = true → exec i s = .next t →
    ∃ u, exec i { s with board := { s.board with visibility := .buffered } } = .next u ∧
      Host.Core.run Sys2Proof.core u.landing.length { u with agenda := List.replicate u.landing.length .land } =
        .next { t with board := { t.board with visibility := .buffered } }

/-- A call of another thread does what the main thread's call does: an idle thread whose stream decodes to a call leaves,
after some turns of its own, the state that call leaves, but that the answer is the thread's (a register command answers
`ok` there) and the stream the thread's (R274; log 36). -/
def Obligations.ThreadCallsDoWhatHostCallsDo : Prop :=
  ∀ (i : Instr) (s t : State) (k : Nat) (th : Thread) (rest : List Word), s.threads[k]? = some th → th.todo = [] →
    th.holds = [] → decode s.board .host th.program = .ok (i, rest) → s.agenda = [] → exec i s = .next t →
    ∃ n r, (r = t.host.result ∨ r = .ok ∧ t.host.result = s.host.result) ∧
      Host.Core.run Sys2Proof.core n { s with agenda := List.replicate n (.thread k) } = .next { t with
        host := { t.host with result := s.host.result }
        threads := s.threads.set k
          { program := rest, todo := [], holds := [], scratch := Scratch.empty, result := r } }

/-- Accesses to the tables of different channels commute: two threads whose calls are each about to access their own
channel's tables leave the same state in either order of their turns (R82, R83, R240, R274). -/
def Obligations.AccessesOfDifferentChannelsCommute : Prop :=
  ∀ (s u : State) (k l : Nat) (c d : Chan) (th th' : Thread) (a a' : Action) (todo todo' : List Action)
    (turns : List Turn), k ≠ l → c ≠ d → ArenasOk s → Memory.wf s.mem = true → s.board.visibility = .sc →
    s.threads[k]? = some th → s.threads[l]? = some th' → th.todo = a :: todo → th'.todo = a' :: todo' →
    tableAccess c a → tableAccess d a' →
    Host.Core.run Sys2Proof.core 2 { s with agenda := .thread k :: .thread l :: turns } = .next u →
    Host.Core.run Sys2Proof.core 2 { s with agenda := .thread l :: .thread k :: turns } = .next u

/-- A call that needs what another thread's call in progress has locked is refused, the main thread's and a thread's alike:
the caller's lock is the premise, and of a run without it the spec describes nothing (R83, R240, R306, R309). A thread's call
that needs nothing another holds begins. A call holds the claims' lock no longer than its claim: with none of the claim's
accesses left it is free, and another call's claim may begin beside the first's table writes (R83, R240, R274). Which locks
a call takes is the model's choice (log 36). -/
def Obligations.ClashingCallsAreRefusedUntilReleased : Prop :=
  (∀ (i : Instr) (s : State) (locks : List Resource) (todo : List Action), callOfInstr i s = .go locks todo →
    ((∃ need ∈ locks, ∃ other ∈ s.threads, need ∈ other.holds) → exec i s = .refused .notSerialized) ∧
    ∀ (k : Nat) (th : Thread) (rest : List Word) (turns : List Turn), s.threads[k]? = some th → th.todo = [] →
      decode s.board .host th.program = .ok (i, rest) → s.agenda = .thread k :: turns →
      ((∃ need ∈ locks, ∃ other ∈ s.threads, need ∈ other.holds) → step s = .refused .notSerialized) ∧
      ((∀ need ∈ locks, ∀ other ∈ s.threads, need ∉ other.holds) → step s = .next { s with
        agenda := turns
        threads := s.threads.set k
          { th with program := rest, todo := todo, holds := locks, scratch := Scratch.empty } })) ∧
  (∀ (s t : State) (k : Nat) (th : Thread) (a : Action) (todo : List Action) (turns : List Turn),
    s.agenda = .thread k :: turns → s.threads[k]? = some th → th.todo = a :: todo → step s = .next t →
    (∀ p, .readSelect p ∉ todo ∧ .writeSelect p ∉ todo ∧ .recordClaim p ∉ todo) →
    ∃ th', t.threads[k]? = some th' ∧ .functionSelects ∉ th'.holds ∧
      ∀ c, .channel c ∈ th'.holds ↔ .channel c ∈ th.holds ∧ th'.todo ≠ [])

/-- Every step keeps the memory in its canonical form, every engine idle exactly when it is not active, and the FIFO no
fuller than it holds; and, where every engine is this process's, the FIFO at or below the request level (R45, R140, R314;
log 2). -/
def Obligations.StepKeepsTheStateSound : Prop :=
  ∀ s t : State, StateOk s → step s = .next t → StateOk t ∧ (Paced s → Paced t)

/-- Every step keeps every arena sound and the arenas apart (R43, R72, R74, R86, R110, R273). -/
def Obligations.StepKeepsTheArenasSound : Prop :=
  ∀ s t : State, ArenasOk s → step s = .next t → ArenasOk t

/-- Process start: the host's state as the spec gives it, an empty trace, nothing in memory, no write under way, no other
thread, and the invariants hold. The hardware's values there are the model's choice (log 1) (R48, R301). -/
def Obligations.ProcessStartIsSound : Prop :=
  StateOk State.reset ∧ Paced State.reset ∧ ArenasOk State.reset ∧ State.reset.host.windowsMapped = false ∧
  State.reset.host.clockConfigured = false ∧ State.reset.host.gpioSetup = 0 ∧ State.reset.trace = [] ∧
  State.reset.mem = [] ∧ State.reset.landing = [] ∧ State.reset.threads = [] ∧
  ∀ c, (State.reset.chan c).initialized = false ∧ (State.reset.chan c).pageMap = []

/-- Every step only appends to the trace, and the output latch after it is the latch before with the appended GPIO writes
played over it: pin levels are a function of the trace and the initial latch (R11, R36, R46). -/
def Obligations.TraceAccountsForTheLatch : Prop :=
  ∀ s t : State, step s = .next t → Accounted s t

/-- What a step never takes back: a claimed pin stays claimed, mapped windows stay mapped, a configured clock stays
configured with its increment, an initialized channel's record never changes, and no parameter changes (R6, R38, R39, R40,
R209). -/
def Obligations.HostContextOnlyGrows : Prop :=
  ∀ s t : State, step s = .next t →
    (∀ p, claimed s p = true → claimed t p = true) ∧
    (s.host.windowsMapped = true → t.host.windowsMapped = true) ∧
    (s.host.clockConfigured = true → t.host.clockConfigured = true ∧ t.host.incrementUs = s.host.incrementUs) ∧
    (∀ c, (s.chan c).initialized = true → t.chan c = s.chan c) ∧ t.board = s.board

end
end

