-- ==== Sys2Proof/Laws/State.lean ====
section
/-!
SUPPORT. The record lemmas of the state: for each named update, what it does to each field, and for the register files
what reading after an update gives. All are simp lemmas, so that no later proof unfolds an update.
-/

namespace Sys2Proof.Machine

/-! ## Reading a register file after writing it -/

/-- Reading one place of a register file after writing one. -/
theorem vector_get_set {α : Type} {n : Nat} (v : Vector α n) (i j : Fin n) (x : α) :
    (v.set i.val x i.isLt).get j = if i = j then x else v.get j := by
  have key : (v.set i.val x i.isLt)[j.val] = if i.val = j.val then x else v[j.val] := Vector.getElem_set ..
  by_cases h : i = j
  · subst h
    rw [if_pos rfl] at key
    rw [if_pos rfl]
    exact key
  · have hv : i.val ≠ j.val := fun hv => h (Fin.ext hv)
    rw [if_neg hv] at key
    rw [if_neg h]
    exact key

@[simp] theorem eng_setEng (s : State) (c c' : Chan) (e : DmaEngine) :
    (s.setEng c e).eng c' = if c = c' then e else s.eng c' := vector_get_set ..

@[simp] theorem chan_setChan (s : State) (c c' : Chan) (r : ChanRec) :
    (s.setChan c r).chan c' = if c = c' then r else s.chan c' := vector_get_set ..

@[simp] theorem fsel_setFsel (s : State) (n n' : Fin 6) (v : Word) :
    (s.setFsel n v).fsel n' = if n = n' then v else s.fsel n' := vector_get_set ..

@[simp] theorem setEng_setEng (s : State) (c : Chan) (e e' : DmaEngine) : (s.setEng c e).setEng c e' = s.setEng c e' := by
  simp [State.setEng]

@[simp] theorem setEng_eng_self (s : State) (c : Chan) : s.setEng c (s.eng c) = s := by
  simp [State.setEng, State.eng, Vector.get]

@[simp] theorem setChan_chan_self (s : State) (c : Chan) : s.setChan c (s.chan c) = s := by
  simp [State.setChan, State.chan, Vector.get]

/-! ## Fields of the named updates -/

@[simp] theorem setEng_pwm (s : State) (c : Chan) (e : DmaEngine) : (s.setEng c e).pwm = s.pwm := rfl
@[simp] theorem setEng_clk (s : State) (c : Chan) (e : DmaEngine) : (s.setEng c e).clk = s.clk := rfl
@[simp] theorem setEng_gpio (s : State) (c : Chan) (e : DmaEngine) : (s.setEng c e).gpio = s.gpio := rfl
@[simp] theorem setEng_mem (s : State) (c : Chan) (e : DmaEngine) : (s.setEng c e).mem = s.mem := rfl
@[simp] theorem setEng_host (s : State) (c : Chan) (e : DmaEngine) : (s.setEng c e).host = s.host := rfl
@[simp] theorem setEng_trace (s : State) (c : Chan) (e : DmaEngine) : (s.setEng c e).trace = s.trace := rfl
@[simp] theorem setEng_board (s : State) (c : Chan) (e : DmaEngine) : (s.setEng c e).board = s.board := rfl
@[simp] theorem setEng_landing (s : State) (c : Chan) (e : DmaEngine) : (s.setEng c e).landing = s.landing := rfl
@[simp] theorem setEng_threads (s : State) (c : Chan) (e : DmaEngine) : (s.setEng c e).threads = s.threads := rfl
@[simp] theorem setEng_program (s : State) (c : Chan) (e : DmaEngine) : (s.setEng c e).program = s.program := rfl
@[simp] theorem setEng_agenda (s : State) (c : Chan) (e : DmaEngine) : (s.setEng c e).agenda = s.agenda := rfl
@[simp] theorem setEng_env (s : State) (c : Chan) (e : DmaEngine) : (s.setEng c e).env = s.env := rfl
@[simp] theorem setEng_draws (s : State) (c : Chan) (e : DmaEngine) : (s.setEng c e).draws = s.draws := rfl
@[simp] theorem setEng_chan (s : State) (c : Chan) (e : DmaEngine) (d : Chan) : (s.setEng c e).chan d = s.chan d := rfl
@[simp] theorem setEng_fsel (s : State) (c : Chan) (e : DmaEngine) (i : Fin 6) : (s.setEng c e).fsel i = s.fsel i := rfl

@[simp] theorem setChan_dma (s : State) (c : Chan) (r : ChanRec) : (s.setChan c r).dma = s.dma := rfl
@[simp] theorem setChan_pwm (s : State) (c : Chan) (r : ChanRec) : (s.setChan c r).pwm = s.pwm := rfl
@[simp] theorem setChan_clk (s : State) (c : Chan) (r : ChanRec) : (s.setChan c r).clk = s.clk := rfl
@[simp] theorem setChan_gpio (s : State) (c : Chan) (r : ChanRec) : (s.setChan c r).gpio = s.gpio := rfl
@[simp] theorem setChan_mem (s : State) (c : Chan) (r : ChanRec) : (s.setChan c r).mem = s.mem := rfl
@[simp] theorem setChan_trace (s : State) (c : Chan) (r : ChanRec) : (s.setChan c r).trace = s.trace := rfl
@[simp] theorem setChan_board (s : State) (c : Chan) (r : ChanRec) : (s.setChan c r).board = s.board := rfl
@[simp] theorem setChan_landing (s : State) (c : Chan) (r : ChanRec) : (s.setChan c r).landing = s.landing := rfl
@[simp] theorem setChan_threads (s : State) (c : Chan) (r : ChanRec) : (s.setChan c r).threads = s.threads := rfl
@[simp] theorem setChan_program (s : State) (c : Chan) (r : ChanRec) : (s.setChan c r).program = s.program := rfl
@[simp] theorem setChan_agenda (s : State) (c : Chan) (r : ChanRec) : (s.setChan c r).agenda = s.agenda := rfl
@[simp] theorem setChan_env (s : State) (c : Chan) (r : ChanRec) : (s.setChan c r).env = s.env := rfl
@[simp] theorem setChan_draws (s : State) (c : Chan) (r : ChanRec) : (s.setChan c r).draws = s.draws := rfl
@[simp] theorem setChan_eng (s : State) (c : Chan) (r : ChanRec) (d : Chan) : (s.setChan c r).eng d = s.eng d := rfl
@[simp] theorem setChan_fsel (s : State) (c : Chan) (r : ChanRec) (i : Fin 6) : (s.setChan c r).fsel i = s.fsel i := rfl

@[simp] theorem setFsel_dma (s : State) (n : Fin 6) (v : Word) : (s.setFsel n v).dma = s.dma := rfl
@[simp] theorem setFsel_pwm (s : State) (n : Fin 6) (v : Word) : (s.setFsel n v).pwm = s.pwm := rfl
@[simp] theorem setFsel_clk (s : State) (n : Fin 6) (v : Word) : (s.setFsel n v).clk = s.clk := rfl
@[simp] theorem setFsel_mem (s : State) (n : Fin 6) (v : Word) : (s.setFsel n v).mem = s.mem := rfl
@[simp] theorem setFsel_host (s : State) (n : Fin 6) (v : Word) : (s.setFsel n v).host = s.host := rfl
@[simp] theorem setFsel_trace (s : State) (n : Fin 6) (v : Word) : (s.setFsel n v).trace = s.trace := rfl
@[simp] theorem setFsel_board (s : State) (n : Fin 6) (v : Word) : (s.setFsel n v).board = s.board := rfl
@[simp] theorem setFsel_landing (s : State) (n : Fin 6) (v : Word) : (s.setFsel n v).landing = s.landing := rfl
@[simp] theorem setFsel_threads (s : State) (n : Fin 6) (v : Word) : (s.setFsel n v).threads = s.threads := rfl
@[simp] theorem setFsel_program (s : State) (n : Fin 6) (v : Word) : (s.setFsel n v).program = s.program := rfl
@[simp] theorem setFsel_agenda (s : State) (n : Fin 6) (v : Word) : (s.setFsel n v).agenda = s.agenda := rfl
@[simp] theorem setFsel_env (s : State) (n : Fin 6) (v : Word) : (s.setFsel n v).env = s.env := rfl
@[simp] theorem setFsel_draws (s : State) (n : Fin 6) (v : Word) : (s.setFsel n v).draws = s.draws := rfl
@[simp] theorem setFsel_eng (s : State) (n : Fin 6) (v : Word) (d : Chan) : (s.setFsel n v).eng d = s.eng d := rfl
@[simp] theorem setFsel_chan (s : State) (n : Fin 6) (v : Word) (d : Chan) : (s.setFsel n v).chan d = s.chan d := rfl

@[simp] theorem setThread_dma (s : State) (k : Nat) (th : Thread) : (s.setThread k th).dma = s.dma := rfl
@[simp] theorem setThread_pwm (s : State) (k : Nat) (th : Thread) : (s.setThread k th).pwm = s.pwm := rfl
@[simp] theorem setThread_clk (s : State) (k : Nat) (th : Thread) : (s.setThread k th).clk = s.clk := rfl
@[simp] theorem setThread_gpio (s : State) (k : Nat) (th : Thread) : (s.setThread k th).gpio = s.gpio := rfl
@[simp] theorem setThread_mem (s : State) (k : Nat) (th : Thread) : (s.setThread k th).mem = s.mem := rfl
@[simp] theorem setThread_host (s : State) (k : Nat) (th : Thread) : (s.setThread k th).host = s.host := rfl
@[simp] theorem setThread_trace (s : State) (k : Nat) (th : Thread) : (s.setThread k th).trace = s.trace := rfl
@[simp] theorem setThread_board (s : State) (k : Nat) (th : Thread) : (s.setThread k th).board = s.board := rfl
@[simp] theorem setThread_landing (s : State) (k : Nat) (th : Thread) : (s.setThread k th).landing = s.landing := rfl
@[simp] theorem setThread_program (s : State) (k : Nat) (th : Thread) : (s.setThread k th).program = s.program := rfl
@[simp] theorem setThread_agenda (s : State) (k : Nat) (th : Thread) : (s.setThread k th).agenda = s.agenda := rfl
@[simp] theorem setThread_env (s : State) (k : Nat) (th : Thread) : (s.setThread k th).env = s.env := rfl
@[simp] theorem setThread_draws (s : State) (k : Nat) (th : Thread) : (s.setThread k th).draws = s.draws := rfl
@[simp] theorem setThread_eng (s : State) (k : Nat) (th : Thread) (d : Chan) : (s.setThread k th).eng d = s.eng d := rfl
@[simp] theorem setThread_chan (s : State) (k : Nat) (th : Thread) (d : Chan) :
    (s.setThread k th).chan d = s.chan d := rfl
@[simp] theorem setThread_fsel (s : State) (k : Nat) (th : Thread) (i : Fin 6) :
    (s.setThread k th).fsel i = s.fsel i := rfl

@[simp] theorem emit_dma (s : State) (e : Event) : (s.emit e).dma = s.dma := rfl
@[simp] theorem emit_pwm (s : State) (e : Event) : (s.emit e).pwm = s.pwm := rfl
@[simp] theorem emit_clk (s : State) (e : Event) : (s.emit e).clk = s.clk := rfl
@[simp] theorem emit_gpio (s : State) (e : Event) : (s.emit e).gpio = s.gpio := rfl
@[simp] theorem emit_mem (s : State) (e : Event) : (s.emit e).mem = s.mem := rfl
@[simp] theorem emit_host (s : State) (e : Event) : (s.emit e).host = s.host := rfl
@[simp] theorem emit_board (s : State) (e : Event) : (s.emit e).board = s.board := rfl
@[simp] theorem emit_landing (s : State) (e : Event) : (s.emit e).landing = s.landing := rfl
@[simp] theorem emit_threads (s : State) (e : Event) : (s.emit e).threads = s.threads := rfl
@[simp] theorem emit_program (s : State) (e : Event) : (s.emit e).program = s.program := rfl
@[simp] theorem emit_agenda (s : State) (e : Event) : (s.emit e).agenda = s.agenda := rfl
@[simp] theorem emit_env (s : State) (e : Event) : (s.emit e).env = s.env := rfl
@[simp] theorem emit_draws (s : State) (e : Event) : (s.emit e).draws = s.draws := rfl
@[simp] theorem emit_eng (s : State) (e : Event) (d : Chan) : (s.emit e).eng d = s.eng d := rfl
@[simp] theorem emit_chan (s : State) (e : Event) (d : Chan) : (s.emit e).chan d = s.chan d := rfl
@[simp] theorem emit_fsel (s : State) (e : Event) (i : Fin 6) : (s.emit e).fsel i = s.fsel i := rfl

@[simp] theorem answer_dma (s : State) (r : HostResult) : (s.answer r).dma = s.dma := rfl
@[simp] theorem answer_pwm (s : State) (r : HostResult) : (s.answer r).pwm = s.pwm := rfl
@[simp] theorem answer_clk (s : State) (r : HostResult) : (s.answer r).clk = s.clk := rfl
@[simp] theorem answer_gpio (s : State) (r : HostResult) : (s.answer r).gpio = s.gpio := rfl
@[simp] theorem answer_mem (s : State) (r : HostResult) : (s.answer r).mem = s.mem := rfl
@[simp] theorem answer_trace (s : State) (r : HostResult) : (s.answer r).trace = s.trace := rfl
@[simp] theorem answer_board (s : State) (r : HostResult) : (s.answer r).board = s.board := rfl
@[simp] theorem answer_landing (s : State) (r : HostResult) : (s.answer r).landing = s.landing := rfl
@[simp] theorem answer_threads (s : State) (r : HostResult) : (s.answer r).threads = s.threads := rfl
@[simp] theorem answer_program (s : State) (r : HostResult) : (s.answer r).program = s.program := rfl
@[simp] theorem answer_agenda (s : State) (r : HostResult) : (s.answer r).agenda = s.agenda := rfl
@[simp] theorem answer_env (s : State) (r : HostResult) : (s.answer r).env = s.env := rfl
@[simp] theorem answer_draws (s : State) (r : HostResult) : (s.answer r).draws = s.draws := rfl
@[simp] theorem answer_eng (s : State) (r : HostResult) (d : Chan) : (s.answer r).eng d = s.eng d := rfl
@[simp] theorem answer_chan (s : State) (r : HostResult) (d : Chan) : (s.answer r).chan d = s.chan d := rfl
@[simp] theorem answer_fsel (s : State) (r : HostResult) (i : Fin 6) : (s.answer r).fsel i = s.fsel i := rfl

@[simp] theorem gpioWrite_dma (a : Agent) (reg : GpioReg) (m : Word) (s : State) :
    (gpioWrite a reg m s).dma = s.dma := rfl
@[simp] theorem gpioWrite_pwm (a : Agent) (reg : GpioReg) (m : Word) (s : State) :
    (gpioWrite a reg m s).pwm = s.pwm := rfl
@[simp] theorem gpioWrite_clk (a : Agent) (reg : GpioReg) (m : Word) (s : State) :
    (gpioWrite a reg m s).clk = s.clk := rfl
@[simp] theorem gpioWrite_mem (a : Agent) (reg : GpioReg) (m : Word) (s : State) :
    (gpioWrite a reg m s).mem = s.mem := rfl
@[simp] theorem gpioWrite_host (a : Agent) (reg : GpioReg) (m : Word) (s : State) :
    (gpioWrite a reg m s).host = s.host := rfl
@[simp] theorem gpioWrite_board (a : Agent) (reg : GpioReg) (m : Word) (s : State) :
    (gpioWrite a reg m s).board = s.board := rfl
@[simp] theorem gpioWrite_landing (a : Agent) (reg : GpioReg) (m : Word) (s : State) :
    (gpioWrite a reg m s).landing = s.landing := rfl
@[simp] theorem gpioWrite_threads (a : Agent) (reg : GpioReg) (m : Word) (s : State) :
    (gpioWrite a reg m s).threads = s.threads := rfl
@[simp] theorem gpioWrite_program (a : Agent) (reg : GpioReg) (m : Word) (s : State) :
    (gpioWrite a reg m s).program = s.program := rfl
@[simp] theorem gpioWrite_agenda (a : Agent) (reg : GpioReg) (m : Word) (s : State) :
    (gpioWrite a reg m s).agenda = s.agenda := rfl
@[simp] theorem gpioWrite_env (a : Agent) (reg : GpioReg) (m : Word) (s : State) :
    (gpioWrite a reg m s).env = s.env := rfl
@[simp] theorem gpioWrite_draws (a : Agent) (reg : GpioReg) (m : Word) (s : State) :
    (gpioWrite a reg m s).draws = s.draws := rfl
@[simp] theorem gpioWrite_eng (a : Agent) (reg : GpioReg) (m : Word) (s : State) (d : Chan) :
    (gpioWrite a reg m s).eng d = s.eng d := rfl
@[simp] theorem gpioWrite_chan (a : Agent) (reg : GpioReg) (m : Word) (s : State) (d : Chan) :
    (gpioWrite a reg m s).chan d = s.chan d := rfl
@[simp] theorem gpioWrite_fsel (a : Agent) (reg : GpioReg) (m : Word) (s : State) (i : Fin 6) :
    (gpioWrite a reg m s).fsel i = s.fsel i := rfl

@[simp] theorem advance_pwm (c : Chan) (next : Word) (s : State) : (advance c next s).pwm = s.pwm := rfl
@[simp] theorem advance_clk (c : Chan) (next : Word) (s : State) : (advance c next s).clk = s.clk := rfl
@[simp] theorem advance_gpio (c : Chan) (next : Word) (s : State) : (advance c next s).gpio = s.gpio := rfl
@[simp] theorem advance_mem (c : Chan) (next : Word) (s : State) : (advance c next s).mem = s.mem := rfl
@[simp] theorem advance_host (c : Chan) (next : Word) (s : State) : (advance c next s).host = s.host := rfl
@[simp] theorem advance_trace (c : Chan) (next : Word) (s : State) : (advance c next s).trace = s.trace := rfl
@[simp] theorem advance_board (c : Chan) (next : Word) (s : State) : (advance c next s).board = s.board := rfl
@[simp] theorem advance_landing (c : Chan) (next : Word) (s : State) : (advance c next s).landing = s.landing := rfl
@[simp] theorem advance_threads (c : Chan) (next : Word) (s : State) : (advance c next s).threads = s.threads := rfl
@[simp] theorem advance_program (c : Chan) (next : Word) (s : State) : (advance c next s).program = s.program := rfl
@[simp] theorem advance_agenda (c : Chan) (next : Word) (s : State) : (advance c next s).agenda = s.agenda := rfl
@[simp] theorem advance_env (c : Chan) (next : Word) (s : State) : (advance c next s).env = s.env := rfl
@[simp] theorem advance_draws (c : Chan) (next : Word) (s : State) : (advance c next s).draws = s.draws := rfl
@[simp] theorem advance_chan (c : Chan) (next : Word) (s : State) (d : Chan) :
    (advance c next s).chan d = s.chan d := rfl
@[simp] theorem advance_fsel (c : Chan) (next : Word) (s : State) (i : Fin 6) :
    (advance c next s).fsel i = s.fsel i := rfl

@[simp] theorem stopEngine_pwm (c : Chan) (s : State) : (stopEngine c s).pwm = s.pwm := rfl
@[simp] theorem stopEngine_clk (c : Chan) (s : State) : (stopEngine c s).clk = s.clk := rfl
@[simp] theorem stopEngine_gpio (c : Chan) (s : State) : (stopEngine c s).gpio = s.gpio := rfl
@[simp] theorem stopEngine_mem (c : Chan) (s : State) : (stopEngine c s).mem = s.mem := rfl
@[simp] theorem stopEngine_host (c : Chan) (s : State) : (stopEngine c s).host = s.host := rfl
@[simp] theorem stopEngine_trace (c : Chan) (s : State) : (stopEngine c s).trace = s.trace := rfl
@[simp] theorem stopEngine_board (c : Chan) (s : State) : (stopEngine c s).board = s.board := rfl
@[simp] theorem stopEngine_landing (c : Chan) (s : State) : (stopEngine c s).landing = s.landing := rfl
@[simp] theorem stopEngine_threads (c : Chan) (s : State) : (stopEngine c s).threads = s.threads := rfl
@[simp] theorem stopEngine_program (c : Chan) (s : State) : (stopEngine c s).program = s.program := rfl
@[simp] theorem stopEngine_agenda (c : Chan) (s : State) : (stopEngine c s).agenda = s.agenda := rfl
@[simp] theorem stopEngine_env (c : Chan) (s : State) : (stopEngine c s).env = s.env := rfl
@[simp] theorem stopEngine_draws (c : Chan) (s : State) : (stopEngine c s).draws = s.draws := rfl
@[simp] theorem stopEngine_chan (c : Chan) (s : State) (d : Chan) : (stopEngine c s).chan d = s.chan d := rfl
@[simp] theorem stopEngine_fsel (c : Chan) (s : State) (i : Fin 6) : (stopEngine c s).fsel i = s.fsel i := rfl

@[simp] theorem paceTick_dma (s : State) : (paceTick s).dma = s.dma := rfl
@[simp] theorem paceTick_clk (s : State) : (paceTick s).clk = s.clk := rfl
@[simp] theorem paceTick_gpio (s : State) : (paceTick s).gpio = s.gpio := rfl
@[simp] theorem paceTick_mem (s : State) : (paceTick s).mem = s.mem := rfl
@[simp] theorem paceTick_host (s : State) : (paceTick s).host = s.host := rfl
@[simp] theorem paceTick_board (s : State) : (paceTick s).board = s.board := rfl
@[simp] theorem paceTick_landing (s : State) : (paceTick s).landing = s.landing := rfl
@[simp] theorem paceTick_threads (s : State) : (paceTick s).threads = s.threads := rfl
@[simp] theorem paceTick_program (s : State) : (paceTick s).program = s.program := rfl
@[simp] theorem paceTick_agenda (s : State) : (paceTick s).agenda = s.agenda := rfl
@[simp] theorem paceTick_env (s : State) : (paceTick s).env = s.env := rfl
@[simp] theorem paceTick_draws (s : State) : (paceTick s).draws = s.draws := rfl
@[simp] theorem paceTick_eng (s : State) (d : Chan) : (paceTick s).eng d = s.eng d := rfl
@[simp] theorem paceTick_chan (s : State) (d : Chan) : (paceTick s).chan d = s.chan d := rfl
@[simp] theorem paceTick_fsel (s : State) (i : Fin 6) : (paceTick s).fsel i = s.fsel i := rfl

@[simp] theorem pushed_dma (c : Chan) (s : State) : (pushed c s).dma = s.dma := rfl
@[simp] theorem pushed_clk (c : Chan) (s : State) : (pushed c s).clk = s.clk := rfl
@[simp] theorem pushed_gpio (c : Chan) (s : State) : (pushed c s).gpio = s.gpio := rfl
@[simp] theorem pushed_mem (c : Chan) (s : State) : (pushed c s).mem = s.mem := rfl
@[simp] theorem pushed_host (c : Chan) (s : State) : (pushed c s).host = s.host := rfl
@[simp] theorem pushed_board (c : Chan) (s : State) : (pushed c s).board = s.board := rfl
@[simp] theorem pushed_landing (c : Chan) (s : State) : (pushed c s).landing = s.landing := rfl
@[simp] theorem pushed_threads (c : Chan) (s : State) : (pushed c s).threads = s.threads := rfl
@[simp] theorem pushed_program (c : Chan) (s : State) : (pushed c s).program = s.program := rfl
@[simp] theorem pushed_agenda (c : Chan) (s : State) : (pushed c s).agenda = s.agenda := rfl
@[simp] theorem pushed_env (c : Chan) (s : State) : (pushed c s).env = s.env := rfl
@[simp] theorem pushed_draws (c : Chan) (s : State) : (pushed c s).draws = s.draws := rfl
@[simp] theorem pushed_eng (c : Chan) (s : State) (d : Chan) : (pushed c s).eng d = s.eng d := rfl
@[simp] theorem pushed_chan (c : Chan) (s : State) (d : Chan) : (pushed c s).chan d = s.chan d := rfl
@[simp] theorem pushed_fsel (c : Chan) (s : State) (i : Fin 6) : (pushed c s).fsel i = s.fsel i := rfl

@[simp] theorem clearDebug_pwm (c : Chan) (s : State) : (clearDebug c s).pwm = s.pwm := rfl
@[simp] theorem clearDebug_clk (c : Chan) (s : State) : (clearDebug c s).clk = s.clk := rfl
@[simp] theorem clearDebug_gpio (c : Chan) (s : State) : (clearDebug c s).gpio = s.gpio := rfl
@[simp] theorem clearDebug_mem (c : Chan) (s : State) : (clearDebug c s).mem = s.mem := rfl
@[simp] theorem clearDebug_host (c : Chan) (s : State) : (clearDebug c s).host = s.host := rfl
@[simp] theorem clearDebug_trace (c : Chan) (s : State) : (clearDebug c s).trace = s.trace := rfl
@[simp] theorem clearDebug_board (c : Chan) (s : State) : (clearDebug c s).board = s.board := rfl
@[simp] theorem clearDebug_landing (c : Chan) (s : State) : (clearDebug c s).landing = s.landing := rfl
@[simp] theorem clearDebug_threads (c : Chan) (s : State) : (clearDebug c s).threads = s.threads := rfl
@[simp] theorem clearDebug_program (c : Chan) (s : State) : (clearDebug c s).program = s.program := rfl
@[simp] theorem clearDebug_agenda (c : Chan) (s : State) : (clearDebug c s).agenda = s.agenda := rfl
@[simp] theorem clearDebug_env (c : Chan) (s : State) : (clearDebug c s).env = s.env := rfl
@[simp] theorem clearDebug_draws (c : Chan) (s : State) : (clearDebug c s).draws = s.draws := rfl
@[simp] theorem clearDebug_chan (c : Chan) (s : State) (d : Chan) : (clearDebug c s).chan d = s.chan d := rfl
@[simp] theorem clearDebug_fsel (c : Chan) (s : State) (i : Fin 6) : (clearDebug c s).fsel i = s.fsel i := rfl

@[simp] theorem startEngine_pwm (c : Chan) (s : State) : (startEngine c s).pwm = s.pwm := rfl
@[simp] theorem startEngine_clk (c : Chan) (s : State) : (startEngine c s).clk = s.clk := rfl
@[simp] theorem startEngine_gpio (c : Chan) (s : State) : (startEngine c s).gpio = s.gpio := rfl
@[simp] theorem startEngine_mem (c : Chan) (s : State) : (startEngine c s).mem = s.mem := rfl
@[simp] theorem startEngine_host (c : Chan) (s : State) : (startEngine c s).host = s.host := rfl
@[simp] theorem startEngine_trace (c : Chan) (s : State) : (startEngine c s).trace = s.trace := rfl
@[simp] theorem startEngine_board (c : Chan) (s : State) : (startEngine c s).board = s.board := rfl
@[simp] theorem startEngine_landing (c : Chan) (s : State) : (startEngine c s).landing = s.landing := rfl
@[simp] theorem startEngine_threads (c : Chan) (s : State) : (startEngine c s).threads = s.threads := rfl
@[simp] theorem startEngine_program (c : Chan) (s : State) : (startEngine c s).program = s.program := rfl
@[simp] theorem startEngine_agenda (c : Chan) (s : State) : (startEngine c s).agenda = s.agenda := rfl
@[simp] theorem startEngine_env (c : Chan) (s : State) : (startEngine c s).env = s.env := rfl
@[simp] theorem startEngine_draws (c : Chan) (s : State) : (startEngine c s).draws = s.draws := rfl
@[simp] theorem startEngine_chan (c : Chan) (s : State) (d : Chan) : (startEngine c s).chan d = s.chan d := rfl
@[simp] theorem startEngine_fsel (c : Chan) (s : State) (i : Fin 6) : (startEngine c s).fsel i = s.fsel i := rfl

@[simp] theorem resetChannel_pwm (c : Chan) (s : State) : (resetChannel c s).pwm = s.pwm := rfl
@[simp] theorem resetChannel_clk (c : Chan) (s : State) : (resetChannel c s).clk = s.clk := rfl
@[simp] theorem resetChannel_gpio (c : Chan) (s : State) : (resetChannel c s).gpio = s.gpio := rfl
@[simp] theorem resetChannel_mem (c : Chan) (s : State) : (resetChannel c s).mem = s.mem := rfl
@[simp] theorem resetChannel_host (c : Chan) (s : State) : (resetChannel c s).host = s.host := rfl
@[simp] theorem resetChannel_trace (c : Chan) (s : State) : (resetChannel c s).trace = s.trace := rfl
@[simp] theorem resetChannel_board (c : Chan) (s : State) : (resetChannel c s).board = s.board := rfl
@[simp] theorem resetChannel_landing (c : Chan) (s : State) : (resetChannel c s).landing = s.landing := rfl
@[simp] theorem resetChannel_threads (c : Chan) (s : State) : (resetChannel c s).threads = s.threads := rfl
@[simp] theorem resetChannel_program (c : Chan) (s : State) : (resetChannel c s).program = s.program := rfl
@[simp] theorem resetChannel_agenda (c : Chan) (s : State) : (resetChannel c s).agenda = s.agenda := rfl
@[simp] theorem resetChannel_env (c : Chan) (s : State) : (resetChannel c s).env = s.env := rfl
@[simp] theorem resetChannel_chan (c : Chan) (s : State) (d : Chan) : (resetChannel c s).chan d = s.chan d := rfl
@[simp] theorem resetChannel_fsel (c : Chan) (s : State) (i : Fin 6) : (resetChannel c s).fsel i = s.fsel i := rfl

@[simp] theorem markMapped_dma (s : State) : (markMapped s).dma = s.dma := rfl
@[simp] theorem markMapped_pwm (s : State) : (markMapped s).pwm = s.pwm := rfl
@[simp] theorem markMapped_clk (s : State) : (markMapped s).clk = s.clk := rfl
@[simp] theorem markMapped_gpio (s : State) : (markMapped s).gpio = s.gpio := rfl
@[simp] theorem markMapped_mem (s : State) : (markMapped s).mem = s.mem := rfl
@[simp] theorem markMapped_trace (s : State) : (markMapped s).trace = s.trace := rfl
@[simp] theorem markMapped_board (s : State) : (markMapped s).board = s.board := rfl
@[simp] theorem markMapped_landing (s : State) : (markMapped s).landing = s.landing := rfl
@[simp] theorem markMapped_threads (s : State) : (markMapped s).threads = s.threads := rfl
@[simp] theorem markMapped_program (s : State) : (markMapped s).program = s.program := rfl
@[simp] theorem markMapped_agenda (s : State) : (markMapped s).agenda = s.agenda := rfl
@[simp] theorem markMapped_env (s : State) : (markMapped s).env = s.env := rfl
@[simp] theorem markMapped_draws (s : State) : (markMapped s).draws = s.draws := rfl
@[simp] theorem markMapped_eng (s : State) (d : Chan) : (markMapped s).eng d = s.eng d := rfl
@[simp] theorem markMapped_chan (s : State) (d : Chan) : (markMapped s).chan d = s.chan d := rfl
@[simp] theorem markMapped_fsel (s : State) (i : Fin 6) : (markMapped s).fsel i = s.fsel i := rfl

@[simp] theorem markClaimed_dma (p : Pin) (s : State) : (markClaimed p s).dma = s.dma := rfl
@[simp] theorem markClaimed_pwm (p : Pin) (s : State) : (markClaimed p s).pwm = s.pwm := rfl
@[simp] theorem markClaimed_clk (p : Pin) (s : State) : (markClaimed p s).clk = s.clk := rfl
@[simp] theorem markClaimed_gpio (p : Pin) (s : State) : (markClaimed p s).gpio = s.gpio := rfl
@[simp] theorem markClaimed_mem (p : Pin) (s : State) : (markClaimed p s).mem = s.mem := rfl
@[simp] theorem markClaimed_trace (p : Pin) (s : State) : (markClaimed p s).trace = s.trace := rfl
@[simp] theorem markClaimed_board (p : Pin) (s : State) : (markClaimed p s).board = s.board := rfl
@[simp] theorem markClaimed_landing (p : Pin) (s : State) : (markClaimed p s).landing = s.landing := rfl
@[simp] theorem markClaimed_threads (p : Pin) (s : State) : (markClaimed p s).threads = s.threads := rfl
@[simp] theorem markClaimed_program (p : Pin) (s : State) : (markClaimed p s).program = s.program := rfl
@[simp] theorem markClaimed_agenda (p : Pin) (s : State) : (markClaimed p s).agenda = s.agenda := rfl
@[simp] theorem markClaimed_env (p : Pin) (s : State) : (markClaimed p s).env = s.env := rfl
@[simp] theorem markClaimed_draws (p : Pin) (s : State) : (markClaimed p s).draws = s.draws := rfl
@[simp] theorem markClaimed_eng (p : Pin) (s : State) (d : Chan) : (markClaimed p s).eng d = s.eng d := rfl
@[simp] theorem markClaimed_chan (p : Pin) (s : State) (d : Chan) : (markClaimed p s).chan d = s.chan d := rfl
@[simp] theorem markClaimed_fsel (p : Pin) (s : State) (i : Fin 6) : (markClaimed p s).fsel i = s.fsel i := rfl

@[simp] theorem markConfigured_dma (inc : Int) (s : State) : (markConfigured inc s).dma = s.dma := rfl
@[simp] theorem markConfigured_pwm (inc : Int) (s : State) : (markConfigured inc s).pwm = s.pwm := rfl
@[simp] theorem markConfigured_clk (inc : Int) (s : State) : (markConfigured inc s).clk = s.clk := rfl
@[simp] theorem markConfigured_gpio (inc : Int) (s : State) : (markConfigured inc s).gpio = s.gpio := rfl
@[simp] theorem markConfigured_mem (inc : Int) (s : State) : (markConfigured inc s).mem = s.mem := rfl
@[simp] theorem markConfigured_trace (inc : Int) (s : State) : (markConfigured inc s).trace = s.trace := rfl
@[simp] theorem markConfigured_board (inc : Int) (s : State) : (markConfigured inc s).board = s.board := rfl
@[simp] theorem markConfigured_landing (inc : Int) (s : State) : (markConfigured inc s).landing = s.landing := rfl
@[simp] theorem markConfigured_threads (inc : Int) (s : State) : (markConfigured inc s).threads = s.threads := rfl
@[simp] theorem markConfigured_program (inc : Int) (s : State) : (markConfigured inc s).program = s.program := rfl
@[simp] theorem markConfigured_agenda (inc : Int) (s : State) : (markConfigured inc s).agenda = s.agenda := rfl
@[simp] theorem markConfigured_env (inc : Int) (s : State) : (markConfigured inc s).env = s.env := rfl
@[simp] theorem markConfigured_draws (inc : Int) (s : State) : (markConfigured inc s).draws = s.draws := rfl
@[simp] theorem markConfigured_eng (inc : Int) (s : State) (d : Chan) : (markConfigured inc s).eng d = s.eng d := rfl
@[simp] theorem markConfigured_chan (inc : Int) (s : State) (d : Chan) : (markConfigured inc s).chan d = s.chan d := rfl
@[simp] theorem markConfigured_fsel (inc : Int) (s : State) (i : Fin 6) :
    (markConfigured inc s).fsel i = s.fsel i := rfl

@[simp] theorem markInitialized_dma (c : Chan) (s : State) : (markInitialized c s).dma = s.dma := rfl
@[simp] theorem markInitialized_pwm (c : Chan) (s : State) : (markInitialized c s).pwm = s.pwm := rfl
@[simp] theorem markInitialized_clk (c : Chan) (s : State) : (markInitialized c s).clk = s.clk := rfl
@[simp] theorem markInitialized_gpio (c : Chan) (s : State) : (markInitialized c s).gpio = s.gpio := rfl
@[simp] theorem markInitialized_mem (c : Chan) (s : State) : (markInitialized c s).mem = s.mem := rfl
@[simp] theorem markInitialized_trace (c : Chan) (s : State) : (markInitialized c s).trace = s.trace := rfl
@[simp] theorem markInitialized_board (c : Chan) (s : State) : (markInitialized c s).board = s.board := rfl
@[simp] theorem markInitialized_landing (c : Chan) (s : State) : (markInitialized c s).landing = s.landing := rfl
@[simp] theorem markInitialized_threads (c : Chan) (s : State) : (markInitialized c s).threads = s.threads := rfl
@[simp] theorem markInitialized_program (c : Chan) (s : State) : (markInitialized c s).program = s.program := rfl
@[simp] theorem markInitialized_agenda (c : Chan) (s : State) : (markInitialized c s).agenda = s.agenda := rfl
@[simp] theorem markInitialized_env (c : Chan) (s : State) : (markInitialized c s).env = s.env := rfl
@[simp] theorem markInitialized_draws (c : Chan) (s : State) : (markInitialized c s).draws = s.draws := rfl
@[simp] theorem markInitialized_eng (c : Chan) (s : State) (d : Chan) : (markInitialized c s).eng d = s.eng d := rfl
@[simp] theorem markInitialized_fsel (c : Chan) (s : State) (i : Fin 6) : (markInitialized c s).fsel i = s.fsel i := rfl

@[simp] theorem drawn_dma (s : State) : s.drawn.dma = s.dma := rfl
@[simp] theorem drawn_pwm (s : State) : s.drawn.pwm = s.pwm := rfl
@[simp] theorem drawn_clk (s : State) : s.drawn.clk = s.clk := rfl
@[simp] theorem drawn_gpio (s : State) : s.drawn.gpio = s.gpio := rfl
@[simp] theorem drawn_mem (s : State) : s.drawn.mem = s.mem := rfl
@[simp] theorem drawn_host (s : State) : s.drawn.host = s.host := rfl
@[simp] theorem drawn_trace (s : State) : s.drawn.trace = s.trace := rfl
@[simp] theorem drawn_board (s : State) : s.drawn.board = s.board := rfl
@[simp] theorem drawn_landing (s : State) : s.drawn.landing = s.landing := rfl
@[simp] theorem drawn_threads (s : State) : s.drawn.threads = s.threads := rfl
@[simp] theorem drawn_program (s : State) : s.drawn.program = s.program := rfl
@[simp] theorem drawn_agenda (s : State) : s.drawn.agenda = s.agenda := rfl
@[simp] theorem drawn_env (s : State) : s.drawn.env = s.env := rfl
@[simp] theorem drawn_draws (s : State) : s.drawn.draws = s.draws + 1 := rfl
@[simp] theorem drawn_eng (s : State) (d : Chan) : s.drawn.eng d = s.eng d := rfl
@[simp] theorem drawn_chan (s : State) (d : Chan) : s.drawn.chan d = s.chan d := rfl
@[simp] theorem drawn_fsel (s : State) (i : Fin 6) : s.drawn.fsel i = s.fsel i := rfl

@[simp] theorem emit_trace (s : State) (e : Event) : (s.emit e).trace = s.trace ++ [e] := rfl
@[simp] theorem answer_result (s : State) (r : HostResult) : (s.answer r).host.result = r := rfl
@[simp] theorem answer_windowsMapped (s : State) (r : HostResult) :
    (s.answer r).host.windowsMapped = s.host.windowsMapped := rfl
@[simp] theorem answer_clockConfigured (s : State) (r : HostResult) :
    (s.answer r).host.clockConfigured = s.host.clockConfigured := rfl
@[simp] theorem answer_incrementUs (s : State) (r : HostResult) : (s.answer r).host.incrementUs = s.host.incrementUs := rfl
@[simp] theorem answer_gpioSetup (s : State) (r : HostResult) : (s.answer r).host.gpioSetup = s.host.gpioSetup := rfl
@[simp] theorem gpioWrite_out (a : Agent) (reg : GpioReg) (m : Word) (s : State) :
    (gpioWrite a reg m s).gpio.out = latchAfter reg s.gpio.out m := rfl
@[simp] theorem gpioWrite_trace (a : Agent) (reg : GpioReg) (m : Word) (s : State) :
    (gpioWrite a reg m s).trace = s.trace ++ [.gpioWrite a reg m] := rfl
@[simp] theorem gpioWrite_gpio_fsel (a : Agent) (reg : GpioReg) (m : Word) (s : State) :
    (gpioWrite a reg m s).gpio.fsel = s.gpio.fsel := rfl
@[simp] theorem paceTick_trace (s : State) : (paceTick s).trace = s.trace ++ [.paceTick] := rfl
@[simp] theorem paceTick_fifoLevel (s : State) : (paceTick s).pwm.fifoLevel = s.pwm.fifoLevel - 1 := rfl
@[simp] theorem pushed_trace (c : Chan) (s : State) : (pushed c s).trace = s.trace ++ [.fifoWrite c] := rfl
@[simp] theorem pushed_fifoLevel (c : Chan) (s : State) : (pushed c s).pwm.fifoLevel = s.pwm.fifoLevel + 1 := rfl
@[simp] theorem pushed_ctl (c : Chan) (s : State) : (pushed c s).pwm.ctl = s.pwm.ctl := rfl
@[simp] theorem pushed_dmac (c : Chan) (s : State) : (pushed c s).pwm.dmac = s.pwm.dmac := rfl
@[simp] theorem pushed_rng1 (c : Chan) (s : State) : (pushed c s).pwm.rng1 = s.pwm.rng1 := rfl
@[simp] theorem paceTick_ctl (s : State) : (paceTick s).pwm.ctl = s.pwm.ctl := rfl
@[simp] theorem paceTick_dmac (s : State) : (paceTick s).pwm.dmac = s.pwm.dmac := rfl
@[simp] theorem paceTick_rng1 (s : State) : (paceTick s).pwm.rng1 = s.pwm.rng1 := rfl
@[simp] theorem setFsel_out (s : State) (n : Fin 6) (v : Word) : (s.setFsel n v).gpio.out = s.gpio.out := rfl
@[simp] theorem markMapped_windowsMapped (s : State) : (markMapped s).host.windowsMapped = true := rfl
@[simp] theorem markClaimed_gpioSetup (p : Pin) (s : State) :
    (markClaimed p s).host.gpioSetup = s.host.gpioSetup ||| pinBit p.val := rfl
@[simp] theorem markClaimed_windowsMapped (p : Pin) (s : State) :
    (markClaimed p s).host.windowsMapped = s.host.windowsMapped := rfl
@[simp] theorem setChan_windowsMapped (s : State) (c : Chan) (r : ChanRec) :
    (s.setChan c r).host.windowsMapped = s.host.windowsMapped := rfl
@[simp] theorem setChan_clockConfigured (s : State) (c : Chan) (r : ChanRec) :
    (s.setChan c r).host.clockConfigured = s.host.clockConfigured := rfl
@[simp] theorem setChan_incrementUs (s : State) (c : Chan) (r : ChanRec) :
    (s.setChan c r).host.incrementUs = s.host.incrementUs := rfl
@[simp] theorem setChan_gpioSetup (s : State) (c : Chan) (r : ChanRec) :
    (s.setChan c r).host.gpioSetup = s.host.gpioSetup := rfl
@[simp] theorem setChan_result (s : State) (c : Chan) (r : ChanRec) : (s.setChan c r).host.result = s.host.result := rfl
@[simp] theorem markConfigured_windowsMapped (inc : Int) (s : State) :
    (markConfigured inc s).host.windowsMapped = s.host.windowsMapped := rfl
@[simp] theorem touch_eq (j : Nat) (s : State) : touch j s = s := rfl
@[simp] theorem settle_eq (us : Nat) (s : State) : settle us s = s := rfl

/-- An engine after an advance. -/
@[simp] theorem eng_advance (c d : Chan) (next : Word) (s : State) :
    (advance c next s).eng d = if c = d then { s.eng c with conblkAd := next, phase := .fetch } else s.eng d := by
  simp [advance]

/-- An engine after a stop. -/
@[simp] theorem eng_stopEngine (c d : Chan) (s : State) :
    (stopEngine c s).eng d =
      if c = d then { s.eng c with cs := { (s.eng c).cs with active := false, endFlag := true }, phase := .idle }
      else s.eng d := by
  simp [stopEngine]

/-- An engine after the start. -/
@[simp] theorem eng_startEngine (c d : Chan) (s : State) :
    (startEngine c s).eng d =
      if c = d then { s.eng c with
        cs := { (s.eng c).cs with waitForOutstandingWrites := true, panicPriority := s.board.regs.midPriority,
                                  priority := s.board.regs.midPriority, active := true, disdebug := false }
        phase := .fetch }
      else s.eng d := by
  simp [startEngine]

/-- An engine after a reset. -/
@[simp] theorem eng_resetChannel (c d : Chan) (s : State) :
    (resetChannel c s).eng d = if c = d then resetEngine (s.eng c) s.draws else s.eng d := by
  have h : (resetChannel c s).eng d = (s.setEng c (resetEngine (s.eng c) s.draws)).eng d := rfl
  rw [h, eng_setEng]

/-- A channel record after a channel is initialized. -/
@[simp] theorem chan_markInitialized (c d : Chan) (s : State) :
    (markInitialized c s).chan d = if c = d then { s.chan c with initialized := true } else s.chan d := by
  simp [markInitialized]

/-! ## The register files under the other fields' updates -/

@[simp] theorem eng_withAgenda (s : State) (a : List Turn) (c : Chan) : State.eng { s with agenda := a } c = s.eng c := rfl
@[simp] theorem eng_withProgram (s : State) (p : List Word) (c : Chan) :
    State.eng { s with program := p } c = s.eng c := rfl
@[simp] theorem eng_withMem (s : State) (m : Memory) (c : Chan) : State.eng { s with mem := m } c = s.eng c := rfl
@[simp] theorem chan_withAgenda (s : State) (a : List Turn) (c : Chan) :
    State.chan { s with agenda := a } c = s.chan c := rfl
@[simp] theorem chan_withProgram (s : State) (p : List Word) (c : Chan) :
    State.chan { s with program := p } c = s.chan c := rfl
@[simp] theorem chan_withMem (s : State) (m : Memory) (c : Chan) : State.chan { s with mem := m } c = s.chan c := rfl

/-! ## Sequencing -/

@[simp] theorem andThen_next (s : State) (f : State → Outcome) : andThen (.next s) f = f s := rfl
@[simp] theorem andThen_fault (r : Fault) (f : State → Outcome) : andThen (.fault r) f = .fault r := rfl
@[simp] theorem andThen_refused (r : Refusal) (f : State → Outcome) : andThen (.refused r) f = .refused r := rfl

/-- A sequence answers a next state exactly when both its parts do. -/
theorem andThen_eq_next {o : Outcome} {f : State → Outcome} {t : State} :
    andThen o f = .next t ↔ ∃ u, o = .next u ∧ f u = .next t := by
  cases o <;> simp [andThen]

theorem andThen_assoc (o : Outcome) (f g : State → Outcome) :
    andThen (andThen o f) g = andThen o fun s => andThen (f s) g := by
  cases o <;> rfl

end Sys2Proof.Machine
end

