-- ==== Sys2Proof/Laws/Memory.lean ====
section
/-!
SUPPORT. Memory (log 2): every operation keeps the canonical form; a read after a write; words of four bytes; clearing a
range; equal reads make equal memories.
-/

namespace Sys2Proof.Machine

/-! ## The canonical form -/

theorem Memory.wfFrom_mono {lo lo' : Nat} {m : Memory} (h : Memory.wfFrom lo m = true) (hl : lo' ≤ lo) :
    Memory.wfFrom lo' m = true := by
  cases m with
  | nil => rfl
  | cons cell m =>
    obtain ⟨a, b⟩ := cell
    simp only [Memory.wfFrom, Bool.and_eq_true, decide_eq_true_eq] at h ⊢
    exact ⟨⟨by omega, h.1.2⟩, h.2⟩

/-- Below the addresses a memory lists, it reads 0. -/
theorem Memory.read_below {lo x : Nat} {m : Memory} (h : Memory.wfFrom lo m = true) (hx : x < lo) :
    Memory.read m x = 0 := by
  induction m generalizing lo with
  | nil => rfl
  | cons cell m ih =>
    obtain ⟨a, b⟩ := cell
    simp only [Memory.wfFrom, Bool.and_eq_true, decide_eq_true_eq] at h
    have hne : a ≠ x := by omega
    simpa [Memory.read, hne] using ih h.2 (by omega)

theorem Memory.wfFrom_write {lo x : Nat} {m : Memory} (h : Memory.wfFrom lo m = true) (hx : lo ≤ x) (v : Byte) :
    Memory.wfFrom lo (Memory.write m x v) = true := by
  induction m generalizing lo with
  | nil =>
    unfold Memory.write
    split <;> simp_all [Memory.wfFrom]
  | cons cell m ih =>
    obtain ⟨a, b⟩ := cell
    have h' := h
    simp only [Memory.wfFrom, Bool.and_eq_true, decide_eq_true_eq] at h'
    unfold Memory.write
    split
    · split
      · exact h
      · next hlt hv =>
        simp only [Memory.wfFrom, Bool.and_eq_true, decide_eq_true_eq]
        exact ⟨⟨hx, by simpa using hv⟩, ⟨by omega, h'.1.2⟩, h'.2⟩
    · split
      · split
        · exact Memory.wfFrom_mono h'.2 (by omega)
        · next heq hv =>
          simp only [Memory.wfFrom, Bool.and_eq_true, decide_eq_true_eq]
          exact ⟨⟨by omega, by simpa using hv⟩, Memory.wfFrom_mono h'.2 (by omega)⟩
      · simp only [Memory.wfFrom, Bool.and_eq_true, decide_eq_true_eq]
        exact ⟨h'.1, ih h'.2 (by omega)⟩

/-- Writing a byte keeps the canonical form. -/
theorem Memory.wf_write {m : Memory} (h : Memory.wf m = true) (x : Nat) (v : Byte) :
    Memory.wf (Memory.write m x v) = true :=
  Memory.wfFrom_write h (Nat.zero_le x) v

/-- Writing a word keeps the canonical form. -/
theorem Memory.wf_writeWord {m : Memory} (h : Memory.wf m = true) (pa : Nat) (v : Word) :
    Memory.wf (Memory.writeWord m pa v) = true :=
  Memory.wf_write (Memory.wf_write (Memory.wf_write (Memory.wf_write h _ _) _ _) _ _) _ _

theorem Memory.wfFrom_clearRange {lo : Nat} {m : Memory} (h : Memory.wfFrom lo m = true) (base n : Nat) :
    Memory.wfFrom lo (Memory.clearRange m base n) = true := by
  induction m generalizing lo with
  | nil => rfl
  | cons cell m ih =>
    obtain ⟨a, b⟩ := cell
    simp only [Memory.wfFrom, Bool.and_eq_true, decide_eq_true_eq] at h
    have hrest := ih h.2
    unfold Memory.clearRange at hrest ⊢
    rw [List.filter_cons]
    split
    · simp only [Memory.wfFrom, Bool.and_eq_true, decide_eq_true_eq]
      exact ⟨h.1, hrest⟩
    · exact Memory.wfFrom_mono hrest (by omega)

/-- Clearing a range keeps the canonical form. -/
theorem Memory.wf_clearRange {m : Memory} (h : Memory.wf m = true) (base n : Nat) :
    Memory.wf (Memory.clearRange m base n) = true :=
  Memory.wfFrom_clearRange h base n

/-- Clearing pages keeps the canonical form. -/
theorem Memory.wf_clearPages {b : Board} {m : Memory} (h : Memory.wf m = true) (pages : List Word) :
    Memory.wf (Memory.clearPages b m pages) = true := by
  induction pages generalizing m with
  | nil => exact h
  | cons page pages ih => exact ih (Memory.wf_clearRange h _ _)

/-! ## Reads after writes -/

theorem Memory.read_write_from {lo : Nat} {m : Memory} (h : Memory.wfFrom lo m = true) (x y : Nat) (v : Byte) :
    Memory.read (Memory.write m x v) y = if x = y then v else Memory.read m y := by
  induction m generalizing lo with
  | nil =>
    unfold Memory.write
    split <;> by_cases hxy : x = y <;> simp_all [Memory.read]
  | cons cell m ih =>
    obtain ⟨a, b⟩ := cell
    have h' := h
    simp only [Memory.wfFrom, Bool.and_eq_true, decide_eq_true_eq] at h'
    unfold Memory.write
    split
    · next hlt =>
      split
      · next hv =>
        split
        · next hxy =>
          subst hxy
          have hna : ¬ a = x := by omega
          have := Memory.read_below (x := x) h'.2 (by omega)
          simp [Memory.read, hna, this, hv]
        · rfl
      · simp [Memory.read]
    · split
      · next hlt heq =>
        subst heq
        split
        · next hv =>
          split
          · next hxy =>
            subst hxy
            rw [Memory.read_below h'.2 (by omega), hv]
          · next hxy => simp [Memory.read, hxy]
        · next hv =>
          by_cases hxy : x = y <;> simp [Memory.read, hxy]
      · next hlt hne =>
        simp only [Memory.read]
        by_cases hay : a = y
        · have : ¬ x = y := by omega
          simp [hay, this]
        · simp only [hay, if_false]
          exact ih h'.2

/-- Reading a byte after writing one. -/
theorem Memory.read_write {m : Memory} (h : Memory.wf m = true) (x y : Nat) (v : Byte) :
    Memory.read (Memory.write m x v) y = if x = y then v else Memory.read m y :=
  Memory.read_write_from h x y v

/-- Reading a byte after writing a word: the bytes of the word, little-endian, and the others as before. -/
theorem Memory.read_writeWord {m : Memory} (h : Memory.wf m = true) (pa y : Nat) (v : Word) :
    Memory.read (Memory.writeWord m pa v) y =
      if pa + 3 = y then v.extractLsb' 24 8
      else if pa + 2 = y then v.extractLsb' 16 8
      else if pa + 1 = y then v.extractLsb' 8 8
      else if pa = y then v.extractLsb' 0 8
      else Memory.read m y := by
  have h1 := Memory.wf_write h pa (v.extractLsb' 0 8)
  have h2 := Memory.wf_write h1 (pa + 1) (v.extractLsb' 8 8)
  have h3 := Memory.wf_write h2 (pa + 2) (v.extractLsb' 16 8)
  unfold Memory.writeWord
  rw [Memory.read_write h3, Memory.read_write h2, Memory.read_write h1, Memory.read_write h]

/-- A byte outside a written word is as before. -/
theorem Memory.read_writeWord_other {m : Memory} (h : Memory.wf m = true) {pa y : Nat} (v : Word)
    (hy : y < pa ∨ pa + 4 ≤ y) : Memory.read (Memory.writeWord m pa v) y = Memory.read m y := by
  rw [Memory.read_writeWord h, if_neg (by omega), if_neg (by omega), if_neg (by omega), if_neg (by omega)]

/-- The four bytes of a word make the word. -/
theorem word_of_bytes (v : Word) :
    (v.extractLsb' 24 8 ++ v.extractLsb' 16 8 ++ v.extractLsb' 8 8 ++ v.extractLsb' 0 8 : Word) = v := by
  apply BitVec.eq_of_getLsbD_eq
  intro i hi
  simp only [BitVec.getLsbD_append, BitVec.getLsbD_extractLsb']
  split
  · next h => simp [h]
  · split
    · next h1 h2 => simp [h2, show 8 + (i - 8) = i by omega]
    · split
      · next h1 h2 h3 => simp [h3, show 16 + (i - 8 - 8) = i by omega]
      · next h1 h2 h3 => simp [show i - 8 - 8 - 8 < 8 by omega, show 24 + (i - 8 - 8 - 8) = i by omega]

/-- Reading the word just written. -/
theorem Memory.readWord_writeWord_same {m : Memory} (h : Memory.wf m = true) (pa : Nat) (v : Word) :
    Memory.readWord (Memory.writeWord m pa v) pa = v := by
  unfold Memory.readWord
  simp only [Memory.read_writeWord h]
  simp [word_of_bytes]

/-- Reading a word apart from the one written. -/
theorem Memory.readWord_writeWord_other {m : Memory} (h : Memory.wf m = true) {pa pa' : Nat} (v : Word)
    (hd : pa' + 4 ≤ pa ∨ pa + 4 ≤ pa') :
    Memory.readWord (Memory.writeWord m pa v) pa' = Memory.readWord m pa' := by
  unfold Memory.readWord
  rw [Memory.read_writeWord_other h v (by omega), Memory.read_writeWord_other h v (by omega),
    Memory.read_writeWord_other h v (by omega), Memory.read_writeWord_other h v (by omega)]

/-! ## Clearing -/

/-- A cleared range reads 0, the rest as before. -/
theorem Memory.read_clearRange (m : Memory) (lo n y : Nat) :
    Memory.read (Memory.clearRange m lo n) y = if lo ≤ y ∧ y < lo + n then 0 else Memory.read m y := by
  induction m with
  | nil => simp [Memory.clearRange, Memory.read]
  | cons cell m ih =>
    obtain ⟨a, b⟩ := cell
    unfold Memory.clearRange at ih ⊢
    rw [List.filter_cons]
    split
    · next hk =>
      simp only [Bool.or_eq_true, decide_eq_true_eq] at hk
      simp only [Memory.read]
      by_cases hay : a = y
      · have : ¬ (lo ≤ y ∧ y < lo + n) := by omega
        simp [hay, this]
      · simpa [hay] using ih
    · next hk =>
      simp only [Bool.or_eq_true, decide_eq_true_eq, not_or] at hk
      rw [ih]
      by_cases hay : a = y
      · have : lo ≤ y ∧ y < lo + n := by omega
        simp [this]
      · simp [Memory.read, hay]

/-- After clearing pages, a byte of one of them reads 0 and any other as before. -/
theorem Memory.read_clearPages (b : Board) (m : Memory) (pages : List Word) (y : Nat) :
    Memory.read (Memory.clearPages b m pages) y =
      if ∃ page ∈ pages, physicalOf b page ≤ y ∧ y < physicalOf b page + pageSize b then 0 else Memory.read m y := by
  induction pages generalizing m with
  | nil => simp [Memory.clearPages]
  | cons page pages ih =>
    simp only [Memory.clearPages]
    rw [ih, Memory.read_clearRange]
    by_cases h1 : ∃ p ∈ pages, physicalOf b p ≤ y ∧ y < physicalOf b p + pageSize b
    · have h2 : ∃ p ∈ page :: pages, physicalOf b p ≤ y ∧ y < physicalOf b p + pageSize b := by
        obtain ⟨p, hp, h⟩ := h1
        exact ⟨p, List.mem_cons_of_mem _ hp, h⟩
      rw [if_pos h1, if_pos h2]
    · rw [if_neg h1]
      by_cases h3 : physicalOf b page ≤ y ∧ y < physicalOf b page + pageSize b
      · rw [if_pos h3, if_pos ⟨page, List.mem_cons_self, h3⟩]
      · rw [if_neg h3, if_neg]
        rintro ⟨p, hp, h⟩
        rcases List.mem_cons.mp hp with rfl | hp
        · exact h3 h
        · exact h1 ⟨p, hp, h⟩

/-! ## Canonicity -/

/-- Two memories in canonical form that read alike are equal data. -/
theorem Memory.ext_of_read {lo : Nat} {m m' : Memory} (h : Memory.wfFrom lo m = true) (h' : Memory.wfFrom lo m' = true)
    (hr : ∀ y, Memory.read m y = Memory.read m' y) : m = m' := by
  induction m generalizing lo m' with
  | nil =>
    cases m' with
    | nil => rfl
    | cons cell m' =>
      obtain ⟨a, b⟩ := cell
      simp only [Memory.wfFrom, Bool.and_eq_true, decide_eq_true_eq] at h'
      have := hr a
      simp [Memory.read] at this
      simp [← this] at h'
  | cons cell m ih =>
    obtain ⟨a, b⟩ := cell
    simp only [Memory.wfFrom, Bool.and_eq_true, decide_eq_true_eq] at h
    cases m' with
    | nil =>
      have := hr a
      simp [Memory.read] at this
      simp [this] at h
    | cons cell' m' =>
      obtain ⟨a', b'⟩ := cell'
      simp only [Memory.wfFrom, Bool.and_eq_true, decide_eq_true_eq] at h'
      have haa : a = a' := by
        rcases Nat.lt_trichotomy a a' with hlt | heq | hgt
        · have hz := Memory.read_below (x := a) h'.2 (by omega)
          have := hr a
          have hne : ¬ a' = a := by omega
          simp [Memory.read, hne, hz] at this
          simp [this] at h
        · exact heq
        · have hz := Memory.read_below (x := a') h.2 (by omega)
          have := hr a'
          have hne : ¬ a = a' := by omega
          simp [Memory.read, hne, hz] at this
          simp [← this] at h'
      subst haa
      have hb : b = b' := by simpa [Memory.read] using hr a
      subst hb
      have : m = m' := ih h.2 h'.2 fun y => by
        by_cases hy : a = y
        · subst hy
          rw [Memory.read_below h.2 (by omega), Memory.read_below h'.2 (by omega)]
        · have := hr y
          simpa [Memory.read, hy] using this
      rw [this]

end Sys2Proof.Machine
end

