-- ==== Sys2Proof/Laws/Changes.lean ====
section
/-!
SUPPORT. What a step can do, said once: every step is a sequence of elementary changes, listed here. An invariant of the
machine is proved by a case for each of them, never by unfolding the step.
-/

namespace Sys2Proof.Machine

/-- The elementary changes of state, each with the condition it happens under. -/
inductive Change : State → State → Prop
  -- the model's own fields
  | agenda (s : State) (a : List Turn) : Change s { s with agenda := a }
  | program (s : State) (p : List Word) : Change s { s with program := p }
  | env (s : State) (e : Env) : Change s { s with env := e }
  | landing (s : State) (l : List HostWrite) : Change s { s with landing := l }
  | thread (s : State) (k : Nat) (th : Thread) : Change s (s.setThread k th)
  -- engine and pacer
  | load (s : State) (c : Chan) (b : ControlBlock) : (s.eng c).runs = true → (s.eng c).phase = .fetch →
      Change s (s.setEng c ((s.eng c).load b))
  | latch (s : State) (c : Chan) (w : Word) : (s.eng c).runs = true → (s.eng c).phase = .exec →
      Change s (s.setEng c { s.eng c with data := w, phase := .write })
  | mask (s : State) (c : Chan) (reg : GpioReg) (next : Word) : (s.eng c).runs = true → (s.eng c).phase = .write →
      Change s (advance c next (gpioWrite (.dma c) reg (s.eng c).data s))
  | push (s : State) (c : Chan) (next : Word) : (s.eng c).runs = true → (s.eng c).phase = .write → dreq s = true →
      Change s (advance c next (pushed c s))
  | stop (s : State) (c : Chan) : (s.eng c).runs = true → (s.eng c).phase = .fetch → (s.eng c).conblkAd = 0 →
      Change s (stopEngine c s)
  | tick (s : State) : pacerRunning s = true → Change s (paceTick s)
  -- an engine left by an earlier process
  | foreignMask (s : State) (c : Chan) (reg : GpioReg) (v : Word) : (s.eng c).foreign = true →
      Change s (gpioWrite (.dma c) reg v s)
  | foreignPush (s : State) (c : Chan) : (s.eng c).foreign = true → s.pwm.fifoLevel < s.board.fifoCap →
      Change s (pushed c s)
  | foreignWord (s : State) (c : Chan) (a v : Word) : (s.eng c).foreign = true → foreignWritable s a = true →
      Change s { s with mem := Memory.writeWord s.mem (physicalOf s.board a) v }
  -- register commands
  | event (s : State) (w : Window) (off : Nat) (v : Word) : Change s (s.emit (.regWrite w off v))
  | inFlightMask (s : State) (c : Chan) (reg : GpioReg) : (s.eng c).runs = true → (s.eng c).phase = .write →
      Change s (gpioWrite (.dma c) reg (s.eng c).data s)
  | inFlightPush (s : State) (c : Chan) : (s.eng c).runs = true → (s.eng c).phase = .write → dreq s = true →
      Change s (pushed c s)
  | reset (s : State) (c : Chan) : Change s (resetChannel c s)
  | clrdbg (s : State) (c : Chan) : Change s (clearDebug c s)
  | setcb (s : State) (c : Chan) (a : Word) : (s.eng c).cs.active = false →
      Change s (s.setEng c { s.eng c with conblkAd := a })
  | start (s : State) (c : Chan) : Change s (startEngine c s)
  | drawn (s : State) : Change s s.drawn
  | pwm (s : State) (p : Pwm) : p.fifoLevel = s.pwm.fifoLevel ∨ p.fifoLevel = 0 → Change s { s with pwm := p }
  | clk (s : State) (k : Clk) : Change s { s with clk := k }
  | fsel (s : State) (n : Fin 6) (v : Word) : Change s (s.setFsel n v)
  | hostGpio (s : State) (reg : GpioReg) (m : Word) : Change s (gpioWrite .host reg m s)
  -- host memory
  | word (s : State) (pa : Nat) (v : Word) : Change s { s with mem := Memory.writeWord s.mem pa v }
  | clear (s : State) (pages : List Word) : exactPages s pages = true →
      Change s { s with mem := Memory.clearPages s.board s.mem pages }
  -- host context
  | answer (s : State) (r : HostResult) : Change s (s.answer r)
  | mapped (s : State) : Change s (markMapped s)
  | clock (s : State) (inc : Int) : s.host.clockConfigured = false → Change s (markConfigured inc s)
  | claim (s : State) (p : Pin) : Change s (markClaimed p s)
  | layout (s : State) (c : Chan) (sub : Int) (n base : Nat) (pages : List Word) : (s.chan c).initialized = false →
      1 ≤ n → pages.length = pageCountOf s.board n → exactPages s pages = true →
      Change s (s.setChan c (layoutOf s.board c sub n base pages))
  | initialized (s : State) (c : Chan) : (s.chan c).pageMap ≠ [] → Change s (markInitialized c s)

/-- A run of elementary changes. -/
abbrev Changes : State → State → Prop := Relation.ReflTransGen Change

/-- Where `f` answers a next state, it has made a run of changes. -/
def MakesChanges (f : State → Outcome) : Prop := ∀ s t, f s = .next t → Changes s t

theorem changes_andThen {o : Outcome} {f : State → Outcome} {s t : State} (ho : ∀ u, o = .next u → Changes s u)
    (hf : MakesChanges f) (h : andThen o f = .next t) : Changes s t := by
  obtain ⟨u, hu, ht⟩ := andThen_eq_next.mp h
  exact (ho u hu).trans (hf u t ht)

/-! ## Engine and pacer turns -/

theorem fetchHalf_changes {c : Chan} {b : ControlBlock} {ok : Bool} {s t : State} (ha : (s.eng c).runs = true)
    (hp : (s.eng c).phase = .fetch) (h : fetchHalf c b ok s = .next t) : Changes s t := by
  unfold fetchHalf at h
  split at h
  · cases h; exact .single (.load s c b ha hp)
  · cases h

theorem readHalf_changes {c : Chan} {src : Word} {s t : State} (ha : (s.eng c).runs = true)
    (hp : (s.eng c).phase = .exec) (h : readHalf c src s = .next t) : Changes s t := by
  unfold readHalf busRead at h
  split at h
  · cases h; exact .single (.latch s c _ ha hp)
  · cases h

/-- WHAT A BUS WRITE CAN DO: a mask to a GPIO register, or a push into a FIFO that has room. -/
theorem busWrite_eq_next {c : Chan} {ba v : Word} {s t : State} (h : busWrite c ba v s = .next t) :
    (∃ reg, t = gpioWrite (.dma c) reg v s) ∨ (ba = s.board.fifo ∧ s.pwm.fifoLevel < s.board.fifoCap ∧ t = pushed c s) := by
  unfold busWrite fifoPush at h
  split at h
  · cases h; exact .inl ⟨.set0, rfl⟩
  · split at h
    · cases h; exact .inl ⟨.clr0, rfl⟩
    · split at h
      · next hf =>
        split at h
        · next hc => cases h; exact .inr ⟨hf, hc, rfl⟩
        · cases h
      · cases h

/-- At a GPIO register's address a mask is written, on a board with the two registers apart to that register
(`busWrite_busAddress`). -/
theorem busWrite_register (c : Chan) (reg : GpioReg) (v : Word) (s : State) :
    ∃ reg', busWrite c (reg.busAddress s.board) v s = .next (gpioWrite (.dma c) reg' v s) := by
  cases reg
  · exact ⟨.set0, by simp [busWrite, GpioReg.busAddress]⟩
  · by_cases h : s.board.gpClr = s.board.gpSet
    · exact ⟨.set0, by simp [busWrite, GpioReg.busAddress, h]⟩
    · exact ⟨.clr0, by simp [busWrite, GpioReg.busAddress, h]⟩

/-- The set and the clear register are apart in the DMA view too. -/
theorem gpSet_ne_gpClr {b : Board} (h : RegistersOk b) : b.gpSet ≠ b.gpClr := by
  have h1 := h.short b.gpioLen (by simp)
  have h2 := h.gpio b.regs.gpioSet0 (by simp)
  have h3 := h.gpio b.regs.gpioClr0 (by simp)
  have h4 := h.gpioApart
  intro e
  have e' : BitVec.ofNat 32 b.regs.gpioSet0 = BitVec.ofNat 32 b.regs.gpioClr0 := by
    unfold Board.gpSet Board.gpClr at e
    bv_omega
  have := congrArg BitVec.toNat e'
  simp only [BitVec.toNat_ofNat] at this
  omega

/-- A GPIO register is reached by its own address. -/
theorem busWrite_busAddress (c : Chan) (reg : GpioReg) (v : Word) {s : State} (h : RegistersOk s.board) :
    busWrite c (reg.busAddress s.board) v s = .next (gpioWrite (.dma c) reg v s) := by
  cases reg
  · simp [busWrite, GpioReg.busAddress]
  · simp [busWrite, GpioReg.busAddress, (gpSet_ne_gpClr h).symm]

theorem execCba_changes (c : Chan) (src : Word) (dst : GpioReg) (next : Word) : MakesChanges (execCba c src dst next) := by
  intro s t h
  unfold execCba at h
  split at h
  · next ha =>
    split at h
    · cases h; exact .refl
    · next hp => exact fetchHalf_changes ha hp h
    · next hp => exact readHalf_changes ha hp h
    · next hp =>
      obtain ⟨reg, hreg⟩ := busWrite_register c dst (s.eng c).data s
      rw [writeHalf, hreg] at h
      cases h; exact .single (.mask s c reg next ha hp)
  · cases h; exact .refl

theorem execCbb_changes (c : Chan) (src next : Word) : MakesChanges (execCbb c src next) := by
  intro s t h
  unfold execCbb at h
  split at h
  · next ha =>
    split at h
    · cases h; exact .refl
    · next hp => exact fetchHalf_changes ha hp h
    · next hp => exact readHalf_changes ha hp h
    · next hp =>
      split at h
      · next hd =>
        obtain ⟨u, hu, ht⟩ := andThen_eq_next.mp h
        cases ht
        obtain ⟨reg, rfl⟩ | ⟨-, -, rfl⟩ := busWrite_eq_next hu
        · exact .single (.mask s c reg next ha hp)
        · exact .single (.push s c next ha hp hd)
      · cases h; exact .refl
  · cases h; exact .refl

theorem execCbx_changes (c : Chan) (raw : ControlBlock) : MakesChanges (execCbx c raw) := by
  intro s t h
  unfold execCbx at h
  split at h
  · next ha =>
    split at h
    · cases h; exact .refl
    · next hp =>
      split at h
      · next h0 => cases h; exact .single (.stop s c ha hp h0)
      · cases h
    · cases h
    · cases h
  · cases h; exact .refl

theorem engineTurn_changes (c : Chan) : MakesChanges (engineTurn c) := by
  intro s t h
  unfold engineTurn at h
  split at h
  · split at h
    · cases h
    · exact execCba_changes _ _ _ _ s t h
    · exact execCbb_changes _ _ _ s t h
    · exact execCbx_changes _ _ s t h
  · cases h; exact .refl

theorem paceTurn_changes : MakesChanges paceTurn := by
  intro s t h
  unfold paceTurn at h
  cases h
  split
  · next hr => exact .single (.tick s hr)
  · exact .refl

theorem foreignWrite_changes (c : Chan) (a v : Word) : MakesChanges (foreignWrite c a v) := by
  intro s t h
  unfold foreignWrite at h
  split at h
  · next hf =>
    have hf : (s.eng c).foreign = true := (Bool.and_eq_true _ _ ▸ hf).2
    split at h
    · next hw => cases h; exact .single (.foreignWord s c a v hf hw)
    · obtain ⟨reg, rfl⟩ | ⟨-, hc, rfl⟩ := busWrite_eq_next h
      · exact .single (.foreignMask s c reg v hf)
      · exact .single (.foreignPush s c hf hc)
  · cases h; exact .refl

/-! ## Host writes -/

theorem resolveInFlight_changes (c : Chan) (s : State) : Changes s (resolveInFlight c s) := by
  unfold resolveInFlight
  split
  · next hc =>
    simp only [Bool.and_eq_true, decide_eq_true_eq] at hc
    unfold inFlightWrite
    split
    · exact .single (.inFlightMask s c _ hc.1.1 hc.1.2)
    · split
      · next hd => exact .single (.inFlightPush s c hc.1.1 hc.1.2 hd)
      · exact .refl
    · exact .refl
  · exact .refl

theorem logged_changes {w : Window} {off : Nat} {v : Word} {s u t : State} (hs : Changes s u)
    (h : logged w off v u = .next t) : Changes s t := by
  cases h; exact hs.tail (.event u w off v)

/-- WHAT A HOST WRITE CAN DO where it lands. -/
theorem land_changes (w : HostWrite) : MakesChanges (land w) := by
  intro s t h
  cases w with
  | dmaReset c => exact logged_changes ((resolveInFlight_changes c s).tail (.reset _ c)) h
  | dmaClrdbg c => exact logged_changes (.single (.clrdbg s c)) h
  | dmaSetcb c a =>
    simp only [land] at h
    split at h
    · cases h
    · next ha => exact logged_changes (.single (.setcb s c a (by simpa using ha))) h
  | dmaStart c => exact logged_changes (.single (.start s c)) h
  | pwmOff => refine logged_changes (.single ?_) h; exact .pwm s _ (.inl rfl)
  | clkSrc => exact logged_changes (.single (.clk s _)) h
  | clkDiv => exact logged_changes (.single (.clk s _)) h
  | clkOn => exact logged_changes (.single (.clk s _)) h
  | pwmRng v => refine logged_changes (.single ?_) h; exact .pwm s _ (.inl rfl)
  | pwmDmac => refine logged_changes (.single ?_) h; exact .pwm s _ (.inl rfl)
  | pwmClrf => refine logged_changes (.single ?_) h; exact .pwm s _ (.inr rfl)
  | pwmOn => refine logged_changes (.single ?_) h; exact .pwm s _ (.inl rfl)
  | fsel n v => exact logged_changes (.single (.fsel s n v)) h
  | gpio reg m => cases h; exact .single (.hostGpio s reg m)
  | arena pa v => cases h; exact .single (.word s pa v)

theorem issue_changes (w : HostWrite) : MakesChanges (issue w) := by
  intro s t h
  unfold issue at h
  split at h
  · exact land_changes w s t h
  · cases h; exact .single (.landing s _)

theorem landOldest_changes : MakesChanges landOldest := by
  intro s t h
  unfold landOldest at h
  split at h
  · next w rest _ _ => exact .head (.landing s rest) (land_changes w _ t h)
  · cases h; exact .refl

theorem command_changes (w : HostWrite) : MakesChanges (command w) := by
  intro s t h
  unfold command throughWindow at h
  split at h
  · obtain ⟨u, hu, ht⟩ := andThen_eq_next.mp h
    cases ht
    exact issue_changes w s u hu
  · cases h

theorem setHeadTo_changes (c : Chan) (a : Word) : MakesChanges (setHeadTo c a) := by
  intro s t h
  unfold setHeadTo at h
  split at h
  · exact command_changes _ s t h
  · cases h

theorem arenaWrite_changes (c : Chan) (off : Nat) (v : Word) : MakesChanges (arenaWrite c off v) := by
  intro s t h
  unfold arenaWrite atArena at h
  split at h
  · cases h
  · split at h
    · exact issue_changes _ s t h
    · cases h

/-! ## Accesses of the host operations -/

/-- The state an access goes on in, or ends in. -/
def Did.state : Did → Option State
  | .went _ s => some s
  | .ended _ s => some s
  | .fault _ => none
  | .refused _ => none

@[simp] theorem Did.state_of (x : Scratch) (o : Outcome) (t : State) :
    (Did.of x o).state = some t ↔ o = .next t := by
  cases o <;> simp [Did.of, Did.state]

theorem takePages_changes {x : Scratch} {s t : State} {k : State → Did}
    (hk : ∀ u, exactPages u x.pages = true → u.chan = s.chan → u.board = s.board → (k u).state = some t → Changes u t)
    (h : (takePages x s k).state = some t) : Changes s t := by
  unfold takePages at h
  split at h
  · next he => exact .head (.clear s x.pages he) (hk _ he rfl rfl h)
  · cases h

/-- WHAT AN ACCESS CAN DO: a run of elementary changes. -/
theorem perform_changes (a : Action) {x : Scratch} {s t : State} (h : (perform a x s).state = some t) : Changes s t := by
  cases a with
  | write w => exact command_changes w s t ((Did.state_of _ _ _).mp h)
  | readSelect p =>
    simp only [perform, throughWindowDid] at h
    split at h
    · cases h; exact .single (.drawn s)
    · cases h
  | writeSelect p => exact command_changes _ s t ((Did.state_of _ _ _).mp h)
  | readRegister n =>
    simp only [perform, throughWindowDid] at h
    split at h
    · cases h; exact .single (.drawn s)
    · cases h
  | recordClaim p => cases h; exact .single (.claim s p)
  | readSample c i =>
    simp only [perform, arenaRead] at h
    split at h
    · cases h
    · split at h
      · cases h; exact .refl
      · cases h
  | setSample c p i => exact arenaWrite_changes _ _ _ s t ((Did.state_of _ _ _).mp h)
  | clearSample c p i => exact arenaWrite_changes _ _ _ s t ((Did.state_of _ _ _).mp h)
  | retarget c i reg => exact arenaWrite_changes _ _ _ s t ((Did.state_of _ _ _).mp h)
  | mapWindow base => simp only [perform] at h; split at h <;> (cases h; exact .refl)
  | recordWindows => cases h; exact .single (.mapped s)
  | makeRegion => simp only [perform] at h; split at h <;> (cases h; exact .refl)
  | touchPage j => cases h; exact .refl
  | resolvePage j =>
    simp only [perform, resolve] at h
    split at h
    · cases h; exact .refl
    · cases h
    · cases h; exact .refl
  | recordArena c sub n =>
    simp only [perform, recordArena] at h
    split at h
    · cases h
    · next hi =>
      split at h
      · cases h
      · next hn =>
        refine takePages_changes (fun u he hc hb hu => ?_) h
        cases hu
        rw [← hc] at hi
        exact .single (.layout u c sub n x.virtBase x.pages (by simpa using hi) (by omega)
          (by rw [hb]; by_contra hl; exact hn (.inr hl)) he)
  | handArena => exact takePages_changes (fun u _ _ _ hu => by cases hu; exact .refl) h
  | writeField c k f =>
    simp only [perform] at h
    split at h
    · cases h
    · exact arenaWrite_changes _ _ _ s t ((Did.state_of _ _ _).mp h)
  | setHead c =>
    simp only [perform] at h
    split at h
    · cases h
    · exact setHeadTo_changes _ _ s t ((Did.state_of _ _ _).mp h)
  | recordClock inc =>
    simp only [perform] at h
    split at h
    · cases h
    · next hc => cases h; exact .single (.clock s inc (by simpa using hc))
  | recordChannel c =>
    simp only [perform] at h
    split at h
    · cases h
    · next hc => cases h; exact .single (.initialized s c hc)

/-! ## Threads, turns, calls -/

theorem beginNext_changes (busy : List Resource) (k : Nat) (th : Thread) : MakesChanges (beginNext busy k th) := by
  intro s t h
  unfold beginNext at h
  split at h
  · cases h; exact .refl
  · cases h
  · split at h
    · cases h; exact .single (.thread s k _)
    · cases h
    · split at h
      · cases h; exact .single (.thread s k _)
      · cases h

theorem threadTurn_changes (busy : List Resource) (k : Nat) : MakesChanges (threadTurn busy k) := by
  intro s t h
  unfold threadTurn at h
  split at h
  · cases h; exact .refl
  · next th _ =>
    split at h
    · exact beginNext_changes busy k _ s t h
    · next a todo _ =>
      have hp := fun u => perform_changes a (x := th.scratch) (s := s) (t := u)
      split at h
      · next x u hu => cases h; exact (hp u (by rw [hu]; rfl)).tail (.thread u k _)
      · next r u hu => cases h; exact (hp u (by rw [hu]; rfl)).tail (.thread u k _)
      · cases h
      · cases h

theorem otherTurn_changes (busy : List Resource) (turn : Turn) : MakesChanges (otherTurn busy turn) := by
  intro s t h
  cases turn with
  | engine c => exact engineTurn_changes c s t h
  | pacer => exact paceTurn_changes s t h
  | host => cases h; exact .refl
  | thread k => exact threadTurn_changes busy k s t h
  | land => exact landOldest_changes s t h
  | foreign c a v => exact foreignWrite_changes c a v s t h
  | env e => cases h; exact .single (.env s e)

theorem runAgenda_changes (busy : List Resource) (turns : List Turn) : MakesChanges (runAgenda busy turns) := by
  induction turns with
  | nil => intro s t h; cases h; exact .single (.agenda s [])
  | cons turn rest ih =>
    intro s t h
    unfold runAgenda at h
    split at h
    · cases h; exact .single (.agenda s rest)
    · exact changes_andThen (otherTurn_changes busy turn s) ih h

theorem hostTurn_changes (busy : List Resource) : MakesChanges (hostTurn busy) := fun s => runAgenda_changes busy s.agenda s

theorem runActions_changes (busy : List Resource) {finish : State → Outcome} (hf : MakesChanges finish)
    (todo : List Action) (x : Scratch) : MakesChanges (runActions busy finish todo x) := by
  induction todo generalizing busy x with
  | nil => exact hf
  | cons a todo ih =>
    intro s t h
    refine changes_andThen (hostTurn_changes busy s) (fun u v hv => ?_) h
    have hp := fun w => perform_changes a (x := x) (s := u) (t := w)
    split at hv
    · next y w hw => exact (hp w (by rw [hw]; rfl)).trans (ih _ y w v hv)
    · next r w hw => cases hv; exact (hp w (by rw [hw]; rfl)).tail (.answer w r)
    · cases hv
    · cases hv

theorem runCall_changes {finish : State → Outcome} (hf : MakesChanges finish) (call : Call) :
    MakesChanges (runCall finish call) := by
  intro s t h
  unfold runCall at h
  split at h
  · cases h; exact .single (.answer s _)
  · cases h
  · split at h
    · exact runActions_changes _ hf _ _ s t h
    · cases h

theorem succeed_changes : MakesChanges succeed := by
  intro s t h; cases h; exact .single (.answer s _)

theorem runOperation_changes {call : Call} {s t : State} (h : runCall succeed call s = .next t) : Changes s t :=
  runCall_changes succeed_changes call s t h

/-! ## Every instruction, every step -/

/-- WHAT AN INSTRUCTION CAN DO: a run of elementary changes. -/
theorem exec_changes (i : Instr) {s t : State} (h : exec i s = .next t) : Changes s t := by
  cases i with
  | cba c src dst next => exact execCba_changes c src dst next s t h
  | cbb c src next => exact execCbb_changes c src next s t h
  | cbx c raw => exact execCbx_changes c raw s t h
  | dmaReset c => exact command_changes _ s t h
  | dmaClrdbg c => exact command_changes _ s t h
  | dmaSetcb c a => exact setHeadTo_changes c a s t h
  | dmaStart c => exact command_changes _ s t h
  | pwmOff => exact command_changes _ s t h
  | clkSrc => exact command_changes _ s t h
  | clkDiv => exact command_changes _ s t h
  | clkOn => exact command_changes _ s t h
  | pwmRng v => exact command_changes _ s t h
  | pwmDmac => exact command_changes _ s t h
  | pwmClrf => exact command_changes _ s t h
  | pwmOn => exact command_changes _ s t h
  | gpioFselOut p => exact runCall_changes (fun u v hv => by cases hv; exact .refl) _ s t h
  | gpioSet m => exact command_changes _ s t h
  | gpioClr m => exact command_changes _ s t h
  | gpioFselRd n =>
    replace h : execGpioFselRd n s = .next t := h
    unfold execGpioFselRd throughWindow at h
    split at h
    · cases h; exact .head (.answer s _) (.single (.drawn _))
    · cases h
  | settle us => cases h; exact .refl
  | initEngine inc => exact runOperation_changes h
  | initChannel channel sub => exact runOperation_changes h
  | addChannelPulse channel g a w => exact runOperation_changes h
  | setChannelPercent channel g p => exact runOperation_changes h
  | clearChannelGpio channel g => exact runOperation_changes h
  | map b l => exact runOperation_changes h
  | allocate n => exact runOperation_changes (call := callAllocate n s) h
  | compile channel => exact runOperation_changes h
  | configureGlobalClock inc => exact runOperation_changes h
  | claim g => exact runOperation_changes h

theorem hostStep_changes {s t : State} (h : hostStep s = .next t) : Changes s t := by
  unfold hostStep at h
  split at h
  · cases h; exact .refl
  · next i rest _ => exact .head (.program s rest) (exec_changes i h)
  · cases h

/-- A step's engine turn is the engine turn the agenda runs inside a host operation. -/
theorem engineStep_eq_engineTurn (c : Chan) (s : State) : engineStep c s = engineTurn c s := by
  unfold engineStep engineTurn
  split
  · cases currentBlock c s with
    | error r => rfl
    | ok b => cases b <;> rfl
  · rfl

/-- WHAT A STEP CAN DO: a run of elementary changes. -/
theorem step_changes {s t : State} (h : step s = .next t) : Changes s t := by
  unfold step at h
  split at h
  · exact hostStep_changes h
  · next rest _ => exact .head (.agenda s rest) (hostStep_changes h)
  · next c rest _ =>
    rw [engineStep_eq_engineTurn] at h
    exact .head (.agenda s rest) (engineTurn_changes c _ t h)
  · next rest _ => exact .head (.agenda s rest) (paceTurn_changes _ t h)
  · next k rest _ => exact .head (.agenda s rest) (threadTurn_changes [] k _ t h)
  · next rest _ => exact .head (.agenda s rest) (landOldest_changes _ t h)
  · next c a v rest _ => exact .head (.agenda s rest) (foreignWrite_changes c a v _ t h)
  · next e rest _ =>
    cases h
    exact .head (.agenda s rest) (.single (.env _ e))

/-- An invariant that every elementary change keeps is one that every step keeps. -/
theorem step_keeps {Inv : State → Prop} (hc : ∀ s t, Change s t → Inv s → Inv t) {s t : State} (h : step s = .next t)
    (hi : Inv s) : Inv t := by
  have hall := step_changes h
  clear h
  induction hall with
  | refl => exact hi
  | tail _ hlast ih => exact hc _ _ hlast ih

/-- No elementary change touches the parameters. -/
theorem Change.board {s t : State} (h : Change s t) : t.board = s.board := by
  cases h <;> rfl

/-- Whether a page is in an arena. -/
theorem pageInUse_iff (s : State) (page : Word) : pageInUse s page = true ↔ PageTaken s page := by
  unfold pageInUse PageTaken
  rw [List.any_eq_true]
  constructor
  · rintro ⟨ch, hch, hp⟩
    obtain ⟨i, hi, rfl⟩ := List.mem_iff_getElem.mp hch
    have hi' : i < Config.channelCount := by simpa using hi
    exact ⟨⟨i, hi'⟩, by simpa [State.chan, Vector.get] using hp⟩
  · rintro ⟨c, hc⟩
    refine ⟨s.chan c, ?_, by simpa using hc⟩
    rw [List.mem_iff_getElem]
    exact ⟨c.val, by simp, by simp [State.chan, Vector.get]⟩

theorem allDistinct_iff (pages : List Word) : allDistinct pages = true ↔ pages.Nodup := by
  induction pages with
  | nil => simp [allDistinct]
  | cons page pages ih => simp [allDistinct, ih]

/-- What a page map that is taken has been made sure of (R72, R86, log 20). -/
theorem exactPages_iff (s : State) (pages : List Word) : exactPages s pages = true ↔
    pages.Nodup ∧ ∀ page ∈ pages, pageOk s.board page ∧ ¬ PageTaken s page ∧ overlapsWindow s.board page = false := by
  simp only [exactPages, Bool.and_eq_true, List.all_eq_true, allDistinct_iff, decide_eq_true_eq, Bool.not_eq_true',
    pageOk, ← pageInUse_iff, Bool.not_eq_true]
  grind

end Sys2Proof.Machine
end

