-- ==== Sys2Proof/Laws/Arena.lean ====
section
/-!
SUPPORT. Translation in a sound arena (R71, R74), on any sound board: every word of the arena has an address in the DMA
view of memory, different words have disjoint bytes, a control block lies in one page, and the engine's search for an
address finds the offset it came from.
-/

namespace Sys2Proof.Machine

/-! ## Boards -/

/-- The register maps R79 and the rules of the windows give tell the commands apart. -/
theorem Board.default_registersOk : RegistersOk Board.default where
  short := by decide
  dma := by decide
  pwm := by decide
  clk := by decide
  gpio := by decide
  dmaApart := by decide
  pwmApart := by decide
  clkApart := by decide
  gpioApart := by decide
  dmaValues := by decide
  pwmValues := by decide
  clkValues := by decide
  infos := by decide
  enabled := by decide
  fields := by decide
  output := by decide

/-- The values R6 and R79 give are sound. -/
theorem Board.default_ok : BoardOk Board.default where
  block := by decide
  positive := by decide
  aligned := rfl
  pages := by decide
  offset := ⟨30, by decide, by decide, by decide⟩
  ports := by decide
  registers := Board.default_registersOk
  level := ⟨Nat.le_add_left _ _, Nat.le_add_right _ _⟩

theorem pageSize_pos (b : Board) : 0 < pageSize b := Nat.two_pow_pos _

theorem BoardOk.pageSize_dvd_offset {b : Board} (h : BoardOk b) : pageSize b ∣ b.dmaBusOffset := by
  obtain ⟨k, h1, -, h3⟩ := h.offset
  rw [h3]
  exact pow_dvd_pow 2 h1

theorem BoardOk.pageSize_dvd_view {b : Board} (h : BoardOk b) : pageSize b ∣ 2 ^ 30 := by
  obtain ⟨k, h1, h2, -⟩ := h.offset
  exact pow_dvd_pow 2 (h1.trans h2)

theorem BoardOk.offset_bounds {b : Board} (h : BoardOk b) : 1 ≤ b.dmaBusOffset ∧ b.dmaBusOffset ≤ 2 ^ 30 := by
  obtain ⟨k, -, h2, h3⟩ := h.offset
  rw [h3]
  exact ⟨Nat.one_le_two_pow, Nat.pow_le_pow_right (by omega) h2⟩

theorem BoardOk.four_dvd_pageSize {b : Board} (h : BoardOk b) : 4 ∣ pageSize b :=
  (Dvd.dvd.trans (by decide : 4 ∣ 32) h.block).trans h.pages

theorem BoardOk.le_cbSize {b : Board} (h : BoardOk b) : 32 ≤ b.cbSize := Nat.le_of_dvd h.positive h.block

/-! ## Arithmetic of tables and pages -/

theorem le_ceilDiv_mul (a b : Nat) (hb : 0 < b) : a ≤ ceilDiv a b * b := by
  unfold ceilDiv
  have h1 := Nat.div_add_mod (a + b - 1) b
  have h2 := Nat.mod_lt (a + b - 1) hb
  rw [Nat.mul_comm] at h1
  omega

/-- A value below a multiple, itself a multiple, is below by the whole divisor. -/
theorem add_le_of_dvd {d a b : Nat} (ha : d ∣ a) (hb : d ∣ b) (h : a < b) : a + d ≤ b := by
  obtain ⟨x, rfl⟩ := ha
  obtain ⟨y, rfl⟩ := hb
  have : x < y := Nat.lt_of_mul_lt_mul_left h
  calc d * x + d = d * (x + 1) := by ring
    _ ≤ d * y := Nat.mul_le_mul_left d this

theorem dvd_mod {d a p : Nat} (ha : d ∣ a) (hp : d ∣ p) : d ∣ a % p := (Nat.dvd_mod_iff hp).mpr ha

/-- A place at a multiple of `d`, in pages of a multiple of `d`, has `d` bytes left in its page. -/
theorem mod_add_le {d a p : Nat} (ha : d ∣ a) (hp : d ∣ p) (h0 : 0 < p) : a % p + d ≤ p :=
  add_le_of_dvd (dvd_mod ha hp) hp (Nat.mod_lt _ h0)

/-- Within the bytes left in its page, an offset moves only the place in the page. -/
theorem add_div_mod {a r p : Nat} (h : a % p + r < p) : (a + r) / p = a / p ∧ (a + r) % p = a % p + r := by
  have h0 : 0 < p := by omega
  have e : a + r = a % p + r + p * (a / p) := by
    have := Nat.div_add_mod a p
    omega
  constructor
  · rw [e, Nat.add_mul_div_left _ _ h0, Nat.div_eq_of_lt h, Nat.zero_add]
  · rw [e, Nat.add_mul_mod_self_left, Nat.mod_eq_of_lt h]

theorem cbSize_dvd_cbOffsetOf {b : Board} (h : BoardOk b) (n : Nat) : b.cbSize ∣ cbOffsetOf b n := by
  unfold cbOffsetOf
  rw [h.aligned]
  exact Dvd.intro _ rfl

theorem le_cbOffsetOf {b : Board} (h : BoardOk b) (n : Nat) : 4 * n ≤ cbOffsetOf b n := by
  unfold cbOffsetOf
  rw [Nat.mul_comm b.cbAlign]
  exact le_ceilDiv_mul _ _ (h.aligned ▸ h.positive)

theorem ArenaOk.used_le {b : Board} {ch : ChanRec} (h : ArenaOk b ch) :
    ch.cbOffset + b.cbSize * (2 * ch.sampleCount) ≤ ch.pageMap.length * pageSize b := by
  rw [h.length, h.count, h.offset]
  exact le_ceilDiv_mul _ _ (pageSize_pos b)

/-- Every sample word lies in the arena, before the control blocks. -/
theorem ArenaOk.sample_lt {b : Board} {ch : ChanRec} (h : ArenaOk b ch) {i : Nat} (hi : i < ch.sampleCount) :
    sampleOffset i + 4 ≤ ch.cbOffset ∧ sampleOffset i < ch.pageMap.length * pageSize b := by
  have h1 := le_cbOffsetOf h.board ch.sampleCount
  have h2 := h.used_le
  rw [← h.offset] at h1
  unfold sampleOffset
  omega

/-- Every word of every control block lies in the arena. -/
theorem ArenaOk.block_lt {b : Board} {ch : ChanRec} (h : ArenaOk b ch) {k f : Nat} (hk : k < 2 * ch.sampleCount)
    (hf : f < b.cbSize) : blockOffset b ch k + f < ch.pageMap.length * pageSize b := by
  have h1 := h.used_le
  have h2 : b.cbSize * k + b.cbSize ≤ b.cbSize * (2 * ch.sampleCount) := by
    calc b.cbSize * k + b.cbSize = b.cbSize * (k + 1) := by ring
      _ ≤ _ := Nat.mul_le_mul_left _ hk
  unfold blockOffset
  omega

theorem ArenaOk.cbSize_dvd_blockOffset {b : Board} {ch : ChanRec} (h : ArenaOk b ch) (k : Nat) :
    b.cbSize ∣ blockOffset b ch k := by
  unfold blockOffset
  rw [h.offset]
  exact Dvd.dvd.add (cbSize_dvd_cbOffsetOf h.board _) (Dvd.intro _ rfl)

theorem ArenaOk.blockOffset_mod_four {b : Board} {ch : ChanRec} (h : ArenaOk b ch) (k : Nat) :
    blockOffset b ch k % 4 = 0 := by
  have := (h.board.block).trans (h.cbSize_dvd_blockOffset k)
  omega

/-! ## Translation -/

theorem pageOk_bounds {b : Board} (hb : BoardOk b) {page : Word} (h : pageOk b page) :
    pageSize b ∣ page.toNat ∧ b.dmaBusOffset ≤ page.toNat ∧ page.toNat + pageSize b ≤ b.dmaBusOffset + 2 ^ 30 := by
  obtain ⟨h1, h2⟩ := h
  unfold inBusMemory at h2
  simp only [Bool.and_eq_true, decide_eq_true_eq] at h2
  simp only [Config.busMemorySize] at h2
  have hd := Nat.dvd_of_mod_eq_zero h1
  exact ⟨hd, h2.1, add_le_of_dvd hd (hb.pageSize_dvd_offset.add hb.pageSize_dvd_view) h2.2⟩

theorem phys_some {b : Board} {ch : ChanRec} {off : Nat} {w : Word} (h : phys b ch off = some w) :
    ∃ page, ch.pageMap[off / pageSize b]? = some page ∧ w = page + BitVec.ofNat 32 (off % pageSize b) := by
  unfold phys at h
  simp only [Option.map_eq_some_iff] at h
  obtain ⟨page, hp, hw⟩ := h
  exact ⟨page, hp, hw.symm⟩

theorem page_add_toNat {b : Board} (hb : BoardOk b) {page : Word} (h : pageOk b page) (r : Nat) (hr : r < pageSize b) :
    (page + BitVec.ofNat 32 r).toNat = page.toNat + r := by
  have := pageOk_bounds hb h
  have := hb.offset_bounds
  rw [BitVec.toNat_add, BitVec.toNat_ofNat]
  omega

/-- The value of a translated address. -/
theorem ArenaOk.phys_toNat {b : Board} {ch : ChanRec} (h : ArenaOk b ch) {off : Nat} {w : Word}
    (hw : phys b ch off = some w) :
    ∃ page, ch.pageMap[off / pageSize b]? = some page ∧ pageOk b page ∧ w.toNat = page.toNat + off % pageSize b := by
  obtain ⟨page, hp, rfl⟩ := phys_some hw
  have hok := h.pages page (List.mem_of_getElem? hp)
  exact ⟨page, hp, hok, page_add_toNat h.board hok _ (Nat.mod_lt _ (pageSize_pos b))⟩

theorem ArenaOk.phys_inBusMemory {b : Board} {ch : ChanRec} (h : ArenaOk b ch) {off : Nat} {w : Word}
    (hw : phys b ch off = some w) : inBusMemory b w = true := by
  obtain ⟨page, _, hok, ht⟩ := h.phys_toNat hw
  have h1 := pageOk_bounds h.board hok
  have h2 := Nat.mod_lt off (pageSize_pos b)
  unfold inBusMemory
  simp only [Bool.and_eq_true, decide_eq_true_eq]
  simp only [Config.busMemorySize]
  omega

/-- In a sound arena every offset below its size has an address, in the DMA view of memory. -/
theorem ArenaOk.phys_exists {b : Board} {ch : ChanRec} (h : ArenaOk b ch) {off : Nat}
    (ho : off < ch.pageMap.length * pageSize b) : ∃ w, phys b ch off = some w ∧ inBusMemory b w = true := by
  have hlt : off / pageSize b < ch.pageMap.length := by
    rw [Nat.div_lt_iff_lt_mul (pageSize_pos b)]
    exact ho
  have hw : phys b ch off = some (ch.pageMap[off / pageSize b] + BitVec.ofNat 32 (off % pageSize b)) := by
    simp [phys, hlt]
  exact ⟨_, hw, h.phys_inBusMemory hw⟩

/-- An aligned word's address is aligned (R74). -/
theorem ArenaOk.phys_mod_four {b : Board} {ch : ChanRec} (h : ArenaOk b ch) {off : Nat} {w : Word}
    (hw : phys b ch off = some w) (ha : off % 4 = 0) : w.toNat % 4 = 0 := by
  obtain ⟨page, _, hok, ht⟩ := h.phys_toNat hw
  have h1 := h.board.four_dvd_pageSize.trans (pageOk_bounds h.board hok).1
  have h2 := dvd_mod (Nat.dvd_of_mod_eq_zero ha) h.board.four_dvd_pageSize
  omega

/-- A control block does not straddle a page: its words follow its address (R74). -/
theorem ArenaOk.phys_block {b : Board} {ch : ChanRec} (h : ArenaOk b ch) {k r : Nat} (hr : r < 32) {a : Word}
    (ha : blockAddress b ch k = some a) : phys b ch (blockOffset b ch k + r) = some (a + BitVec.ofNat 32 r) := by
  obtain ⟨page, hp, rfl⟩ := phys_some ha
  have h1 := mod_add_le (h.cbSize_dvd_blockOffset k) h.board.pages (pageSize_pos b)
  have h2 := h.board.le_cbSize
  obtain ⟨e1, e2⟩ := add_div_mod (a := blockOffset b ch k) (r := r) (p := pageSize b) (by omega)
  unfold phys
  rw [e1, e2, hp, Option.map_some, BitVec.add_assoc, BitVec.ofNat_add]

/-- Distinct aligned pages lie apart. -/
theorem pages_apart {b : Board} (hb : BoardOk b) {p q : Word} (hp : pageOk b p) (hq : pageOk b q) (hne : p ≠ q) :
    p.toNat + pageSize b ≤ q.toNat ∨ q.toNat + pageSize b ≤ p.toNat := by
  have h1 := (pageOk_bounds hb hp).1
  have h2 := (pageOk_bounds hb hq).1
  rcases Nat.lt_or_gt_of_ne (fun h => hne (BitVec.eq_of_toNat_eq h) : p.toNat ≠ q.toNat) with h | h
  · exact .inl (add_le_of_dvd h1 h2 h)
  · exact .inr (add_le_of_dvd h2 h1 h)

/-- Where a translated word's bytes lie: in its page, from a multiple of 4 on. -/
theorem ArenaOk.word_place {b : Board} {ch : ChanRec} (h : ArenaOk b ch) {off : Nat} {w : Word}
    (hw : phys b ch off = some w) (ha : off % 4 = 0) :
    ∃ page, ch.pageMap[off / pageSize b]? = some page ∧ pageOk b page ∧
      physicalOf b w = page.toNat - b.dmaBusOffset + off % pageSize b ∧ off % pageSize b + 4 ≤ pageSize b ∧
      b.dmaBusOffset ≤ page.toNat := by
  obtain ⟨p, hp, hpo, ht⟩ := h.phys_toNat hw
  have hb := pageOk_bounds h.board hpo
  refine ⟨p, hp, hpo, ?_, mod_add_le (Nat.dvd_of_mod_eq_zero ha) h.board.four_dvd_pageSize (pageSize_pos b), hb.2.1⟩
  unfold physicalOf
  omega

/-- Two different aligned words of a sound arena have disjoint bytes. -/
theorem ArenaOk.words_apart {b : Board} {ch : ChanRec} (h : ArenaOk b ch) {o o' : Nat} {w w' : Word}
    (hw : phys b ch o = some w) (hw' : phys b ch o' = some w') (ha : o % 4 = 0) (ha' : o' % 4 = 0) (hne : o ≠ o') :
    physicalOf b w + 4 ≤ physicalOf b w' ∨ physicalOf b w' + 4 ≤ physicalOf b w := by
  obtain ⟨p, hp, hpo, e, hr, hl⟩ := h.word_place hw ha
  obtain ⟨p', hp', hpo', e', hr', hl'⟩ := h.word_place hw' ha'
  by_cases hj : o / pageSize b = o' / pageSize b
  · rw [hj] at hp
    have hpp : p = p' := by simpa [hp] using hp'
    subst hpp
    have hmod : o % pageSize b ≠ o' % pageSize b := by
      intro hm
      apply hne
      have h1 := Nat.div_add_mod o (pageSize b)
      have h2 := Nat.div_add_mod o' (pageSize b)
      rw [hj, hm] at h1
      omega
    have h4 := dvd_mod (Nat.dvd_of_mod_eq_zero ha) h.board.four_dvd_pageSize
    have h4' := dvd_mod (Nat.dvd_of_mod_eq_zero ha') h.board.four_dvd_pageSize
    omega
  · have hpp : p ≠ p' := by
      intro hpp
      subst hpp
      obtain ⟨h1, e1⟩ := List.getElem?_eq_some_iff.mp hp
      obtain ⟨h2, e2⟩ := List.getElem?_eq_some_iff.mp hp'
      exact hj ((List.Nodup.getElem_inj_iff h.distinct).mp (e1.trans e2.symm))
    rcases pages_apart h.board hpo hpo' hpp with hlt | hlt <;> omega

/-- Words of the arenas of two channels have disjoint bytes. -/
theorem ArenasOk.words_apart {s : State} (h : ArenasOk s) {c d : Chan} (hcd : c ≠ d) {o o' : Nat} {w w' : Word}
    (hw : phys s.board (s.chan c) o = some w) (hw' : phys s.board (s.chan d) o' = some w') (ha : o % 4 = 0)
    (ha' : o' % 4 = 0) :
    physicalOf s.board w + 4 ≤ physicalOf s.board w' ∨ physicalOf s.board w' + 4 ≤ physicalOf s.board w := by
  obtain ⟨p0, hp0, -⟩ := phys_some hw
  obtain ⟨p0', hp0', -⟩ := phys_some hw'
  obtain ⟨p, hp, hpo, e, hr, hl⟩ := (h.each c (List.ne_nil_of_mem (List.mem_of_getElem? hp0))).word_place hw ha
  obtain ⟨p', hp', hpo', e', hr', hl'⟩ := (h.each d (List.ne_nil_of_mem (List.mem_of_getElem? hp0'))).word_place hw' ha'
  have hne : p ≠ p' := fun e => h.apart c d hcd p (List.mem_of_getElem? hp) (e ▸ List.mem_of_getElem? hp')
  rcases pages_apart h.board hpo hpo' hne with hlt | hlt <;> omega

/-! ## The engine's search -/

theorem offsetFrom_of_getElem {b : Board} (hb : BoardOk b) {pages : List Word} (hok : ∀ p ∈ pages, pageOk b p)
    (hd : pages.Nodup) {n : Nat} {page : Word} (hp : pages[n]? = some page) {a : Word} {r : Nat}
    (ha : a.toNat = page.toNat + r) (hr : r < pageSize b) (j : Nat) :
    offsetFrom b a j pages = some ((j + n) * pageSize b + r) := by
  induction pages generalizing n j with
  | nil => simp at hp
  | cons p ps ih =>
    cases n with
    | zero =>
      have : p = page := by simpa using hp
      subst this
      unfold offsetFrom
      rw [if_pos (by omega), ha]
      simp
    | succ n =>
      have hp' : ps[n]? = some page := by simpa using hp
      have hm : page ∈ ps := List.mem_of_getElem? hp'
      have hne : p ≠ page := fun e => (List.nodup_cons.mp hd).1 (e ▸ hm)
      have hap := pages_apart hb (hok p (by simp)) (hok page (by simp [hm])) hne
      unfold offsetFrom
      rw [if_neg (by omega), ih (fun q hq => hok q (by simp [hq])) (List.nodup_cons.mp hd).2 hp',
        show j + 1 + n = j + (n + 1) by omega]

/-- The engine finds the offset an address was translated from. -/
theorem ArenaOk.arenaOffset_phys {b : Board} {ch : ChanRec} (h : ArenaOk b ch) {off : Nat} {w : Word}
    (hw : phys b ch off = some w) : arenaOffset b ch w = some off := by
  obtain ⟨page, hp, _, ht⟩ := h.phys_toNat hw
  unfold arenaOffset
  rw [offsetFrom_of_getElem h.board h.pages h.distinct hp ht (Nat.mod_lt _ (pageSize_pos b)) 0]
  congr 1
  have := Nat.div_add_mod off (pageSize b)
  rw [Nat.mul_comm] at this
  rw [Nat.zero_add]
  exact this

/-- The engine finds the number of a control block. -/
theorem ArenaOk.blockIndex_blockAddress {b : Board} {ch : ChanRec} (h : ArenaOk b ch) {k : Nat}
    (hk : k < 2 * ch.sampleCount) {w : Word} (hw : blockAddress b ch k = some w) : blockIndex b ch w = some k := by
  have e : blockOffset b ch k - ch.cbOffset = b.cbSize * k := by unfold blockOffset; omega
  have hd : b.cbSize * k / b.cbSize = k := Nat.mul_div_cancel_left k h.board.positive
  have hm : b.cbSize * k % b.cbSize = 0 := Nat.mul_mod_right b.cbSize k
  have hle : ch.cbOffset ≤ blockOffset b ch k := by unfold blockOffset; omega
  simp [blockIndex, h.arenaOffset_phys hw, e, hd, hm, hle, hk]

/-- What the search finds lies in the page it found it in. -/
theorem offsetFrom_inv {b : Board} {a : Word} {pages : List Word} {j off : Nat} (h : offsetFrom b a j pages = some off) :
    ∃ n page, pages[n]? = some page ∧ page.toNat ≤ a.toNat ∧ a.toNat < page.toNat + pageSize b ∧
      off = (j + n) * pageSize b + (a.toNat - page.toNat) := by
  induction pages generalizing j with
  | nil => simp [offsetFrom] at h
  | cons p ps ih =>
    unfold offsetFrom at h
    split at h
    · next hc => cases h; exact ⟨0, p, by simp, hc.1, hc.2, rfl⟩
    · obtain ⟨n, page, h1, h2, h3, h4⟩ := ih h
      exact ⟨n + 1, page, by simpa using h1, h2, h3, by rw [h4, show j + 1 + n = j + (n + 1) by omega]⟩

/-- An offset the engine's search finds translates back to the address. -/
theorem phys_of_arenaOffset {b : Board} {ch : ChanRec} {a : Word} {off : Nat} (h : arenaOffset b ch a = some off) :
    phys b ch off = some a := by
  obtain ⟨n, page, h1, h2, h3, h4⟩ := offsetFrom_inv h
  have e : off = (a.toNat - page.toNat) + pageSize b * n := by rw [h4, Nat.zero_add, Nat.mul_comm]; omega
  have hlt : a.toNat - page.toNat < pageSize b := by omega
  have hdiv : off / pageSize b = n := by
    rw [e, Nat.add_mul_div_left _ _ (pageSize_pos b), Nat.div_eq_of_lt hlt, Nat.zero_add]
  have hmod : off % pageSize b = a.toNat - page.toNat := by
    rw [e, Nat.add_mul_mod_self_left, Nat.mod_eq_of_lt hlt]
  unfold phys
  rw [hdiv, hmod, h1, Option.map_some]
  congr 1
  apply BitVec.eq_of_toNat_eq
  rw [BitVec.toNat_add, BitVec.toNat_ofNat]
  omega

/-- A control block the engine finds is one of the chain, at its address. -/
theorem blockAddress_of_blockIndex {b : Board} {ch : ChanRec} {a : Word} {k : Nat} (h : blockIndex b ch a = some k) :
    k < 2 * ch.sampleCount ∧ blockAddress b ch k = some a := by
  unfold blockIndex at h
  split at h
  · cases h
  · next off ho =>
    split at h
    · next hc =>
      cases h
      refine ⟨hc.2.2, ?_⟩
      have e : blockOffset b ch ((off - ch.cbOffset) / b.cbSize) = off := by
        have h1 := Nat.div_add_mod (off - ch.cbOffset) b.cbSize
        have h2 := hc.1
        have h3 := hc.2.1
        unfold blockOffset
        omega
      unfold blockAddress
      rw [e]
      exact phys_of_arenaOffset ho
    · cases h

/-- A control block's address is block-aligned and not 0 (R74). -/
theorem ArenaOk.blockAddress_aligned {b : Board} {ch : ChanRec} (h : ArenaOk b ch) {k : Nat} {w : Word}
    (hw : blockAddress b ch k = some w) : w.toNat % b.cbAlign = 0 ∧ w ≠ 0 := by
  obtain ⟨page, _, hok, ht⟩ := h.phys_toNat hw
  have hb := pageOk_bounds h.board hok
  have h0 := h.board.offset_bounds
  constructor
  · rw [h.board.aligned, ht]
    exact Nat.mod_eq_zero_of_dvd ((h.board.pages.trans hb.1).add (dvd_mod (h.cbSize_dvd_blockOffset k) h.board.pages))
  · rintro rfl
    simp at ht
    omega

theorem inAnArena_of_phys {s : State} {c : Chan} (h : ArenaOk s.board (s.chan c)) {off : Nat} {w : Word}
    (hw : phys s.board (s.chan c) off = some w) : inAnArena s w = true := by
  unfold inAnArena
  rw [List.any_eq_true]
  refine ⟨s.chan c, ?_, by rw [h.arenaOffset_phys hw]; rfl⟩
  rw [List.mem_iff_getElem]
  exact ⟨c.val, by simp, by simp [State.chan, Vector.get]⟩

/-- An engine can read every aligned word of a sound arena (R73). -/
theorem busReadable_of_phys {s : State} {c : Chan} (h : ArenaOk s.board (s.chan c)) {off : Nat} {w : Word}
    (hw : phys s.board (s.chan c) off = some w) (ha : off % 4 = 0) : busReadable s w = true := by
  unfold busReadable
  rw [h.phys_inBusMemory hw, inAnArena_of_phys h hw]
  simp [h.phys_mod_four hw ha]

/-! ## Arena accesses -/

/-- An arena read in a sound arena answers with the word. -/
theorem arenaRead_eq {s : State} {c : Chan} (h : ArenaOk s.board (s.chan c)) {off : Nat} {w : Word}
    (hw : phys s.board (s.chan c) off = some w) (x : Scratch) :
    arenaRead c off x s = .went { x with word := seenWord s (physicalOf s.board w) } s := by
  simp [arenaRead, hw, h.phys_inBusMemory hw]

/-- Where writes land at once, an arena write in a sound arena stores the word. -/
theorem arenaWrite_eq {s : State} {c : Chan} (h : ArenaOk s.board (s.chan c)) (hv : s.board.visibility = .sc) {off : Nat}
    {w : Word} (hw : phys s.board (s.chan c) off = some w) (v : Word) :
    arenaWrite c off v s = .next { s with mem := Memory.writeWord s.mem (physicalOf s.board w) v } := by
  simp [arenaWrite, atArena, hw, h.phys_inBusMemory hw, issue, hv, land]

/-- Where writes land at once, the host reads memory and the registers as they are. -/
theorem seenWord_sc {s : State} (hv : s.board.visibility = .sc) (pa : Nat) :
    seenWord s pa = Memory.readWord s.mem pa := by
  simp [seenWord, pending, hv]

theorem seenSelect_sc {s : State} (hv : s.board.visibility = .sc) (n : Fin 6) : seenSelect s n = s.fsel n := by
  simp [seenSelect, pending, hv]

end Sys2Proof.Machine
end

