-- ==== Sys2Proof/Laws/Turns.lean ====
section
/-!
SUPPORT. What a step is, by the turn at the head of the agenda, and what an engine's turn is, by its phase: the one place
where `step`, `engineTurn` and `currentBlock` are unfolded. With it the recognition of the two forms.
-/

namespace Sys2Proof.Machine

/-! ## Steps by turn -/

theorem step_engine {s : State} {c : Chan} {turns : List Turn} (h : s.agenda = .engine c :: turns) :
    step s = engineTurn c { s with agenda := turns } := by
  unfold step
  rw [h]
  exact engineStep_eq_engineTurn c _

theorem step_pacer {s : State} {turns : List Turn} (h : s.agenda = .pacer :: turns) :
    step s = paceTurn { s with agenda := turns } := by
  unfold step
  rw [h]

theorem step_thread {s : State} {k : Nat} {turns : List Turn} (h : s.agenda = .thread k :: turns) :
    step s = threadTurn [] k { s with agenda := turns } := by
  unfold step
  rw [h]

theorem step_land {s : State} {turns : List Turn} (h : s.agenda = .land :: turns) :
    step s = landOldest { s with agenda := turns } := by
  unfold step
  rw [h]

theorem step_foreign {s : State} {c : Chan} {a v : Word} {turns : List Turn} (h : s.agenda = .foreign c a v :: turns) :
    step s = foreignWrite c a v { s with agenda := turns } := by
  unfold step
  rw [h]

theorem step_host {s : State} {turns : List Turn} (h : s.agenda = .host :: turns) :
    step s = hostStep { s with agenda := turns } := by
  unfold step
  rw [h]

theorem step_quiet {s : State} (h : s.agenda = []) : step s = hostStep s := by
  unfold step
  rw [h]

/-- Fetching from a stream that decodes. -/
theorem fetchCall_decodes {b : Board} {program rest : List Word} {i : Instr}
    (h : decode b .host program = .ok (i, rest)) : fetchCall b program = .call i rest := by
  unfold fetchCall
  cases program with
  | nil => cases h
  | cons w ws => simp only [h]

/-- The host's step where its stream decodes. -/
theorem hostStep_call {s : State} {i : Instr} {rest : List Word} (h : decode s.board .host s.program = .ok (i, rest)) :
    hostStep s = exec i { s with program := rest } := by
  unfold hostStep
  rw [fetchCall_decodes h]

/-- A run whose first step is known. -/
theorem run_succ {s t : State} (h : step s = .next t) (k : Nat) :
    Host.Core.run Sys2Proof.core (k + 1) s = Host.Core.run Sys2Proof.core k t := by
  have h' : Sys2Proof.core.step s = .next t := h
  simp only [Host.Core.run, h']

theorem run_zero (s : State) : Host.Core.run Sys2Proof.core 0 s = .next s := rfl

/-- Runs compose. -/
theorem run_add {s t : State} {j : Nat} (h : Host.Core.run Sys2Proof.core j s = .next t) (k : Nat) :
    Host.Core.run Sys2Proof.core (j + k) s = Host.Core.run Sys2Proof.core k t := by
  induction j generalizing s with
  | zero =>
    rw [run_zero] at h
    cases h
    rw [Nat.zero_add]
  | succ j ih =>
    rw [Nat.succ_add]
    cases hs : step s with
    | next u => rw [run_succ hs] at h ⊢; exact ih h
    | fault r =>
      have h' : Sys2Proof.core.step s = .fault r := hs
      simp only [Host.Core.run, h'] at h
      cases h
    | refused r =>
      have h' : Sys2Proof.core.step s = .refused r := hs
      simp only [Host.Core.run, h'] at h
      cases h

/-! ## The two forms -/

/-- The alignment every recognised block has. -/
def blockAligned (b : Board) (src next : Word) : Prop := src.toNat % 4 = 0 ∧ next.toNat % b.cbAlign = 0

theorem recognise_cbaWords {b : Board} (hb : RegistersOk b) {src next : Word} (h : blockAligned b src next)
    (dst : GpioReg) : recognise b (cbaWords b src dst next) = .formA src dst next := by
  have hc : commonForm b (cbaWords b src dst next) = true := by
    simp [commonForm, cbaWords, h.1, h.2]
  unfold recognise
  rw [if_pos hc]
  cases dst
  · simp [cbaWords, GpioReg.busAddress, gpSet_ne_gpClr hb]
  · simp [cbaWords, GpioReg.busAddress]

theorem recognise_cbbWords {b : Board} (hb : RegistersOk b) {src next : Word} (h : blockAligned b src next) :
    recognise b (cbbWords b src next) = .formB src next := by
  have hc : commonForm b (cbbWords b src next) = true := by
    simp [commonForm, cbbWords, h.1, h.2]
  unfold recognise
  rw [if_pos hc]
  simp [cbbWords, hb.infos.symm]

/-! ## Engine turns by phase -/

theorem engineTurn_inactive {c : Chan} {s : State} (h : (s.eng c).runs = false) : engineTurn c s = .next s := by
  unfold engineTurn
  rw [h]
  rfl

/-- A load: the block in memory is run. -/
theorem engineTurn_fetch {c : Chan} {s : State} {b : ControlBlock} (ha : (s.eng c).runs = true)
    (hp : (s.eng c).phase = .fetch) (h0 : (s.eng c).conblkAd ≠ 0) (hb : loadBlock s (s.eng c).conblkAd = some b) :
    engineTurn c s = exec ((recognise s.board b).toInstr c) s := by
  have hc : currentBlock c s = .ok (recognise s.board b) := by
    unfold currentBlock
    rw [if_pos hp, if_neg h0, hb]
  unfold engineTurn
  rw [if_pos ha, hc]
  generalize recognise s.board b = r
  cases r <;> rfl

/-- A load at address 0 runs the null block. -/
theorem engineTurn_null {c : Chan} {s : State} (ha : (s.eng c).runs = true) (hp : (s.eng c).phase = .fetch)
    (h0 : (s.eng c).conblkAd = 0) : engineTurn c s = exec (.cbx c nullBlock) s := by
  unfold engineTurn currentBlock
  rw [if_pos ha, if_pos hp, if_pos h0]
  rfl

/-- After the load the block in the working registers is run. -/
theorem engineTurn_loaded {c : Chan} {s : State} (ha : (s.eng c).runs = true) (hp : (s.eng c).phase ≠ .fetch) :
    engineTurn c s = exec ((recognise s.board (s.eng c).loaded).toInstr c) s := by
  unfold engineTurn currentBlock
  rw [if_pos ha, if_neg hp]
  generalize recognise s.board (s.eng c).loaded = r
  cases r <;> rfl

/-! ## Steps of an engine by phase -/

theorem step_inactive {s : State} {c : Chan} {turns : List Turn} (h : s.agenda = .engine c :: turns)
    (ha : (s.eng c).runs = false) : step s = .next { s with agenda := turns } :=
  (step_engine h).trans (engineTurn_inactive ha)

theorem step_fetch {s : State} {c : Chan} {turns : List Turn} (h : s.agenda = .engine c :: turns) {b : ControlBlock}
    (ha : (s.eng c).runs = true) (hp : (s.eng c).phase = .fetch) (h0 : (s.eng c).conblkAd ≠ 0)
    (hb : loadBlock s (s.eng c).conblkAd = some b) :
    step s = exec ((recognise s.board b).toInstr c) { s with agenda := turns } :=
  (step_engine h).trans (engineTurn_fetch (s := { s with agenda := turns }) ha hp h0 hb)

theorem step_null {s : State} {c : Chan} {turns : List Turn} (h : s.agenda = .engine c :: turns)
    (ha : (s.eng c).runs = true) (hp : (s.eng c).phase = .fetch) (h0 : (s.eng c).conblkAd = 0) :
    step s = exec (.cbx c nullBlock) { s with agenda := turns } :=
  (step_engine h).trans (engineTurn_null (s := { s with agenda := turns }) ha hp h0)

theorem step_loaded {s : State} {c : Chan} {turns : List Turn} (h : s.agenda = .engine c :: turns)
    (ha : (s.eng c).runs = true) (hp : (s.eng c).phase ≠ .fetch) :
    step s = exec ((recognise s.board (s.eng c).loaded).toInstr c) { s with agenda := turns } :=
  (step_engine h).trans (engineTurn_loaded (s := { s with agenda := turns }) ha hp)

/-! ## What an engine's turn can do -/

theorem dreq_iff (s : State) : dreq s = true ↔ dmacEnab s = true ∧ s.pwm.fifoLevel < s.board.dreqLevel := by
  simp [dreq]

/-- The request signal is a function of the PWM window and the board alone. -/
theorem dreq_of_pwm {s t : State} (h : t.pwm = s.pwm) (hb : t.board = s.board) : dreq t = dreq s := by
  unfold dreq dmacEnab
  rw [h, hb]

/-- A write half to a GPIO register. -/
theorem writeHalf_gpio (c : Chan) (dst : GpioReg) (next : Word) {s : State} (hb : RegistersOk s.board) :
    writeHalf c (dst.busAddress s.board) next s = .next (advance c next (gpioWrite (.dma c) dst (s.eng c).data s)) := by
  rw [writeHalf, busWrite_busAddress c dst _ hb, andThen_next]

/-- A write half to the FIFO while the request is asserted, on a sound board. -/
theorem writeHalf_fifo {c : Chan} {s : State} (hb : BoardOk s.board) (next : Word) (h : dreq s = true) :
    writeHalf c s.board.fifo next s = .next (advance c next (pushed c s)) := by
  have hl := ((dreq_iff s).mp h).2
  have hcap : s.pwm.fifoLevel < s.board.fifoCap := Nat.lt_of_lt_of_le hl hb.level.2
  simp [writeHalf, busWrite, fifoPush, hb.ports.1, hb.ports.2, hcap]

/-- What a turn of engine `c` can do. `fifoIsGpio` is a push on a board whose FIFO address is a GPIO register's, and a mask
goes to another register than the block's on a board whose set and clear registers are one: no sound board is either
(`BoardOk.ports`, `BoardOk.registers`). -/
inductive EngineDid (c : Chan) (s : State) : State → Prop
  | nothing : EngineDid c s s
  | load (b : ControlBlock) : (s.eng c).runs = true → (s.eng c).phase = .fetch →
      EngineDid c s (s.setEng c ((s.eng c).load b))
  | stop : (s.eng c).runs = true → (s.eng c).phase = .fetch → (s.eng c).conblkAd = 0 →
      EngineDid c s (stopEngine c s)
  | latch (w : Word) : (s.eng c).runs = true → (s.eng c).phase = .exec →
      EngineDid c s (s.setEng c { s.eng c with data := w, phase := .write })
  | mask (src next : Word) (dst reg : GpioReg) : (s.eng c).runs = true → (s.eng c).phase = .write →
      recognise s.board (s.eng c).loaded = .formA src dst next → (RegistersOk s.board → reg = dst) →
      EngineDid c s (advance c next (gpioWrite (.dma c) reg (s.eng c).data s))
  | fifoIsGpio (src next : Word) (reg : GpioReg) : (s.eng c).runs = true → (s.eng c).phase = .write →
      recognise s.board (s.eng c).loaded = .formB src next → dreq s = true →
      EngineDid c s (advance c next (gpioWrite (.dma c) reg (s.eng c).data s))
  | push (src next : Word) : (s.eng c).runs = true → (s.eng c).phase = .write →
      recognise s.board (s.eng c).loaded = .formB src next → dreq s = true →
      EngineDid c s (advance c next (pushed c s))

theorem fetchHalf_did {c : Chan} {b : ControlBlock} {ok : Bool} {s t : State} (ha : (s.eng c).runs = true)
    (hp : (s.eng c).phase = .fetch) (h : fetchHalf c b ok s = .next t) : EngineDid c s t := by
  unfold fetchHalf at h
  split at h
  · cases h; exact .load b ha hp
  · cases h

theorem readHalf_did {c : Chan} {src : Word} {s t : State} (ha : (s.eng c).runs = true)
    (hp : (s.eng c).phase = .exec) (h : readHalf c src s = .next t) : EngineDid c s t := by
  unfold readHalf busRead at h
  split at h
  · cases h; exact .latch _ ha hp
  · cases h

/-- WHAT AN ENGINE'S TURN CAN DO, with all the turn's guards. -/
theorem engineTurn_did {c : Chan} {s t : State} (h : engineTurn c s = .next t) : EngineDid c s t := by
  by_cases ha : (s.eng c).runs = true
  swap
  · rw [engineTurn_inactive (by simpa using ha)] at h
    cases h; exact .nothing
  by_cases hw : (s.eng c).phase = .write
  · rw [engineTurn_loaded ha (by rw [hw]; decide)] at h
    cases hr : recognise s.board (s.eng c).loaded with
    | formA src dst next =>
      replace h : execCba c src dst next s = .next t := by rw [hr] at h; exact h
      obtain ⟨reg, hreg⟩ := busWrite_register c dst (s.eng c).data s
      simp only [execCba, ha, hw, if_true, writeHalf, hreg, andThen_next] at h
      cases h
      refine .mask src next dst reg ha hw hr fun hb => ?_
      rw [busWrite_busAddress c dst _ hb] at hreg
      have e := congrArg State.trace (Host.Outcome.next.inj hreg)
      simp only [gpioWrite_trace, List.append_cancel_left_eq, List.cons.injEq, Event.gpioWrite.injEq] at e
      exact e.1.2.1.symm
    | formB src next =>
      replace h : execCbb c src next s = .next t := by rw [hr] at h; exact h
      simp only [execCbb, ha, hw, if_true] at h
      split at h
      · next hd =>
        obtain ⟨u, hu, ht⟩ := andThen_eq_next.mp h
        cases ht
        obtain ⟨reg, rfl⟩ | ⟨-, -, rfl⟩ := busWrite_eq_next hu
        · exact .fifoIsGpio src next reg ha hw hr hd
        · exact .push src next ha hw hr hd
      · cases h; exact .nothing
    | formX raw =>
      replace h : execCbx c raw s = .next t := by rw [hr] at h; exact h
      simp only [execCbx, ha, hw, if_true] at h
      cases h
  · unfold engineTurn at h
    rw [if_pos ha] at h
    split at h
    · cases h
    · unfold execCba at h
      rw [if_pos ha] at h
      split at h
      · cases h; exact .nothing
      · next hp => exact fetchHalf_did ha hp h
      · next hp => exact readHalf_did ha hp h
      · next hp => exact absurd hp hw
    · unfold execCbb at h
      rw [if_pos ha] at h
      split at h
      · cases h; exact .nothing
      · next hp => exact fetchHalf_did ha hp h
      · next hp => exact readHalf_did ha hp h
      · next hp => exact absurd hp hw
    · unfold execCbx at h
      rw [if_pos ha] at h
      split at h
      · cases h; exact .nothing
      · next hp =>
        split at h
        · next h0 => cases h; exact .stop ha hp h0
        · cases h
      · cases h
      · cases h

/-! ## Loading a block of the chain -/

/-- Where a block stands in memory, its engine loads it. -/
theorem loadBlock_of_blockAt {s : State} {c : Chan} (h : ArenaOk s.board (s.chan c)) {k : Nat} {a : Word} {b : ControlBlock}
    (ha : blockAddress s.board (s.chan c) k = some a) (hb : blockAt s (s.chan c) (blockOffset s.board (s.chan c) k) = some b) :
    loadBlock s a = some b := by
  have hm := h.blockOffset_mod_four k
  have hw : ∀ f, f < 32 → f % 4 = 0 → busReadable s (a + BitVec.ofNat 32 f) = true ∧
      arenaWordOf s (s.chan c) (blockOffset s.board (s.chan c) k + f) = some (busWord s (a + BitVec.ofNat 32 f)) := by
    intro f hf h4
    have hp := h.phys_block hf ha
    refine ⟨busReadable_of_phys h hp (by omega), ?_⟩
    unfold arenaWordOf busWord
    rw [hp]
    rfl
  have h0 := hw 0 (by omega) rfl
  rw [BitVec.add_zero, Nat.add_zero] at h0
  have h4 := hw 4 (by omega) rfl
  have h8 := hw 8 (by omega) rfl
  have h12 := hw 12 (by omega) rfl
  have h16 := hw 16 (by omega) rfl
  have h20 := hw 20 (by omega) rfl
  unfold blockAt at hb
  rw [h0.2, h4.2, h8.2, h12.2, h16.2, h20.2] at hb
  unfold loadBlock
  change (if busReadable s a && busReadable s (a + BitVec.ofNat 32 4) && busReadable s (a + BitVec.ofNat 32 8) &&
    busReadable s (a + BitVec.ofNat 32 12) && busReadable s (a + BitVec.ofNat 32 16) &&
    busReadable s (a + BitVec.ofNat 32 20) then _ else none) = _
  rw [h0.1, h4.1, h8.1, h12.1, h16.1, h20.1]
  exact hb

end Sys2Proof.Machine
end

