-- ==== Sys2Proof/Laws/Host.lean ====
section
/-!
SUPPORT. The host's operations run alone: where a list of actions leads (`Leads`), and for each shared list what it comes
to. Table writes are described by `Wrote`: what each word of the arena becomes, and which bytes may have changed.
-/

namespace Sys2Proof.Machine

/-! ## Writes to an arena's words -/

/-- From memory `m` to `m'` every aligned word of the arena of `ch`, at offset `o`, has gone from `x` to `v o x`, and every
byte outside the words at the offsets of `T` is as before. -/
structure Wrote (b : Board) (ch : ChanRec) (v : Nat → Word → Word) (T : Nat → Prop) (m m' : Memory) : Prop where
  wf : Memory.wf m' = true
  word : ∀ o w, o % 4 = 0 → phys b ch o = some w →
    Memory.readWord m' (physicalOf b w) = v o (Memory.readWord m (physicalOf b w))
  frame : ∀ a, (∀ o, T o → ¬ inArenaWord b ch o a) → Memory.read m' a = Memory.read m a

theorem Wrote.nothing {b : Board} {ch : ChanRec} {m : Memory} (h : Memory.wf m = true) :
    Wrote b ch (fun _ x => x) (fun _ => False) m m :=
  ⟨h, fun _ _ _ _ => rfl, fun _ _ => rfl⟩

/-- One write after another. -/
theorem Wrote.trans {b : Board} {ch : ChanRec} {v v' : Nat → Word → Word} {T T' : Nat → Prop} {m m' m'' : Memory}
    (h : Wrote b ch v T m m') (h' : Wrote b ch v' T' m' m'') :
    Wrote b ch (fun o x => v' o (v o x)) (fun o => T o ∨ T' o) m m'' := by
  refine ⟨h'.wf, fun o w ho hw => ?_, fun a ha => ?_⟩
  · rw [h'.word o w ho hw, h.word o w ho hw]
  · rw [h'.frame a fun o ho => ha o (.inr ho), h.frame a fun o ho => ha o (.inl ho)]

/-- The description of a write may be given another form. -/
theorem Wrote.congr {b : Board} {ch : ChanRec} {v v' : Nat → Word → Word} {T T' : Nat → Prop} {m m' : Memory}
    (h : Wrote b ch v T m m') (hv : ∀ o w x, o % 4 = 0 → phys b ch o = some w → v o x = v' o x) (hT : ∀ o, T o → T' o) :
    Wrote b ch v' T' m m' :=
  ⟨h.wf, fun o w ho hw => by rw [h.word o w ho hw, hv o w _ ho hw], fun a ha => h.frame a fun o ho => ha o (hT o ho)⟩

/-- Writing one word. -/
theorem Wrote.one {b : Board} {ch : ChanRec} (hok : ArenaOk b ch) {m : Memory} (hm : Memory.wf m = true) {o : Nat} {w : Word}
    (ho : o % 4 = 0) (hw : phys b ch o = some w) (f : Word → Word) :
    Wrote b ch (fun o' x => if o' = o then f x else x) (fun o' => o' = o) m
      (Memory.writeWord m (physicalOf b w) (f (Memory.readWord m (physicalOf b w)))) := by
  refine ⟨Memory.wf_writeWord hm _ _, fun o' w' ho' hw' => ?_, fun a ha => ?_⟩
  · by_cases he : o' = o
    · subst he
      rw [hw] at hw'
      cases hw'
      rw [if_pos rfl, Memory.readWord_writeWord_same hm]
    · rw [if_neg he, Memory.readWord_writeWord_other hm]
      exact hok.words_apart hw' hw ho' ho he
  · have hn := ha o rfl
    rw [Memory.read_writeWord_other hm]
    by_contra hc
    exact hn ⟨w, hw, by omega, by omega⟩

/-! ## Running actions alone -/

theorem hostTurn_quiet {s : State} (h : s.agenda = []) (busy : List Resource) : hostTurn busy s = .next s := by
  obtain ⟨⟩ := s
  subst h
  rfl

/-- With nobody else on the agenda, the actions take the scratch from `x` to `y` and the state from `s` to `t`, whatever
follows them and whatever locks the call holds. -/
def Leads (todo : List Action) (x : Scratch) (s : State) (y : Scratch) (t : State) : Prop :=
  ∀ busy finish rest, ∃ busy', runActions busy finish (todo ++ rest) x s = runActions busy' finish rest y t

theorem Leads.nil (x : Scratch) (s : State) : Leads [] x s x s := fun busy _ _ => ⟨busy, rfl⟩

theorem Leads.append {todo todo' : List Action} {x y z : Scratch} {s t u : State} (h : Leads todo x s y t)
    (h' : Leads todo' y t z u) : Leads (todo ++ todo') x s z u := fun busy finish rest => by
  obtain ⟨b, hb⟩ := h busy finish (todo' ++ rest)
  obtain ⟨b', hb'⟩ := h' b finish rest
  exact ⟨b', by rw [List.append_assoc, hb, hb']⟩

/-- An access that goes on. -/
theorem Leads.one {a : Action} {x y : Scratch} {s t : State} (hq : s.agenda = []) (h : perform a x s = .went y t) :
    Leads [a] x s y t := fun busy finish rest => ⟨stillHeld rest busy, by
  rw [List.singleton_append]
  conv => lhs; unfold runActions
  rw [hostTurn_quiet hq, andThen_next]
  simp only [h]⟩

theorem Leads.cons {a : Action} {todo : List Action} {x y z : Scratch} {s t u : State} (hq : s.agenda = [])
    (h : perform a x s = .went y t) (h' : Leads todo y t z u) : Leads (a :: todo) x s z u :=
  (Leads.one hq h).append h'

/-- With no action left the operation finishes. -/
theorem Leads.finish {todo : List Action} {x y : Scratch} {s t : State} (h : Leads todo x s y t) (busy : List Resource)
    (finish : State → Outcome) : runActions busy finish todo x s = finish t := by
  obtain ⟨b, hb⟩ := h busy finish []
  rwa [List.append_nil] at hb

/-- After some actions, one that ends the operation. -/
theorem Leads.ended {todo rest : List Action} {a : Action} {x y : Scratch} {s t u : State} {r : HostResult}
    (h : Leads todo x s y t) (hq : t.agenda = []) (hp : perform a y t = .ended r u) (busy : List Resource)
    (finish : State → Outcome) : runActions busy finish (todo ++ a :: rest) x s = .next (u.answer r) := by
  obtain ⟨b, hb⟩ := h busy finish (a :: rest)
  rw [hb]
  unfold runActions
  rw [hostTurn_quiet hq, andThen_next]
  simp only [hp]

/-- After some actions, one that is refused. -/
theorem Leads.refused {todo rest : List Action} {a : Action} {x y : Scratch} {s t : State} {r : Refusal}
    (h : Leads todo x s y t) (hq : t.agenda = []) (hp : perform a y t = .refused r) (busy : List Resource)
    (finish : State → Outcome) : runActions busy finish (todo ++ a :: rest) x s = .refused r := by
  obtain ⟨b, hb⟩ := h busy finish (a :: rest)
  rw [hb]
  unfold runActions
  rw [hostTurn_quiet hq, andThen_next]
  simp only [hp]

/-- A call that goes on, run alone. -/
theorem runCall_go {locks : List Resource} {todo : List Action} {s : State} (hf : mayBegin [] locks s = true)
    (finish : State → Outcome) :
    runCall finish (.go locks todo) s = runActions locks finish todo Scratch.empty s := by
  simp only [runCall, hf, if_true]

/-! ## Register commands -/

/-- Where writes land at once, a command through mapped windows is its write. -/
theorem command_eq {s : State} (hv : s.board.visibility = .sc) (hw : s.host.windowsMapped = true) (w : HostWrite) :
    command w s = land w s := by
  simp only [command, throughWindow, hw, if_true, issue, hv]
  cases land w s <;> rfl

/-- A command that lands, as an action. -/
theorem perform_write {s t : State} (hv : s.board.visibility = .sc) (hw : s.host.windowsMapped = true) {w : HostWrite}
    (h : land w s = .next t) (x : Scratch) : perform (.write w) x s = .went x t := by
  change Did.of x (command w s) = _
  rw [command_eq hv hw, h]
  rfl

/-! ## Arena accesses -/

theorem arenaWrite_wrote {s : State} {c : Chan} (hv : s.board.visibility = .sc) (hok : ArenaOk s.board (s.chan c))
    (hm : Memory.wf s.mem = true) {o : Nat} (ho : o % 4 = 0)
    (hlt : o < (s.chan c).pageMap.length * pageSize s.board) (y : Word) :
    ∃ m, arenaWrite c o y s = .next { s with mem := m } ∧
      Wrote s.board (s.chan c) (fun o' x => if o' = o then y else x) (fun o' => o' = o) s.mem m := by
  obtain ⟨w, hw, _⟩ := hok.phys_exists hlt
  exact ⟨_, arenaWrite_eq hok hv hw y, Wrote.one hok hm ho hw fun _ => y⟩

/-- A read-modify-write of a sample word: setting or clearing a pin's bit. -/
theorem modifySample_leads {s : State} {c : Chan} (hq : s.agenda = []) (hv : s.board.visibility = .sc)
    (hok : ArenaOk s.board (s.chan c)) (hm : Memory.wf s.mem = true) {i : Nat} (hi : i < (s.chan c).sampleCount)
    {a : Action} {f : Word → Word}
    (ha : ∀ (y : Scratch) t, perform a y t = .of y (arenaWrite c (sampleOffset i) (f y.word) t)) (x : Scratch) :
    ∃ m y, Leads [.readSample c i, a] x s y { s with mem := m } ∧
      Wrote s.board (s.chan c) (fun o x => if o = sampleOffset i then f x else x) (fun o => o = sampleOffset i) s.mem m := by
  obtain ⟨w, hw, _⟩ := hok.phys_exists (hok.sample_lt hi).2
  refine ⟨_, { x with word := seenWord s (physicalOf s.board w) }, Leads.cons hq (arenaRead_eq hok hw x) (Leads.one hq ?_), 
    Wrote.one hok hm (by unfold sampleOffset; omega) hw f⟩
  rw [ha, arenaWrite_eq hok hv hw, seenWord_sc hv]
  rfl

/-- A retargeting of a slot. -/
theorem retarget_leads {s : State} {c : Chan} (hq : s.agenda = []) (hv : s.board.visibility = .sc)
    (hok : ArenaOk s.board (s.chan c)) (hm : Memory.wf s.mem = true) {i : Nat} (hi : i < (s.chan c).sampleCount)
    (reg : GpioReg) (x : Scratch) :
    ∃ m, Leads [.retarget c i reg] x s x { s with mem := m } ∧
      Wrote s.board (s.chan c)
        (fun o x => if o = dstOffset s.board (s.chan c) (2 * i) then reg.busAddress s.board else x)
        (fun o => o = dstOffset s.board (s.chan c) (2 * i)) s.mem m := by
  have hmod := hok.blockOffset_mod_four (2 * i)
  have h32 := hok.board.le_cbSize
  obtain ⟨m, h, w⟩ := arenaWrite_wrote hv hok hm (o := dstOffset s.board (s.chan c) (2 * i)) (by unfold dstOffset; omega)
    (hok.block_lt (by omega) (by omega)) (reg.busAddress s.board)
  refine ⟨m, Leads.one hq ?_, w⟩
  change Did.of x (arenaWrite c _ _ s) = _
  rw [h]
  rfl

/-- Clearing a pin's bit in some samples. -/
theorem clearActions_leads {s : State} {c : Chan} {p : Pin} (hq : s.agenda = []) (hv : s.board.visibility = .sc)
    (hok : ArenaOk s.board (s.chan c)) (hm : Memory.wf s.mem = true) {n i : Nat} (hi : i + n ≤ (s.chan c).sampleCount)
    (x : Scratch) :
    ∃ m y, Leads (clearActions c p i n) x s y { s with mem := m } ∧
      Wrote s.board (s.chan c) (fun o x => if 4 * i ≤ o ∧ o < 4 * (i + n) then x &&& ~~~(pinBit p.val) else x)
        (fun o => ∃ j, i ≤ j ∧ j < i + n ∧ o = sampleOffset j) s.mem m := by
  induction n generalizing s i x with
  | zero =>
    refine ⟨s.mem, x, Leads.nil x s, (Wrote.nothing hm).congr (fun o w x _ _ => ?_) fun o ho => ho.elim⟩
    rw [if_neg (by omega)]
  | succ n ih =>
    obtain ⟨m, y, h1, w1⟩ := modifySample_leads hq hv hok hm (i := i) (by omega) (a := .clearSample c p i)
      (f := fun w => w &&& ~~~(pinBit p.val)) (fun _ _ => rfl) x
    obtain ⟨m', z, h2, w2⟩ := ih (s := { s with mem := m }) (i := i + 1) hq hv hok w1.wf (by
      change i + 1 + n ≤ (s.chan c).sampleCount; omega) y
    refine ⟨m', z, ?_, (w1.trans w2).congr (fun o w x ho hw => ?_) fun o ho => ?_⟩
    · have e : clearActions c p i (n + 1) = [.readSample c i, .clearSample c p i] ++ clearActions c p (i + 1) n := by
        unfold clearActions
        rw [List.range'_succ]
        rfl
      rw [e]
      exact h1.append h2
    · unfold sampleOffset
      by_cases he : o = 4 * i
      · rw [if_neg (by omega), if_pos he, if_pos (by omega)]
      · by_cases hr : 4 * (i + 1) ≤ o ∧ o < 4 * (i + 1 + n)
        · rw [if_pos hr, if_neg he, if_pos (by omega)]
        · rw [if_neg hr, if_neg he, if_neg (by omega)]
    · rcases ho with ho | ⟨j, h3, h4, h5⟩
      · exact ⟨i, by omega, by omega, ho⟩
      · exact ⟨j, by omega, by omega, h5⟩

/-! ## The claim -/

theorem fsel_toList (s : State) (n : Fin 6) : s.gpio.fsel.toList.getD n.val 0 = s.fsel n := by
  obtain ⟨n, hn⟩ := n
  simp [State.fsel, Vector.get, List.getD, hn]

/-- A bit of a pin's field, and of no other. -/
theorem field_bit {b : Board} (hb : RegistersOk b) (bit q : Nat) :
    bit / b.regs.fselBits = q ↔ b.regs.fselBits * q ≤ bit ∧ bit - b.regs.fselBits * q < b.regs.fselBits := by
  have h0 := hb.fields.1
  constructor
  · rintro rfl
    have h1 := Nat.div_add_mod bit b.regs.fselBits
    have h2 := Nat.mod_lt bit h0
    exact ⟨by omega, by omega⟩
  · rintro ⟨h1, h2⟩
    refine (Nat.div_eq_iff h0).mpr ⟨?_, ?_⟩ <;> rw [Nat.mul_comm] <;> omega

/-- WHAT A FUNCTION-SELECT READ RETURNS: every pin's field as it stands. -/
theorem selectRead_bit {s : State} (hb : RegistersOk s.board) (hv : s.board.visibility = .sc) (n : Fin 6) {bit : Nat}
    (h : bit < s.board.regs.fselBits * s.board.regs.fselPins) : (selectRead s n).getLsbD bit = (s.fsel n).getLsbD bit := by
  have h32 : bit < 32 := Nat.lt_of_lt_of_le h hb.fields.2.1
  have hf : (fselFields s.board).getLsbD bit = true := by
    simp only [fselFields, BitVec.getLsbD_ofNat, Nat.testBit_two_pow_sub_one, h32, h, decide_true, Bool.and_self]
  simp only [selectRead, seenSelect_sc hv, BitVec.getLsbD_or, BitVec.getLsbD_and, BitVec.getLsbD_not, hf, h32,
    decide_true, Bool.not_true, Bool.and_true, Bool.and_false, Bool.or_false]

/-- WHAT A CLAIM WRITES: its pin an output, every other pin as it was read. -/
theorem fselOutput_selects {b : Board} (hb : RegistersOk b) (p : Pin) {old seen : Word}
    (h : ∀ bit, bit < b.regs.fselBits * b.regs.fselPins → seen.getLsbD bit = old.getLsbD bit) :
    SelectsOutput b p old (fselOutput b p.val seen) := by
  intro bit hbit
  have h32 : bit < 32 := Nat.lt_of_lt_of_le hbit hb.fields.2.1
  have hd := field_bit hb bit (p.val % b.regs.fselPins)
  have hout : ∀ k, b.regs.fselBits ≤ k → b.regs.fselOutput.testBit k = false := fun k hk =>
    Nat.testBit_lt_two_pow (Nat.lt_of_lt_of_le hb.output.2 (Nat.pow_le_pow_right (by omega) hk))
  simp only [fselOutput, fselOutValue, fselShift, BitVec.getLsbD_or, BitVec.getLsbD_and, BitVec.getLsbD_not,
    BitVec.getLsbD_shiftLeft, BitVec.getLsbD_ofNat, Nat.testBit_two_pow_sub_one, h bit hbit, h32, decide_true,
    Bool.true_and]
  by_cases hq : bit / b.regs.fselBits = p.val % b.regs.fselPins
  · obtain ⟨h1, h2⟩ := hd.mp hq
    have hm : bit % b.regs.fselBits = bit - b.regs.fselBits * (p.val % b.regs.fselPins) := by
      rw [← hq, Nat.mod_eq_sub]
    rw [if_pos hq, hm]
    simp [show ¬ bit < b.regs.fselBits * (p.val % b.regs.fselPins) by omega, h2,
      show bit - b.regs.fselBits * (p.val % b.regs.fselPins) < 32 by omega]
  · rw [if_neg hq]
    by_cases h1 : bit < b.regs.fselBits * (p.val % b.regs.fselPins)
    · simp [h1]
    · have h2 : b.regs.fselBits ≤ bit - b.regs.fselBits * (p.val % b.regs.fselPins) := by
        by_contra hc
        exact hq (hd.mpr ⟨by omega, by omega⟩)
      simp [h1, hout _ h2, Nat.not_lt.mpr h2]

/-- A pin's field depends on its own bits alone. -/
theorem fselField_of_bits {s t : State} {p : Pin} (hboard : t.board = s.board)
    (h : ∀ k, k < s.board.regs.fselBits → (t.gpio.fsel.get (fselOf s.board p)).getLsbD (fselShift s.board p.val + k) =
      (s.gpio.fsel.get (fselOf s.board p)).getLsbD (fselShift s.board p.val + k)) : fselField t p = fselField s p := by
  unfold fselField
  rw [hboard]
  refine Nat.eq_of_testBit_eq fun k => ?_
  simp only [Nat.testBit_mod_two_pow, Nat.testBit_div_two_pow]
  by_cases hk : k < s.board.regs.fselBits
  · have := h k hk
    unfold BitVec.getLsbD at this
    rw [Nat.add_comm k, this]
  · simp [hk]

/-- The register of a pin among the six. -/
theorem fselOf_val {b : Board} (hb : RegistersOk b) (p : Pin) : (fselOf b p).val = p.val / b.regs.fselPins := by
  have h := hb.fields.2.2
  have hp : p.val < 32 := p.isLt
  have : p.val / b.regs.fselPins < 6 := Nat.div_lt_of_lt_mul (by omega)
  exact Nat.mod_eq_of_lt this

/-- WHAT A CLAIM DOES TO THE PINS: its own is an output, every other keeps its function. -/
theorem fselField_selected {s t : State} (hb : RegistersOk s.board) {p : Pin} {w : Word}
    (hw : SelectsOutput s.board p (s.gpio.fsel.get (fselOf s.board p)) w) (hboard : t.board = s.board)
    (hf : t.gpio.fsel = s.gpio.fsel.set (fselOf s.board p).val w (fselOf s.board p).isLt) :
    fselField t p = s.board.regs.fselOutput ∧ ∀ q : Pin, q ≠ p → fselField t q = fselField s q := by
  obtain ⟨h0, h1, h2⟩ := hb.fields
  have inField : ∀ (q : Pin) k, k < s.board.regs.fselBits →
      fselShift s.board q.val + k < s.board.regs.fselBits * s.board.regs.fselPins ∧
      (fselShift s.board q.val + k) / s.board.regs.fselBits = q.val % s.board.regs.fselPins ∧
      (fselShift s.board q.val + k) % s.board.regs.fselBits = k := by
    intro q k hk
    have hm : q.val % s.board.regs.fselPins < s.board.regs.fselPins := Nat.mod_lt _ (by omega)
    have := Nat.mul_le_mul_left s.board.regs.fselBits hm
    rw [Nat.mul_succ] at this
    unfold fselShift
    refine ⟨by omega, ?_, ?_⟩
    · rw [Nat.mul_add_div h0, Nat.div_eq_of_lt hk, Nat.add_zero]
    · rw [Nat.mul_add_mod, Nat.mod_eq_of_lt hk]
  have get : ∀ q : Pin, t.gpio.fsel.get (fselOf s.board q) =
      if fselOf s.board q = fselOf s.board p then w else s.gpio.fsel.get (fselOf s.board q) := by
    intro q
    rw [hf]
    change (s.gpio.fsel.set _ w _)[(fselOf s.board q).val] = if _ then w else s.gpio.fsel[(fselOf s.board q).val]
    rw [Vector.getElem_set]
    by_cases h : fselOf s.board q = fselOf s.board p
    · rw [if_pos h, if_pos (by rw [h])]
    · rw [if_neg h, if_neg (fun e => h (Fin.ext e.symm))]
  refine ⟨?_, fun q hq => fselField_of_bits hboard fun k hk => ?_⟩
  · unfold fselField
    rw [hboard, get p, if_pos rfl]
    refine Nat.eq_of_testBit_eq fun k => ?_
    simp only [Nat.testBit_mod_two_pow, Nat.testBit_div_two_pow]
    by_cases hk : k < s.board.regs.fselBits
    · obtain ⟨b1, b2, b3⟩ := inField p k hk
      have := hw _ b1
      rw [if_pos b2, b3] at this
      unfold BitVec.getLsbD at this
      rw [Nat.add_comm k, this]
      simp [hk]
    · simp only [hk, decide_false, Bool.false_and]
      exact (Nat.testBit_lt_two_pow (Nat.lt_of_lt_of_le hb.output.2 (Nat.pow_le_pow_right (by omega) (by omega)))).symm
  · rw [get q]
    by_cases h : fselOf s.board q = fselOf s.board p
    · rw [if_pos h, h]
      obtain ⟨b1, b2, -⟩ := inField q k hk
      rw [hw _ b1, if_neg]
      rw [b2]
      intro hm
      have hd := congrArg Fin.val h
      rw [fselOf_val hb, fselOf_val hb] at hd
      apply hq
      apply Fin.ext
      rw [← Nat.div_add_mod q.val s.board.regs.fselPins, hd, hm, Nat.div_add_mod]
    · rw [if_neg h]

/-- The word a claim of pin `p` writes. -/
def claimWord (p : Pin) (s : State) : Word := fselOutput s.board p.val (selectRead s (fselOf s.board p))

theorem claimWord_selects {s : State} (hb : RegistersOk s.board) (hv : s.board.visibility = .sc) (p : Pin) :
    SelectsOutput s.board p (s.gpio.fsel.get (fselOf s.board p)) (claimWord p s) :=
  fselOutput_selects hb p fun _ h => selectRead_bit hb hv _ h

/-- The function-select command: the register is read, the pin's field written, the event recorded. -/
theorem selectActions_leads {s : State} (hq : s.agenda = []) (hv : s.board.visibility = .sc)
    (hw : s.host.windowsMapped = true) (p : Pin) (x : Scratch) :
    Leads (selectActions p) x s { x with word := selectRead s (fselOf s.board p) }
      ((s.drawn.setFsel (fselOf s.board p) (claimWord p s)).emit
        (.regWrite .gpio (fselOff s.board (fselOf s.board p).val) (claimWord p s))) := by
  refine Leads.cons hq (y := { x with word := selectRead s (fselOf s.board p) }) (t := s.drawn) ?_
    (Leads.one (by exact hq) ?_)
  · change throughWindowDid s _ = _
    unfold throughWindowDid
    rw [if_pos hw]
  · exact perform_write (by exact hv) (by exact hw) rfl _

/-- The claim procedure. -/
theorem claimActions_leads {s : State} (hb : RegistersOk s.board) (hq : s.agenda = []) (hv : s.board.visibility = .sc)
    (hw : s.host.windowsMapped = true) (p : Pin) (x : Scratch) :
    Leads (claimActions p) x s { x with word := selectRead s (fselOf s.board p) } (claimedState p (claimWord p s) s) := by
  have h := ((selectActions_leads hq hv hw p x).append (Leads.cons (by exact hq)
    (perform_write (w := .gpio .clr0 (pinBit p.val)) (by exact hv) (by exact hw) rfl _)
    (Leads.one (a := .recordClaim p) (by exact hq) rfl)))
  have e : claimedState p (claimWord p s) s = markClaimed p (gpioWrite .host .clr0 (pinBit p.val)
      ((s.drawn.setFsel (fselOf s.board p) (claimWord p s)).emit
        (.regWrite .gpio (fselOff s.board (fselOf s.board p).val) (claimWord p s)))) := ?_
  · rw [e]; exact h
  unfold claimedState
  simp only [markClaimed, gpioWrite, State.emit, State.setFsel, State.drawn, latchAfter, List.append_assoc, fselOff,
    fselOf_val hb]
  rfl

@[simp] theorem claimedState_mem (p : Pin) (w : Word) (s : State) : (claimedState p w s).mem = s.mem := rfl
@[simp] theorem claimedState_agenda (p : Pin) (w : Word) (s : State) : (claimedState p w s).agenda = s.agenda := rfl
@[simp] theorem claimedState_board (p : Pin) (w : Word) (s : State) : (claimedState p w s).board = s.board := rfl
@[simp] theorem claimedState_chan (p : Pin) (w : Word) (s : State) (c : Chan) :
    (claimedState p w s).chan c = s.chan c := rfl
@[simp] theorem claimedState_dma (p : Pin) (w : Word) (s : State) : (claimedState p w s).dma = s.dma := rfl
@[simp] theorem claimedState_windowsMapped (p : Pin) (w : Word) (s : State) :
    (claimedState p w s).host.windowsMapped = s.host.windowsMapped := rfl

/-! ## A pulse's writes -/

theorem ArenaOk.dst_ne_sample {b : Board} {ch : ChanRec} (h : ArenaOk b ch) {i k : Nat} (hi : i < ch.sampleCount) :
    dstOffset b ch k ≠ sampleOffset i := by
  have := (h.sample_lt hi).1
  unfold dstOffset blockOffset
  omega

theorem dstOffset_inj {b : Board} (hb : BoardOk b) {ch : ChanRec} {k k' : Nat} (h : dstOffset b ch k = dstOffset b ch k') : k = k' := by
  unfold dstOffset blockOffset at h
  exact Nat.mul_left_cancel hb.positive (by omega)

/-- What a pulse writes to the word at offset `o` (R231 steps 7 to 10, in their order). -/
def pulseWord (b : Board) (ch : ChanRec) (p : Pin) (start width o : Nat) (x : Word) : Word :=
  if o = sampleOffset start then (if width = 0 then x &&& ~~~(pinBit p.val) else x ||| pinBit p.val)
  else if sampleOffset start < o ∧ o ≤ sampleOffset (start + width) ∧ o < 4 * ch.sampleCount then
    x &&& ~~~(pinBit p.val)
  else if start + width < ch.sampleCount ∧ o = dstOffset b ch (2 * (start + width)) then b.gpClr
  else if o = dstOffset b ch (2 * start) then b.gpSet
  else x

/-- The offsets a pulse writes. -/
def pulseOffsets (b : Board) (ch : ChanRec) (start width o : Nat) : Prop :=
  (∃ j, start ≤ j ∧ j ≤ start + width ∧ j < ch.sampleCount ∧ o = sampleOffset j) ∨ o = dstOffset b ch (2 * start) ∨
    (start + width < ch.sampleCount ∧ o = dstOffset b ch (2 * (start + width)))

theorem set_then_clear (x m : Word) : (x ||| m) &&& ~~~m = x &&& ~~~m := by
  apply BitVec.eq_of_getLsbD_eq
  intro i hi
  simp only [BitVec.getLsbD_and, BitVec.getLsbD_or, BitVec.getLsbD_not, hi, decide_true, Bool.true_and]
  cases x.getLsbD i <;> cases m.getLsbD i <;> rfl

theorem dst_bounds {b : Board} {ch : ChanRec} (h : ArenaOk b ch) (k : Nat) : 4 * ch.sampleCount + 8 ≤ dstOffset b ch k := by
  have := le_cbOffsetOf h.board ch.sampleCount
  rw [← h.offset] at this
  unfold dstOffset blockOffset
  omega

/-- The writes of a pulse that ends at a slot, composed. -/
theorem pulseWord_ended {b : Board} {ch : ChanRec} (h : ArenaOk b ch) (p : Pin) {start width : Nat}
    (he : start + width < ch.sampleCount) {o : Nat} (ho : o % 4 = 0) (x : Word) :
    (if o = dstOffset b ch (2 * (start + width)) then GpioReg.clr0.busAddress b else
      (fun x => if o = sampleOffset (start + width) then x &&& ~~~(pinBit p.val) else x)
      ((fun x => if 4 * (start + 1) ≤ o ∧ o < 4 * (start + 1 + (width - 1)) then x &&& ~~~(pinBit p.val) else x)
      (if o = dstOffset b ch (2 * start) then GpioReg.set0.busAddress b else
      (if o = sampleOffset start then x ||| pinBit p.val else x)))) = pulseWord b ch p start width o x := by
  have b1 := dst_bounds h (2 * start)
  have b2 := dst_bounds h (2 * (start + width))
  unfold pulseWord sampleOffset
  simp only []
  rw [show GpioReg.clr0.busAddress b = b.gpClr from rfl, show GpioReg.set0.busAddress b = b.gpSet from rfl]
  have hwd : width = 0 → dstOffset b ch (2 * (start + width)) = dstOffset b ch (2 * start) := by rintro rfl; rfl
  generalize dstOffset b ch (2 * (start + width)) = d2 at *
  generalize dstOffset b ch (2 * start) = d1 at *
  split_ifs <;> first | rfl | (exfalso; omega) | exact set_then_clear _ _

/-- The writes of a pulse up to the end of the table, composed. -/
theorem pulseWord_open {b : Board} {ch : ChanRec} (h : ArenaOk b ch) (p : Pin) {start width : Nat}
    (hs : start < ch.sampleCount) (he : start + width = ch.sampleCount) {o : Nat} (ho : o % 4 = 0) (x : Word) :
    (fun x => if 4 * (start + 1) ≤ o ∧ o < 4 * (start + 1 + (width - 1)) then x &&& ~~~(pinBit p.val) else x)
      (if o = dstOffset b ch (2 * start) then GpioReg.set0.busAddress b else
      (if o = sampleOffset start then x ||| pinBit p.val else x)) = pulseWord b ch p start width o x := by
  have b1 := dst_bounds h (2 * start)
  unfold pulseWord sampleOffset
  simp only []
  rw [show GpioReg.set0.busAddress b = b.gpSet from rfl]
  generalize dstOffset b ch (2 * (start + width)) = d2 at *
  generalize dstOffset b ch (2 * start) = d1 at *
  split_ifs <;> first | rfl | (exfalso; omega)

/-- The table writes of a pulse: `pulseWord` on each word. -/
theorem pulseActions_leads {s : State} {c : Chan} {p : Pin} {start width : Nat} (hq : s.agenda = [])
    (hv : s.board.visibility = .sc) (hok : ArenaOk s.board (s.chan c)) (hm : Memory.wf s.mem = true)
    (hs : start < (s.chan c).sampleCount) (he : start + width ≤ (s.chan c).sampleCount) (x : Scratch) :
    ∃ m y, Leads (pulseActions c p start width (s.chan c).maxWidth) x s y { s with mem := m } ∧
      Wrote s.board (s.chan c) (pulseWord s.board (s.chan c) p start width)
        (pulseOffsets s.board (s.chan c) start width) s.mem m := by
  obtain ⟨m1, y1, h1, w1⟩ := modifySample_leads hq hv hok hm hs (a := .setSample c p start)
    (f := fun w => w ||| pinBit p.val) (fun _ _ => rfl) x
  obtain ⟨m2, h2, w2⟩ := retarget_leads (s := { s with mem := m1 }) (c := c) hq hv hok w1.wf hs .set0 y1
  obtain ⟨m3, y3, h3, w3⟩ := clearActions_leads (s := { s with mem := m2 }) (c := c) (p := p) (n := width - 1)
    (i := start + 1) hq hv hok w2.wf (by change start + 1 + (width - 1) ≤ (s.chan c).sampleCount; omega) y1
  have w := (w1.trans w2).trans w3
  have h := (h1.append h2).append h3
  unfold pulseActions
  rw [hok.width]
  by_cases hend : start + width < (s.chan c).sampleCount
  · rw [if_pos hend]
    obtain ⟨m4, y4, h4, w4⟩ := clearActions_leads (s := { s with mem := m3 }) (c := c) (p := p) (i := start + width) (n := 1)
      hq hv hok w3.wf hend y3
    obtain ⟨m5, h5, w5⟩ := retarget_leads (s := { s with mem := m4 }) (c := c) hq hv hok w4.wf hend .clr0 y4
    refine ⟨m5, y4, h.append (h4.append h5), ((w.trans w4).trans w5).congr (fun o _ x ho _ => ?_) fun o ho => ?_⟩
    · refine Eq.trans ?_ (pulseWord_ended hok p hend ho x)
      have e : (4 * (start + width) ≤ o ∧ o < 4 * (start + width + 1)) ↔ o = sampleOffset (start + width) := by
        unfold sampleOffset; omega
      simp only [e]
      rfl
    · rcases ho with (((ho | ho) | ⟨j, h3, h4, h5⟩) | ⟨j, h3, h4, h5⟩) | ho
      · exact .inl ⟨start, by omega, by omega, hs, ho⟩
      · exact .inr (.inl ho)
      · exact .inl ⟨j, by omega, by omega, by omega, h5⟩
      · exact .inl ⟨j, by omega, by omega, by omega, h5⟩
      · exact .inr (.inr ⟨hend, ho⟩)
  · rw [if_neg hend, List.append_nil]
    refine ⟨m3, y3, h, w.congr (fun o _ x ho _ => pulseWord_open hok p hs (by omega) ho x) fun o ho => ?_⟩
    rcases ho with (ho | ho) | ⟨j, h3, h4, h5⟩
    · exact .inl ⟨start, by omega, by omega, hs, ho⟩
    · exact .inr (.inl ho)
    · exact .inl ⟨j, by omega, by omega, by omega, h5⟩

/-! ## The chain's writes -/

/-- What the six field writes of a block at offset `off` make of the word at offset `o`. -/
def blockWord (off : Nat) (b : ControlBlock) (o : Nat) (x : Word) : Word :=
  if o = off + 20 then b.next else if o = off + 16 then b.stride else if o = off + 12 then b.length
  else if o = off + 8 then b.dst else if o = off + 4 then b.src else if o = off then b.info else x

/-- The offsets of a block's six fields. -/
def blockFields (off o : Nat) : Prop := ∃ f ∈ [0, 4, 8, 12, 16, 20], o = off + f

/-- The six field writes of control block `k`. -/
def blockActions (c : Chan) (k : Nat) : List Action := (List.finRange 6).map fun f => .writeField c k f

theorem writeField_leads {s : State} {c : Chan} (hq : s.agenda = []) (hv : s.board.visibility = .sc)
    (hok : ArenaOk s.board (s.chan c)) (hm : Memory.wf s.mem = true) {k : Nat} (hk : k < 2 * (s.chan c).sampleCount)
    {blk : ControlBlock} (hb : compiledBlock s.board (s.chan c) k = some blk) (f : Fin 6) (x : Scratch) :
    ∃ m, Leads [.writeField c k f] x s x { s with mem := m } ∧
      Wrote s.board (s.chan c)
        (fun o x => if o = blockOffset s.board (s.chan c) k + 4 * f.val then blockField blk f else x)
        (fun o => o = blockOffset s.board (s.chan c) k + 4 * f.val) s.mem m := by
  have hmod := hok.blockOffset_mod_four k
  have h32 := hok.board.le_cbSize
  obtain ⟨m, h, w⟩ := arenaWrite_wrote hv hok hm (o := blockOffset s.board (s.chan c) k + 4 * f.val) (by omega)
    (hok.block_lt hk (by omega)) (blockField blk f)
  refine ⟨m, Leads.one hq ?_, w⟩
  simp only [perform, hb, h]
  rfl

theorem blockActions_leads {s : State} {c : Chan} (hq : s.agenda = []) (hv : s.board.visibility = .sc)
    (hok : ArenaOk s.board (s.chan c)) (hm : Memory.wf s.mem = true) {k : Nat} (hk : k < 2 * (s.chan c).sampleCount)
    {blk : ControlBlock} (hb : compiledBlock s.board (s.chan c) k = some blk) (x : Scratch) :
    ∃ m, Leads (blockActions c k) x s x { s with mem := m } ∧
      Wrote s.board (s.chan c) (blockWord (blockOffset s.board (s.chan c) k) blk)
        (blockFields (blockOffset s.board (s.chan c) k)) s.mem m := by
  obtain ⟨m0, h0, w0⟩ := writeField_leads hq hv hok hm hk hb 0 x
  obtain ⟨m1, h1, w1⟩ := writeField_leads (s := { s with mem := m0 }) (c := c) hq hv hok w0.wf hk hb 1 x
  obtain ⟨m2, h2, w2⟩ := writeField_leads (s := { s with mem := m1 }) (c := c) hq hv hok w1.wf hk hb 2 x
  obtain ⟨m3, h3, w3⟩ := writeField_leads (s := { s with mem := m2 }) (c := c) hq hv hok w2.wf hk hb 3 x
  obtain ⟨m4, h4, w4⟩ := writeField_leads (s := { s with mem := m3 }) (c := c) hq hv hok w3.wf hk hb 4 x
  obtain ⟨m5, h5, w5⟩ := writeField_leads (s := { s with mem := m4 }) (c := c) hq hv hok w4.wf hk hb 5 x
  refine ⟨m5, ((((h0.append h1).append h2).append h3).append h4).append h5,
    (((((w0.trans w1).trans w2).trans w3).trans w4).trans w5).congr (fun o _ x _ _ => rfl) fun o ho => ?_⟩
  unfold blockFields
  rcases ho with ((((ho | ho) | ho) | ho) | ho) | ho <;> subst ho
  exacts [⟨0, by simp⟩, ⟨4, by simp⟩, ⟨8, by simp⟩, ⟨12, by simp⟩, ⟨16, by simp⟩, ⟨20, by simp⟩]

/-- A block that writes have made of an arena's words. -/
theorem blockAt_wrote {s : State} {ch : ChanRec} (hok : ArenaOk s.board ch) {v : Nat → Word → Word} {T : Nat → Prop}
    {m : Memory} (w : Wrote s.board ch v T s.mem m) {k : Nat} (hk : k < 2 * ch.sampleCount) :
    ∃ b, blockAt s ch (blockOffset s.board ch k) = some b ∧ blockAt { s with mem := m } ch (blockOffset s.board ch k) = some
      { info := v (blockOffset s.board ch k) b.info, src := v (blockOffset s.board ch k + 4) b.src, dst := v (blockOffset s.board ch k + 8) b.dst,
        length := v (blockOffset s.board ch k + 12) b.length, stride := v (blockOffset s.board ch k + 16) b.stride,
        next := v (blockOffset s.board ch k + 20) b.next } := by
  have hmod := hok.blockOffset_mod_four k
  have key : ∀ f, f < 32 → f % 4 = 0 → ∃ x, arenaWordOf s ch (blockOffset s.board ch k + f) = some x ∧
      arenaWordOf { s with mem := m } ch (blockOffset s.board ch k + f) = some (v (blockOffset s.board ch k + f) x) := by
    intro f hf h4
    obtain ⟨a, ha, _⟩ := hok.phys_exists (hok.block_lt hk (Nat.lt_of_lt_of_le hf hok.board.le_cbSize))
    refine ⟨_, by unfold arenaWordOf; rw [ha]; rfl, ?_⟩
    unfold arenaWordOf
    rw [ha, Option.map_some, w.word _ a (by omega) ha]
  obtain ⟨x0, a0, b0⟩ := key 0 (by omega) rfl
  obtain ⟨x4, a4, b4⟩ := key 4 (by omega) rfl
  obtain ⟨x8, a8, b8⟩ := key 8 (by omega) rfl
  obtain ⟨x12, a12, b12⟩ := key 12 (by omega) rfl
  obtain ⟨x16, a16, b16⟩ := key 16 (by omega) rfl
  obtain ⟨x20, a20, b20⟩ := key 20 (by omega) rfl
  rw [Nat.add_zero] at a0 b0
  refine ⟨{ info := x0, src := x4, dst := x8, length := x12, stride := x16, next := x20 }, ?_, ?_⟩
  · unfold blockAt
    rw [a0, a4, a8, a12, a16, a20]
  · unfold blockAt
    rw [b0, b4, b8, b12, b16, b20]

theorem blockOffset_apart {b : Board} (hb : BoardOk b) {ch : ChanRec} {k k' f f' : Nat} (h : k ≠ k') (hf : f < 32)
    (hf' : f' < 32) : blockOffset b ch k + f ≠ blockOffset b ch k' + f' := by
  have h32 := hb.le_cbSize
  unfold blockOffset
  rcases Nat.lt_or_gt_of_ne h with hlt | hlt
  · have := Nat.mul_le_mul_left b.cbSize hlt
    rw [Nat.mul_succ] at this
    omega
  · have := Nat.mul_le_mul_left b.cbSize hlt
    rw [Nat.mul_succ] at this
    omega

/-- A block just written. -/
theorem blockAt_written {s : State} {ch : ChanRec} (hok : ArenaOk s.board ch) {m : Memory} {k : Nat} {b : ControlBlock}
    {T : Nat → Prop} (w : Wrote s.board ch (blockWord (blockOffset s.board ch k) b) T s.mem m) (hk : k < 2 * ch.sampleCount) :
    blockAt { s with mem := m } ch (blockOffset s.board ch k) = some b := by
  obtain ⟨b', _, h⟩ := blockAt_wrote hok w hk
  rw [h]
  simp [blockWord]

/-- Writing one block leaves the others. -/
theorem blockAt_other {s : State} {ch : ChanRec} (hok : ArenaOk s.board ch) {m : Memory} {k k' : Nat} {b : ControlBlock}
    {T : Nat → Prop} (w : Wrote s.board ch (blockWord (blockOffset s.board ch k) b) T s.mem m) (hk : k' < 2 * ch.sampleCount)
    (hne : k' ≠ k) : blockAt { s with mem := m } ch (blockOffset s.board ch k') = blockAt s ch (blockOffset s.board ch k') := by
  obtain ⟨b', h1, h2⟩ := blockAt_wrote hok w hk
  rw [h2, h1]
  have key : ∀ f x, f < 32 → blockWord (blockOffset s.board ch k) b (blockOffset s.board ch k' + f) x = x := by
    intro f x hf
    have hne' := fun f' (hf' : f' < 32) => blockOffset_apart hok.board (ch := ch) hne hf hf'
    unfold blockWord
    rw [if_neg (hne' 20 (by omega)), if_neg (hne' 16 (by omega)), if_neg (hne' 12 (by omega)),
      if_neg (hne' 8 (by omega)), if_neg (hne' 4 (by omega)),
      if_neg (by simpa using hne' 0 (by omega))]
  have key0 : ∀ x, blockWord (blockOffset s.board ch k) b (blockOffset s.board ch k') x = x := fun x => key 0 x (by omega)
  rw [key0, key 4 _ (by omega), key 8 _ (by omega), key 12 _ (by omega), key 16 _ (by omega), key 20 _ (by omega)]

/-- Every block of a sound arena compiles. -/
theorem ArenaOk.compiledBlock_exists {b : Board} {ch : ChanRec} (h : ArenaOk b ch) {k : Nat}
    (hk : k < 2 * ch.sampleCount) : ∃ src next, phys b ch (sampleOffset (if k % 2 = 0 then k / 2 else 0)) = some src ∧
      blockAddress b ch (nextBlock ch k) = some next ∧
      compiledBlock b ch k = some (if k % 2 = 0 then cbaWords b src .clr0 next else cbbWords b src next) := by
  obtain ⟨src, hs, _⟩ := h.phys_exists (h.sample_lt (i := if k % 2 = 0 then k / 2 else 0) (by split <;> omega)).2
  obtain ⟨next, hn, _⟩ := h.phys_exists (h.block_lt (k := nextBlock ch k) (f := 0) (Nat.mod_lt _ (by omega)) h.board.positive)
  have hn' : blockAddress b ch (nextBlock ch k) = some next := hn
  refine ⟨src, next, hs, hn', ?_⟩
  unfold compiledBlock
  rw [hs, hn']

/-- The blocks written from block `i` on. -/
theorem chain_leads {s : State} {c : Chan} (hq : s.agenda = []) (hv : s.board.visibility = .sc)
    (hok : ArenaOk s.board (s.chan c)) (hm : Memory.wf s.mem = true) {n i : Nat}
    (hi : i + n ≤ 2 * (s.chan c).sampleCount) (x : Scratch) :
    ∃ m, Leads ((List.range' i n).flatMap (blockActions c)) x s x { s with mem := m } ∧ Memory.wf m = true ∧
      (∀ k, i ≤ k → k < i + n → blockAt { s with mem := m } (s.chan c) (blockOffset s.board (s.chan c) k) =
        compiledBlock s.board (s.chan c) k) ∧
      (∀ k, k < i → blockAt { s with mem := m } (s.chan c) (blockOffset s.board (s.chan c) k) =
        blockAt s (s.chan c) (blockOffset s.board (s.chan c) k)) ∧
      (∀ o w, o % 4 = 0 → o + 4 ≤ (s.chan c).cbOffset → phys s.board (s.chan c) o = some w →
        Memory.readWord m (physicalOf s.board w) = Memory.readWord s.mem (physicalOf s.board w)) ∧
      (∀ a, (∀ k f, i ≤ k → k < i + n → f ∈ [0, 4, 8, 12, 16, 20] →
        ¬ inArenaWord s.board (s.chan c) (blockOffset s.board (s.chan c) k + f) a) →
        Memory.read m a = Memory.read s.mem a) := by
  induction n generalizing s i with
  | zero =>
    exact ⟨s.mem, Leads.nil x s, hm, fun k h1 h2 => absurd h2 (by omega), fun _ _ => rfl, fun _ _ _ _ _ => rfl,
      fun _ _ => rfl⟩
  | succ n ih =>
    obtain ⟨src, nxt, -, -, hb⟩ := hok.compiledBlock_exists (k := i) (by omega)
    generalize (if i % 2 = 0 then cbaWords s.board src .clr0 nxt else cbbWords s.board src nxt) = blk at hb
    obtain ⟨m1, e1, w1⟩ := blockActions_leads hq hv hok hm (k := i) (by omega) hb x
    obtain ⟨m2, e2, wf2, hin, hbe, hsm, hfr⟩ := ih (s := { s with mem := m1 }) (i := i + 1) hq hv hok w1.wf
      (by change i + 1 + n ≤ 2 * (s.chan c).sampleCount; omega)
    have e2 : Leads _ x { s with mem := m1 } x { s with mem := m2 } := e2
    refine ⟨m2, ?_, wf2, fun k h1 h2 => ?_, fun k hk => ?_, fun o w ho hlt hw => ?_, fun a ha => ?_⟩
    · rw [List.range'_succ, List.flatMap_cons]
      exact e1.append e2
    · by_cases hk : k = i
      · subst hk
        exact (hbe k (by omega)).trans ((blockAt_written hok w1 (by omega)).trans hb.symm)
      · exact hin k (by omega) (by omega)
    · exact (hbe k (by omega)).trans (blockAt_other hok w1 (by omega) (by omega))
    · have hne : ∀ k b x, blockWord (blockOffset s.board (s.chan c) k) b o x = x := by
        intro k b x
        unfold blockWord blockOffset
        rw [if_neg (by omega), if_neg (by omega), if_neg (by omega), if_neg (by omega), if_neg (by omega),
          if_neg (by omega)]
      exact (hsm o w ho hlt hw).trans ((w1.word o w ho hw).trans (hne _ _ _))
    · refine (hfr a fun k f h1 h2 hf => ha k f (by omega) (by omega) hf).trans (w1.frame a ?_)
      rintro o ⟨f, hf, rfl⟩
      exact ha i f (by omega) (by omega) hf

/-- Where every block stands as `compile` writes it, so does every slot's pair. -/
theorem chainCompiled_of_blocks {s : State} {ch : ChanRec} (hok : ArenaOk s.board ch)
    (h : ∀ k, k < 2 * ch.sampleCount → blockAt s ch (blockOffset s.board ch k) = compiledBlock s.board ch k) :
    ChainCompiled s ch := by
  intro i hi
  obtain ⟨srcA, nA, h1, h2, h3⟩ := hok.compiledBlock_exists (k := 2 * i) (by omega)
  obtain ⟨srcB, nB, h4, h5, h6⟩ := hok.compiledBlock_exists (k := 2 * i + 1) (by omega)
  have e1 : 2 * i % 2 = 0 := by omega
  have e2 : ¬ (2 * i + 1) % 2 = 0 := by omega
  have e3 : 2 * i / 2 = i := by omega
  rw [if_pos e1] at h1 h3
  rw [if_neg e2] at h4 h6
  rw [e3] at h1
  have e4 : nextBlock ch (2 * i) = 2 * i + 1 := by unfold nextBlock; exact Nat.mod_eq_of_lt (by omega)
  rw [e4] at h2
  exact ⟨⟨srcA, nA, h1, h2, (h _ (by omega)).trans h3⟩, ⟨srcB, nB, h4, h5, (h _ (by omega)).trans h6⟩⟩

/-- The whole chain written. -/
theorem chainActions_leads {s : State} {c : Chan} (hq : s.agenda = []) (hv : s.board.visibility = .sc)
    (hok : ArenaOk s.board (s.chan c)) (hm : Memory.wf s.mem = true) (x : Scratch) :
    ∃ m, Leads (chainActions c (s.chan c).sampleCount) x s x { s with mem := m } ∧ Memory.wf m = true ∧
      ChainCompiled { s with mem := m } (s.chan c) ∧
      (∀ o w, o % 4 = 0 → o + 4 ≤ (s.chan c).cbOffset → phys s.board (s.chan c) o = some w →
        Memory.readWord m (physicalOf s.board w) = Memory.readWord s.mem (physicalOf s.board w)) ∧
      (∀ a, (∀ k f, k < 2 * (s.chan c).sampleCount → f ∈ [0, 4, 8, 12, 16, 20] →
        ¬ inArenaWord s.board (s.chan c) (blockOffset s.board (s.chan c) k + f) a) →
        Memory.read m a = Memory.read s.mem a) := by
  obtain ⟨m, e, wf, hin, -, hsm, hfr⟩ := chain_leads hq hv hok hm (n := 2 * (s.chan c).sampleCount) (i := 0) (by omega) x
  refine ⟨m, ?_, wf, chainCompiled_of_blocks (s := { s with mem := m }) hok fun k hk => hin k (by omega) (by omega), hsm,
    fun a ha => hfr a fun k f _ h2 hf => ha k f (by omega) hf⟩
  rw [← List.range_eq_range'] at e
  exact e

/-! ## The start sequence -/

/-- A write in flight touches no engine, nothing of the host's, and draws nothing. -/
theorem resolveInFlight_keeps (c : Chan) (s : State) :
    (resolveInFlight c s).dma = s.dma ∧ (resolveInFlight c s).host = s.host ∧
      (resolveInFlight c s).agenda = s.agenda ∧ (resolveInFlight c s).draws = s.draws ∧
      (resolveInFlight c s).mem = s.mem ∧ (resolveInFlight c s).clk = s.clk ∧
      (resolveInFlight c s).gpio.fsel = s.gpio.fsel ∧ (resolveInFlight c s).env = s.env ∧
      (resolveInFlight c s).program = s.program ∧ (resolveInFlight c s).board = s.board ∧
      (resolveInFlight c s).landing = s.landing ∧ (resolveInFlight c s).threads = s.threads ∧
      (resolveInFlight c s).pwm = { s.pwm with fifoLevel := (resolveInFlight c s).pwm.fifoLevel } := by
  unfold resolveInFlight
  split
  · unfold inFlightWrite
    split
    · exact ⟨rfl, rfl, rfl, rfl, rfl, rfl, rfl, rfl, rfl, rfl, rfl, rfl, rfl⟩
    · split <;> exact ⟨rfl, rfl, rfl, rfl, rfl, rfl, rfl, rfl, rfl, rfl, rfl, rfl, rfl⟩
    · exact ⟨rfl, rfl, rfl, rfl, rfl, rfl, rfl, rfl, rfl, rfl, rfl, rfl, rfl⟩
  · exact ⟨rfl, rfl, rfl, rfl, rfl, rfl, rfl, rfl, rfl, rfl, rfl, rfl, rfl⟩

/-- With no write under way nothing is resolved. -/
theorem resolveInFlight_none {c : Chan} {s : State} (h : noWriteInFlight (s.eng c)) : resolveInFlight c s = s := by
  unfold resolveInFlight
  rw [if_neg]
  simp only [Bool.and_eq_true, decide_eq_true_eq, not_and]
  intro h1
  rcases h with h | h
  · rw [h] at h1; cases h1.1
  · exact absurd h1.2 h

/-- The start sequence on a sound arena: the engine ready to load its head, after a write of it in flight that the reset
let happen. -/
theorem startActions_leads {s : State} {c : Chan} {head : Word} (hq : s.agenda = []) (hv : s.board.visibility = .sc)
    (hw : s.host.windowsMapped = true) (hh : blockAddress s.board (s.chan c) 0 = some head)
    (ha : head.toNat % s.board.cbAlign = 0) (x : Scratch) :
    Leads (startActions c) x s x
      { (resolveInFlight c s).setEng c (startedEngine s.board head (Config.freeLatch s.draws)) with
        draws := s.draws + 1, trace := (resolveInFlight c s).trace ++ startEvents s.board c head } := by
  obtain ⟨kd, kh, ka, kw, -, -, -, -, -, kb, -⟩ := resolveInFlight_keeps c s
  refine Leads.cons hq (perform_write hv hw rfl x) ?_
  generalize resolveInFlight c s = r at *
  have rq : r.agenda = [] := ka.trans hq
  have rw' : r.host.windowsMapped = true := kh ▸ hw
  have rv : r.board.visibility = .sc := kb ▸ hv
  have rh : blockAddress r.board (r.chan c) 0 = some head := by
    have : r.chan c = s.chan c := by unfold State.chan; rw [kh]
    rw [this, kb]; exact hh
  have ra : head.toNat % r.board.cbAlign = 0 := kb ▸ ha
  set u := (clearDebug c ((resetChannel c r).emit (.regWrite (.dma c) s.board.regs.dmaCs s.board.regs.dmaReset))).emit
    (.regWrite (.dma c) r.board.regs.dmaDebug r.board.regs.dmaClrdbg) with hu
  have e1 : blockAddress u.board (u.chan c) 0 = some head := rh
  have e2 : head.toNat % u.board.cbAlign = 0 := ra
  have e3 : (u.eng c).cs.active = false := by
    simp [hu, State.eng, State.emit, State.setEng, clearDebug, resetChannel, resetEngine, vector_get_set]
  have e4 : command (.dmaSetcb c head) u = .next ((u.setEng c { u.eng c with conblkAd := head }).emit
      (.regWrite (.dma c) r.board.regs.dmaConblk head)) := by
    rw [command_eq (by exact rv) (by exact rw')]
    simp only [land, e3, Bool.false_eq_true, if_false]
    rfl
  refine Leads.cons (t := u) (by exact rq) (perform_write (by exact rv) (by exact rw') rfl x) (Leads.cons (y := x)
    (t := (u.setEng c { u.eng c with conblkAd := head }).emit (.regWrite (.dma c) r.board.regs.dmaConblk head)) (by exact rq) ?_
    (Leads.one (by exact rq) (perform_write (by exact rv) (by exact rw') ?_ x)))
  · simp only [perform, e1, setHeadTo, e2, if_true, e4]
    rfl
  · change Host.Outcome.next _ = _
    congr 1
    simp [hu, State.setEng, State.emit, State.eng, startEngine, clearDebug, resetChannel, resetEngine, startedEngine,
      startEvents, kw, kb, vector_get_set]

/-! ## Bring-up -/

theorem mapSucceeds_iff (base : Int) (s : State) :
    mapSucceeds base s = true ↔ s.env.physMemOpens = true ∧ base ∉ s.env.unmappable := by
  simp [mapSucceeds]

/-- The clock's eight commands and the context they leave. -/
theorem clockActions_leads {s : State} (hq : s.agenda = []) (hv : s.board.visibility = .sc)
    (hw : s.host.windowsMapped = true) (hc : s.host.clockConfigured = false) (inc : Int) (x : Scratch) :
    Leads (clockActions s.board inc) x s x { s with
      pwm := { ctl := s.board.regs.pwmOn, dmac := s.board.regs.pwmEnable, rng1 := rangeValue s.board inc, fifoLevel := 0 }
      clk := { src := s.board.regs.clkSource, enab := true, divi := BitVec.ofNat 12 s.board.clkDivi }
      host := { s.host with incrementUs := inc, clockConfigured := true }
      trace := s.trace ++ [.regWrite .pwm s.board.regs.pwmCtl s.board.regs.pwmOff,
        .regWrite .clk s.board.regs.clkCntl s.board.regs.clkStopped, .regWrite .clk s.board.regs.clkDiv s.board.clkDivValue,
        .regWrite .clk s.board.regs.clkCntl s.board.regs.clkRunning, .regWrite .pwm s.board.regs.pwmRng1 (rangeValue s.board inc),
        .regWrite .pwm s.board.regs.pwmDmac s.board.regs.pwmEnable, .regWrite .pwm s.board.regs.pwmCtl s.board.regs.pwmClrf,
        .regWrite .pwm s.board.regs.pwmCtl s.board.regs.pwmOn] } := by
  have go : ∀ {p p' : Pwm} {k k' : Clk} {l l' : List Event} {w : HostWrite} {todo : List Action} {t : State},
      land w { s with pwm := p, clk := k, trace := s.trace ++ l } =
        .next { s with pwm := p', clk := k', trace := s.trace ++ l ++ l' } →
      Leads todo x { s with pwm := p', clk := k', trace := s.trace ++ (l ++ l') } x t →
      Leads (.write w :: todo) x { s with pwm := p, clk := k, trace := s.trace ++ l } x t := by
    intro p p' k k' l l' w todo t h h'
    rw [← List.append_assoc] at h'
    exact Leads.cons (by exact hq) (perform_write (by exact hv) (by exact hw) h x) h'
  have e : s = { s with pwm := s.pwm, clk := s.clk, trace := s.trace ++ [] } := by rw [List.append_nil]
  conv => arg 3; rw [e]
  unfold clockActions
  iterate 8 refine go rfl ?_
  refine Leads.one hq ?_
  simp only [perform, hc, Bool.false_eq_true, if_false]
  rfl

/-! ## Allocation -/

/-- Resolution of pages that the export gives. -/
theorem regionPages_leads {s : State} (hq : s.agenda = []) {pages : List Word} (hr : PagesResolve s pages) (x : Scratch)
    (hx : x.virtBase = s.env.virtBase) {n j : Nat} (hj : j + n ≤ pages.length) (hp : x.pages = pages.take j) :
    Leads ((List.range' j n).flatMap fun j => [.touchPage j, .resolvePage j]) x s
      { x with pages := pages.take (j + n) } s := by
  induction n generalizing j x with
  | zero =>
    have e : ({ x with pages := pages.take (j + 0) } : Scratch) = x := by rw [Nat.add_zero, ← hp]
    rw [e]
    exact Leads.nil x s
  | succ n ih =>
    rw [List.range'_succ, List.flatMap_cons]
    have hlt : j < pages.length := by omega
    have hres := hr.resolved j _ (List.getElem?_eq_getElem hlt)
    refine Leads.append (y := { x with pages := pages.take (j + 1) }) (t := s) (Leads.cons hq (y := x) (t := s) rfl
      (Leads.one hq ?_)) ?_
    · simp only [perform, resolve, hx, hres, hp]
      rw [List.take_append_getElem hlt]
    · have := ih (x := { x with pages := pages.take (j + 1) }) hx (j := j + 1) (by omega) rfl
      rwa [show j + 1 + n = j + (n + 1) by omega] at this

/-- A region made, and the pages of it that the export gives resolved. -/
theorem regionActions_leads {s : State} (hq : s.agenda = []) (hl : s.env.locksRegion = true) {pages : List Word}
    (hr : PagesResolve s pages) (x : Scratch) :
    Leads (.makeRegion :: (List.range' 0 pages.length).flatMap fun j => [.touchPage j, .resolvePage j]) x s
      { x with virtBase := s.env.virtBase, pages := pages } s := by
  have h := regionPages_leads hq hr { x with virtBase := s.env.virtBase, pages := [] } rfl (n := pages.length) (j := 0)
    (by omega) rfl
  rw [Nat.zero_add, List.take_length] at h
  refine Leads.cons hq (t := s) ?_ h
  simp only [perform, hl, if_true]

/-- The actions of a region, page by page. -/
theorem regionActions_eq (n : Nat) :
    regionActions n = .makeRegion :: (List.range' 0 n).flatMap fun j => [.touchPage j, .resolvePage j] := by
  unfold regionActions
  rw [List.range_eq_range']

/-- The actions of a region from page `j` on. -/
theorem regionActions_split {j n : Nat} (h : j < n) :
    ∃ rest, regionActions n = (.makeRegion :: (List.range' 0 j).flatMap fun j => [.touchPage j, .resolvePage j]) ++
      (.touchPage j :: .resolvePage j :: rest) := by
  rw [regionActions_eq]
  obtain ⟨d, rfl⟩ : ∃ d, n = j + (d + 1) := ⟨n - j - 1, by omega⟩
  rw [← List.range'_append_1, Nat.zero_add, List.range'_succ]
  simp

/-- A frame below the bus offset gives a page in the DMA view (R72): the offset's bit is set over it. -/
theorem frame_toNat {b : Board} (hb : BoardOk b) {n : Nat} (h : n * pageSize b < b.dmaBusOffset) :
    (BitVec.ofNat 32 (n * pageSize b) ||| BitVec.ofNat 32 b.dmaBusOffset).toNat = n * pageSize b + b.dmaBusOffset := by
  obtain ⟨k, -, h2, h3⟩ := hb.offset
  rw [h3] at h ⊢
  have hk : 2 ^ k ≤ 2 ^ 30 := Nat.pow_le_pow_right (by omega) h2
  rw [BitVec.toNat_or, BitVec.toNat_ofNat, BitVec.toNat_ofNat, Nat.mod_eq_of_lt (by omega), Nat.mod_eq_of_lt (by omega)]
  have := Nat.two_pow_add_eq_or_of_lt h 1
  rw [Nat.mul_one] at this
  rw [Nat.or_comm, ← this, Nat.add_comm]

theorem pageOk_of_frame {b : Board} (hb : BoardOk b) {n : Nat} (h : n * pageSize b < b.dmaBusOffset) :
    pageOk b (BitVec.ofNat 32 (n * pageSize b) ||| BitVec.ofNat 32 b.dmaBusOffset) := by
  have ht := frame_toNat hb h
  have h1 := hb.offset_bounds
  refine ⟨?_, ?_⟩
  · rw [ht]
    exact Nat.mod_eq_zero_of_dvd ((Dvd.intro_left n rfl).add hb.pageSize_dvd_offset)
  · unfold inBusMemory
    simp only [Bool.and_eq_true, decide_eq_true_eq, ht]
    simp only [Config.busMemorySize]
    omega

/-- The pages the export gives are taken (R72). -/
theorem PagesResolve.exact {s : State} (hb : BoardOk s.board) {pages : List Word} (h : PagesResolve s pages) :
    exactPages s pages = true := by
  rw [exactPages_iff]
  refine ⟨h.distinct, fun page hp => ⟨?_, h.free page hp, h.clear page hp⟩⟩
  obtain ⟨j, hj, rfl⟩ := List.mem_iff_getElem.mp hp
  have hres := h.resolved j _ (List.getElem?_eq_getElem hj)
  unfold resolveFrame at hres
  split at hres
  · cases hres
  · next entry _ =>
    split at hres
    · split at hres
      · cases hres
      · next hlt =>
        injection hres with e
        rw [← e]
        exact pageOk_of_frame hb (by omega)
    · cases hres

end Sys2Proof.Machine
end

