-- ==== Sys2Proof/Laws/Alone.lean ====
section
/-!
SUPPORT. Host operations among the turns of engines and pacer, compared with the same operations alone: what an access
does depends only on what `HostAgrees` compares, so an operation that completes among such turns completes alone, with the
same memory, host context and host registers.
-/

namespace Sys2Proof.Machine

theorem HostAgrees.refl (s : State) : HostAgrees s s := ⟨rfl, rfl, rfl, rfl, rfl, rfl, rfl, rfl, rfl, rfl, rfl, rfl⟩

theorem HostAgrees.trans {s t u : State} (h : HostAgrees s t) (h' : HostAgrees t u) : HostAgrees s u :=
  ⟨h'.mem.trans h.mem, h'.host.trans h.host, h'.clk.trans h.clk, h'.fsel.trans h.fsel, h'.ctl.trans h.ctl,
    h'.dmac.trans h.dmac, h'.rng1.trans h.rng1, h'.program.trans h.program, h'.board.trans h.board,
    h'.landing.trans h.landing, h'.threads.trans h.threads, h'.draws.trans h.draws⟩

theorem HostAgrees.chan_eq {s t : State} (h : HostAgrees s t) (c : Chan) : t.chan c = s.chan c := by
  unfold State.chan
  rw [h.host]

/-! ## Turns that spare the host -/

/-- What an engine's turn leaves as it was. -/
theorem engineTurn_agrees {c : Chan} {s t : State} (h : engineTurn c s = .next t) :
    HostAgrees s t ∧ t.agenda = s.agenda ∧ t.env = s.env := by
  cases engineTurn_did h <;> exact ⟨⟨rfl, rfl, rfl, rfl, rfl, rfl, rfl, rfl, rfl, rfl, rfl, rfl⟩, rfl, rfl⟩

theorem paceTurn_agrees {s t : State} (h : paceTurn s = .next t) :
    HostAgrees s t ∧ t.agenda = s.agenda ∧ t.env = s.env := by
  unfold paceTurn at h
  cases h
  split <;> exact ⟨⟨rfl, rfl, rfl, rfl, rfl, rfl, rfl, rfl, rfl, rfl, rfl, rfl⟩, rfl, rfl⟩

/-- Turns that spare the host leave what it can tell as it was, the environment too where the operation asks it. -/
theorem runAgenda_agrees {asks : Bool} {busy : List Resource} {turns : List Turn} (ha : ∀ t ∈ turns, sparesHost asks t)
    {s t : State} (h : runAgenda busy turns s = .next t) :
    HostAgrees s t ∧ (asks = true → t.env = s.env) ∧ ∀ u ∈ t.agenda, sparesHost asks u := by
  induction turns generalizing s with
  | nil => cases h; exact ⟨⟨rfl, rfl, rfl, rfl, rfl, rfl, rfl, rfl, rfl, rfl, rfl, rfl⟩, fun _ => rfl, fun u hu => by cases hu⟩
  | cons turn rest ih =>
    have hr : ∀ t ∈ rest, sparesHost asks t := fun t ht => ha t (List.mem_cons_of_mem _ ht)
    unfold runAgenda at h
    split at h
    · cases h
      exact ⟨⟨rfl, rfl, rfl, rfl, rfl, rfl, rfl, rfl, rfl, rfl, rfl, rfl⟩, fun _ => rfl, hr⟩
    · obtain ⟨u, hu, ht⟩ := andThen_eq_next.mp h
      obtain ⟨h1, h2, h3⟩ := ih hr ht
      have hturn := ha turn (List.mem_cons_self ..)
      have : HostAgrees s u ∧ (asks = true → u.env = s.env) := by
        cases turn with
        | engine c => exact ⟨(engineTurn_agrees hu).1, fun _ => (engineTurn_agrees hu).2.2⟩
        | pacer => exact ⟨(paceTurn_agrees hu).1, fun _ => (paceTurn_agrees hu).2.2⟩
        | host => cases hu; exact ⟨.refl s, fun _ => rfl⟩
        | env e =>
          cases hu
          have hturn : asks = false := hturn
          exact ⟨⟨rfl, rfl, rfl, rfl, rfl, rfl, rfl, rfl, rfl, rfl, rfl, rfl⟩, fun hc => by rw [hturn] at hc; cases hc⟩
        | thread k => exact hturn.elim
        | land => exact hturn.elim
        | foreign c a v => exact hturn.elim
      exact ⟨this.1.trans h1, fun hc => (h2 hc).trans (this.2 hc), h3⟩

/-! ## Writes -/

/-- What an access keeps besides: the agenda and the environment, and engines that are not active stay so but where it
starts one. -/
structure Keeps (starts : Option Chan) (s t : State) : Prop where
  agenda : t.agenda = s.agenda
  env : t.env = s.env
  board : t.board = s.board
  idle : ∀ c, starts ≠ some c → (s.eng c).cs.active = false → (t.eng c).cs.active = false

theorem Keeps.of_dma {starts : Option Chan} {s t : State} (ha : t.agenda = s.agenda) (he : t.env = s.env)
    (hb : t.board = s.board) (hd : t.dma = s.dma) : Keeps starts s t :=
  ⟨ha, he, hb, fun c _ h => by unfold State.eng at *; rw [hd]; exact h⟩

/-- The engine a write starts. -/
def HostWrite.starts : HostWrite → Option Chan
  | .dmaStart c => some c
  | _ => none

/-- A write but DMA_SETCB always lands, with the same effect wherever the host can tell. -/
theorem land_agrees {w : HostWrite} (hw : ∀ c a, w ≠ .dmaSetcb c a) {s s' : State} (h : HostAgrees s s') :
    ∃ t t', land w s = .next t ∧ land w s' = .next t' ∧ HostAgrees t t' ∧ Keeps w.starts s t ∧
      Keeps w.starts s' t' := by
  obtain ⟨h1, h2, h3, h4, h5, h6, h7, h8, h9, h10, h11, h12⟩ := h
  cases w with
  | dmaReset c =>
    have key : ∀ r : State, ∃ t, land (.dmaReset c) r = .next t ∧ HostAgrees { r with draws := r.draws + 1 } t ∧
        Keeps none r t := by
      intro r
      obtain ⟨k1, k2, k3, k4, k5, k6, k7, k8, k9, k10, k11, k12, k13⟩ := resolveInFlight_keeps c r
      refine ⟨_, rfl, ⟨k5, k2, k6, k7, ?_, ?_, ?_, k9, k10, k11, k12, ?_⟩, k3, k8, k10, fun d _ hd => ?_⟩
      · exact (congrArg Pwm.ctl k13 :)
      · exact (congrArg Pwm.dmac k13 :)
      · exact (congrArg Pwm.rng1 k13 :)
      · exact congrArg (· + 1) k4
      · have : (resolveInFlight c r).eng d = r.eng d := by unfold State.eng; rw [k1]
        simp only [emit_eng, eng_resetChannel]
        split
        · rfl
        · rw [this]; exact hd
    obtain ⟨t, e, a, k⟩ := key s
    obtain ⟨t', e', a', k'⟩ := key s'
    refine ⟨t, t', e, e', ⟨?_, ?_, ?_, ?_, ?_, ?_, ?_, ?_, ?_, ?_, ?_, ?_⟩, k, k'⟩
    · rw [a.mem, a'.mem, h1]
    · rw [a.host, a'.host, h2]
    · rw [a.clk, a'.clk, h3]
    · rw [a.fsel, a'.fsel, h4]
    · rw [a.ctl, a'.ctl, h5]
    · rw [a.dmac, a'.dmac, h6]
    · rw [a.rng1, a'.rng1, h7]
    · rw [a.program, a'.program, h8]
    · rw [a.board, a'.board, h9]
    · rw [a.landing, a'.landing, h10]
    · rw [a.threads, a'.threads, h11]
    · rw [a.draws, a'.draws]; exact congrArg (· + 1) h12
  | dmaClrdbg c =>
    have key : ∀ r : State, Keeps none r ((clearDebug c r).emit (.regWrite (.dma c) r.board.regs.dmaDebug r.board.regs.dmaClrdbg)) :=
      fun r => ⟨rfl, rfl, rfl, fun d _ hd => by
        simp only [emit_eng, clearDebug, eng_setEng]
        split
        · next e => subst e; exact hd
        · exact hd⟩
    exact ⟨_, _, rfl, rfl, ⟨h1, h2, h3, h4, h5, h6, h7, h8, h9, h10, h11, h12⟩, key s, key s'⟩
  | dmaSetcb c a => exact absurd rfl (hw c a)
  | dmaStart c =>
    have key : ∀ r : State, Keeps (some c) r ((startEngine c r).emit (.regWrite (.dma c) r.board.regs.dmaCs r.board.regs.dmaStart)) :=
      fun r => ⟨rfl, rfl, rfl, fun d hne hd => by
        simp only [emit_eng, startEngine, eng_setEng]
        split
        · next e => subst e; exact absurd rfl hne
        · exact hd⟩
    exact ⟨_, _, rfl, rfl, ⟨h1, h2, h3, h4, h5, h6, h7, h8, h9, h10, h11, h12⟩, key s, key s'⟩
  | pwmOff => exact ⟨_, _, rfl, rfl, ⟨h1, h2, h3, h4, by simp only [emit_pwm, h9], h6, h7, h8, h9, h10, h11, h12⟩,
      .of_dma rfl rfl rfl rfl, .of_dma rfl rfl rfl rfl⟩
  | clkSrc => exact ⟨_, _, rfl, rfl, ⟨h1, h2, by simp only [emit_clk, h3, h9], h4, h5, h6, h7, h8, h9, h10, h11, h12⟩,
      .of_dma rfl rfl rfl rfl, .of_dma rfl rfl rfl rfl⟩
  | clkDiv => exact ⟨_, _, rfl, rfl, ⟨h1, h2, by simp only [emit_clk, h3, h9], h4, h5, h6, h7, h8, h9, h10, h11, h12⟩,
      .of_dma rfl rfl rfl rfl, .of_dma rfl rfl rfl rfl⟩
  | clkOn => exact ⟨_, _, rfl, rfl, ⟨h1, h2, by simp only [emit_clk, h3, h9], h4, h5, h6, h7, h8, h9, h10, h11, h12⟩,
      .of_dma rfl rfl rfl rfl, .of_dma rfl rfl rfl rfl⟩
  | pwmRng v => exact ⟨_, _, rfl, rfl, ⟨h1, h2, h3, h4, h5, h6, rfl, h8, h9, h10, h11, h12⟩,
      .of_dma rfl rfl rfl rfl, .of_dma rfl rfl rfl rfl⟩
  | pwmDmac => exact ⟨_, _, rfl, rfl, ⟨h1, h2, h3, h4, h5, by simp only [emit_pwm, h9], h7, h8, h9, h10, h11, h12⟩,
      .of_dma rfl rfl rfl rfl, .of_dma rfl rfl rfl rfl⟩
  | pwmClrf => exact ⟨_, _, rfl, rfl, ⟨h1, h2, h3, h4, rfl, h6, h7, h8, h9, h10, h11, h12⟩,
      .of_dma rfl rfl rfl rfl, .of_dma rfl rfl rfl rfl⟩
  | pwmOn => exact ⟨_, _, rfl, rfl, ⟨h1, h2, h3, h4, by simp only [emit_pwm, h9], h6, h7, h8, h9, h10, h11, h12⟩,
      .of_dma rfl rfl rfl rfl, .of_dma rfl rfl rfl rfl⟩
  | fsel n v => exact ⟨_, _, rfl, rfl, ⟨h1, h2, h3, by simp only [emit_gpio, State.setFsel, h4], h5, h6, h7, h8, h9, h10, h11, h12⟩,
      .of_dma rfl rfl rfl rfl, .of_dma rfl rfl rfl rfl⟩
  | gpio reg m => exact ⟨_, _, rfl, rfl, ⟨h1, h2, h3, h4, h5, h6, h7, h8, h9, h10, h11, h12⟩,
      .of_dma rfl rfl rfl rfl, .of_dma rfl rfl rfl rfl⟩
  | arena pa v => exact ⟨_, _, rfl, rfl, ⟨by simp only [h1], h2, h3, h4, h5, h6, h7, h8, h9, h10, h11, h12⟩,
      .of_dma rfl rfl rfl rfl, .of_dma rfl rfl rfl rfl⟩

/-- A write that lands in one state lands in the other; DMA_SETCB where the engine is not active there. -/
theorem land_agrees_of_next {w : HostWrite} {s s' t' : State}
    (hw : ∀ c a, w = .dmaSetcb c a → (s.eng c).cs.active = false) (h : HostAgrees s s') (hl : land w s' = .next t') :
    ∃ t, land w s = .next t ∧ HostAgrees t t' ∧ Keeps w.starts s t ∧ Keeps w.starts s' t' := by
  by_cases hs : ∃ c a, w = .dmaSetcb c a
  · obtain ⟨c, a, rfl⟩ := hs
    have hi := hw c a rfl
    simp only [land] at hl ⊢
    split at hl
    · cases hl
    · next hi' =>
      cases hl
      have hi' : (s'.eng c).cs.active = false := by simpa using hi'
      refine ⟨_, by simp only [hi, Bool.false_eq_true, if_false]; rfl, ?_, ?_, ?_⟩
      · exact ⟨h.mem, h.host, h.clk, h.fsel, h.ctl, h.dmac, h.rng1, h.program, h.board, h.landing, h.threads, h.draws⟩
      all_goals
        refine ⟨rfl, rfl, rfl, fun d _ hd => ?_⟩
        simp only [emit_eng, eng_setEng]
        split
        · next e => subst e; exact hd
        · exact hd
  · obtain ⟨t, u, e, e', ha, k, k'⟩ := land_agrees (w := w) (fun c a e => hs ⟨c, a, e⟩) h
    rw [hl] at e'
    cases e'
    exact ⟨t, e, ha, k, k'⟩

/-- Issuing a write. -/
theorem issue_agrees {w : HostWrite} {s s' t' : State}
    (hw : ∀ c a, w = .dmaSetcb c a → s.board.visibility = .buffered ∨ (s.eng c).cs.active = false) (h : HostAgrees s s')
    (hl : issue w s' = .next t') :
    ∃ t, issue w s = .next t ∧ HostAgrees t t' ∧ Keeps w.starts s t ∧ Keeps w.starts s' t' := by
  have hb : s'.board.visibility = s.board.visibility := by rw [h.board]
  unfold issue at *
  cases hv : s.board.visibility with
  | sc =>
    rw [hv] at hb hw
    simp only [hb] at hl
    exact land_agrees_of_next (fun c a e => (hw c a e).resolve_left (by simp)) h hl
  | buffered =>
    rw [hv] at hb
    simp only [hb] at hl
    cases hl
    exact ⟨_, rfl, ⟨h.mem, h.host, h.clk, h.fsel, h.ctl, h.dmac, h.rng1, h.program, h.board,
      by simp only [h.landing], h.threads, h.draws⟩, .of_dma rfl rfl rfl rfl, .of_dma rfl rfl rfl rfl⟩

theorem command_agrees {w : HostWrite} {s s' t' : State}
    (hw : ∀ c a, w = .dmaSetcb c a → s.board.visibility = .buffered ∨ (s.eng c).cs.active = false) (h : HostAgrees s s')
    (hl : command w s' = .next t') :
    ∃ t, command w s = .next t ∧ HostAgrees t t' ∧ Keeps w.starts s t ∧ Keeps w.starts s' t' := by
  simp only [command, throughWindow, h.host] at hl ⊢
  split at hl
  · next hm =>
    obtain ⟨u', hu, ht⟩ := andThen_eq_next.mp hl
    cases ht
    obtain ⟨u, e, ha, k, k'⟩ := issue_agrees hw h hu
    refine ⟨u, ?_, ha, k, k'⟩
    rw [if_pos hm, e]
    rfl
  · cases hl

/-! ## Accesses -/

/-- An access's outcome with another state. -/
def Did.withState : Did → State → Did
  | .went x _, t => .went x t
  | .ended r _, t => .ended r t
  | .fault f, _ => .fault f
  | .refused r, _ => .refused r

/-- The engine whose `CONBLK_AD` an access writes, and the one it starts; whether it asks the environment. -/
def Action.writesHead : Action → Option Chan
  | .write (.dmaSetcb c _) => some c
  | .setHead c => some c
  | _ => none

def Action.starts : Action → Option Chan
  | .write w => w.starts
  | _ => none

def Action.asks : Action → Bool
  | .mapWindow _ | .makeRegion | .resolvePage _ => true
  | _ => false

theorem pending_agrees {s s' : State} (h : HostAgrees s s') : pending s' = pending s := by
  unfold pending
  rw [h.board, h.landing]

theorem seenWord_agrees {s s' : State} (h : HostAgrees s s') (pa : Nat) : seenWord s' pa = seenWord s pa := by
  unfold seenWord
  rw [pending_agrees h, h.mem]

theorem seenSelect_agrees {s s' : State} (h : HostAgrees s s') (n : Fin 6) : seenSelect s' n = seenSelect s n := by
  unfold seenSelect State.fsel
  rw [pending_agrees h, h.fsel]

theorem selectRead_agrees {s s' : State} (h : HostAgrees s s') (n : Fin 6) : selectRead s' n = selectRead s n := by
  unfold selectRead
  rw [seenSelect_agrees h, h.board, h.draws]

theorem HostAgrees.drawn {s s' : State} (h : HostAgrees s s') : HostAgrees s.drawn s'.drawn :=
  ⟨h.mem, h.host, h.clk, h.fsel, h.ctl, h.dmac, h.rng1, h.program, h.board, h.landing, h.threads,
    congrArg (· + 1) h.draws⟩

theorem arenaWrite_agrees {c : Chan} {off : Nat} {v : Word} {s s' t' : State} (h : HostAgrees s s')
    (hl : arenaWrite c off v s' = .next t') :
    ∃ t, arenaWrite c off v s = .next t ∧ HostAgrees t t' ∧ Keeps none s t ∧ Keeps none s' t' := by
  unfold arenaWrite atArena at *
  rw [h.board, h.chan_eq] at hl
  split at hl
  · cases hl
  · next a _ =>
    split at hl
    · next hi =>
      rw [if_pos hi]
      exact issue_agrees (w := .arena _ v) (fun _ _ e => by cases e) h hl
    · cases hl

/-- An outcome that a next state stands behind. -/
theorem Did.of_agrees {st : Option Chan} {x : Scratch} {s s' t' : State} {o o' : Outcome}
    (ho : ∀ t', o' = .next t' → ∃ t, o = .next t ∧ HostAgrees t t' ∧ Keeps st s t ∧ Keeps st s' t')
    (hl : (Did.of x o').state = some t') :
    ∃ t, Did.of x o = (Did.of x o').withState t ∧ HostAgrees t t' ∧ Keeps st s t ∧ Keeps st s' t' := by
  have e := (Did.state_of _ _ _).mp hl
  obtain ⟨t, e', r⟩ := ho t' e
  exact ⟨t, by rw [e, e']; rfl, r⟩

theorem exactPages_agrees {s s' : State} (h : HostAgrees s s') (pages : List Word) :
    exactPages s' pages = exactPages s pages := by
  unfold exactPages pageInUse
  rw [h.board, h.host]

/-- WHAT AN ACCESS COMES TO depends only on what the host can tell. -/
theorem perform_agrees {a : Action} {x : Scratch} {s s' t' : State} (h : HostAgrees s s')
    (he : a.asks = true → s'.env = s.env)
    (hw : ∀ c, a.writesHead = some c → s.board.visibility = .buffered ∨ (s.eng c).cs.active = false)
    (hl : (perform a x s').state = some t') :
    ∃ t, perform a x s = (perform a x s').withState t ∧ HostAgrees t t' ∧ Keeps a.starts s t ∧ Keeps a.starts s' t' := by
  have same : ∀ {a : Action} {y}, perform a x s = .went y s → perform a x s' = .went y s' →
      (perform a x s').state = some t' → ∃ t, perform a x s = (perform a x s').withState t ∧ HostAgrees t t' ∧
        Keeps a.starts s t ∧ Keeps a.starts s' t' := by
    intro a y e e' hl
    rw [e'] at hl ⊢
    cases hl
    exact ⟨s, by rw [e]; rfl, h, .of_dma rfl rfl rfl rfl, .of_dma rfl rfl rfl rfl⟩
  have change : ∀ {a : Action} {y} {f : State → State}, perform a x s = .went y (f s) →
      perform a x s' = .went y (f s') → HostAgrees (f s) (f s') → (∀ u, Keeps a.starts u (f u)) →
      (perform a x s').state = some t' → ∃ t, perform a x s = (perform a x s').withState t ∧ HostAgrees t t' ∧
        Keeps a.starts s t ∧ Keeps a.starts s' t' := by
    intro a y f e e' ha hk hl
    rw [e'] at hl ⊢
    cases hl
    exact ⟨f s, by rw [e]; rfl, ha, hk s, hk s'⟩
  cases a with
  | write w => exact Did.of_agrees (fun t' ht => command_agrees (fun c a e => hw c (by rw [e]; rfl)) h ht) hl
  | readSelect p =>
    simp only [perform, throughWindowDid, h.host, h.board, selectRead_agrees h] at hl ⊢
    split at hl
    · next hm =>
      simp only [if_pos hm]
      cases hl
      exact ⟨s.drawn, rfl, h.drawn, .of_dma rfl rfl rfl rfl, .of_dma rfl rfl rfl rfl⟩
    · cases hl
  | writeSelect p =>
    refine Did.of_agrees (fun t' ht => ?_) hl
    rw [h.board] at ht
    exact command_agrees (fun c a e => by cases e) h ht
  | readRegister n =>
    simp only [perform, throughWindowDid, h.host, selectRead_agrees h] at hl ⊢
    split at hl
    · next hm =>
      simp only [if_pos hm]
      cases hl
      exact ⟨s.drawn, rfl, h.drawn, .of_dma rfl rfl rfl rfl, .of_dma rfl rfl rfl rfl⟩
    · cases hl
  | recordClaim p =>
    exact change rfl rfl ⟨h.mem, by simp only [markClaimed, h.host], h.clk, h.fsel, h.ctl, h.dmac, h.rng1, h.program,
      h.board, h.landing, h.threads, h.draws⟩ (fun u => .of_dma rfl rfl rfl rfl) hl
  | readSample c i =>
    simp only [perform, arenaRead, h.board, h.chan_eq, seenWord_agrees h] at hl ⊢
    split at hl
    · cases hl
    · next hp =>
      split at hl
      · next hb =>
        simp only [if_pos hb]
        cases hl
        exact ⟨s, rfl, h, .of_dma rfl rfl rfl rfl, .of_dma rfl rfl rfl rfl⟩
      · cases hl
  | setSample c p i => exact Did.of_agrees (fun t' ht => arenaWrite_agrees h ht) hl
  | clearSample c p i => exact Did.of_agrees (fun t' ht => arenaWrite_agrees h ht) hl
  | retarget c i reg =>
    refine Did.of_agrees (fun t' ht => ?_) hl
    rw [h.board, h.chan_eq] at ht
    exact arenaWrite_agrees h ht
  | mapWindow base =>
    have hm : mapSucceeds base s' = mapSucceeds base s := by unfold mapSucceeds; rw [he rfl]
    simp only [perform, hm] at hl ⊢
    split at hl
    · next hm => simp only [if_pos hm]; cases hl; exact ⟨s, rfl, h, .of_dma rfl rfl rfl rfl, .of_dma rfl rfl rfl rfl⟩
    · next hm => simp only [if_neg hm]; cases hl; exact ⟨s, rfl, h, .of_dma rfl rfl rfl rfl, .of_dma rfl rfl rfl rfl⟩
  | recordWindows =>
    exact change rfl rfl ⟨h.mem, by simp only [markMapped, h.host], h.clk, h.fsel, h.ctl, h.dmac, h.rng1, h.program,
      h.board, h.landing, h.threads, h.draws⟩ (fun u => .of_dma rfl rfl rfl rfl) hl
  | makeRegion =>
    simp only [perform, he rfl] at hl ⊢
    split at hl
    · next hm => simp only [if_pos hm]; cases hl; exact ⟨s, rfl, h, .of_dma rfl rfl rfl rfl, .of_dma rfl rfl rfl rfl⟩
    · next hm => simp only [if_neg hm]; cases hl; exact ⟨s, rfl, h, .of_dma rfl rfl rfl rfl, .of_dma rfl rfl rfl rfl⟩
  | touchPage j => exact same rfl rfl hl
  | resolvePage j =>
    simp only [perform, resolve, he rfl, h.board] at hl ⊢
    split at hl <;> cases hl <;> exact ⟨s, rfl, h, .of_dma rfl rfl rfl rfl, .of_dma rfl rfl rfl rfl⟩
  | recordArena c sub n =>
    have hn' : pageCountOf s'.board n = pageCountOf s.board n := by rw [h.board]
    simp only [perform, recordArena, h.chan_eq, hn'] at hl ⊢
    split at hl
    · cases hl
    · next hi =>
      simp only [if_neg hi]
      split at hl
      · cases hl
      · next hn =>
        simp only [if_neg hn]
        simp only [takePages, exactPages_agrees h] at hl ⊢
        split at hl
        · next hx =>
          simp only [if_pos hx]
          cases hl
          refine ⟨({ s with mem := Memory.clearPages s.board s.mem x.pages } : State).setChan c
            (layoutOf s.board c sub n x.virtBase x.pages), rfl, ⟨by simp only [setChan_mem, h.mem, h.board], ?_, h.clk, h.fsel, h.ctl, h.dmac, h.rng1,
            h.program, h.board, h.landing, h.threads, h.draws⟩, .of_dma rfl rfl rfl rfl, .of_dma rfl rfl rfl rfl⟩
          simp only [State.setChan, h.host, h.board]
        · cases hl
  | handArena =>
    simp only [perform, takePages, exactPages_agrees h] at hl ⊢
    split at hl
    · next hx =>
      simp only [if_pos hx]
      cases hl
      exact ⟨{ s with mem := Memory.clearPages s.board s.mem x.pages }, rfl, ⟨by simp only [h.mem, h.board], h.host,
        h.clk, h.fsel, h.ctl, h.dmac, h.rng1, h.program, h.board, h.landing, h.threads, h.draws⟩, .of_dma rfl rfl rfl rfl, .of_dma rfl rfl rfl rfl⟩
    · cases hl
  | writeField c k f =>
    simp only [perform, h.chan_eq, h.board] at hl ⊢
    split at hl
    · cases hl
    · exact Did.of_agrees (fun t' ht => arenaWrite_agrees h ht) hl
  | setHead c =>
    simp only [perform, h.chan_eq, h.board] at hl ⊢
    split at hl
    · cases hl
    · refine Did.of_agrees (fun t' ht => ?_) hl
      unfold setHeadTo at ht ⊢
      rw [h.board] at ht
      split at ht
      · next hm =>
        simp only [if_pos hm]
        exact command_agrees (fun c' a e => by cases e; exact hw c rfl) h ht
      · cases ht
  | recordClock inc =>
    simp only [perform, h.host] at hl ⊢
    split at hl
    · cases hl
    · next hc =>
      simp only [if_neg hc]
      cases hl
      exact ⟨markConfigured inc s, rfl, ⟨h.mem, by simp only [markConfigured, h.host], h.clk, h.fsel, h.ctl, h.dmac, h.rng1, h.program,
        h.board, h.landing, h.threads, h.draws⟩, .of_dma rfl rfl rfl rfl, .of_dma rfl rfl rfl rfl⟩
  | recordChannel c =>
    simp only [perform, h.chan_eq] at hl ⊢
    split at hl
    · cases hl
    · next hc =>
      simp only [if_neg hc]
      cases hl
      refine ⟨markInitialized c s, rfl, ⟨h.mem, ?_, h.clk, h.fsel, h.ctl, h.dmac, h.rng1, h.program, h.board, h.landing, h.threads, h.draws⟩,
        .of_dma rfl rfl rfl rfl, .of_dma rfl rfl rfl rfl⟩
      simp only [markInitialized, State.setChan, h.host, h.chan_eq]

/-! ## Operations -/

/-- What is known of an engine after an access: that it is stopped, from its reset to its start. -/
def Action.stopped (known : Option Chan) : Action → Option Chan
  | .write (.dmaReset c) => some c
  | .write (.dmaStart _) => none
  | _ => known

/-- A list of actions that writes `CONBLK_AD` only of an engine it has reset and not yet started. -/
def resetsFirst : Option Chan → List Action → Prop
  | _, [] => True
  | known, a :: todo => (∀ c, a.writesHead = some c → known = some c) ∧ resetsFirst (a.stopped known) todo

/-- What is known holds: the engine is stopped, or its writes are under way. -/
def Known (known : Option Chan) (s : State) : Prop :=
  ∀ c, known = some c → s.board.visibility = .buffered ∨ (s.eng c).cs.active = false

theorem issue_reset {c : Chan} {s t : State} (h : command (.dmaReset c) s = .next t) : Known (some c) t := by
  intro d hd
  cases hd
  simp only [command, throughWindow] at h
  split at h
  · obtain ⟨u, hu, ht⟩ := andThen_eq_next.mp h
    cases ht
    unfold issue at hu
    split at hu
    · cases hu
      exact .inr (by simp [resetEngine])
    · next hv => cases hu; exact .inl hv
  · cases h

theorem Known.after {a : Action} {known : Option Chan} {x y : Scratch} {s t : State} (h : Known known s)
    (hk : Keeps a.starts s t) (hp : perform a x s = .went y t) : Known (a.stopped known) t := by
  have keep : a.stopped known = known → a.starts = none → Known (a.stopped known) t := by
    intro e1 e2 c hc
    rw [e1] at hc
    rw [hk.board]
    exact (h c hc).imp_right (hk.idle c (by rw [e2]; simp))
  cases a with
  | write w =>
    cases w with
    | dmaReset c =>
      refine issue_reset (s := s) ?_
      have e : Did.of x (command (.dmaReset c) s) = .went y t := hp
      exact (Did.state_of x _ t).mp (by rw [e]; rfl)
    | dmaStart c => intro d hd; cases hd
    | _ => exact keep rfl rfl
  | _ => exact keep rfl rfl

/-- An operation that completes among turns that spare the host completes alone, with the same result as far as the host
can tell. -/
theorem runActions_agrees {asks : Bool} {busy : List Resource} {finish : State → Outcome}
    (hf : ∀ s s' t', HostAgrees s s' → finish s' = .next t' → ∃ t, finish s = .next t ∧ HostAgrees t t')
    {todo : List Action} {known : Option Chan} (hc : resetsFirst known todo) (ha : ∀ a ∈ todo, a.asks = true → asks = true)
    {x : Scratch} {s s' t' : State} (h : HostAgrees s s') (he : asks = true → s'.env = s.env) (hq : s.agenda = [])
    (hq' : ∀ u ∈ s'.agenda, sparesHost asks u) (hk : Known known s)
    (hr : runActions busy finish todo x s' = .next t') :
    ∃ t, runActions busy finish todo x s = .next t ∧ HostAgrees t t' := by
  induction todo generalizing busy known x s s' with
  | nil => exact hf s s' t' h hr
  | cons a todo ih =>
    unfold runActions at hr ⊢
    obtain ⟨u', hu, hr⟩ := andThen_eq_next.mp hr
    rw [hostTurn_quiet hq, andThen_next]
    obtain ⟨h1, h2, h3⟩ := runAgenda_agrees hq' hu
    have hu' := h.trans h1
    have he' : asks = true → u'.env = s.env := fun hc => (h2 hc).trans (he hc)
    have hp := fun v hv => perform_agrees (a := a) (x := x) (t' := v) hu' (fun hx => he' (ha a (by simp) hx))
      (fun c hw => hk c (hc.1 c hw)) hv
    split at hr
    · next y v hv =>
      obtain ⟨t, e, g, k, k'⟩ := hp v (by rw [hv]; rfl)
      rw [hv] at e
      simp only [e, Did.withState]
      exact ih hc.2 (fun b hb => ha b (by simp [hb])) g (fun hx => by rw [k'.env, k.env]; exact he' hx)
        (k.agenda.trans hq) (by rw [k'.agenda]; exact h3) (hk.after k e) hr
    · next r v hv =>
      obtain ⟨t, e, g, k, k'⟩ := hp v (by rw [hv]; rfl)
      rw [hv] at e
      cases hr
      simp only [e, Did.withState]
      exact ⟨_, rfl, ⟨g.mem, by simp only [State.answer, g.host], g.clk, g.fsel, g.ctl, g.dmac, g.rng1, g.program, g.board,
        g.landing, g.threads, g.draws⟩⟩
    · cases hr
    · cases hr

/-- Actions that write no `CONBLK_AD`, then others. -/
theorem resetsFirst_append {todo todo' : List Action} {known : Option Chan}
    (h : ∀ a ∈ todo, a.writesHead = none ∧ ∀ k, a.stopped k = k) (h' : resetsFirst known todo') :
    resetsFirst known (todo ++ todo') := by
  induction todo with
  | nil => exact h'
  | cons a todo ih =>
    refine ⟨fun c hc => ?_, ?_⟩
    · rw [(h a (by simp)).1] at hc; cases hc
    · rw [(h a (by simp)).2]
      exact ih fun b hb => h b (by simp [hb])

end Sys2Proof.Machine
end

