-- ==== Sys2Proof/Laws/PerInstr.lean ====
section
/-!
SUPPORT. The family `EncodedLength`: how many words each instruction's encoding has. A control block has eight (R101), a
register command two, a host operation two and then its arguments' digits (R8, R107, log 6).
-/

namespace Sys2Proof.Laws.EncodedLength

/-- The words of an instruction's format. -/
def formatWords : Instr → Nat
  | .cba _ _ _ _ | .cbb _ _ _ | .cbx _ _ => 8
  | .dmaReset _ | .dmaClrdbg _ | .dmaSetcb _ _ | .dmaStart _ => 2
  | .pwmOff | .clkSrc | .clkDiv | .clkOn | .pwmRng _ | .pwmDmac | .pwmClrf | .pwmOn => 2
  | .gpioFselOut _ | .gpioSet _ | .gpioClr _ | .gpioFselRd _ | .settle _ => 2
  | .initEngine x | .allocate x | .compile x | .configureGlobalClock x | .claim x => 2 + (argWords x).length
  | .initChannel x y | .clearChannelGpio x y | .map x y => 2 + ((argWords x).length + (argWords y).length)
  | .setChannelPercent x y z => 2 + ((argWords x).length + ((argWords y).length + (argWords z).length))
  | .addChannelPulse x y z w =>
    2 + ((argWords x).length + ((argWords y).length + ((argWords z).length + (argWords w).length)))

/-- The encoding of `i` has the words its format asks for, on every board. -/
def Statement (i : Instr) : Prop := ∀ b, (encode b i).length = formatWords i

/-- A host operation's words: two, and its arguments' digits. -/
theorem encodeCall_length (selector : Nat) (args : List Int) :
    (encodeCall selector args).length = 2 + (args.map fun x => (argWords x).length).sum := by
  simp only [encodeCall, List.length_cons, List.length_flatMap]
  omega

theorem cba (c : Chan) (src : Word) (dst : GpioReg) (next : Word) : Statement (.cba c src dst next) := fun _ => rfl
theorem cbb (c : Chan) (src next : Word) : Statement (.cbb c src next) := fun _ => rfl
theorem cbx (c : Chan) (raw : ControlBlock) : Statement (.cbx c raw) := fun _ => rfl
theorem dmaReset (c : Chan) : Statement (.dmaReset c) := fun _ => rfl
theorem dmaClrdbg (c : Chan) : Statement (.dmaClrdbg c) := fun _ => rfl
theorem dmaSetcb (c : Chan) (a : Word) : Statement (.dmaSetcb c a) := fun _ => rfl
theorem dmaStart (c : Chan) : Statement (.dmaStart c) := fun _ => rfl
theorem pwmOff : Statement (.pwmOff) := fun _ => rfl
theorem clkSrc : Statement (.clkSrc) := fun _ => rfl
theorem clkDiv : Statement (.clkDiv) := fun _ => rfl
theorem clkOn : Statement (.clkOn) := fun _ => rfl
theorem pwmRng (value : Word) : Statement (.pwmRng value) := fun _ => rfl
theorem pwmDmac : Statement (.pwmDmac) := fun _ => rfl
theorem pwmClrf : Statement (.pwmClrf) := fun _ => rfl
theorem pwmOn : Statement (.pwmOn) := fun _ => rfl
theorem gpioFselOut (p : Pin) : Statement (.gpioFselOut p) := fun _ => rfl
theorem gpioSet (m : Word) : Statement (.gpioSet m) := fun _ => rfl
theorem gpioClr (m : Word) : Statement (.gpioClr m) := fun _ => rfl
theorem gpioFselRd (n : Fin 4) : Statement (.gpioFselRd n) := fun _ => rfl
theorem settle (us : Nat) : Statement (.settle us) := fun _ => rfl
theorem initEngine (incrementUs : Int) : Statement (.initEngine incrementUs) := fun _ => encodeCall_length _ _
theorem initChannel (channel subcycleUs : Int) : Statement (.initChannel channel subcycleUs) :=
  fun _ => encodeCall_length _ _
theorem addChannelPulse (channel gpio start width : Int) : Statement (.addChannelPulse channel gpio start width) :=
  fun _ => encodeCall_length _ _
theorem setChannelPercent (channel gpio percent : Int) : Statement (.setChannelPercent channel gpio percent) :=
  fun _ => encodeCall_length _ _
theorem clearChannelGpio (channel gpio : Int) : Statement (.clearChannelGpio channel gpio) :=
  fun _ => encodeCall_length _ _
theorem map (physicalBase length : Int) : Statement (.map physicalBase length) := fun _ => encodeCall_length _ _
theorem allocate (pageCount : Int) : Statement (.allocate pageCount) := fun _ => encodeCall_length _ _
theorem compile (channel : Int) : Statement (.compile channel) := fun _ => encodeCall_length _ _
theorem configureGlobalClock (incrementUs : Int) : Statement (.configureGlobalClock incrementUs) :=
  fun _ => encodeCall_length _ _
theorem claim (gpio : Int) : Statement (.claim gpio) := fun _ => encodeCall_length _ _

end Sys2Proof.Laws.EncodedLength
end

