-- ==== Sys2Proof/Tests/Slice0.lean ====
section
/-!
SUPPORT. Small tests: ill-formed instructions refused, words written out from the spec's tables decoded, one or two steps
of each instruction with results from the spec's vectors (`V<n>`, `P<n>` of 95_test_vectors) or computed by hand from its
rules, and for each statement with hypotheses a state and operands that meet them.
-/

set_option Elab.async false

namespace Sys2Proof.Tests
open Sys2Proof.Machine

/-! ## States -/

/-- The spec's board with levels that can be computed with: the smallest that differ. -/
def testBoard : Board := { Board.default with fifoCap := 2, dreqLevel := 1 }

theorem testBoard_registersOk : RegistersOk testBoard := { Board.default_registersOk with }

theorem testBoard_ok : BoardOk testBoard :=
  { Board.default_ok with registers := testBoard_registersOk, level := by decide }

/-- The record of channel `c` with `n` slots on one page (V4, V6, V9). -/
def recordOn (c : Chan) (page : Word) (subcycleUs n : Nat) : ChanRec :=
  { layoutOf testBoard c subcycleUs n 0 [page] with initialized := true }

/-- Channel 0's, on the page 0x52345000. -/
def record (subcycleUs n : Nat) : ChanRec := recordOn 0 0x52345000 subcycleUs n

/-- After `Initialize(3000)`; page 0 of the process is frame 0x12345 (V11a). -/
def configured : State :=
  { State.reset with
    board := testBoard
    pwm := { ctl := 0x21, dmac := 0x80000F0F, rng1 := 30000, fifoLevel := 0 }
    clk := { src := 6, enab := true, divi := 50 }
    host := { State.reset.host with windowsMapped := true, clockConfigured := true, incrementUs := 3000 }
    env := { Env.start with pageExport := [(0, 0x8000000000012345)] } }

/-- The two blocks of the smallest chain (V6), as bytes. -/
def smallestMem : Memory :=
  [(0x12345020, 8), (0x12345023, 4), (0x12345025, 0x50), (0x12345026, 0x34), (0x12345027, 0x52), (0x12345028, 0x28),
   (0x1234502A, 0x20), (0x1234502B, 0x7E), (0x1234502C, 4), (0x12345034, 0x40), (0x12345035, 0x50), (0x12345036, 0x34),
   (0x12345037, 0x52)] ++
  [(0x12345040, 0x48), (0x12345042, 5), (0x12345043, 4), (0x12345045, 0x50), (0x12345046, 0x34), (0x12345047, 0x52),
   (0x12345048, 0x18), (0x12345049, 0xC0), (0x1234504A, 0x20), (0x1234504B, 0x7E), (0x1234504C, 4), (0x12345054, 0x20),
   (0x12345055, 0x50), (0x12345056, 0x34), (0x12345057, 0x52)]

/-- The smallest chain running: engine 0 about to load its head. -/
def smallest : State :=
  { (configured.setChan 0 (record 3000 1)).setEng 0 (startedEngine testBoard 0x52345020 0) with mem := smallestMem }

/-- Channel 0 initialized with `n` slots and all-zero tables, pin 4 claimed. -/
def tables (subcycleUs n : Nat) : State :=
  { configured.setChan 0 (record subcycleUs n) with
    host := { (configured.setChan 0 (record subcycleUs n)).host with gpioSetup := 0x10 } }

/-- Engine 0 active in a phase, with `data` in its latch and a block in its registers, in state `s`. -/
def engineAt (phase : Phase) (address data : Word) (b : ControlBlock) (s : State) : State :=
  s.setEng 0 { (startedEngine s.board address data).load b with phase := phase }

/-- `s` with some turns to come. -/
def withTurns (turns : List Turn) (s : State) : State := { s with agenda := turns }

/-- `s` with host writes that land late. -/
def buffered (s : State) : State := { s with board := { s.board with visibility := .buffered } }

/-- A thread with the words of its calls to come, and one within a call. -/
def idleThread (program : List Word) : Thread :=
  { program, todo := [], holds := [], scratch := Scratch.empty, result := .none }
def busyThread (todo : List Action) (holds : List Resource) : Thread :=
  { program := [], todo, holds, scratch := Scratch.empty, result := .none }

/-- A next state of which `f` holds. -/
def next (o : Outcome) (f : State → Bool) : Bool :=
  match o with
  | .next t => f t
  | .fault _ => false
  | .refused _ => false

/-- A refusal, by name. -/
def refuses (o : Outcome) (r : Refusal) : Bool :=
  match o with
  | .next _ => false
  | .fault _ => false
  | .refused r' => r' == r

/-- The words of the sample table and the destinations of `n` slots. -/
def samplesOf (s : State) (n : Nat) : List (Option Word) := (List.range n).map (sampleWord s 0)
def dstsOf (s : State) (n : Nat) : List (Option Word) := (List.range n).map fun i => dstWord s 0 (2 * i)

theorem arenaOk_recordOn (c : Chan) (page : Word) (subcycleUs n : Nat) (hp : pageOk testBoard page) (hn : 1 ≤ n)
    (h1 : pageCountOf testBoard n = 1) : ArenaOk testBoard (recordOn c page subcycleUs n) where
  board := testBoard_ok
  pages q h := by
    rw [List.mem_singleton.mp h]
    exact hp
  distinct := List.nodup_singleton _
  width := rfl
  blocks := rfl
  nonempty := hn
  offset := rfl
  count := rfl
  length := h1.symm

theorem arenaOk_1 : ArenaOk testBoard (record 3000 1) :=
  arenaOk_recordOn _ _ _ _ ⟨by decide, by decide⟩ (by decide) (by decide)
theorem arenaOk_4 : ArenaOk testBoard (record 12000 4) :=
  arenaOk_recordOn _ _ _ _ ⟨by decide, by decide⟩ (by decide) (by decide)
theorem arenaOk_8 : ArenaOk testBoard (record 24000 8) :=
  arenaOk_recordOn _ _ _ _ ⟨by decide, by decide⟩ (by decide) (by decide)

/-! ## Well-formedness: what each check refuses -/

theorem test_wf_cba_src : ¬ WellFormed testBoard (.cba 0 0x52345002 .clr0 0x52345040) := by unfold WellFormed; decide
theorem test_wf_cba_next : ¬ WellFormed testBoard (.cba 0 0x52345000 .clr0 0x52345044) := by unfold WellFormed; decide
theorem test_wf_cbb_src : ¬ WellFormed testBoard (.cbb 0 0x52345001 0x52345020) := by unfold WellFormed; decide
theorem test_wf_cbb_next : ¬ WellFormed testBoard (.cbb 0 0x52345000 0x52345030) := by unfold WellFormed; decide
theorem test_wf_cbx_is_cba : ¬ WellFormed testBoard (.cbx 0 (cbaWords testBoard 0x52345000 .clr0 0x52345040)) := by
  unfold WellFormed; decide
theorem test_wf_setcb : ¬ WellFormed testBoard (.dmaSetcb 0 0x52345024) := by unfold WellFormed; decide
theorem test_wf_settle : ¬ WellFormed testBoard (.settle (2 ^ 32)) := by unfold WellFormed; decide

/-! ## Decoding: control blocks from R101 to R104, the values of R106 and R111, the selectors of R107, in the layout of
log 6 -/

theorem test_decode_cba : decode testBoard (.engine 0) [0x04000008, 0x52345004, 0x7E20001C, 4, 0, 0x52345080, 0, 0] =
    .ok (.cba 0 0x52345004 .set0 0x52345080, []) := by decide
theorem test_decode_cbb : decode testBoard (.engine 3) [0x04050048, 0x52345000, 0x7E20C018, 4, 0, 0x52345020, 0, 0] =
    .ok (.cbb 3 0x52345000 0x52345020, []) := by decide
/-- V21: SRC_INC set. -/
theorem test_decode_cbx : decode testBoard (.engine 0) [0x04000108, 0x52345000, 0x7E200028, 4, 0, 0x52345040, 0, 0] =
    .ok (.cbx 0 { info := 0x04000108, src := 0x52345000, dst := 0x7E200028, length := 4, stride := 0,
                  next := 0x52345040 }, []) := by decide
/-- A CBA's `info` with the FIFO as destination is no CBA (R113). -/
theorem test_decode_cba_to_fifo : decode testBoard (.engine 0) [0x04000008, 0x52345000, 0x7E20C018, 4, 0, 0, 0, 0] =
    .ok (.cbx 0 { info := 0x04000008, src := 0x52345000, dst := 0x7E20C018, length := 4, stride := 0,
                  next := 0 }, []) := by decide
/-- On a board whose GPIO window stands elsewhere, so does the clear register (R6, R34). -/
theorem test_decode_other_board : decode { testBoard with gpioBaseDma := 0x7E210000 } (.engine 0)
    [0x04000008, 0x52345004, 0x7E210028, 4, 0, 0, 0, 0] = .ok (.cba 0 0x52345004 .clr0 0, []) := by decide
/-- On a board whose PWM has its control register at 0x04 and enables itself with 0x81, that is PWM_ON and nothing else is
(R79, U40). -/
theorem test_decode_other_map :
    let b : Board := { testBoard with regs := { testBoard.regs with pwmCtl := 0x04, pwmOn := 0x81, usef1 := 7 } }
    decode b .host [0x81, 0x00010004] = .ok (.pwmOn, []) ∧ encode b .pwmOn = [0x81, 0x00010004] ∧
    (∃ e, decode b .host [0x21, 0x00010004] = .error e) ∧ ∃ e, decode b .host [0x81, 0x00010000] = .error e :=
  ⟨by decide, by decide, ⟨.noSuchValue 0x00010004 0x21, by decide⟩, ⟨.noSuchRegister 0x00010000, by decide⟩⟩
theorem test_decode_truncated_block : decode testBoard (.engine 0) [0x04000008, 0, 0, 4, 0, 0, 0] =
    .error .truncated := by decide
/-- V28. -/
theorem test_decode_dmaReset : decode testBoard .host [0x80000000, 0x00150000] = .ok (.dmaReset 5, []) := by decide
theorem test_decode_dmaClrdbg : decode testBoard .host [0x00000007, 0x00100020] = .ok (.dmaClrdbg 0, []) := by decide
theorem test_decode_dmaSetcb : decode testBoard .host [0x52345020, 0x00100004] =
    .ok (.dmaSetcb 0 0x52345020, []) := by decide
/-- V28b. -/
theorem test_decode_dmaStart : decode testBoard .host [0x10880001, 0x001E0000] = .ok (.dmaStart 14, []) := by decide
/-- V29j: a CS value that is neither command's. -/
theorem test_decode_cs_other : decode testBoard .host [0x00000001, 0x00100000] =
    .error (.noSuchValue 0x00100000 0x00000001) := by decide
/-- There is no channel 15. -/
theorem test_decode_dma_channel_15 : decode testBoard .host [0x80000000, 0x001F0000] =
    .error (.noSuchRegister 0x001F0000) := by decide
theorem test_decode_pwmOff : decode testBoard .host [0x00000000, 0x00010000] = .ok (.pwmOff, []) := by decide
theorem test_decode_clkSrc : decode testBoard .host [0x5A000006, 0x000200A0] = .ok (.clkSrc, []) := by decide
theorem test_decode_clkDiv : decode testBoard .host [0x5A032000, 0x000200A4] = .ok (.clkDiv, []) := by decide
theorem test_decode_clkOn : decode testBoard .host [0x5A000016, 0x000200A0] = .ok (.clkOn, []) := by decide
theorem test_decode_pwmRng : decode testBoard .host [0x00000064, 0x00010010] = .ok (.pwmRng 100, []) := by decide
theorem test_decode_pwmDmac : decode testBoard .host [0x80000F0F, 0x00010008] = .ok (.pwmDmac, []) := by decide
theorem test_decode_pwmClrf : decode testBoard .host [0x00000040, 0x00010000] = .ok (.pwmClrf, []) := by decide
theorem test_decode_pwmOn : decode testBoard .host [0x00000021, 0x00010000] = .ok (.pwmOn, []) := by decide
/-- Pin 18 is field 8 of FSEL[1], at offset 4; the tag 3 asks for the read-modify-write. -/
theorem test_decode_gpioFselOut : decode testBoard .host [0x01000000, 0x00030007] = .ok (.gpioFselOut 18, []) := by decide
theorem test_decode_gpioFselOut_31 : decode testBoard .host [0x00000008, 0x0003000F] = .ok (.gpioFselOut 31, []) := by
  decide
theorem test_decode_gpioSet : decode testBoard .host [0x00000010, 0x0003001C] = .ok (.gpioSet 0x10, []) := by decide
theorem test_decode_gpioClr : decode testBoard .host [0x00040000, 0x00030028] = .ok (.gpioClr 0x00040000, []) := by decide
theorem test_decode_gpioFselRd : decode testBoard .host [0, 0x0003000D] = .ok (.gpioFselRd 3, []) := by decide
theorem test_decode_settle : decode testBoard .host [100, 2] = .ok (.settle 100, []) := by decide
theorem test_decode_initialize : decode testBoard .host [0, 0, 20] = .ok (.initEngine 10, []) := by decide
theorem test_decode_initChannel : decode testBoard .host [1, 0, 0, 40000] = .ok (.initChannel 0 20000, []) := by decide
theorem test_decode_addPulse : decode testBoard .host [2, 0, 0, 8, 1, 6, 9] =
    .ok (.addChannelPulse 0 4 (-1) 3, [9]) := by decide
theorem test_decode_setPercent : decode testBoard .host [3, 0, 0, 36, 100] = .ok (.setChannelPercent 0 18 50, []) := by
  decide
theorem test_decode_clearGpio : decode testBoard .host [4, 0, 0, 36] = .ok (.clearChannelGpio 0 18, []) := by decide
theorem test_decode_map : decode testBoard .host [8, 0, 0x40400000, 0x200] = .ok (.map 0x20200000 0x100, []) := by decide
/-- An argument beyond 32 bits: 2^31 is the natural number 2^32, two digits (R8). -/
theorem test_decode_allocate : decode testBoard .host [9, 0, 0x80000000, 2] = .ok (.allocate (2 ^ 31), []) := by
  decide +kernel
theorem test_decode_compile : decode testBoard .host [10, 0, 28] = .ok (.compile 14, []) := by decide
theorem test_decode_configureGlobalClock : decode testBoard .host [11, 0, 20] =
    .ok (.configureGlobalClock 10, []) := by decide
theorem test_decode_claim : decode testBoard .host [12, 0, 0xFFFFFFFF, 1] = .ok (.claim (-2 ^ 31), []) := by
  decide +kernel
theorem test_decode_long_argument : decode testBoard .host [12, 0, 0x80000004, 0] = .error .longArgument := by decide
theorem test_decode_selector_5 : decode testBoard .host [5, 0] = .error (.noSuchSelector 5) := by decide
theorem test_decode_write_only_read : decode testBoard .host [0, 0x00030029] =
    .error (.noSuchRegister 0x00030029) := by decide

/-! ## The control-block engine -/

/-- V12, V13: one block's three steps; a sample of 0 is written and changes no level. -/
theorem test_cba_v13 : next (Host.Core.run core 3 { withTurns [.engine 0, .engine 0, .engine 0] smallest with
    gpio := { smallest.gpio with out := 0x11 } }) (fun t =>
      t.gpio.out == 0x11 && t.trace == [.gpioWrite (.dma 0) .clr0 0] && (t.eng 0).conblkAd == 0x52345040 &&
      (t.eng 0).phase == .fetch) = true := by decide +kernel
/-- V15, and V22, V23: the destination loaded and the word read are the ones used. -/
theorem test_cba_v15 : next (exec (.cba 0 0x52345000 .clr0 0x52345040)
    { engineAt .write 0x52345020 0x00040010 (cbaWords testBoard 0x52345000 .clr0 0x52345040) smallest with
      gpio := { smallest.gpio with out := 0x00040011 } }) (fun t =>
      t.gpio.out == 0x00000001 && t.trace == [.gpioWrite (.dma 0) .clr0 0x00040010]) = true := by decide +kernel
/-- V16 at the smallest chain: the last block's `next` is the head. -/
theorem test_cbb_v16 : next (exec (.cbb 0 0x52345000 0x52345020) { smallest with
    dma := (smallest.setEng 0 (startedEngine testBoard 0x52345040 0)).dma }) (fun t =>
      (t.eng 0).nextconbk == 0x52345020 && (t.eng 0).destAd == 0x7E20C018 && (t.eng 0).ti == 0x04050048 &&
      (t.eng 0).phase == .exec) = true := by decide +kernel
/-- With the request off (`DMAC.ENAB = 0`) a CBB about to write holds (R139). -/
theorem test_cbb_holds : next (exec (.cbb 0 0x52345000 0x52345020) { engineAt .write 0x52345040 0
    (cbbWords testBoard 0x52345000 0x52345020) smallest with pwm := { smallest.pwm with dmac := 0x00000F0F } })
    (fun t => t.trace == [] && (t.eng 0).phase == .write && t.pwm.fifoLevel == 0) = true := by decide +kernel
/-- V20. -/
theorem test_cbx_v20 : next (exec (.cbx 0 nullBlock) (engineAt .fetch 0 0 nullBlock smallest)) (fun t =>
    !(t.eng 0).cs.active && (t.eng 0).cs.endFlag && (t.eng 0).phase == .idle) = true := by decide +kernel
/-- V21: the same block with SRC_INC set in memory is refused at the load. -/
theorem test_cbx_v21 : refuses (step { withTurns [.engine 0] smallest with
    mem := Memory.write smallestMem 0x12345021 1 }) (.notAdmitted 0) = true := by decide +kernel
/-- V18. -/
theorem test_pace_v18 : next (step (withTurns [.pacer] configured)) (fun t =>
    t.pwm.fifoLevel == 0 && t.trace == [.paceTick]) = true := by decide +kernel
/-- What an earlier process's engine writes reaches memory outside the arenas, and no arena (R306, R314). -/
theorem test_foreign : let s := smallest.setEng 3 { startedEngine testBoard 0 0 with foreign := true }
    next (step (withTurns [.foreign 3 0x41000000 0xAABBCCDD] s)) (fun t =>
      Memory.read t.mem 0x01000000 == 0xDD && Memory.readWord t.mem 0x12345020 == 0x04000008) = true ∧
    refuses (step (withTurns [.foreign 3 0x52345020 0] s)) (.busWrite 0x52345020) = true := by decide +kernel

/-! ## Register commands -/

/-- V24, on a running engine. -/
theorem test_dmaReset_v24 : next (exec (.dmaReset 0) smallest) (fun t => !(t.eng 0).cs.active &&
    (t.eng 0).conblkAd == 0 && (t.eng 0).phase == .idle && t.trace == [.regWrite (.dma 0) 0 0x80000000]) = true := by
  decide +kernel
/-- V25, with all three flags set. -/
theorem test_dmaClrdbg_v25 : next (exec (.dmaClrdbg 0) (configured.setEng 0 { DmaEngine.zero with debug := 7 }))
    (fun t => (t.eng 0).debug == 0 && t.trace == [.regWrite (.dma 0) 0x20 7]) = true := by decide +kernel
/-- V26. -/
theorem test_dmaSetcb_v26 : next (exec (.dmaSetcb 0 0x52345020) configured) (fun t =>
    (t.eng 0).conblkAd == 0x52345020 && t.trace == [.regWrite (.dma 0) 4 0x52345020]) = true := by decide +kernel
theorem test_dmaSetcb_active : refuses (exec (.dmaSetcb 0 0x52345020) smallest) (.channelActive 0) = true := by
  decide +kernel
/-- V27; END is left as it was. -/
theorem test_dmaStart_v27 : next (exec (.dmaStart 0) (configured.setEng 0 { DmaEngine.zero with
    cs := { Cs.zero with endFlag := true } })) (fun t => (t.eng 0).cs.active && (t.eng 0).phase == .fetch &&
      (t.eng 0).cs.endFlag && t.trace == [.regWrite (.dma 0) 0 0x10880001]) = true := by decide +kernel
theorem test_pwmOff : next (exec .pwmOff configured) (fun t =>
    t.pwm.ctl == 0 && t.pwm.rng1 == 30000 && t.trace == [.regWrite .pwm 0 0]) = true := by decide +kernel
/-- The same write under `buffered`: it has not landed, then it lands (R80). -/
theorem test_pwmOff_buffered : next (exec .pwmOff (buffered configured)) (fun t =>
    t.pwm.ctl == 0x21 && t.landing == [.pwmOff] && next (step (withTurns [.land] t)) fun u =>
      u.pwm.ctl == 0 && u.landing == [] && u.trace == [.regWrite .pwm 0 0]) = true := by decide +kernel
theorem test_clkSrc : next (exec .clkSrc configured) (fun t => t.clk == { src := 6, enab := false, divi := 50 } &&
    t.trace == [.regWrite .clk 0xA0 0x5A000006]) = true := by decide +kernel
theorem test_clkDiv : next (exec .clkDiv (markMapped State.reset)) (fun t =>
    t.clk == { src := 0, enab := false, divi := 50 } && t.trace == [.regWrite .clk 0xA4 0x5A032000]) = true := by
  decide +kernel
theorem test_clkOn : next (exec .clkOn (markMapped State.reset)) (fun t =>
    t.clk == { src := 6, enab := true, divi := 0 } && t.trace == [.regWrite .clk 0xA0 0x5A000016]) = true := by
  decide +kernel
theorem test_pwmRng : next (exec (.pwmRng 100) configured) (fun t =>
    t.pwm.rng1 == 100 && t.trace == [.regWrite .pwm 0x10 0x64]) = true := by decide +kernel
theorem test_pwmDmac : next (exec .pwmDmac (markMapped State.reset)) (fun t =>
    t.pwm.dmac == 0x80000F0F && t.trace == [.regWrite .pwm 8 0x80000F0F]) = true := by decide +kernel
theorem test_pwmClrf : next (exec .pwmClrf { configured with pwm := { configured.pwm with fifoLevel := 1 } }) (fun t =>
    t.pwm.fifoLevel == 0 && t.pwm.ctl == 0 && t.pwm.dmac == 0x80000F0F) = true := by decide +kernel
theorem test_pwmOn : next (exec .pwmOn (markMapped State.reset)) (fun t =>
    t.pwm.ctl == 0x21 && !pacerRunning t) = true := by decide +kernel
/-- V29a to V29g, the word written for the word read: the pin's field becomes 001, the other bits are kept; the register. -/
theorem test_fselOut_v29 : ([(18, 0), (4, 0xFFFFFFFF), (31, 0), (30, 0), (9, 0), (10, 0), (18, 0x07000000)].map
    fun v : Pin × Word => ((fselOf testBoard v.1).val, fselOutput testBoard v.1.val v.2)) =
    [(1, 0x01000000), (0, 0xFFFF9FFF), (3, 8), (3, 1), (0, 0x08000000), (1, 1), (1, 0x01000000)] := by decide +kernel
/-- One register is written, the others are as before. -/
theorem test_fselOut : next (exec (.gpioFselOut 18) ((markMapped State.reset).setFsel 2 5)) (fun t =>
    t.gpio.fsel.toList.drop 2 == [5, 0, 0, 0] && t.fsel 0 == 0 && t.trace.length == 1 && t.gpio.out == 0) = true := by
  decide +kernel
/-- V29h. -/
theorem test_gpioClr_v29h : next (exec (.gpioClr 0x00040000) { configured with
    gpio := { configured.gpio with out := 0x00040010 } }) (fun t => t.gpio.out == 0x00000010 &&
      t.trace == [.gpioWrite .host .clr0 0x00040000]) = true := by decide +kernel
/-- V29i. -/
theorem test_gpioSet_v29i : next (exec (.gpioSet 0x00000010) configured) (fun t => t.gpio.out == 0x00000010 &&
    t.trace == [.gpioWrite .host .set0 0x00000010]) = true := by decide +kernel
/-- The pins' fields as they stand; bits 31:30 are left out, any value (R114). -/
theorem test_gpioFselRd : next (exec (.gpioFselRd 3) (configured.setFsel 3 8)) (fun t =>
    t.host.result == .word (8 ||| (Config.freeReserved 0 &&& 0xC0000000)) && t.trace == []) = true := by
  have h : selectRead (configured.setFsel 3 8) 3 = 8 ||| (Config.freeReserved 0 &&& 0xC0000000) := rfl
  have e : exec (.gpioFselRd 3) (configured.setFsel 3 8) = .next ((configured.setFsel 3 8).answer
    (.word (selectRead (configured.setFsel 3 8) 3))).drawn := rfl
  rw [e, h]
  simp [next, configured, State.reset]
theorem test_settle : exec (.settle 100) State.reset = .next State.reset := rfl

/-! ## Bring-up -/

/-- V30. -/
theorem test_initialize_v30 : next (exec (.initEngine 10) State.reset) (fun t => t.host.windowsMapped &&
    t.host.clockConfigured && t.host.incrementUs == 10 && t.host.result == .ok && t.pwm.rng1 == 100 &&
    pacerRunning t && t.trace.length == 8) = true := by decide +kernel
/-- V31. -/
theorem test_initialize_v31 : next (exec (.initEngine 10) { State.reset with
    env := { Env.start with physMemOpens := false } }) (fun t => !t.host.windowsMapped &&
      t.host.result == .error .mapError && t.trace == []) = true := by decide +kernel
/-- V34 at one sample: the arena is made, the two blocks written, the engine started (V6). -/
theorem test_initChannel_v34 : next (exec (.initChannel 0 3000) configured) (fun t => t.chan 0 == record 3000 1 &&
    t.mem == smallestMem && (t.eng 0).cs.active && (t.eng 0).conblkAd == 0x52345020 && t.host.result == .ok) = true := by
  decide +kernel
/-- V38. -/
theorem test_initChannel_v38 : refuses (exec (.initChannel 0 1000001) configured) .subcycleAboveMax = true := by
  decide +kernel
theorem test_map : next (exec (.map 0x20200000 0x100) State.reset) (fun t =>
    t.host.result == .window 0x20200000 0x100) = true := by decide +kernel
theorem test_allocate : next (exec (.allocate 1) configured) (fun t =>
    t.host.result == .arena 0 [0x52345000]) = true := by decide +kernel
/-- V39 at the second page: the export does not give it. -/
theorem test_allocate_unresolved : next (exec (.allocate 2) configured) (fun t =>
    t.host.result == .error .pageResolutionError) = true := by decide +kernel
theorem test_compile : next (exec (.compile 0) (configured.setChan 0 (record 3000 1))) (fun t =>
    t.mem == smallestMem && (t.eng 0).conblkAd == 0x52345020 && (t.eng 0).cs.active) = true := by decide +kernel
theorem test_configureGlobalClock : next (exec (.configureGlobalClock 1000) (markMapped State.reset)) (fun t =>
    t.pwm == { ctl := 0x21, dmac := 0x80000F0F, rng1 := 10000, fifoLevel := 0 } &&
    t.clk == { src := 6, enab := true, divi := 50 }) = true := by decide +kernel

/-! ## Pulse operations, on 8 slots -/

/-- V40, V49a: slots 1 to 4 are written; pin 4 is claimed. -/
theorem test_addPulse_v40 : next (exec (.addChannelPulse 0 4 1 3) { tables 24000 8 with
    host := { (tables 24000 8).host with gpioSetup := 0 } }) (fun t =>
      samplesOf t 8 == [some 0, some 0x10, some 0, some 0, some 0, some 0, some 0, some 0] &&
      dstsOf t 8 == [some 0, some 0x7E20001C, some 0, some 0, some 0x7E200028, some 0, some 0, some 0] &&
      t.host.gpioSetup == 0x10 && t.gpio.fsel.toList.tail == [0, 0, 0, 0, 0]) = true := by decide +kernel
/-- V43: a width of 0 sets, then clears, in the same call. -/
theorem test_addPulse_v43 : next (exec (.addChannelPulse 0 4 3 0) (tables 24000 8)) (fun t =>
    samplesOf t 8 == List.replicate 8 (some 0) &&
    dstsOf t 8 == [some 0, some 0, some 0, some 0x7E200028, some 0, some 0, some 0, some 0] &&
    t.host.result == .ok) = true := by decide +kernel
/-- V58. -/
theorem test_setPercent_v58 : next (exec (.setChannelPercent 0 4 50) (tables 24000 8)) (fun t =>
    samplesOf t 8 == some 0x10 :: List.replicate 7 (some 0) &&
    dstsOf t 8 == [some 0x7E20001C, some 0, some 0, some 0, some 0x7E200028, some 0, some 0, some 0]) = true := by
  decide +kernel
/-- V50, V51, V53, V56. -/
theorem test_percent : ([(0, 2000), (1, 2000), (33, 2000), (100, 2000), (-5, 2000), (150, 2000), (7, 7), (8, 7), (22, 7),
    (50, 7), (92, 7), (93, 7), (49, 1), (50, 1), (50, 2857)].map fun p => percentWidth p.1 p.2) =
    [0, 20, 660, 2000, 0, 2000, 0, 1, 2, 4, 6, 7, 0, 1, 1429] := by decide +kernel
/-- V47: the plane is cleared, other pins' bits stay, the pin is driven low. -/
theorem test_clearGpio_v47 : next (exec (.clearChannelGpio 0 4) { tables 24000 8 with
    mem := [(0x12345000, 0x30), (0x12345014, 0x10)] }) (fun t =>
      samplesOf t 8 == some 0x20 :: List.replicate 7 (some 0) && t.host.gpioSetup == 0x10 &&
      t.trace == [.gpioWrite .host .clr0 0x10]) = true := by decide +kernel
/-- V68. -/
theorem test_clearGpio_v68 : next (exec (.clearChannelGpio 0 5) (tables 24000 8)) (fun t =>
    t.host.result == .error .channelStateError) = true := by decide +kernel
theorem test_claim : next (exec (.claim 31) { configured with gpio := { configured.gpio with out := 0x80000001 } }) (fun t =>
    t.gpio.fsel.toList.take 3 == [0, 0, 0] && t.gpio.out == 1 && t.host.gpioSetup == 0x80000000) = true := by
  decide +kernel
/-- Two claims whose read-modify-writes of one register would interleave share a lock: the second is refused (R240). -/
theorem test_claims_serialize : refuses (exec (.claim 4) { configured with
    threads := [busyThread [.writeSelect 5] [.functionSelects]] }) .notSerialized = true := by decide +kernel
/-- A claim follows another as soon as that one is done, beside the first call's table writes (R83, R240, R274). -/
def claimThenTables : State := { configured with
  threads := [busyThread [.recordClaim 4, .readSample 0 1, .setSample 0 4 1] [.channel 0, .functionSelects]] }
theorem test_claims_follow : refuses (exec (.claim 5) claimThenTables) .notSerialized = true ∧
    next (step (withTurns [.thread 0] claimThenTables)) (fun t => t.threads == [busyThread
      [.readSample 0 1, .setSample 0 4 1] [.channel 0]] && next (exec (.claim 5) t) fun u =>
        u.host.gpioSetup == 0x30 && u.threads == t.threads) = true := by decide +kernel

/-! ## Witnesses: for each statement with hypotheses, a state and operands that meet them together -/

theorem next_exists {o : Outcome} {f : State → Bool} (h : next o f = true) : ∃ t, o = .next t ∧ f t = true := by
  cases o with
  | next t => exact ⟨t, rfl, h⟩
  | fault r => cases h
  | refused r => cases h

theorem completes {o : Outcome} (h : next o (fun _ => true) = true) : ∃ t, o = .next t :=
  let ⟨t, ht, _⟩ := next_exists h
  ⟨t, ht⟩

/-- The engine with the smallest chain's CBB loaded and its word read, the FIFO at a level. -/
def pushing (level : Nat) : State :=
  { engineAt .write 0x52345040 0 (cbbWords testBoard 0x52345000 0x52345020) smallest with
    pwm := { smallest.pwm with fifoLevel := level } }

/-- The engine with the smallest chain's CBA loaded and its word read. -/
def writing (data : Word) : State :=
  engineAt .write 0x52345020 data (cbaWords testBoard 0x52345000 .clr0 0x52345040) smallest

theorem witness_EncodeThenDecode : RegistersOk testBoard ∧ WellFormed testBoard (.cba 14 0x52345000 .clr0 0x52345040) ∧
    WellFormed testBoard (.cbx 0 nullBlock) ∧ WellFormed testBoard (.settle (2 ^ 32 - 1)) ∧
    WellFormed testBoard (.claim (-2 ^ 64)) :=
  ⟨testBoard_registersOk, by unfold WellFormed; decide⟩
theorem witness_DecodedWords : RegistersOk testBoard ∧ decode testBoard .host [0x00000021, 0x00010000, 7] = .ok (.pwmOn, [7]) ∧
    decode testBoard (.engine 0) [0x04050048, 0x52345000, 0x7E20C018, 4, 0, 0x52345020, 1, 2] =
      .ok (.cbb 0 0x52345000 0x52345020, []) := ⟨testBoard_registersOk, by decide⟩
theorem witness_StepRunsTheHostCall :
    decode testBoard .host ({ configured with program := [0x10, 0x0003001C] } : State).program = .ok (.gpioSet 0x10, []) ∧
    configured.board = testBoard ∧ ({ configured with program := [0x10, 0x0003001C] } : State).agenda = [] ∧
    ({ configured with program := [0x10, 0x0003001C], agenda := [.host] } : State).agenda = .host :: [] := by
  decide +kernel
theorem witness_StepRunsTheControlBlock_fetch :
    (withTurns [.engine 0] smallest).agenda = .engine 0 :: [] ∧ (smallest.eng 0).runs = true ∧
    (smallest.eng 0).phase = .fetch ∧ (smallest.eng 0).conblkAd ≠ 0 ∧
    (∀ k, k < 6 → busReadable smallest ((smallest.eng 0).conblkAd + BitVec.ofNat 32 (4 * k)) = true) ∧
    decode smallest.board (.engine 0) ((List.range 6).map (fun k => busWord smallest ((smallest.eng 0).conblkAd +
      BitVec.ofNat 32 (4 * k))) ++ [0, 0]) = .ok (.cba 0 0x52345000 .clr0 0x52345040, []) := by decide +kernel
theorem witness_StepRunsTheControlBlock_loaded :
    ((pushing 0).eng 0).runs = true ∧ ((pushing 0).eng 0).phase ≠ .fetch ∧
    decode (pushing 0).board (.engine 0) [((pushing 0).eng 0).ti, ((pushing 0).eng 0).sourceAd, ((pushing 0).eng 0).destAd,
      ((pushing 0).eng 0).txfrLen, ((pushing 0).eng 0).stride, ((pushing 0).eng 0).nextconbk, 0, 0] =
      .ok (.cbb 0 0x52345000 0x52345020, []) := by decide +kernel
theorem witness_StepRunsTheControlBlock_null : ((engineAt .fetch 0 0 nullBlock smallest).eng 0).runs = true ∧
    ((engineAt .fetch 0 0 nullBlock smallest).eng 0).phase = .fetch ∧
    ((engineAt .fetch 0 0 nullBlock smallest).eng 0).conblkAd = 0 := by decide +kernel

/-- Engine 3 left running by an earlier process, with a write of its own to come. -/
def foreignAt (a v : Word) : State :=
  withTurns [.foreign 3 a v] (smallest.setEng 3 { startedEngine testBoard 0 0 with foreign := true })

theorem witness_InactiveEngine : (withTurns [.engine 3] smallest).agenda = .engine 3 :: [] ∧
    ((withTurns [.engine 3] smallest).eng 3).cs.active = false ∧
    (withTurns [.engine 3] (foreignAt 0 0)).agenda = .engine 3 :: [] ∧
    ((withTurns [.engine 3] (foreignAt 0 0)).eng 3).foreign = true := by decide +kernel

/-- Four slots, the engine before a block: slot 3's CBA stands at 0x523450E0, its CBB, which wraps, at 0x52345100. -/
def before (a : Word) : State := (configured.setChan 0 (record 12000 4)).setEng 0 (startedEngine testBoard a 0)

theorem witness_FetchLoads_cba : let s := before 0x523450E0
    ArenaOk s.board (s.chan 0) ∧ (s.eng 0).runs = true ∧ (s.eng 0).phase = .fetch ∧ 3 < (s.chan 0).sampleCount ∧
    blockAddress s.board (s.chan 0) (2 * 3) = some (s.eng 0).conblkAd ∧
    phys s.board (s.chan 0) (4 * 3) = some 0x5234500C ∧
    blockAddress s.board (s.chan 0) (2 * 3 + 1) = some 0x52345100 :=
  ⟨arenaOk_4, by decide +kernel⟩
theorem witness_FetchLoads_cbb : let s := before 0x52345100
    ArenaOk s.board (s.chan 0) ∧ (s.eng 0).runs = true ∧ (s.eng 0).phase = .fetch ∧ 3 < (s.chan 0).sampleCount ∧
    blockAddress s.board (s.chan 0) (2 * 3 + 1) = some (s.eng 0).conblkAd ∧
    phys s.board (s.chan 0) 0 = some 0x52345000 ∧
    blockAddress s.board (s.chan 0) ((2 * 3 + 2) % (2 * (s.chan 0).sampleCount)) = some 0x52345020 :=
  ⟨arenaOk_4, by decide +kernel⟩
theorem witness_FetchAdmits : (∃ t, exec (.cbb 0 0x52345000 0x52345020) (before 0x52345100) = .next t) ∧
    (∃ t, exec (.cbb 0 0x52345000 0) (before 0x52345100) = .next t) ∧
    (∃ t, exec (.cba 0 0x5234500C .set0 0x52345100) (before 0x523450E0) = .next t) ∧
    refuses (exec (.cba 0 0x52345008 .set0 0x52345100) (before 0x523450E0)) (.notAdmitted 0) = true :=
  ⟨completes (by decide +kernel), completes (by decide +kernel), completes (by decide +kernel), by decide +kernel⟩
theorem witness_OtherBlocks : (withTurns [.engine 0] smallest).agenda = .engine 0 :: [] ∧
    (smallest.eng 0).runs = true ∧ (smallest.eng 0).phase = .fetch ∧ (smallest.eng 0).conblkAd ≠ 0 ∧
    (loadBlock { smallest with mem := Memory.write smallestMem 0x12345021 1 } (smallest.eng 0).conblkAd).map
      (fun b => decide (recognise smallest.board b = .formX b)) = some true := by decide +kernel
theorem witness_ZeroNext : ((engineAt .fetch 0 0 nullBlock smallest).eng 0).runs = true ∧
    ((engineAt .fetch 0 0 nullBlock smallest).eng 0).phase = .fetch ∧
    ((engineAt .fetch 0 0 nullBlock smallest).eng 0).conblkAd = 0 ∧
    (withTurns [.engine 0, .engine 0] (engineAt .fetch 0 0 nullBlock smallest)).agenda = .engine 0 :: .engine 0 :: [] := by
  decide +kernel
/-- The page's last word. -/
theorem witness_ExecReads :
    let s := engineAt .exec 0x52345020 0 (cbaWords testBoard 0x52345FFC .clr0 0x52345040) smallest
    ArenaOk s.board (s.chan 0) ∧ phys s.board (s.chan 0) 4092 = some 0x52345FFC ∧ 4092 % 4 = 0 ∧
    (s.eng 0).runs = true ∧ (s.eng 0).phase = .exec :=
  ⟨arenaOk_1, by decide +kernel⟩
theorem witness_CbaWrites : BoardOk (writing 0x10).board ∧ ((writing 0x10).eng 0).runs = true ∧
    ((writing 0x10).eng 0).phase = .write := ⟨testBoard_ok, by decide +kernel⟩
theorem witness_CbbPushes : BoardOk (pushing 0).board ∧ ((pushing 0).eng 0).runs = true ∧
    ((pushing 0).eng 0).phase = .write ∧ dmacEnab (pushing 0) = true ∧
    (pushing 0).pwm.fifoLevel < (pushing 0).board.dreqLevel := ⟨testBoard_ok, by decide +kernel⟩
theorem witness_CbbHolds : BoardOk (pushing 1).board ∧ ((pushing 1).eng 0).runs = true ∧
    ((pushing 1).eng 0).phase = .write ∧
    ¬(dmacEnab (pushing 1) = true ∧ (pushing 1).pwm.fifoLevel < (pushing 1).board.dreqLevel) :=
  ⟨testBoard_ok, by decide +kernel⟩
theorem witness_Pacer : (withTurns [.pacer] configured).agenda = .pacer :: [] ∧
    pwen1 configured = true ∧ usef1 configured = true ∧ configured.clk.enab = true ∧
    ¬(pwen1 State.reset = true) := by decide +kernel
theorem witness_PaceTickLifts : let s := withTurns [.engine 0, .pacer, .engine 0] (pushing 1)
    BoardOk s.board ∧ s.agenda = .engine 0 :: .pacer :: .engine 0 :: [] ∧ (s.eng 0).runs = true ∧
    (s.eng 0).phase = .write ∧ recognise s.board (s.eng 0).loaded = .formB 0x52345000 0x52345020 ∧
    pacerRunning s = true ∧ dmacEnab s = true ∧ s.pwm.fifoLevel = s.board.dreqLevel :=
  ⟨testBoard_ok, by decide +kernel⟩

/-- A CBB waiting with the request off, another turn next. -/
def dead (t : Turn) : State := { pushing 0 with
  pwm := { (pushing 0).pwm with dmac := 0x00000F0F }, agenda := [t] }

theorem witness_DeadPacer : (dead (.engine 0)).agenda = .engine 0 :: [] ∧ dreq (dead (.engine 0)) = false ∧
    (pacerRunning (dead (.engine 0)) && dmacEnab (dead (.engine 0))) = false ∧
    (∃ t, step (dead (.engine 0)) = .next t) ∧ (∃ t, step (dead .pacer) = .next t) ∧
    ((dead (.engine 0)).eng 0).phase = .write ∧
    recognise (dead (.engine 0)).board ((dead (.engine 0)).eng 0).loaded = .formB 0x52345000 0x52345020 :=
  ⟨rfl, by decide +kernel, by decide +kernel, completes (by decide +kernel), completes (by decide +kernel), rfl,
    by decide +kernel⟩
theorem witness_Holds : holdOf (pushing 1) 0 = some .dreqHold ∧ holdOf (pushing 0) 0 = none ∧
    holdOf (dead (.engine 0)) 0 = some .pacerDead ∧ (dead (.engine 0)).agenda = .engine 0 :: [] ∧
    holdOf (smallest.setEng 0 { DmaEngine.zero with cs := { Cs.zero with endFlag := true } }) 0 = some .stopped ∧
    holdOf smallest 5 = none := by decide +kernel
theorem witness_EngineSteps : (withTurns [.engine 0] (writing 0x10)).agenda = .engine 0 :: [] ∧
    (∃ t, step (withTurns [.engine 0] (writing 0x10)) = .next t) ∧
    ((withTurns [.engine 0] (writing 0x10)).eng 0).phase = .write :=
  ⟨rfl, completes (by decide +kernel), rfl⟩

/-- The smallest chain with the turns of one lap to come. -/
def lapping : State := withTurns (lapTurns 0 1) smallest

theorem slotBlocks_lapping : SlotBlocks lapping (lapping.chan 0) 0 .clr0 :=
  ⟨⟨0x52345000, 0x52345040, by decide +kernel⟩, ⟨0x52345000, 0x52345020, by decide +kernel⟩⟩

theorem witness_SlotWrites : ArenaOk lapping.board (lapping.chan 0) ∧ 0 < (lapping.chan 0).sampleCount ∧
    SlotBlocks lapping (lapping.chan 0) 0 .clr0 ∧ sampleWord lapping 0 0 = some 0 ∧
    (lapping.eng 0).runs = true ∧ (lapping.eng 0).phase = .fetch ∧
    blockAddress lapping.board (lapping.chan 0) (2 * 0) = some (lapping.eng 0).conblkAd ∧
    lapping.agenda = .engine 0 :: .engine 0 :: .engine 0 :: [.engine 0, .engine 0, .engine 0, .pacer] :=
  ⟨arenaOk_1, by decide +kernel, slotBlocks_lapping, by decide +kernel⟩
theorem witness_Lap : ArenaOk lapping.board (lapping.chan 0) ∧ (lapping.chan 0).sampleCount = 1 ∧
    (∀ i, i < (lapping.chan 0).sampleCount →
      SlotBlocks lapping (lapping.chan 0) i .clr0 ∧ sampleWord lapping 0 i = some 0) ∧
    (lapping.eng 0).runs = true ∧ (lapping.eng 0).phase = .fetch ∧
    blockAddress lapping.board (lapping.chan 0) 0 = some (lapping.eng 0).conblkAd ∧
    pacerRunning lapping = true ∧ dmacEnab lapping = true ∧ lapping.pwm.fifoLevel < lapping.board.dreqLevel ∧
    lapping.agenda = lapTurns 0 (lapping.chan 0).sampleCount ++ [] := by
  refine ⟨arenaOk_1, by decide +kernel, fun i hi => ?_, by decide +kernel⟩
  have h0 : i = 0 := Nat.lt_one_iff.mp hi
  subst h0
  exact ⟨slotBlocks_lapping, by decide +kernel⟩

/-- The register commands' premises. -/
theorem witness_commands : configured.host.windowsMapped = true ∧ configured.board.visibility = .sc ∧
    (buffered configured).board.visibility = .buffered ∧ State.reset.host.windowsMapped = false := by
  decide +kernel
theorem witness_Setcb : (0x52345020 : Word).toNat % configured.board.cbAlign = 0 ∧
    (0x52345024 : Word).toNat % configured.board.cbAlign ≠ 0 ∧
    (configured.eng 0).cs.active = false ∧ (smallest.eng 0).cs.active = true := by decide +kernel
theorem witness_DmaReset : ((writing 0x10).eng 0).runs = true ∧ (writing 0x10).host.windowsMapped = true ∧
    (writing 0x10).board.visibility = .sc ∧
    recognise (writing 0x10).board ((writing 0x10).eng 0).loaded = .formA 0x52345000 .clr0 0x52345040 := by
  decide +kernel
theorem witness_Pcm : (∃ e, decode testBoard .host (0 :: registerWord .pcm 0 0 :: []) = .error e) ∧
    (∃ e, decode testBoard .host (0 :: registerWord .pcm 65532 3 :: []) = .error e) :=
  ⟨⟨.noSuchRegister (registerWord .pcm 0 0), by decide⟩, ⟨.noSuchRegister (registerWord .pcm 65532 3), by decide⟩⟩
theorem quiet_configured (locks : List Resource) : Quiet locks configured :=
  ⟨rfl, rfl, List.all_eq_true.mpr fun _ _ => rfl⟩
theorem witness_RegisterAccess : State.reset.host.windowsMapped = false ∧
    (0x20 : Word).toNat % State.reset.board.cbAlign = 0 := by decide +kernel
theorem witness_FselOut : RegistersOk configured.board ∧ configured.host.windowsMapped = true ∧
    Quiet [.functionSelects] configured := ⟨testBoard_registersOk, rfl, quiet_configured _⟩
theorem witness_ConfigureClock : Quiet [.clock] (markMapped State.reset) ∧
    (markMapped State.reset).host.windowsMapped = true ∧ (markMapped State.reset).host.clockConfigured = false ∧
    configured.host.clockConfigured = true := ⟨⟨rfl, rfl, rfl⟩, by decide +kernel⟩
theorem witness_Initialize : Quiet [.clock] State.reset ∧ State.reset.host.windowsMapped = false ∧
    State.reset.host.clockConfigured = false ∧ State.reset.env.physMemOpens = true ∧
    (∀ base ∈ [State.reset.board.pwmBaseHost, State.reset.board.pcmBaseHost, State.reset.board.clkBaseHost,
      State.reset.board.gpioBaseHost], (base : Int) ∉ State.reset.env.unmappable) ∧
    (∃ base ∈ [State.reset.board.pwmBaseHost, State.reset.board.pcmBaseHost, State.reset.board.clkBaseHost,
      State.reset.board.gpioBaseHost], (base : Int) ∈ ({ Env.start with unmappable := [0x20101000] } : Env).unmappable) :=
  ⟨⟨rfl, rfl, rfl⟩, by decide +kernel⟩

/-- A frame just below the bus offset, one at it, an entry that is swapped out, a page not in the export. -/
theorem witness_PageResolution : BoardOk testBoard ∧
    configured.env.pageExport.lookup 0 = some 0x8000000000012345 ∧ pagemapValid testBoard 0x8000000000012345 = true ∧
    (0x800000000003FFFF : BitVec 64).toNat % 2 ^ 55 * pageSize testBoard < testBoard.dmaBusOffset ∧
    testBoard.dmaBusOffset ≤ (0x8000000000040000 : BitVec 64).toNat % 2 ^ 55 * pageSize testBoard ∧
    pagemapValid testBoard 0xC000000000000000 = false ∧ configured.env.pageExport.lookup 1 = none :=
  ⟨testBoard_ok, by decide +kernel⟩

theorem noPage_configured (c : Chan) : (configured.chan c).pageMap = [] := by
  revert c
  decide +kernel

theorem pagesResolve_configured : PagesResolve configured [0x52345000] where
  resolved j page h := by
    obtain ⟨hj, rfl⟩ := List.getElem?_eq_some_iff.mp h
    obtain rfl : j = 0 := Nat.lt_one_iff.mp hj
    exact (by decide +kernel :
      resolveFrame configured.board configured.env (virtualPage configured.board configured.env.virtBase 0) =
        .page 0x52345000)
  distinct := List.nodup_singleton _
  free page _ := fun ⟨c, hc⟩ => by
    rw [noPage_configured c] at hc
    cases hc
  clear page hp := by
    rw [List.mem_singleton.mp hp]
    decide +kernel

theorem witness_Allocate : configured.agenda = [] ∧ BoardOk configured.board ∧ configured.env.locksRegion = true ∧
    PagesResolve configured [0x52345000] := ⟨rfl, testBoard_ok, rfl, pagesResolve_configured⟩
theorem witness_AllocateFails : ([0x52345000] : List Word).length < 2 ∧ PagesResolve configured [0x52345000] ∧
    resolveFrame configured.board configured.env (virtualPage configured.board configured.env.virtBase
      ([0x52345000] : List Word).length) = .unresolved ∧
    resolveFrame testBoard { Env.start with pageExport := [(0, 0x8000000000040000)] } (virtualPage testBoard 0 0) =
      .aboveBusOffset ∧ ({ Env.start with locksRegion := false } : Env).locksRegion = false :=
  ⟨by decide, pagesResolve_configured, by decide +kernel⟩
theorem witness_Compile : let s := configured.setChan 0 (record 24000 8)
    Quiet [.channel 0] s ∧ s.host.windowsMapped = true ∧ ArenaOk s.board (s.chan 0) ∧ Memory.wf s.mem = true ∧
    noWriteInFlight (s.eng 0) :=
  ⟨⟨rfl, rfl, rfl⟩, rfl, arenaOk_8, rfl, .inl rfl⟩
theorem witness_InitChannelChecks : configured.host.windowsMapped = true ∧ configured.host.clockConfigured = true ∧
    (configured.chan 14).initialized = false ∧ ((tables 24000 8).chan 0).initialized = true ∧
    sampleCountOf 3000 4000 < 1 ∧ configured.board.subcycleUsMin ≤ 3000 ∧ 3000 ≤ configured.board.subcycleUsMax ∧
    configured.board.subcycleUsMax < 1000001 ∧ (2999 : Int) < configured.board.subcycleUsMin := by decide +kernel
theorem witness_InitChannel : BoardOk configured.board ∧ Quiet [.channel 0] configured ∧
    configured.host.windowsMapped = true ∧ configured.host.clockConfigured = true ∧
    (configured.chan 0).initialized = false ∧ configured.board.subcycleUsMin ≤ 24000 ∧
    24000 ≤ configured.board.subcycleUsMax ∧ sampleCountOf 24000 configured.host.incrementUs = ((8 : Nat) : Int) ∧
    configured.env.physMemOpens = true ∧
    ((configured.board.dmaBaseHost + configured.board.dmaChannelStride * (0 : Chan).val : Nat) : Int) ∉
      configured.env.unmappable ∧
    configured.env.locksRegion = true ∧ PagesResolve configured [0x52345000] ∧
    ([0x52345000] : List Word).length = (configured.board.cbAlign * ((4 * 8 + configured.board.cbAlign - 1) /
      configured.board.cbAlign) + configured.board.cbSize * (2 * 8) + pageSize configured.board - 1) /
        pageSize configured.board ∧
    Memory.wf configured.mem = true ∧ noWriteInFlight (configured.eng 0) :=
  ⟨testBoard_ok, quiet_configured _, rfl, rfl, by decide +kernel, by decide, by decide, by decide +kernel, rfl,
    by decide +kernel, rfl, pagesResolve_configured, by decide +kernel, rfl, .inl rfl⟩
/-- The largest subcycle asks for 333 slots, 6 pages; the export gives one. -/
theorem witness_InitChannelFails : Quiet [.channel 14] configured ∧
    (1 : Int) ≤ sampleCountOf 1000000 configured.host.incrementUs ∧
    ([0x52345000] : List Word).length <
      pageCountOf configured.board (sampleCountOf 1000000 configured.host.incrementUs).toNat ∧
    PagesResolve configured [0x52345000] ∧
    resolveFrame configured.board configured.env (virtualPage configured.board configured.env.virtBase
      ([0x52345000] : List Word).length) = .unresolved ∧
    ((configured.board.dmaBaseHost + configured.board.dmaChannelStride * (14 : Chan).val : Nat) : Int) ∈
      ({ Env.start with unmappable := [0x20007E00] } : Env).unmappable :=
  ⟨quiet_configured _, by decide +kernel, by decide +kernel, pagesResolve_configured, by decide +kernel⟩
theorem quiet_tables (locks : List Resource) : Quiet locks (tables 24000 8) :=
  ⟨rfl, rfl, List.all_eq_true.mpr fun _ _ => rfl⟩
/-- A pulse up to the end of the table, on a claimed pin and on one that is not. -/
theorem witness_Pulse : let s := tables 24000 8
    Quiet (pulseLocks s 0 4) s ∧ Quiet (pulseLocks s 0 5) s ∧ Quiet [.channel 0] s ∧ (s.chan 0).initialized = true ∧
    ArenaOk s.board (s.chan 0) ∧ Memory.wf s.mem = true ∧ s.host.windowsMapped = true ∧ claimed s 4 = true ∧
    claimed s 5 = false ∧ 7 < (s.chan 0).maxWidth ∧ 7 + 1 ≤ (s.chan 0).maxWidth :=
  ⟨quiet_tables _, quiet_tables _, quiet_tables _, by decide +kernel, arenaOk_8, rfl, rfl, by decide +kernel⟩
theorem witness_Claim : RegistersOk (tables 24000 8).board ∧ Quiet [.functionSelects] (tables 24000 8) ∧
    (tables 24000 8).host.windowsMapped = true ∧
    claimed (tables 24000 8) 31 = false ∧ claimed (tables 24000 8) 4 = true :=
  ⟨testBoard_registersOk, quiet_tables _, by decide +kernel⟩
theorem witness_PulseThenClear : let s := tables 24000 8
    Quiet [.channel 0, .functionSelects] s ∧ (s.chan 0).initialized = true ∧ ArenaOk s.board (s.chan 0) ∧
    Memory.wf s.mem = true ∧ s.host.windowsMapped = true ∧ 5 < (s.chan 0).maxWidth ∧ 5 + 3 ≤ (s.chan 0).maxWidth ∧
    (∀ i w, i < (s.chan 0).sampleCount → sampleWord s 0 i = some w → w.getLsbD (5 : Pin).val = false) := by
  refine ⟨quiet_tables _, by decide +kernel, arenaOk_8, rfl, rfl, by decide +kernel, by decide +kernel,
    fun i w hi hw => ?_⟩
  have h : ∀ i, i < 8 → sampleWord (tables 24000 8) 0 i = some 0 := by decide +kernel
  rw [h i hi] at hw
  cases hw
  rfl
/-- Two pulses that meet at slot 4, the second up to the end of the table; and two of one pin at one slot. -/
theorem witness_LastCall : let s := tables 24000 8
    Quiet [.channel 0, .functionSelects] s ∧ (s.chan 0).initialized = true ∧ ArenaOk s.board (s.chan 0) ∧
    Memory.wf s.mem = true ∧ s.host.windowsMapped = true ∧ (4 : Pin) ≠ 5 ∧ 0 + 4 ≤ (s.chan 0).maxWidth ∧
    4 + 4 ≤ (s.chan 0).maxWidth ∧ 4 < (s.chan 0).maxWidth ∧ 7 + 0 ≤ (s.chan 0).maxWidth :=
  ⟨quiet_tables _, by decide +kernel, arenaOk_8, rfl, rfl, by decide +kernel⟩
theorem witness_RejectedPulse : ((tables 24000 8).chan 0).initialized = true ∧
    (((tables 24000 8).chan 0).maxWidth : Int) < 6 + 3 ∧ (((tables 24000 8).chan 0).maxWidth : Int) ≤ 8 ∧
    ((tables 24000 8).chan 1).initialized = false := by decide +kernel

/-! ## Witnesses of the whole-machine rules -/

theorem witness_Concurrent_claim :
    (∀ turn ∈ [Turn.engine 0, .host, .env Env.start, .pacer, .host], sparesHost (asksEnvironment (.claim 5)) turn) ∧
    ∃ t, exec (.claim 5) (withTurns [.engine 0, .host, .env Env.start, .pacer, .host] smallest) = .next t :=
  ⟨by simp [sparesHost, asksEnvironment], completes (by decide +kernel)⟩
/-- Channel 1 is brought up while engine 0 runs. -/
theorem witness_Concurrent_initChannel :
    (∀ turn ∈ [Turn.engine 0, .host, .engine 0, .pacer, .host], sparesHost (asksEnvironment (.initChannel 1 3000)) turn) ∧
    ∃ t, exec (.initChannel 1 3000) { smallest with
      agenda := [.engine 0, .host, .engine 0, .pacer, .host]
      env := { Env.start with pageExport := [(0, 0x8000000000012346)] } } = .next t ∧
      ((t.chan 1).initialized && t.gpio.out == 0 && (t.eng 0).phase == .write) = true :=
  ⟨by simp [sparesHost], next_exists (by decide +kernel)⟩
theorem witness_BufferedWritesLand : let s := withTurns [.land] { buffered configured with landing := [.pwmOff] }
    s.board.visibility = .buffered ∧ s.host.windowsMapped = true ∧ s.agenda = .land :: [] ∧
    s.landing = .pwmOff :: [] := by decide +kernel

/-- Channels 0 and 1 with 8 slots each, pin 4 claimed. -/
def twoChannels : State := (tables 24000 8).setChan 1 (recordOn 1 0x52346000 24000 8)

theorem chan_twoChannels (c : Chan) : twoChannels.chan c =
    if c = 0 then record 24000 8 else if c = 1 then recordOn 1 0x52346000 24000 8 else ChanRec.empty := by
  revert c
  decide +kernel

theorem arenasOk_twoChannels : ArenasOk twoChannels where
  board := testBoard_ok
  each c h := by
    rw [chan_twoChannels] at h ⊢
    split
    · exact arenaOk_8
    · split
      · exact arenaOk_recordOn 1 0x52346000 24000 8 ⟨by decide, by decide⟩ (by decide) (by decide)
      · rename_i h0 h1
        exact absurd (by rw [if_neg h0, if_neg h1]; rfl) h
  present := by decide +kernel
  apart c d hcd page hp hq := by
    rw [chan_twoChannels] at hp hq
    split_ifs at hp hq <;> simp_all [record, recordOn, layoutOf, ChanRec.empty]

theorem witness_BufferedWritesEnd : ArenasOk twoChannels ∧ Memory.wf twoChannels.mem = true ∧
    twoChannels.board.visibility = .sc ∧ twoChannels.landing = [] ∧ twoChannels.agenda = [] ∧
    ∃ t, exec (.addChannelPulse 0 5 1 3) twoChannels = .next t :=
  ⟨arenasOk_twoChannels, rfl, rfl, rfl, rfl, completes (by decide +kernel)⟩

/-- A thread about to call `claim(5)`. -/
def calling : State := { twoChannels with threads := [idleThread [12, 0, 10]] }

theorem witness_ThreadCalls : calling.threads[0]? = some (idleThread [12, 0, 10]) ∧
    (idleThread [12, 0, 10]).todo = [] ∧ (idleThread [12, 0, 10]).holds = [] ∧
    decode calling.board .host (idleThread [12, 0, 10]).program = .ok (.claim 5, []) ∧ calling.agenda = [] ∧
    ∃ t, exec (.claim 5) calling = .next t :=
  ⟨rfl, rfl, rfl, by decide +kernel, rfl, completes (by decide +kernel)⟩

/-- Two threads in the midst of pulses, one on each channel. -/
def crossing : State := { twoChannels with
  threads := [busyThread [.setSample 0 4 7] [.channel 0], busyThread [.retarget 1 0 .set0] [.channel 1]] }

theorem arenasOk_crossing : ArenasOk crossing :=
  ⟨arenasOk_twoChannels.board, arenasOk_twoChannels.each, arenasOk_twoChannels.present, arenasOk_twoChannels.apart⟩

theorem witness_AccessesCommute : ArenasOk crossing ∧ Memory.wf crossing.mem = true ∧
    crossing.board.visibility = .sc ∧ crossing.threads[0]? = some (busyThread [.setSample 0 4 7] [.channel 0]) ∧
    crossing.threads[1]? = some (busyThread [.retarget 1 0 .set0] [.channel 1]) ∧
    tableAccess 0 (.setSample 0 4 7) ∧ tableAccess 1 (.retarget 1 0 .set0) ∧
    ∃ u, Host.Core.run Sys2Proof.core 2 { crossing with agenda := .thread 0 :: .thread 1 :: [] } = .next u :=
  ⟨arenasOk_crossing, rfl, rfl, rfl, rfl, rfl, rfl, completes (by decide +kernel)⟩

/-- Thread 0 within a call on channel 0, thread 1 about to call `clearGpio(0, 4)`. -/
def clashing : State := { twoChannels with
  threads := [busyThread [.setSample 0 4 7] [.channel 0], idleThread [4, 0, 0, 8]], agenda := [.thread 1] }

theorem witness_Clashing : callOfInstr (.clearChannelGpio 0 4) clashing =
      .go [.channel 0] (clearActions 0 4 0 8 ++ [.write (.gpio .clr0 0x10)]) ∧
    (∃ need ∈ [Resource.channel 0], ∃ other ∈ clashing.threads, need ∈ other.holds) ∧
    clashing.threads[1]? = some (idleThread [4, 0, 0, 8]) ∧ (idleThread [4, 0, 0, 8]).todo = [] ∧
    decode clashing.board .host (idleThread [4, 0, 0, 8]).program = .ok (.clearChannelGpio 0 4, []) ∧
    clashing.agenda = .thread 1 :: [] := by decide +kernel
/-- Thread 1 calls while nobody else holds a lock; and a claim's last access. -/
theorem witness_Released : let s := { clashing with threads := [idleThread [], idleThread [4, 0, 0, 8]] }
    callOfInstr (.clearChannelGpio 0 4) s = .go [.channel 0] (clearActions 0 4 0 8 ++ [.write (.gpio .clr0 0x10)]) ∧
    (∀ need ∈ [Resource.channel 0], ∀ other ∈ s.threads, need ∉ other.holds) ∧
    s.threads[1]? = some (idleThread [4, 0, 0, 8]) ∧
    claimThenTables.threads[0]? = some (busyThread [.recordClaim 4, .readSample 0 1, .setSample 0 4 1]
      [.channel 0, .functionSelects]) ∧
    (∃ t, step (withTurns [.thread 0] claimThenTables) = .next t) ∧
    ∀ p, Action.readSelect p ∉ [Action.readSample 0 1, .setSample 0 4 1] ∧
      Action.writeSelect p ∉ [Action.readSample 0 1, .setSample 0 4 1] ∧
      Action.recordClaim p ∉ [Action.readSample 0 1, .setSample 0 4 1] :=
  ⟨by decide +kernel, by decide +kernel, rfl, rfl, completes (by decide +kernel), by simp⟩

theorem witness_Foreign : BoardOk (foreignAt 0x7E200028 7).board ∧ (foreignAt 0x41000000 7).agenda = .foreign 3 0x41000000 7 :: [] ∧
    ((foreignAt 0x41000000 7).eng 3).cs.active = true ∧ ((foreignAt 0x41000000 7).eng 3).foreign = true ∧
    foreignWritable (foreignAt 0x41000000 7) 0x41000000 = true ∧
    foreignWritable (foreignAt 0x7E200028 7) 0x7E200028 = false ∧
    (0x7E200028 : Word) = (foreignAt 0x7E200028 7).board.gpClr ∧
    ¬((smallest.eng 3).cs.active = true ∧ (smallest.eng 3).foreign = true) := ⟨testBoard_ok, by decide +kernel⟩

theorem chan_smallest (c : Chan) : smallest.chan c = if c = 0 then record 3000 1 else ChanRec.empty := by
  revert c
  decide +kernel

theorem arenasOk_smallest : ArenasOk smallest where
  board := testBoard_ok
  each c h := by
    rw [chan_smallest] at h ⊢
    split
    · exact arenaOk_1
    · rename_i h0
      exact absurd (by rw [if_neg h0]; rfl) h
  present := by decide +kernel
  apart c d hcd page hp hq := by
    rw [chan_smallest] at hp hq
    split_ifs at hp hq <;> simp_all [record, recordOn, layoutOf, ChanRec.empty]

theorem witness_Foreign_frame : ArenasOk (foreignAt 0x41000000 7) ∧ Memory.wf (foreignAt 0x41000000 7).mem = true ∧
    ∃ t, step (foreignAt 0x41000000 7) = .next t :=
  ⟨⟨arenasOk_smallest.board, arenasOk_smallest.each, arenasOk_smallest.present, arenasOk_smallest.apart⟩,
    by decide +kernel, completes (by decide +kernel)⟩

theorem stateOk_smallest : StateOk (withTurns [.engine 0] smallest) := by
  refine ⟨by decide, by decide +kernel, ?_, Nat.zero_le _⟩
  unfold phaseOk
  decide +kernel

theorem witness_StateOk : StateOk (withTurns [.engine 0] smallest) ∧ Paced (withTurns [.engine 0] smallest) ∧
    ∃ t, step (withTurns [.engine 0] smallest) = .next t :=
  ⟨stateOk_smallest, ⟨by decide +kernel, Nat.zero_le _⟩, completes (by decide +kernel)⟩
theorem witness_ArenasOk : ArenasOk (withTurns [.engine 0] smallest) ∧
    (∃ t, step (withTurns [.engine 0] smallest) = .next t) ∧
    ((withTurns [.engine 0] smallest).chan 0).initialized = true :=
  ⟨⟨arenasOk_smallest.board, arenasOk_smallest.each, arenasOk_smallest.present, arenasOk_smallest.apart⟩,
    completes (by decide +kernel), by decide +kernel⟩
/-- A host call that claims a pin and writes the latch (`TraceAccountsForTheLatch`, `HostContextOnlyGrows`). -/
theorem witness_hostStep : ∃ t, step { tables 24000 8 with program := [12, 0, 10] } = .next t ∧
    (claimed t 4 && claimed t 5 && (t.chan 0).initialized && t.host.clockConfigured && t.trace.length == 2) = true :=
  next_exists (by decide +kernel)

end Sys2Proof.Tests
end

/-!
PROOFS. What every step keeps (O59, O60): each is a relation between the states before and after that is reflexive,
transitive and kept by every elementary change, so `step_keeps` carries it to every step.
-/

namespace Sys2Proof.Machine

/-! ## The trace accounts for the latch (R11, R46) -/

theorem replay_append (out : Word) (events events' : List Event) :
    replay out (events ++ events') = replay (replay out events) events' := List.foldl_append ..

/-- A change that emits nothing and leaves the latch. -/
theorem Accounted.of_silent {s t : State} (ht : t.trace = s.trace) (hg : t.gpio.out = s.gpio.out) : Accounted s t :=
  ⟨[], by rw [ht, List.append_nil], hg⟩

/-- A change that emits one event, which says what happens to the latch. -/
theorem Accounted.of_event {s t : State} (e : Event) (ht : t.trace = s.trace ++ [e])
    (hg : t.gpio.out = latchAfterEvent s.gpio.out e) : Accounted s t :=
  ⟨[e], ht, hg⟩

theorem Accounted.refl (s : State) : Accounted s s := .of_silent rfl rfl

theorem Accounted.trans {s t u : State} (h : Accounted s t) (h' : Accounted t u) : Accounted s u := by
  obtain ⟨events, htrace, hout⟩ := h
  obtain ⟨events', htrace', hout'⟩ := h'
  exact ⟨events ++ events', by rw [htrace', htrace, List.append_assoc], by rw [hout', hout, replay_append]⟩

/-- Every elementary change emits at most one event; the latch changes with the GPIO writes alone. -/
theorem Change.accounted {s t : State} (h : Change s t) : Accounted s t := by
  cases h with
  | mask | foreignMask | inFlightMask | hostGpio => exact .of_event (.gpioWrite ..) rfl rfl
  | push | foreignPush | inFlightPush => exact .of_event (.fifoWrite _) rfl rfl
  | tick => exact .of_event .paceTick rfl rfl
  | event => exact .of_event (.regWrite ..) rfl rfl
  | agenda | program | env | landing | thread => exact .of_silent rfl rfl
  | load | latch | stop | reset | clrdbg | setcb | start => exact .of_silent rfl rfl
  | drawn | pwm | clk | fsel => exact .of_silent rfl rfl
  | foreignWord | word | clear => exact .of_silent rfl rfl
  | answer | mapped | clock | claim | layout | initialized => exact .of_silent rfl rfl

/-- Settles O59: every elementary change of a step is accounted for, and accounts compose. -/
theorem traceAccountsForTheLatch : Obligations.TraceAccountsForTheLatch := fun s _ h =>
  step_keeps (Inv := Accounted s) (fun _ _ hc hs => hs.trans hc.accounted) h (.refl s)

/-! ## What the host's context never gives back (R6, R38, R39, R40, R209) -/

/-- What `s` has recorded of claims, windows, the clock and the channels, and its parameters, stand in `t`. -/
structure HostKept (s t : State) : Prop where
  claims : ∀ p, claimed s p = true → claimed t p = true
  windows : s.host.windowsMapped = true → t.host.windowsMapped = true
  clock : s.host.clockConfigured = true → t.host.clockConfigured = true ∧ t.host.incrementUs = s.host.incrementUs
  records : ∀ c, (s.chan c).initialized = true → t.chan c = s.chan c
  board : t.board = s.board

/-- The host's context but for its last answer is as it was. -/
theorem HostKept.of_host {s t : State} (hh : ∃ r, t.host = { s.host with result := r }) (hb : t.board = s.board) :
    HostKept s t := by
  obtain ⟨r, hr⟩ := hh
  have hclaims (p : Pin) : claimed t p = claimed s p := by unfold claimed; rw [hr]
  have hrecords (c : Chan) : t.chan c = s.chan c := by unfold State.chan; rw [hr]
  exact ⟨fun p h => by rw [hclaims, h], fun h => by rw [hr, ← h], fun h => by rw [hr]; exact ⟨h, rfl⟩,
    fun c _ => hrecords c, hb⟩

theorem HostKept.refl (s : State) : HostKept s s := .of_host ⟨s.host.result, rfl⟩ rfl

theorem HostKept.trans {s t u : State} (h : HostKept s t) (h' : HostKept t u) : HostKept s u where
  claims p hp := h'.claims p (h.claims p hp)
  windows hw := h'.windows (h.windows hw)
  clock hc := by
    obtain ⟨hconf, hinc⟩ := h.clock hc
    obtain ⟨hconf', hinc'⟩ := h'.clock hconf
    exact ⟨hconf', hinc'.trans hinc⟩
  records c hi := by
    have heq := h.records c hi
    exact (h'.records c (by rw [heq]; exact hi)).trans heq
  board := h'.board.trans h.board

/-- A claim adds a pin to those claimed (R39). -/
theorem claimed_markClaimed {s : State} {p : Pin} (q : Pin) (h : claimed s p = true) :
    claimed (markClaimed q s) p = true := by
  unfold claimed at h ⊢
  rw [markClaimed_gpioSetup, BitVec.getLsbD_or, h, Bool.true_or]

/-- A channel that is initialized already has what initializing it records. -/
theorem chan_markInitialized_of_initialized {s : State} {d : Chan} (c : Chan) (h : (s.chan d).initialized = true) :
    (markInitialized c s).chan d = s.chan d := by
  rw [chan_markInitialized]
  split
  · next hcd => subst hcd; rw [← h]
  · rfl

/-- Laying out a channel that is not initialized spares the ones that are. -/
theorem chan_setChan_of_initialized {s : State} {c d : Chan} (r : ChanRec) (hc : (s.chan c).initialized = false)
    (hd : (s.chan d).initialized = true) : (s.setChan c r).chan d = s.chan d := by
  have hcd : c ≠ d := fun hcd => by rw [hcd, hd] at hc; cases hc
  rw [chan_setChan, if_neg hcd]

/-- The five changes that record something in the host's context give nothing back; the others leave it. -/
theorem Change.hostKept {s t : State} (h : Change s t) : HostKept s t := by
  cases h with
  | mapped => exact ⟨fun _ h => h, fun _ => rfl, fun h => ⟨h, rfl⟩, fun _ _ => rfl, rfl⟩
  | claim p => exact ⟨fun _ h => claimed_markClaimed p h, fun h => h, fun h => ⟨h, rfl⟩, fun _ _ => rfl, rfl⟩
  | clock inc hfirst =>
    exact ⟨fun _ h => h, fun h => h, fun h => absurd h (by simp [hfirst]), fun _ _ => rfl, rfl⟩
  | layout c _ _ _ _ hnew =>
    exact ⟨fun _ h => h, fun h => h, fun h => ⟨h, rfl⟩, fun _ h => chan_setChan_of_initialized _ hnew h, rfl⟩
  | initialized c =>
    exact ⟨fun _ h => h, fun h => h, fun h => ⟨h, rfl⟩, fun _ h => chan_markInitialized_of_initialized c h, rfl⟩
  | answer r => exact .of_host ⟨r, rfl⟩ rfl
  | agenda | program | env | landing | thread => exact .of_host ⟨_, rfl⟩ rfl
  | load | latch | mask | push | stop | tick => exact .of_host ⟨_, rfl⟩ rfl
  | foreignMask | foreignPush | foreignWord => exact .of_host ⟨_, rfl⟩ rfl
  | event | inFlightMask | inFlightPush | reset | clrdbg | setcb | start => exact .of_host ⟨_, rfl⟩ rfl
  | drawn | pwm | clk | fsel | hostGpio | word | clear => exact .of_host ⟨_, rfl⟩ rfl

/-- Settles O60: every elementary change of a step gives nothing back, and so does a run of them. -/
theorem hostContextOnlyGrows : Obligations.HostContextOnlyGrows := fun s _ h => by
  obtain ⟨hclaims, hwindows, hclock, hrecords, hboard⟩ :=
    step_keeps (Inv := HostKept s) (fun _ _ hc hs => hs.trans hc.hostKept) h (.refl s)
  exact ⟨hclaims, hwindows, hclock, hrecords, hboard⟩

end Sys2Proof.Machine

/-!
PROOFS. Host operations among the turns of engines and pacer (O50). An instruction that makes no access between turns does
not read the agenda; one that does is a list of accesses, compared with the same list run alone (`runActions_agrees`).
-/

namespace Sys2Proof.Machine

/-! ## Instructions that take no turn: the agenda is not read -/

theorem HostAgrees.withAgenda (s : State) (a : List Turn) : HostAgrees { s with agenda := a } s :=
  ⟨rfl, rfl, rfl, rfl, rfl, rfl, rfl, rfl, rfl, rfl, rfl, rfl⟩

/-- `f` does the same whatever the agenda holds. -/
def IgnoresAgenda (f : State → Outcome) : Prop :=
  ∀ s t a, f s = .next t → f { s with agenda := a } = .next { t with agenda := a }

theorem fetchHalf_ignoresAgenda (c : Chan) (b : ControlBlock) (ok : Bool) : IgnoresAgenda (fetchHalf c b ok) := by
  intro s t a h
  unfold fetchHalf at h ⊢
  split at h
  · next hok => cases h; rw [if_pos hok]; rfl
  · cases h

theorem readHalf_ignoresAgenda (c : Chan) (src : Word) : IgnoresAgenda (readHalf c src) := by
  intro s t a h
  unfold readHalf busRead at h ⊢
  split at h
  · next hr =>
    have hr' : busReadable { s with agenda := a } src = true := hr
    cases h; rw [if_pos hr']; rfl
  · cases h

theorem busWrite_ignoresAgenda (c : Chan) (ba v : Word) : IgnoresAgenda (busWrite c ba v) := by
  intro s t a h
  unfold busWrite fifoPush at h ⊢
  dsimp only
  split_ifs at h ⊢ <;> cases h <;> rfl

theorem writeHalf_ignoresAgenda (c : Chan) (dst next : Word) : IgnoresAgenda (writeHalf c dst next) := by
  intro s t a h
  obtain ⟨u, hu, ht⟩ := andThen_eq_next.mp h
  cases ht
  exact andThen_eq_next.mpr ⟨_, busWrite_ignoresAgenda c dst _ s u a hu, rfl⟩

theorem execCba_ignoresAgenda (c : Chan) (src : Word) (dst : GpioReg) (next : Word) :
    IgnoresAgenda (execCba c src dst next) := by
  intro s t a h
  unfold execCba at h ⊢
  rw [eng_withAgenda]
  split at h
  · next hr =>
    rw [if_pos hr]
    cases hp : (s.eng c).phase <;> simp only [hp] at h ⊢
    case idle => cases h; rfl
    case fetch => exact fetchHalf_ignoresAgenda c _ _ s t a h
    case exec => exact readHalf_ignoresAgenda c src s t a h
    case write => exact writeHalf_ignoresAgenda c _ next s t a h
  · next hr => cases h; rw [if_neg hr]

theorem execCbb_ignoresAgenda (c : Chan) (src next : Word) : IgnoresAgenda (execCbb c src next) := by
  intro s t a h
  unfold execCbb at h ⊢
  rw [eng_withAgenda]
  split at h
  · next hr =>
    rw [if_pos hr]
    cases hp : (s.eng c).phase <;> simp only [hp] at h ⊢
    case idle => cases h; rfl
    case fetch => exact fetchHalf_ignoresAgenda c _ _ s t a h
    case exec => exact readHalf_ignoresAgenda c src s t a h
    case write =>
      have hdreq : dreq { s with agenda := a } = dreq s := rfl
      rw [hdreq]
      split at h
      · next hd => rw [if_pos hd]; exact writeHalf_ignoresAgenda c _ next s t a h
      · next hd => rw [if_neg hd]; cases h; rfl
  · next hr => cases h; rw [if_neg hr]

theorem execCbx_ignoresAgenda (c : Chan) (raw : ControlBlock) : IgnoresAgenda (execCbx c raw) := by
  intro s t a h
  unfold execCbx at h ⊢
  rw [eng_withAgenda]
  split at h
  · next hr =>
    rw [if_pos hr]
    cases hp : (s.eng c).phase <;> simp only [hp] at h ⊢
    case idle => cases h; rfl
    case fetch =>
      split at h
      · next h0 => rw [if_pos h0]; cases h; rfl
      · cases h
    case exec => cases h
    case write => cases h
  · next hr => cases h; rw [if_neg hr]

theorem execGpioFselRd_ignoresAgenda (n : Fin 4) : IgnoresAgenda (execGpioFselRd n) := by
  intro s t a h
  unfold execGpioFselRd throughWindow at h ⊢
  split at h
  · next hm => rw [if_pos hm]; cases h; rfl
  · cases h

/-! ## Running alone -/

/-- Where `f` answers a next state, it answers one with an empty agenda too, and the host can tell no difference. -/
def AgreesAlone (f : State → Outcome) (s : State) : Prop :=
  ∀ t, f s = .next t → ∃ u, f { s with agenda := [] } = .next u ∧ HostAgrees u t

theorem IgnoresAgenda.agreesAlone {f : State → Outcome} (hf : IgnoresAgenda f) (s : State) : AgreesAlone f s :=
  fun t h => ⟨_, hf s t [] h, .withAgenda t []⟩

/-- DMA_SETCB is admitted where it lands later, or where the engine is not active (R162). -/
theorem command_dmaSetcb_admitted {c : Chan} {a : Word} {s t : State} (h : command (.dmaSetcb c a) s = .next t) :
    s.board.visibility = .buffered ∨ (s.eng c).cs.active = false := by
  unfold command throughWindow at h
  split at h
  · obtain ⟨u, hu, -⟩ := andThen_eq_next.mp h
    cases hv : s.board.visibility with
    | buffered => exact .inl rfl
    | sc =>
      simp only [issue, hv, land] at hu
      split at hu
      · cases hu
      · next hi => exact .inr (Bool.eq_false_iff.mpr hi)
  · cases h

theorem command_agreesAlone (w : HostWrite) (s : State) : AgreesAlone (command w) s := by
  intro t h
  obtain ⟨u, hu, ha, -⟩ := command_agrees (s := { s with agenda := [] })
    (fun c a e => command_dmaSetcb_admitted (s := s) (e ▸ h)) (.withAgenda s []) h
  exact ⟨u, hu, ha⟩

theorem setHeadTo_agreesAlone (c : Chan) (a : Word) (s : State) : AgreesAlone (setHeadTo c a) s := by
  intro t h
  unfold setHeadTo at h ⊢
  split at h
  · next hal => rw [if_pos hal]; exact command_agreesAlone _ s t h
  · cases h

/-! ## The accesses of a call -/

/-- The access neither writes `CONBLK_AD` nor resets or starts an engine, and asks the environment only where `asks`. -/
def Action.plain (asks : Bool) : Action → Bool
  | .write (.dmaReset _) | .write (.dmaSetcb _ _) | .write (.dmaStart _) | .setHead _ => false
  | .mapWindow _ | .makeRegion | .resolvePage _ => asks
  | _ => true

theorem Action.of_plain {asks : Bool} {a : Action} (h : a.plain asks = true) :
    (a.writesHead = none ∧ ∀ known, a.stopped known = known) ∧ (a.asks = true → asks = true) := by
  cases a with
  | write w =>
    cases w with
    | dmaReset | dmaSetcb | dmaStart => cases h
    | _ => exact ⟨⟨rfl, fun _ => rfl⟩, nofun⟩
  | setHead => cases h
  | mapWindow | makeRegion | resolvePage => exact ⟨⟨rfl, fun _ => rfl⟩, fun _ => h⟩
  | _ => exact ⟨⟨rfl, fun _ => rfl⟩, nofun⟩

/-- Every access of the list is plain. -/
abbrev allPlain (asks : Bool) (todo : List Action) : Prop := todo.all (Action.plain asks) = true

theorem allPlain.mem {asks : Bool} {todo : List Action} (h : allPlain asks todo) {a : Action} (ha : a ∈ todo) :
    a.plain asks = true := List.all_eq_true.mp h a ha

theorem allPlain.append {asks : Bool} {todo todo' : List Action} (h : allPlain asks todo) (h' : allPlain asks todo') :
    allPlain asks (todo ++ todo') := by
  unfold allPlain at *
  rw [List.all_append, h, h', Bool.and_self]

theorem allPlain_flatMap {α : Type} {asks : Bool} {f : α → List Action} (h : ∀ x, allPlain asks (f x)) (xs : List α) :
    allPlain asks (xs.flatMap f) := by
  unfold allPlain at *
  rw [List.all_flatMap, List.all_eq_true]
  exact fun x _ => h x

theorem resetsFirst_append_of_plain {asks : Bool} {todo todo' : List Action} {known : Option Chan}
    (h : allPlain asks todo) (h' : resetsFirst known todo') : resetsFirst known (todo ++ todo') :=
  resetsFirst_append (fun _ ha => (Action.of_plain (h.mem ha)).1) h'

theorem allPlain.resetsFirst {asks : Bool} {todo : List Action} (h : allPlain asks todo) (known : Option Chan) :
    resetsFirst known todo := by
  rw [← List.append_nil todo]
  exact resetsFirst_append_of_plain h trivial

theorem allPlain.asks {asks : Bool} {todo : List Action} (h : allPlain asks todo) :
    ∀ a ∈ todo, a.asks = true → asks = true := fun _ ha => (Action.of_plain (h.mem ha)).2

/-! ## The accesses of each operation -/

theorem claimActions_plain (asks : Bool) (p : Pin) : allPlain asks (claimActions p) := rfl

theorem clearActions_plain (asks : Bool) (c : Chan) (p : Pin) (i n : Nat) : allPlain asks (clearActions c p i n) :=
  allPlain_flatMap (fun _ => by rfl) _

theorem pulseActions_plain (asks : Bool) (c : Chan) (p : Pin) (start width maxWidth : Nat) :
    allPlain asks (pulseActions c p start width maxWidth) := by
  have hset : allPlain asks [.readSample c start, .setSample c p start, .retarget c start .set0] := rfl
  refine (hset.append (clearActions_plain ..)).append ?_
  split
  · exact (clearActions_plain ..).append rfl
  · rfl

theorem clockActions_plain (asks : Bool) (b : Board) (inc : Int) : allPlain asks (clockActions b inc) := rfl

/-- Making a region asks the environment (R203). -/
theorem regionActions_plain (n : Nat) : allPlain true (regionActions n) :=
  allPlain.append (todo := [.makeRegion]) rfl (allPlain_flatMap (fun _ => by rfl) _)

theorem chainActions_plain (asks : Bool) (c : Chan) (n : Nat) : allPlain asks (chainActions c n) :=
  allPlain_flatMap (fun _ => by rfl) _

/-- The start sequence resets the engine before it writes `CONBLK_AD` (R207). -/
theorem startActions_resetsFirst (c : Chan) {todo : List Action} (h : resetsFirst none todo) (known : Option Chan) :
    resetsFirst known (startActions c ++ todo) :=
  ⟨fun _ => nofun, fun _ => nofun, fun _ hc => hc, fun _ => nofun, h⟩

theorem startActions_asks {asks : Bool} (c : Chan) : ∀ a ∈ startActions c, a.asks = true → asks = true := by
  simp [startActions, Action.asks]

/-! ## The calls -/

/-- What `runActions_agrees` requires of the accesses of a call. -/
def Call.spared (asks : Bool) : Call → Prop
  | .answer _ | .refuse _ => True
  | .go _ todo => resetsFirst none todo ∧ ∀ a ∈ todo, a.asks = true → asks = true

/-- A call that the host begins among turns that spare it completes alone. -/
theorem runCall_agreesAlone {asks : Bool} {finish : State → Outcome}
    (hf : ∀ s s' t', HostAgrees s s' → finish s' = .next t' → ∃ t, finish s = .next t ∧ HostAgrees t t')
    {call : Call} (hc : call.spared asks) {s : State} (hs : ∀ turn ∈ s.agenda, sparesHost asks turn) :
    AgreesAlone (runCall finish call) s := by
  intro t h
  cases call with
  | answer r => cases h; exact ⟨_, rfl, .withAgenda (s.answer r) []⟩
  | refuse r => cases h
  | go locks todo =>
    obtain ⟨hresets, hasks⟩ := hc
    simp only [runCall] at h ⊢
    split at h
    · next hb =>
      have hb' : mayBegin [] locks { s with agenda := [] } = true := hb
      rw [if_pos hb']
      exact runActions_agrees hf hresets hasks (.withAgenda s []) (fun _ => rfl) rfl hs (fun _ hn => by cases hn) h
    · cases h

theorem next_agrees (s s' t' : State) (h : HostAgrees s s') (ht : (.next s' : Outcome) = .next t') :
    ∃ t, (.next s : Outcome) = .next t ∧ HostAgrees t t' := by
  cases ht; exact ⟨s, rfl, h⟩

theorem succeed_agrees (s s' t' : State) (h : HostAgrees s s') (ht : succeed s' = .next t') :
    ∃ t, succeed s = .next t ∧ HostAgrees t t' := by
  cases ht
  exact ⟨_, rfl, { h with host := by simp only [State.answer, h.host] }⟩

/-- A call all of whose accesses are plain. -/
theorem allPlain.spared {asks : Bool} {todo : List Action} (h : allPlain asks todo) (locks : List Resource) :
    (Call.go locks todo).spared asks := ⟨h.resetsFirst none, h.asks⟩

theorem callSelectOutput_spared (p : Pin) (s : State) : (callSelectOutput p s).spared false := by
  unfold callSelectOutput
  split
  · exact allPlain.spared (by rfl) _
  · trivial

theorem callClaim_spared (gpio : Int) (s : State) : (callClaim gpio s).spared false := by
  unfold callClaim
  split
  · trivial
  · next p _ =>
    split
    · trivial
    · exact (claimActions_plain false p).spared _

theorem callMap_spared (base len : Int) (s : State) : (callMap base len s).spared false := by
  unfold callMap
  split <;> trivial

theorem callConfigureGlobalClock_spared (inc : Int) (s : State) : (callConfigureGlobalClock inc s).spared false := by
  unfold callConfigureGlobalClock
  split
  · exact (clockActions_plain false s.board inc).spared _
  · trivial

theorem callInitialize_spared (inc : Int) (s : State) : (callInitialize inc s).spared true := by
  unfold callInitialize
  split
  · trivial
  · split
    · trivial
    · exact (allPlain.append (by rfl) (clockActions_plain true s.board inc)).spared _

theorem callAllocate_spared (n : Int) (s : State) : (callAllocate n s).spared true :=
  ((regionActions_plain _).append (by rfl)).spared _

theorem callCompile_spared (channel : Int) (s : State) : (callCompile channel s).spared false := by
  unfold callCompile
  split
  · trivial
  · next c _ =>
    split
    · trivial
    · have hchain := chainActions_plain false c (s.chan c).sampleCount
      have hstart := startActions_resetsFirst c (todo := []) trivial none
      rw [List.append_nil] at hstart
      exact ⟨resetsFirst_append_of_plain hchain hstart, List.forall_mem_append.mpr ⟨hchain.asks, startActions_asks c⟩⟩

/-- Bringing a channel up: plain accesses, the start sequence, and the channel's record (R205). -/
theorem bringUpActions_spared (b : Board) (c : Chan) (sub : Int) (n : Nat) (locks : List Resource) :
    (Call.go locks (bringUpActions b c sub n)).spared true := by
  have hplain : allPlain true
      (.mapWindow (windowBase b (.dma c)) :: regionActions (pageCountOf b n) ++ [.recordArena c sub n]
        ++ chainActions c n) :=
    ((allPlain.append (todo := [_]) (by rfl) (regionActions_plain _)).append (by rfl)).append (chainActions_plain true c n)
  have hlast : allPlain true [.recordChannel c] := rfl
  refine ⟨?_, fun _ _ _ => rfl⟩
  unfold bringUpActions
  rw [List.append_assoc _ (startActions c)]
  exact resetsFirst_append_of_plain hplain (startActions_resetsFirst c (hlast.resetsFirst none) none)

theorem callInitChannel_spared (channel sub : Int) (s : State) : (callInitChannel channel sub s).spared true := by
  unfold callInitChannel
  split
  · trivial
  · split
    · trivial
    · split_ifs
      · trivial
      · trivial
      · trivial
      · trivial
      · exact bringUpActions_spared ..

theorem onChannel_spared {asks : Bool} (channel : Int) (s : State) {k : Chan → Call} (h : ∀ c, (k c).spared asks) :
    (onChannel channel s k).spared asks := by
  unfold onChannel
  split
  · trivial
  · next c _ =>
    split
    · exact h c
    · trivial

theorem pulseCall_spared (c : Chan) (gpio start width : Int) (s : State) :
    (pulseCall c gpio start width s).spared false := by
  unfold pulseCall
  split
  · trivial
  · next p _ =>
    have hpulse := pulseActions_plain false c p start.toNat width.toNat (s.chan c).maxWidth
    split_ifs
    · trivial
    · trivial
    · exact hpulse.spared _
    · exact ((claimActions_plain false p).append hpulse).spared _

theorem callClearGpio_spared (channel gpio : Int) (s : State) : (callClearGpio channel gpio s).spared false :=
  onChannel_spared channel s fun c => by
    split
    · trivial
    · split
      · exact ((clearActions_plain ..).append (by rfl)).spared _
      · trivial

/-! ## Every instruction -/

/-- Settles O50: an instruction that makes its accesses between turns is a call of plain accesses, but for the start
sequence, which resets its engine first; the others do not read the agenda. -/
theorem concurrentTurnsLeaveHostWritesAlone : Obligations.ConcurrentTurnsLeaveHostWritesAlone := by
  intro i s t hs
  cases i with
  | cba c src dst next => exact (execCba_ignoresAgenda c src dst next).agreesAlone s t
  | cbb c src next => exact (execCbb_ignoresAgenda c src next).agreesAlone s t
  | cbx c raw => exact (execCbx_ignoresAgenda c raw).agreesAlone s t
  | dmaSetcb c a => exact setHeadTo_agreesAlone c a s t
  | dmaReset | dmaClrdbg | dmaStart => exact command_agreesAlone _ s t
  | pwmOff | clkSrc | clkDiv | clkOn | pwmRng | pwmDmac | pwmClrf | pwmOn => exact command_agreesAlone _ s t
  | gpioSet | gpioClr => exact command_agreesAlone _ s t
  | gpioFselRd n => exact (execGpioFselRd_ignoresAgenda n).agreesAlone s t
  | settle us => exact fun h => ⟨_, rfl, by cases h; exact .withAgenda s []⟩
  | gpioFselOut p => exact runCall_agreesAlone next_agrees (callSelectOutput_spared p s) hs t
  | initEngine inc => exact runCall_agreesAlone succeed_agrees (callInitialize_spared inc s) hs t
  | initChannel channel sub => exact runCall_agreesAlone succeed_agrees (callInitChannel_spared channel sub s) hs t
  | addChannelPulse channel g start w =>
    exact runCall_agreesAlone succeed_agrees (onChannel_spared channel s fun c => pulseCall_spared c g start w s) hs t
  | setChannelPercent channel g p =>
    exact runCall_agreesAlone succeed_agrees (onChannel_spared channel s fun c => pulseCall_spared c g 0 _ s) hs t
  | clearChannelGpio channel g => exact runCall_agreesAlone succeed_agrees (callClearGpio_spared channel g s) hs t
  | map base len => exact runCall_agreesAlone succeed_agrees (callMap_spared base len s) hs t
  | allocate n => exact runCall_agreesAlone succeed_agrees (callAllocate_spared n s) hs t
  | compile channel => exact runCall_agreesAlone succeed_agrees (callCompile_spared channel s) hs t
  | configureGlobalClock inc => exact runCall_agreesAlone succeed_agrees (callConfigureGlobalClock_spared inc s) hs t
  | claim g => exact runCall_agreesAlone succeed_agrees (callClaim_spared g s) hs t

end Sys2Proof.Machine

/-!
PROOFS. The invariants of the state and of the arenas (O56, O57, O58): each holds at process start and is kept by every
elementary change, so `step_keeps` carries it to every step.
-/

namespace Sys2Proof.Machine

/-! ## Phases (R45) -/

theorem DmaEngine.active_of_runs {e : DmaEngine} (h : e.runs = true) : e.cs.active = true := by
  unfold DmaEngine.runs at h
  exact (Bool.and_eq_true_iff.mp h).1

theorem phaseOk_of_active {e : DmaEngine} (ha : e.cs.active = true) (hp : e.phase ≠ .idle) : phaseOk e := by
  simp [phaseOk, ha, hp]

theorem phaseOk_of_inactive {e : DmaEngine} (ha : e.cs.active = false) (hp : e.phase = .idle) : phaseOk e := by
  simp [phaseOk, ha, hp]

/-- What holds of every engine and of the one written holds of every engine after the write. -/
theorem forall_eng_setEng {P : DmaEngine → Prop} {s : State} (c : Chan) {e : DmaEngine} (h : ∀ d, P (s.eng d)) (he : P e)
    (d : Chan) : P ((s.setEng c e).eng d) := by
  rw [eng_setEng]
  split
  · exact he
  · exact h d

theorem phases_setEng {s : State} (c : Chan) {e : DmaEngine} (h : ∀ d, phaseOk (s.eng d)) (he : phaseOk e) (d : Chan) :
    phaseOk ((s.setEng c e).eng d) :=
  forall_eng_setEng c h he d

theorem own_setEng {s : State} (c : Chan) {e : DmaEngine} (h : ∀ d, (s.eng d).foreign = false) (he : e.foreign = false)
    (d : Chan) : ((s.setEng c e).eng d).foreign = false :=
  forall_eng_setEng (P := fun e => e.foreign = false) c h he d

/-- Its write done, a running engine fetches. -/
theorem phases_advance {s : State} {c : Chan} (next : Word) (h : ∀ d, phaseOk (s.eng d)) (hr : (s.eng c).runs = true)
    (d : Chan) : phaseOk ((advance c next s).eng d) :=
  phases_setEng c (e := { s.eng c with conblkAd := next, phase := .fetch }) h
    (phaseOk_of_active (DmaEngine.active_of_runs hr) nofun) d

/-! ## The state stays sound (R45, R140; log 2) -/

/-- A push on request leaves the FIFO at or below the request level (R139, R140). -/
theorem pushed_fifo_le_dreqLevel {s : State} (c : Chan) (h : dreq s = true) :
    (pushed c s).pwm.fifoLevel ≤ s.board.dreqLevel := by
  rw [pushed_fifoLevel]
  exact ((dreq_iff s).mp h).2

/-- A change that writes memory, an engine's phase or the FIFO level writes it soundly; the others leave all three. -/
theorem Change.stateOk {s t : State} (h : Change s t) (hs : StateOk s) : StateOk t := by
  obtain ⟨hlevel, hmem, hphases, hfifo⟩ := hs
  have hpush (c : Chan) (hd : dreq s = true) : (pushed c s).pwm.fifoLevel ≤ s.board.fifoCap :=
    (pushed_fifo_le_dreqLevel c hd).trans hlevel
  cases h with
  | load c b hr hp =>
    exact ⟨hlevel, hmem, phases_setEng c hphases (phaseOk_of_active (DmaEngine.active_of_runs hr) nofun), hfifo⟩
  | latch c w hr hp =>
    exact ⟨hlevel, hmem, phases_setEng c hphases (phaseOk_of_active (DmaEngine.active_of_runs hr) nofun), hfifo⟩
  | mask c reg next hr => exact ⟨hlevel, hmem, phases_advance (s := gpioWrite ..) next hphases hr, hfifo⟩
  | push c next hr _ hd => exact ⟨hlevel, hmem, phases_advance (s := pushed ..) next hphases hr, hpush c hd⟩
  | stop c =>
    exact ⟨hlevel, hmem, phases_setEng c hphases (phaseOk_of_inactive rfl rfl), hfifo⟩
  | reset c => exact ⟨hlevel, hmem, phases_setEng c hphases (phaseOk_of_inactive rfl rfl), hfifo⟩
  | start c => exact ⟨hlevel, hmem, phases_setEng c hphases (phaseOk_of_active rfl nofun), hfifo⟩
  | clrdbg c | setcb c => exact ⟨hlevel, hmem, phases_setEng c hphases (hphases c), hfifo⟩
  | tick => exact ⟨hlevel, hmem, hphases, (Nat.sub_le _ _).trans hfifo⟩
  | inFlightPush c _ _ hd => exact ⟨hlevel, hmem, hphases, hpush c hd⟩
  | foreignPush c _ hroom => exact ⟨hlevel, hmem, hphases, hroom⟩
  | pwm p hp => exact ⟨hlevel, hmem, hphases, by dsimp only; omega⟩
  | foreignWord | word => exact ⟨hlevel, Memory.wf_writeWord hmem _ _, hphases, hfifo⟩
  | clear pages => exact ⟨hlevel, Memory.wf_clearPages hmem pages, hphases, hfifo⟩
  | agenda | program | env | landing | thread => exact ⟨hlevel, hmem, hphases, hfifo⟩
  | foreignMask | inFlightMask | event | drawn | clk | fsel | hostGpio => exact ⟨hlevel, hmem, hphases, hfifo⟩
  | answer | mapped | clock | claim | layout | initialized => exact ⟨hlevel, hmem, hphases, hfifo⟩

/-- No change makes an engine another process's; only such an engine's push passes the request level (R140, R314). -/
theorem Change.paced {s t : State} (h : Change s t) (hs : Paced s) : Paced t := by
  obtain ⟨hown, hfifo⟩ := hs
  have hforeign {c : Chan} (hf : (s.eng c).foreign = true) : False := by simp [hown c] at hf
  cases h with
  | load c | latch c | stop c | clrdbg c | setcb c | start c => exact ⟨own_setEng c hown (hown c), hfifo⟩
  | mask c => exact ⟨own_setEng (s := gpioWrite ..) c hown (hown c), hfifo⟩
  | push c next _ _ hd => exact ⟨own_setEng (s := pushed ..) c hown (hown c), pushed_fifo_le_dreqLevel c hd⟩
  | reset c => exact ⟨own_setEng c hown rfl, hfifo⟩
  | tick => exact ⟨hown, (Nat.sub_le _ _).trans hfifo⟩
  | inFlightPush c _ _ hd => exact ⟨hown, pushed_fifo_le_dreqLevel c hd⟩
  | pwm p hp => exact ⟨hown, by dsimp only; omega⟩
  | foreignMask _ _ _ hf | foreignPush _ hf | foreignWord _ _ _ hf => exact (hforeign hf).elim
  | agenda | program | env | landing | thread => exact ⟨hown, hfifo⟩
  | inFlightMask | event | drawn | clk | fsel | hostGpio | word | clear => exact ⟨hown, hfifo⟩
  | answer | mapped | clock | claim | layout | initialized => exact ⟨hown, hfifo⟩

/-- Settles O56: every elementary change of a step keeps both invariants. -/
theorem stepKeepsTheStateSound : Obligations.StepKeepsTheStateSound := fun _ _ hs h =>
  ⟨step_keeps (fun _ _ => Change.stateOk) h hs, fun hp => step_keeps (fun _ _ => Change.paced) h hp⟩

/-! ## The arenas stay sound and apart (R43, R72, R74, R86, R110, R273) -/

/-- The arenas are a matter of the board and the channel records alone. -/
theorem ArenasOk.of_chan {s t : State} (h : ArenasOk s) (hb : t.board = s.board) (hc : ∀ c, t.chan c = s.chan c) :
    ArenasOk t where
  board := by rw [hb]; exact h.board
  each c := by rw [hb, hc]; exact h.each c
  present c := by rw [hc]; exact h.present c
  apart c d := by rw [hc, hc]; exact h.apart c d

/-- The record `InitChannel` makes lays an arena out over as many exact pages as it needs (R74, R110). -/
theorem arenaOk_layoutOf {s : State} (hb : BoardOk s.board) (c : Chan) (sub : Int) {n : Nat} (base : Nat)
    {pages : List Word} (hn : 1 ≤ n) (hl : pages.length = pageCountOf s.board n) (he : exactPages s pages = true) :
    ArenaOk s.board (layoutOf s.board c sub n base pages) := by
  obtain ⟨hnodup, hpages⟩ := (exactPages_iff s pages).mp he
  exact ⟨hb, fun page hp => (hpages page hp).1, hnodup, rfl, rfl, hn, rfl, rfl, hl⟩

/-- A new arena on pages of no channel is sound and apart from the others (R43, R86). -/
theorem ArenasOk.layout {s : State} (h : ArenasOk s) (c : Chan) (sub : Int) {n : Nat} (base : Nat) {pages : List Word}
    (hn : 1 ≤ n) (hl : pages.length = pageCountOf s.board n) (he : exactPages s pages = true) :
    ArenasOk (s.setChan c (layoutOf s.board c sub n base pages)) := by
  have hfree : ∀ page ∈ pages, ∀ d, page ∉ (s.chan d).pageMap := fun page hp d hd =>
    (((exactPages_iff s pages).mp he).2 page hp).2.1 ⟨d, hd⟩
  refine ⟨h.board, fun d hd => ?_, fun d hd => ?_, fun d d' hne page hp => ?_⟩
  · rw [chan_setChan] at hd ⊢
    split
    · exact arenaOk_layoutOf h.board c sub base hn hl he
    · next hcd => exact h.each d (by rwa [if_neg hcd] at hd)
  · rw [chan_setChan] at hd ⊢
    split at hd
    · cases hd
    · next hcd => rw [if_neg hcd]; exact h.present d hd
  · rw [chan_setChan] at hp ⊢
    split at hp
    · next hcd => subst hcd; rw [if_neg hne]; exact hfree page hp d'
    · split
      · exact fun hp' => hfree page hp' d hp
      · exact h.apart d d' hne page hp

/-- A channel with an arena is initialized (R205 step 12). -/
theorem ArenasOk.afterInitialized {s : State} (h : ArenasOk s) {c : Chan} (hc : (s.chan c).pageMap ≠ []) :
    ArenasOk (markInitialized c s) := by
  have hpages (d : Chan) : ((markInitialized c s).chan d).pageMap = (s.chan d).pageMap := by
    rw [chan_markInitialized]
    split
    · next hcd => rw [hcd]
    · rfl
  refine ⟨h.board, fun d hd => ?_, fun d hd => ?_, fun d d' hne => ?_⟩
  · have hd' := h.each d (by rwa [← hpages])
    rw [chan_markInitialized]
    split
    · next hcd =>
      subst hcd
      exact ⟨hd'.board, hd'.pages, hd'.distinct, hd'.width, hd'.blocks, hd'.nonempty, hd'.offset, hd'.count, hd'.length⟩
    · exact hd'
  · rw [hpages]
    by_cases hcd : c = d
    · exact hcd ▸ hc
    · exact h.present d (by rwa [chan_markInitialized, if_neg hcd] at hd)
  · rw [hpages, hpages]
    exact h.apart d d' hne

/-- Two changes write a channel record, both soundly; no other touches one. -/
theorem Change.arenasOk {s t : State} (h : Change s t) (hs : ArenasOk s) : ArenasOk t := by
  cases h with
  | layout c sub n base pages _ hn hl he => exact hs.layout c sub base hn hl he
  | initialized c hc => exact hs.afterInitialized hc
  | agenda | program | env | landing | thread => exact hs.of_chan rfl fun _ => rfl
  | load | latch | mask | push | stop | tick => exact hs.of_chan rfl fun _ => rfl
  | foreignMask | foreignPush | foreignWord => exact hs.of_chan rfl fun _ => rfl
  | event | inFlightMask | inFlightPush | reset | clrdbg | setcb | start => exact hs.of_chan rfl fun _ => rfl
  | drawn | pwm | clk | fsel | hostGpio | word | clear => exact hs.of_chan rfl fun _ => rfl
  | answer | mapped | clock | claim => exact hs.of_chan rfl fun _ => rfl

/-- Settles O57: every elementary change of a step keeps the arenas sound and apart. -/
theorem stepKeepsTheArenasSound : Obligations.StepKeepsTheArenasSound := fun _ _ hs h =>
  step_keeps (fun _ _ => Change.arenasOk) h hs

/-! ## Process start (R48, R301) -/

theorem eng_reset (c : Chan) : State.reset.eng c = DmaEngine.zero := by
  simp [State.eng, State.reset, Vector.get]

theorem chan_reset (c : Chan) : State.reset.chan c = ChanRec.empty := by
  simp [State.chan, State.reset, HostContext.start, Vector.get]

/-- At process start no channel has an arena, so every arena is sound. -/
theorem arenasOk_reset : ArenasOk State.reset where
  board := Board.default_ok
  each c h := absurd (by rw [chan_reset]; rfl) h
  present c h := by rw [chan_reset] at h; cases h
  apart c d _ page hp := by rw [chan_reset] at hp; cases hp

theorem stateOk_reset : StateOk State.reset where
  level := Board.default_ok.level.2
  memory := rfl
  phases c := by rw [eng_reset]; exact phaseOk_of_inactive rfl rfl
  fifo := Nat.zero_le _

/-- Settles O58: every engine is zero, every channel empty, and the rest as `State.reset` writes it. -/
theorem processStartIsSound : Obligations.ProcessStartIsSound := by
  have hpaced : Paced State.reset := ⟨fun c => by rw [eng_reset]; rfl, Nat.zero_le _⟩
  exact ⟨stateOk_reset, hpaced, arenasOk_reset, rfl, rfl, rfl, rfl, rfl, rfl, rfl,
    fun c => by rw [chan_reset]; exact ⟨rfl, rfl⟩⟩

end Sys2Proof.Machine

/-!
PROOFS. What an engine's steps do (O11, O12, O13, O18, O19) and the pacer's (O14): each meaning at each phase as an
equation, and what one turn of an engine may change.
-/

namespace Sys2Proof.Machine

/-! ## A block's meaning by phase (R45, R130) -/

theorem exec_cba_exec {s : State} {c : Chan} (hr : (s.eng c).runs = true) (hp : (s.eng c).phase = .exec) (src : Word)
    (dst : GpioReg) (next : Word) : exec (.cba c src dst next) s = readHalf c src s := by
  simp only [exec, execCba, hr, hp, if_true]

theorem exec_cbb_exec {s : State} {c : Chan} (hr : (s.eng c).runs = true) (hp : (s.eng c).phase = .exec)
    (src next : Word) : exec (.cbb c src next) s = readHalf c src s := by
  simp only [exec, execCbb, hr, hp, if_true]

theorem exec_cba_write {s : State} {c : Chan} (hr : (s.eng c).runs = true) (hp : (s.eng c).phase = .write) (src : Word)
    (dst : GpioReg) (next : Word) : exec (.cba c src dst next) s = writeHalf c (dst.busAddress s.board) next s := by
  simp only [exec, execCba, hr, hp, if_true]

theorem exec_cbb_write {s : State} {c : Chan} (hr : (s.eng c).runs = true) (hp : (s.eng c).phase = .write)
    (src next : Word) :
    exec (.cbb c src next) s = if dreq s then writeHalf c s.board.fifo next s else .next s := by
  simp only [exec, execCbb, hr, hp, if_true]

theorem exec_cbx_write {s : State} {c : Chan} (hr : (s.eng c).runs = true) (hp : (s.eng c).phase = .write)
    (raw : ControlBlock) : exec (.cbx c raw) s = .refused (.notAdmitted c) := by
  simp only [exec, execCbx, hr, hp, if_true]

/-! ## EXEC (R132, R133) -/

/-- The read of an aligned word of a sound arena goes through, into the latch (R73). -/
theorem readHalf_arena {s : State} {c : Chan} {off : Nat} {src : Word} (h : ArenaOk s.board (s.chan c))
    (hsrc : phys s.board (s.chan c) off = some src) (ha : off % 4 = 0) :
    readHalf c src s = .next (s.setEng c { s.eng c with data := busWord s src, phase := .write }) := by
  unfold readHalf busRead
  rw [if_pos (busReadable_of_phys h hsrc ha)]

/-- Settles O11: both forms read their source the same way, and a sound arena's words are readable. -/
theorem execReadsTheSourceWord : Obligations.ExecReadsTheSourceWord := by
  intro s c off src harena hsrc ha hr hp
  exact ⟨fun dst next => (exec_cba_exec hr hp src dst next).trans (readHalf_arena harena hsrc ha),
    fun next => (exec_cbb_exec hr hp src next).trans (readHalf_arena harena hsrc ha)⟩

/-! ## WRITE (R34, R35, R44, R132, R133, R135) -/

/-- Settles O12: on a sound board the register's address is that register's. -/
theorem cbaWritesTheLatch : Obligations.CbaWritesTheLatch := by
  intro s c src next dst hb hr hp
  rw [exec_cba_write hr hp, writeHalf_gpio c dst next hb.registers]
  cases dst <;> rfl

/-- Settles O13: the block pushes exactly on request. -/
theorem cbbPushesOrHolds : Obligations.CbbPushesOrHolds := by
  intro s c src next hb hr hp
  rw [exec_cbb_write hr hp, ← dreq_iff]
  refine ⟨fun hd => ?_, fun hd => if_neg hd⟩
  rw [if_pos hd, writeHalf_fifo hb next hd]
  rfl

/-! ## The pacer (R44, R138) -/

theorem pacerRunning_iff (s : State) :
    pacerRunning s = true ↔ pwen1 s = true ∧ usef1 s = true ∧ s.clk.enab = true := by
  simp only [pacerRunning, Bool.and_eq_true, and_assoc]

/-- A tick takes one word off a FIFO that has one. -/
theorem paceTick_eq (s : State) : paceTick s = { s with
    pwm := { s.pwm with fifoLevel := if s.pwm.fifoLevel > 0 then s.pwm.fifoLevel - 1 else 0 }
    trace := s.trace ++ [.paceTick] } := by
  have hlevel : (if s.pwm.fifoLevel > 0 then s.pwm.fifoLevel - 1 else 0) = s.pwm.fifoLevel - 1 := by split <;> omega
  rw [hlevel]
  rfl

/-- Settles O14: a pacer turn ticks exactly when the pacer runs. -/
theorem pacerTicksExactlyWhenRunning : Obligations.PacerTicksExactlyWhenRunning := by
  intro s turns hs
  have hrun : pacerRunning { s with agenda := turns } = pacerRunning s := rfl
  rw [step_pacer hs, paceTurn, hrun, ← pacerRunning_iff]
  refine ⟨fun h => ?_, fun h => by rw [if_neg h]⟩
  rw [if_pos h, paceTick_eq]

/-! ## What one turn of an engine may change (R25, R73, R146) -/

/-- A turn of engine `c` that ran from `s` to `t` left everything but the engine itself, the latch, the FIFO level and the
trace; and these grew by at most one write of its own, of the word in its latch. -/
structure EngineFrame (c : Chan) (s t : State) : Prop where
  agenda : t.agenda = s.agenda
  mem : t.mem = s.mem
  host : t.host = s.host
  fsel : t.gpio.fsel = s.gpio.fsel
  clk : t.clk = s.clk
  ctl : t.pwm.ctl = s.pwm.ctl
  dmac : t.pwm.dmac = s.pwm.dmac
  rng1 : t.pwm.rng1 = s.pwm.rng1
  program : t.program = s.program
  env : t.env = s.env
  draws : t.draws = s.draws
  board : t.board = s.board
  landing : t.landing = s.landing
  threads : t.threads = s.threads
  others : ∀ d, d ≠ c → t.eng d = s.eng d
  written : (t.trace = s.trace ∧ t.gpio.out = s.gpio.out ∧ t.pwm.fifoLevel = s.pwm.fifoLevel) ∨
    (∃ reg, t.trace = s.trace ++ [.gpioWrite (.dma c) reg (s.eng c).data] ∧
      t.gpio.out = latchAfter reg s.gpio.out (s.eng c).data ∧ t.pwm.fifoLevel = s.pwm.fifoLevel) ∨
    (t.trace = s.trace ++ [.fifoWrite c] ∧ t.gpio.out = s.gpio.out ∧ t.pwm.fifoLevel = s.pwm.fifoLevel + 1)

theorem eng_setEng_other {s : State} {c d : Chan} (e : DmaEngine) (h : d ≠ c) : (s.setEng c e).eng d = s.eng d := by
  rw [eng_setEng, if_neg h.symm]

/-- Writing the engine's own registers keeps the frame. -/
theorem EngineFrame.setEng {c : Chan} {s u : State} (h : EngineFrame c s u) (e : DmaEngine) :
    EngineFrame c s (u.setEng c e) :=
  { h with others := fun d hd => (eng_setEng_other e hd).trans (h.others d hd) }

theorem EngineFrame.refl (c : Chan) (s : State) : EngineFrame c s s :=
  ⟨rfl, rfl, rfl, rfl, rfl, rfl, rfl, rfl, rfl, rfl, rfl, rfl, rfl, rfl, fun _ _ => rfl, .inl ⟨rfl, rfl, rfl⟩⟩

theorem EngineFrame.gpioWrite (c : Chan) (reg : GpioReg) (s : State) :
    EngineFrame c s (gpioWrite (.dma c) reg (s.eng c).data s) :=
  { EngineFrame.refl c s with written := .inr (.inl ⟨reg, rfl, rfl, rfl⟩) }

theorem EngineFrame.pushed (c : Chan) (s : State) : EngineFrame c s (pushed c s) :=
  { EngineFrame.refl c s with written := .inr (.inr ⟨rfl, rfl, rfl⟩) }

/-- Everything an engine's turn can do stays in its frame. -/
theorem EngineDid.frame {c : Chan} {s t : State} (h : EngineDid c s t) : EngineFrame c s t := by
  cases h with
  | nothing => exact .refl c s
  | load | stop | latch => exact (EngineFrame.refl c s).setEng _
  | mask | fifoIsGpio => exact (EngineFrame.gpioWrite c _ s).setEng _
  | push => exact (EngineFrame.pushed c s).setEng _

/-- Settles O18: the step is the engine's turn with the turn taken off the agenda, and the turn keeps its frame. -/
theorem engineStepsWriteNoMemory : Obligations.EngineStepsWriteNoMemory := by
  intro s t c turns hs h
  rw [step_engine hs] at h
  obtain ⟨hagenda, hmem, hhost, hfsel, hclk, hctl, hdmac, hrng1, hprogram, henv, hdraws, hboard, hlanding, hthreads,
    hothers, hwritten⟩ := (engineTurn_did h).frame
  exact ⟨hagenda, hmem, hhost, hfsel, hclk, hctl, hdmac, hrng1, hprogram, henv, hdraws, hboard, hlanding, hthreads,
    hothers, hwritten⟩

/-! ## A loaded block's write does not read memory (R45, R84, R242) -/

/-- `f` does the same whatever memory holds. -/
def IgnoresMemory (f : State → Outcome) : Prop :=
  ∀ s t m, f s = .next t → f { s with mem := m } = .next { t with mem := m }

theorem busWrite_ignoresMemory (c : Chan) (ba v : Word) : IgnoresMemory (busWrite c ba v) := by
  intro s t m h
  unfold busWrite fifoPush at h ⊢
  dsimp only
  split_ifs at h ⊢ <;> cases h <;> rfl

theorem writeHalf_ignoresMemory (c : Chan) (dst next : Word) : IgnoresMemory (writeHalf c dst next) := by
  intro s t m h
  obtain ⟨u, hu, ht⟩ := andThen_eq_next.mp h
  cases ht
  exact andThen_eq_next.mpr ⟨_, busWrite_ignoresMemory c dst _ s u m hu, rfl⟩

/-- The WRITE turn of an engine reads its registers, not memory. -/
theorem engineTurn_write_withMem {c : Chan} {s t : State} (hp : (s.eng c).phase = .write) (h : engineTurn c s = .next t)
    (m : Memory) : engineTurn c { s with mem := m } = .next { t with mem := m } := by
  by_cases hr : (s.eng c).runs = true
  swap
  · have hr' := Bool.eq_false_iff.mpr hr
    rw [engineTurn_inactive hr'] at h
    cases h
    exact engineTurn_inactive (s := { s with mem := m }) hr'
  have hfetch : (s.eng c).phase ≠ .fetch := by rw [hp]; decide
  rw [engineTurn_loaded hr hfetch] at h
  rw [engineTurn_loaded (s := { s with mem := m }) hr hfetch, eng_withMem]
  generalize recognise s.board (s.eng c).loaded = blk at h ⊢
  cases blk with
  | formA src dst next =>
    rw [Block.toInstr] at h ⊢
    rw [exec_cba_write hr hp] at h
    rw [exec_cba_write (s := { s with mem := m }) hr hp]
    exact writeHalf_ignoresMemory c _ next s t m h
  | formB src next =>
    have hdreq : dreq { s with mem := m } = dreq s := rfl
    rw [Block.toInstr] at h ⊢
    rw [exec_cbb_write hr hp] at h
    rw [exec_cbb_write (s := { s with mem := m }) hr hp, hdreq]
    split at h
    · next hd => rw [if_pos hd]; exact writeHalf_ignoresMemory c _ next s t m h
    · next hd => rw [if_neg hd]; cases h; rfl
  | formX raw =>
    rw [Block.toInstr] at h
    rw [exec_cbx_write hr hp] at h
    cases h

/-- Settles O19: the step is the engine's turn, and the turn is a WRITE. -/
theorem loadedWriteIgnoresMemory : Obligations.LoadedWriteIgnoresMemory := by
  intro s t c turns m hs hp h
  rw [step_engine hs] at h
  rw [step_engine (s := { s with mem := m }) hs]
  exact engineTurn_write_withMem (s := { s with agenda := turns }) hp h m

end Sys2Proof.Machine

/-!
PROOFS. The register commands (O23, O24, O26, O28, O29, O32): where the windows are mapped and writes land at once, a
command is what its write does where it lands (`command_eq`).
-/

namespace Sys2Proof.Machine

/-! ## DMA channel commands (R160, R161, R163) -/

/-- What the write in flight comes to when a reset arrives: nothing, or what the engine's WRITE step would have written. -/
theorem resolveInFlight_cases (c : Chan) (s : State) :
    resolveInFlight c s = s ∨ ((s.eng c).runs = true ∧ (s.eng c).phase = .write ∧
      ((∃ src dst next, recognise s.board (s.eng c).loaded = .formA src dst next ∧
          resolveInFlight c s = gpioWrite (.dma c) dst (s.eng c).data s) ∨
       (∃ src next, recognise s.board (s.eng c).loaded = .formB src next ∧ dreq s = true ∧
          resolveInFlight c s = pushed c s))) := by
  unfold resolveInFlight
  split
  · next hw =>
    simp only [Bool.and_eq_true, decide_eq_true_eq] at hw
    obtain ⟨⟨hr, hp⟩, -⟩ := hw
    unfold inFlightWrite
    split
    · next src dst next hform => exact .inr ⟨hr, hp, .inl ⟨src, dst, next, hform, rfl⟩⟩
    · next src next hform =>
      split
      · next hd => exact .inr ⟨hr, hp, .inr ⟨src, next, hform, hd, rfl⟩⟩
      · exact .inl rfl
    · exact .inl rfl
  · exact .inl rfl

/-- Settles O23: the write in flight is resolved one way or the other, then every register of the engine is written. -/
theorem dmaResetIdlesTheEngine : Obligations.DmaResetIdlesTheEngine := by
  refine ⟨fun s c hw hv => ?_, rfl, rfl⟩
  exact ⟨resolveInFlight c s, Config.freeDebug (resolveInFlight c s).draws, Config.freeLatch (resolveInFlight c s).draws,
    resolveInFlight_cases c s, command_eq hv hw (.dmaReset c)⟩

/-- Settles O24: each of the two writes lands on the engine alone. -/
theorem clearDebugAndStartWriteTheEngine : Obligations.ClearDebugAndStartWriteTheEngine := by
  refine ⟨fun s c hw hv => ⟨⟨_, command_eq hv hw (.dmaClrdbg c), ?_, rfl⟩, command_eq hv hw (.dmaStart c)⟩,
    rfl, rfl, rfl, rfl, rfl⟩
  have heng : ((clearDebug c s).eng c).error = false := by simp [clearDebug, DmaEngine.error]
  exact heng

/-! ## PWM and clock commands (R164 to R171) -/

/-- With the PWM enabled for its FIFO, the pacer runs exactly if the clock does (R138, R171). -/
theorem pacerRunning_of_pwmOn {s : State} (hb : RegistersOk s.board) (h : s.pwm.ctl = s.board.regs.pwmOn) :
    pacerRunning s = s.clk.enab := by
  obtain ⟨hpwen, husef⟩ := hb.enabled
  simp only [pacerRunning, pwen1, usef1, h, hpwen, husef, Bool.true_and]

/-- Settles O26: each command is its one write, which lands on the register it names. -/
theorem pwmAndClockCommandsWriteTheirRegisters : Obligations.PwmAndClockCommandsWriteTheirRegisters := by
  refine ⟨fun s hw hv => ?_, ⟨rfl, rfl, rfl, rfl, rfl⟩, ⟨rfl, rfl, rfl, rfl⟩, rfl, rfl, rfl, rfl⟩
  have lands := command_eq hv hw
  refine ⟨lands .pwmOff, fun v => lands (.pwmRng v), lands .pwmDmac, lands .pwmClrf, ?_, lands .clkSrc, lands .clkDiv,
    lands .clkOn⟩
  exact ⟨_, lands .pwmOn, fun hb => pacerRunning_of_pwmOn hb rfl, rfl⟩

/-! ## Reads and delays (R175, R176) -/

/-- Settles O32: a read of a function-select register draws the bits that are no pin's and changes nothing else. -/
theorem readsAndDelaysChangeNothing : Obligations.ReadsAndDelaysChangeNothing := by
  refine ⟨fun s => ⟨fun hb hw hv n => ?_, fun us => rfl⟩, rfl⟩
  have hread : exec (.gpioFselRd n) s = .next (s.answer (.word (selectRead s (n.castLE (by omega))))).drawn := by
    simp only [exec, execGpioFselRd, throughWindow, hw, if_true]
  refine ⟨_, hread, fun bit hbit => ?_⟩
  rw [selectRead_bit hb hv _ hbit, ← fsel_toList]
  rfl

/-! ## The PCM window (R37, R177) -/

theorem registerWord_pcm_toNat {off tag : Nat} (h : off + tag < 65536) :
    (registerWord .pcm off tag).toNat = 4 * 65536 + off + tag := by
  simp only [registerWord, Window.code, BitVec.toNat_ofNat]
  omega

/-- The PCM window has no command, whatever the kind of access. -/
theorem decodeCommand_pcm (b : Board) (v : Word) {t : Word} (h : t.toNat / 65536 = 4) :
    decodeCommand b v t = .error (.noSuchRegister t) := by
  have hsettle : t.toNat ≠ tagSettle := by unfold tagSettle; omega
  have hwindow : windowOf 4 = some .pcm := rfl
  unfold decodeCommand
  rw [if_neg hsettle, h, hwindow]
  dsimp only
  split
  · rfl
  · split
    · rfl
    · split <;> rfl

/-- Settles O28: a register word of the PCM window names window 4, and is not the zero word of a call. -/
theorem pcmAccessesHaveNoInstruction : Obligations.PcmAccessesHaveNoInstruction := by
  intro b v off tag rest h
  have hnat := registerWord_pcm_toNat h
  have hcall : registerWord .pcm off tag ≠ 0 := fun h0 => by
    have hzero : (registerWord .pcm off tag).toNat = 0 := by rw [h0]; rfl
    omega
  have hcommand := decodeCommand_pcm b v (t := registerWord .pcm off tag) (by omega)
  refine ⟨.noSuchRegister (registerWord .pcm off tag), ?_⟩
  rw [decode, decodeHostWords, if_neg hcall, hcommand]

/-! ## GPIO_FSEL_OUT (R172) -/

/-- The state after pin `p` is made an output, `w` being the function-select word written (R172). -/
def selectedState (p : Pin) (w : Word) (s : State) : State :=
  { s with
    gpio := { s.gpio with fsel := s.gpio.fsel.set (fselOf s.board p).val w (fselOf s.board p).isLt }
    trace := s.trace ++ [.regWrite .gpio (s.board.regs.gpioFsel + 4 * (p.val / s.board.regs.fselPins)) w]
    draws := s.draws + 1 }

/-- GPIO_FSEL_OUT run alone reads the pin's register and writes it back with the pin an output. -/
theorem exec_gpioFselOut {s : State} (hb : RegistersOk s.board) (hw : s.host.windowsMapped = true)
    (hq : Quiet [.functionSelects] s) (p : Pin) :
    exec (.gpioFselOut p) s = .next (selectedState p (claimWord p s) s) := by
  have hcall : callSelectOutput p s = .go [.functionSelects] (selectActions p) := if_pos hw
  have hstate : (s.drawn.setFsel (fselOf s.board p) (claimWord p s)).emit
      (.regWrite .gpio (fselOff s.board (fselOf s.board p).val) (claimWord p s)) =
        selectedState p (claimWord p s) s := by
    rw [fselOf_val hb]
    rfl
  change runCall _ (callSelectOutput p s) s = _
  rw [hcall, runCall_go hq.free, (selectActions_leads hq.agenda hq.direct hw p Scratch.empty).finish, hstate]

theorem selectedState_fsel_toList {s : State} (hb : RegistersOk s.board) (p : Pin) (w : Word) :
    (selectedState p w s).gpio.fsel.toList = s.gpio.fsel.toList.set (p.val / s.board.regs.fselPins) w := by
  rw [← fselOf_val hb]
  exact Vector.toList_set (fselOf s.board p).isLt

/-- Settles O29: the word written has the pin's field an output and the other pins' as they were. -/
theorem fselOutSelectsOnePin : Obligations.FselOutSelectsOnePin := by
  refine ⟨fun s p hb hw hq => ?_, rfl, rfl, rfl, rfl⟩
  have hselects := claimWord_selects hb hq.direct p
  obtain ⟨hout, hothers⟩ := fselField_selected (t := selectedState p (claimWord p s) s) hb hselects rfl rfl
  refine ⟨selectedState p (claimWord p s) s, claimWord p s, exec_gpioFselOut hb hw hq p, rfl,
    selectedState_fsel_toList hb p _, ?_, hothers, hout, if_pos hout⟩
  rw [← fselOf_val hb, fsel_toList]
  exact hselects

end Sys2Proof.Machine

/-!
PROOFS. `compile` on a sound arena (O38): the chain's field writes, then the start sequence.
-/

namespace Sys2Proof.Machine

theorem chanIndex_val (c : Chan) : chanIndex (c.val : Int) = some c := by
  have hc : (0 : Int) ≤ c.val ∧ (c.val : Int) < (Config.channelCount : Int) := ⟨by omega, by exact_mod_cast c.isLt⟩
  simp [chanIndex, hc]

/-- A sound arena has a page. -/
theorem ArenaOk.pageMap_ne_nil {b : Board} {ch : ChanRec} (h : ArenaOk b ch) : ch.pageMap ≠ [] := by
  intro hnil
  have hlt := (h.sample_lt (i := 0) h.nonempty).2
  simp [hnil, sampleOffset] at hlt

/-- A sound arena has a head, block-aligned (R74). -/
theorem ArenaOk.head_exists {b : Board} {ch : ChanRec} (h : ArenaOk b ch) :
    ∃ head, blockAddress b ch 0 = some head ∧ head.toNat % b.cbAlign = 0 := by
  have hn := h.nonempty
  obtain ⟨head, hhead, -⟩ := h.phys_exists (h.block_lt (k := 0) (f := 0) (by omega) h.board.positive)
  exact ⟨head, hhead, (h.blockAddress_aligned hhead).1⟩

/-- The state `compile` leaves: the chain in memory, the engine `c` at its head, a write of the engine in flight resolved
before, the start sequence in the trace. -/
def compiledState (c : Chan) (head : Word) (m : Memory) (s : State) : State :=
  State.answer { (resolveInFlight c { s with mem := m }).setEng c
      (startedEngine s.board head (Config.freeLatch s.draws)) with
    draws := s.draws + 1
    trace := (resolveInFlight c { s with mem := m }).trace ++ startEvents s.board c head } .ok

/-- `compile` run alone on a sound arena: its accesses, one list after the other (R206, R207). -/
theorem exec_compile {s : State} {c : Chan} (hq : Quiet [.channel c] s) (hw : s.host.windowsMapped = true)
    (hok : ArenaOk s.board (s.chan c)) {head : Word} (hhead : blockAddress s.board (s.chan c) 0 = some head)
    (halign : head.toNat % s.board.cbAlign = 0) {m : Memory}
    (hchain : Leads (chainActions c (s.chan c).sampleCount) Scratch.empty s Scratch.empty { s with mem := m }) :
    exec (.compile c.val) s = .next (compiledState c head m s) := by
  have hcall : callCompile c.val s =
      .go [.channel c] (chainActions c (s.chan c).sampleCount ++ startActions c) := by
    simp only [callCompile, chanIndex_val, if_neg hok.pageMap_ne_nil]
  have hstart := startActions_leads (s := { s with mem := m }) hq.agenda hq.direct hw hhead halign Scratch.empty
  change runCall _ (callCompile c.val s) s = _
  rw [hcall, runCall_go hq.free, (hchain.append hstart).finish]
  rfl

/-- What `compile` leaves as it was, and where its engine is. -/
theorem compiledState_frame (c : Chan) (head : Word) (m : Memory) (s : State) :
    let t := compiledState c head m s
    t.mem = m ∧ t.eng c = startedEngine s.board head (Config.freeLatch s.draws) ∧ (∀ d, d ≠ c → t.eng d = s.eng d) ∧
    t.host = { s.host with result := .ok } ∧ t.clk = s.clk ∧ t.gpio.fsel = s.gpio.fsel ∧
    t.pwm = { s.pwm with fifoLevel := t.pwm.fifoLevel } ∧ t.env = s.env ∧ t.program = s.program ∧ t.agenda = s.agenda ∧
    t.board = s.board ∧ t.landing = s.landing ∧ t.threads = s.threads := by
  obtain ⟨hdma, hhost, hagenda, -, hmem, hclk, hfsel, henv, hprogram, hboard, hlanding, hthreads, hpwm⟩ :=
    resolveInFlight_keeps c { s with mem := m }
  set u := resolveInFlight c { s with mem := m }
  have heng (d : Chan) : (compiledState c head m s).eng d =
      if c = d then startedEngine s.board head (Config.freeLatch s.draws) else u.eng d := eng_setEng u c d _
  refine ⟨hmem, (heng c).trans (if_pos rfl), fun d hd => ?_, ?_, hclk, hfsel, hpwm, henv, hprogram, hagenda, hboard,
    hlanding, hthreads⟩
  · rw [heng, if_neg hd.symm]
    unfold State.eng
    rw [hdma]
  · change { u.host with result := .ok } = _
    rw [hhost]

/-- A compiled chain is a matter of memory and the board. -/
theorem ChainCompiled.of_mem {s t : State} {ch : ChanRec} (h : ChainCompiled s ch) (hm : t.mem = s.mem)
    (hb : t.board = s.board) : ChainCompiled t ch := by
  have hat (off : Nat) : blockAt t ch off = blockAt s ch off := by
    unfold blockAt arenaWordOf
    rw [hm, hb]
  intro i hi
  obtain ⟨hA, hB⟩ := h i hi
  exact ⟨by rw [hb, hat]; exact hA, by rw [hb, hat]; exact hB⟩

/-- Settles O38: the chain stands in memory where the start sequence begins, and the start sequence leaves memory. -/
theorem compileWritesTheChainAndStarts : Obligations.CompileWritesTheChainAndStarts := by
  intro s c hq hw hok hm
  obtain ⟨head, hhead, halign⟩ := hok.head_exists
  obtain ⟨m, hchain, -, hcompiled, -, hbytes⟩ := chainActions_leads hq.agenda hq.direct hok hm Scratch.empty
  obtain ⟨hmem, heng, hothers, hhost, hclk, hfsel, hpwm, henv, hprogram, hagenda, hboard, hlanding, hthreads⟩ :=
    compiledState_frame c head m s
  refine ⟨compiledState c head m s, head, _, exec_compile hq hw hok hhead halign hchain, hhead,
    hcompiled.of_mem hmem hboard, fun a ha => by rw [hmem]; exact hbytes a ha, heng, hothers, hhost, hclk, hfsel, hpwm,
    henv, hprogram, hagenda.trans hq.agenda, hboard, hlanding, hthreads, fun hnone => ?_⟩
  have hresolved : resolveInFlight c { s with mem := m } = { s with mem := m } := resolveInFlight_none hnone
  unfold compiledState
  rw [hresolved]
  exact ⟨rfl, rfl, rfl⟩

end Sys2Proof.Machine

/-!
PROOFS. The words of control blocks and of the host's calls (O3, O4).
-/

namespace Sys2Proof.Machine

/-- WHAT RECOGNITION ANSWERS: a form whose aligned words the block has, or the block itself (R103, R104, R113). -/
inductive Recognised (b : Board) (blk : ControlBlock) : Block → Prop
  | formA (src : Word) (dst : GpioReg) (next : Word) : blk = cbaWords b src dst next → blockAligned b src next →
      Recognised b blk (.formA src dst next)
  | formB (src next : Word) : blk = cbbWords b src next → blockAligned b src next → Recognised b blk (.formB src next)
  | formX : Recognised b blk (.formX blk)

theorem recognise_recognised (b : Board) (blk : ControlBlock) : Recognised b blk (recognise b blk) := by
  obtain ⟨info, src, dst, length, stride, next⟩ := blk
  unfold recognise
  split
  · next hform =>
    simp only [commonForm, Bool.and_eq_true, decide_eq_true_eq] at hform
    obtain ⟨⟨⟨rfl, rfl⟩, hsrc⟩, hnext⟩ := hform
    dsimp only
    split
    · next hinfo =>
      split
      · next hdst => exact .formA src .clr0 next (by rw [hinfo, hdst]; rfl) ⟨hsrc, hnext⟩
      · split
        · next hdst => exact .formA src .set0 next (by rw [hinfo, hdst]; rfl) ⟨hsrc, hnext⟩
        · exact .formX
    · split
      · next hinfo =>
        split
        · next hdst => exact .formB src next (by rw [hinfo, hdst]; rfl) ⟨hsrc, hnext⟩
        · exact .formX
      · exact .formX
  · exact .formX

theorem recognise_eq_formA {b : Board} {blk : ControlBlock} {src next : Word} {dst : GpioReg}
    (h : recognise b blk = .formA src dst next) : blk = cbaWords b src dst next ∧ blockAligned b src next := by
  have hr := recognise_recognised b blk
  rw [h] at hr
  cases hr with
  | formA _ _ _ hwords haligned => exact ⟨hwords, haligned⟩

theorem recognise_eq_formB {b : Board} {blk : ControlBlock} {src next : Word}
    (h : recognise b blk = .formB src next) : blk = cbbWords b src next ∧ blockAligned b src next := by
  have hr := recognise_recognised b blk
  rw [h] at hr
  cases hr with
  | formB _ _ hwords haligned => exact ⟨hwords, haligned⟩

theorem recognise_eq_formX {b : Board} {blk raw : ControlBlock} (h : recognise b blk = .formX raw) : raw = blk := by
  have hr := recognise_recognised b blk
  rw [h] at hr
  cases hr with
  | formX => rfl

/-- Settles O3: recognition inverts the writing of a form's words, and the two `info` words of the spec's board differ in
the bits the table tells the forms by. -/
theorem controlBlockFormsAreExact : Obligations.ControlBlockFormsAreExact := by
  refine ⟨fun b blk hb => ⟨fun src dst next => ⟨fun h => ?_, ?_⟩, fun src next => ⟨recognise_eq_formB, ?_⟩,
    fun raw => recognise_eq_formX⟩, fun blk => ⟨fun src dst next h => ?_, fun src next h => ?_⟩,
    rfl, rfl, rfl, rfl, rfl, rfl⟩
  · obtain ⟨hwords, haligned⟩ := recognise_eq_formA h
    refine ⟨hwords.trans ?_, haligned⟩
    cases dst <;> rfl
  · rintro ⟨rfl, haligned⟩
    cases dst
    · exact recognise_cbaWords hb haligned .set0
    · exact recognise_cbaWords hb haligned .clr0
  · rintro ⟨rfl, haligned⟩
    exact recognise_cbbWords hb haligned
  · have hbits : RegisterMap.default.infoCba &&& 0x001F0040 = 0 := by decide
    rw [(recognise_eq_formA h).1]
    exact hbits
  · have hbits : RegisterMap.default.infoCbb &&& 0x001F0040 = 0x00050040 := by decide
    rw [(recognise_eq_formB h).1]
    exact hbits

/-- Settles O4: the default board's decoders run on the words. -/
theorem handWrittenWordsDecode : Obligations.HandWrittenWordsDecode := by
  unfold Obligations.HandWrittenWordsDecode
  decide

end Sys2Proof.Machine

/-!
PROOFS. DMA_SETCB (O25), writes under way (O51), the page table and `allocate` (O36, O37).
-/

namespace Sys2Proof.Machine

/-! ## DMA_SETCB (R76, R162, R178) -/

theorem setHeadTo_aligned {s : State} {a : Word} (h : a.toNat % s.board.cbAlign = 0) (c : Chan) :
    setHeadTo c a s = command (.dmaSetcb c a) s := if_pos h

theorem setHeadTo_misaligned {s : State} {a : Word} (h : a.toNat % s.board.cbAlign ≠ 0) (c : Chan) :
    setHeadTo c a s = .refused (.misalignedBlock a) := if_neg h

theorem land_dmaSetcb_stopped {s : State} {c : Chan} (h : (s.eng c).cs.active = false) (a : Word) :
    land (.dmaSetcb c a) s = .next ((s.setEng c { s.eng c with conblkAd := a }).emit
      (.regWrite (.dma c) s.board.regs.dmaConblk a)) := by
  simp only [land, h, Bool.false_eq_true, if_false]
  rfl

theorem land_dmaSetcb_active {s : State} {c : Chan} (h : (s.eng c).cs.active = true) (a : Word) :
    land (.dmaSetcb c a) s = .refused (.channelActive c) := by
  simp only [land, h, if_true]

/-- Settles O25: off the alignment the command is refused; on it, it is its write, which an active engine refuses. -/
theorem dmaSetcbNeedsAStoppedEngine : Obligations.DmaSetcbNeedsAStoppedEngine := by
  refine ⟨fun s c a => ⟨fun ha hw hv => ?_, fun ha => setHeadTo_misaligned ha c⟩, rfl⟩
  have hland : exec (.dmaSetcb c a) s = land (.dmaSetcb c a) s :=
    (setHeadTo_aligned ha c).trans (command_eq hv hw _)
  rw [hland]
  exact ⟨fun h => land_dmaSetcb_stopped h a, fun h => land_dmaSetcb_active h a⟩

/-! ## Writes under way (R80, log 35) -/

/-- Where writes land late, a command through mapped windows only joins the writes under way. -/
theorem command_buffered {s : State} (hv : s.board.visibility = .buffered) (hw : s.host.windowsMapped = true)
    (w : HostWrite) : command w s = .next { s with landing := s.landing ++ [w] } := by
  simp only [command, throughWindow, hw, if_true, issue, hv, andThen_next, settle_eq]

theorem landOldest_cons {s : State} (hv : s.board.visibility = .buffered) {w : HostWrite} {rest : List HostWrite}
    (hl : s.landing = w :: rest) : landOldest s = land w { s with landing := rest } := by
  simp only [landOldest, hv, hl]

theorem landOldest_nothing {s : State} (h : s.landing = [] ∨ s.board.visibility = .sc) : landOldest s = .next s := by
  unfold landOldest
  split
  · next hv hl => simp [hv, hl] at h
  · rfl

/-- Settles O51: every register command is one write issued, and a landing turn lands the oldest. -/
theorem bufferedWritesLandInProgramOrder : Obligations.BufferedWritesLandInProgramOrder := by
  refine fun s turns => ⟨fun hv hw => ?_, fun hs => ?_⟩
  · have joins := command_buffered hv hw
    refine ⟨fun i w hi => ?_, fun c => ⟨joins _, joins _, joins _, fun a ha => ?_⟩, fun v => ⟨joins _, joins _, joins _⟩⟩
    · simp only [List.mem_cons, Prod.mk.injEq, List.not_mem_nil, or_false] at hi
      rcases hi with ⟨rfl, rfl⟩ | ⟨rfl, rfl⟩ | ⟨rfl, rfl⟩ | ⟨rfl, rfl⟩ | ⟨rfl, rfl⟩ | ⟨rfl, rfl⟩ | ⟨rfl, rfl⟩ <;>
        exact joins _
    · exact (setHeadTo_aligned ha c).trans (joins _)
  · rw [step_land hs]
    exact ⟨fun w rest hv hl => landOldest_cons (s := { s with agenda := turns }) hv hl,
      fun h => landOldest_nothing (s := { s with agenda := turns }) h⟩

/-! ## The page table (R72, R118) -/

theorem frameNumber_eq (entry : BitVec 64) : frameNumber entry = entry.toNat % 2 ^ 55 := BitVec.toNat_setWidth ..

/-- WHAT RESOLVING A PAGE ANSWERS on an entry of the page table. -/
theorem resolveFrame_entry {b : Board} {env : Env} {vpn : Nat} {entry : BitVec 64}
    (h : env.pageExport.lookup vpn = some entry) :
    resolveFrame b env vpn = if pagemapValid b entry then
      if b.dmaBusOffset ≤ frameNumber entry * pageSize b then .aboveBusOffset
      else .page (BitVec.ofNat 32 (frameNumber entry * pageSize b) ||| BitVec.ofNat 32 b.dmaBusOffset)
    else .unresolved := by
  unfold resolveFrame
  rw [h]

theorem resolveFrame_none {b : Board} {env : Env} {vpn : Nat} (h : env.pageExport.lookup vpn = none) :
    resolveFrame b env vpn = .unresolved := by
  unfold resolveFrame
  rw [h]

/-- Of two bits, the first is set and the second clear. -/
theorem and_twoBits_eq_iff (entry : BitVec 64) : entry &&& 0xC000000000000000 = 0x8000000000000000 ↔
    entry.getLsbD 63 = true ∧ entry.getLsbD 62 = false := by
  have hmask : (0xC000000000000000 : BitVec 64) = BitVec.twoPow 64 63 ||| BitVec.twoPow 64 62 := by decide
  have hvalue : (0x8000000000000000 : BitVec 64) = BitVec.twoPow 64 63 := by decide
  constructor
  · intro h
    have h63 := congrArg (BitVec.getLsbD · 63) h
    have h62 := congrArg (BitVec.getLsbD · 62) h
    simpa using And.intro h63 h62
  · rintro ⟨h63, h62⟩
    rw [hmask, hvalue]
    refine BitVec.eq_of_getLsbD_eq fun i hi => ?_
    simp only [BitVec.getLsbD_and, BitVec.getLsbD_or, BitVec.getLsbD_twoPow]
    by_cases hi63 : 63 = i
    · subst hi63; simp [h63]
    · by_cases hi62 : 62 = i
      · subst hi62; simpa using h62
      · simp [hi63, hi62]

theorem pagemapValid_default (entry : BitVec 64) :
    pagemapValid Board.default entry = (entry.getLsbD 63 && !entry.getLsbD 62) := by
  rw [Bool.eq_iff_iff, Bool.and_eq_true, Bool.not_eq_true', ← and_twoBits_eq_iff]
  simp [pagemapValid, Board.default]

/-- Settles O36: each answer is a branch of the resolution, on the entry's frame number modulo 2^55. -/
theorem pageResolutionReadsTheExport : Obligations.PageResolutionReadsTheExport := by
  refine ⟨fun b env vpn hb => ⟨fun entry he hvalid => ?_, fun entry he hvalid => ?_, resolveFrame_none⟩,
    pagemapValid_default⟩
  · rw [resolveFrame_entry he, if_pos hvalid, ← frameNumber_eq]
    refine ⟨fun hlt => ⟨_, if_neg (by omega), frame_toNat hb hlt, pageOk_of_frame hb hlt⟩, fun hle => if_pos hle⟩
  · rw [resolveFrame_entry he, hvalid]
    rfl

/-! ## allocate (R203) -/

/-- `allocate` takes no lock and makes its accesses. -/
theorem exec_allocate (n : Int) (s : State) : exec (.allocate n) s =
    runActions [] succeed (regionActions n.toNat ++ [.handArena]) Scratch.empty s := by
  change runCall succeed (.go [] (regionActions n.toNat ++ [.handArena])) s = _
  exact runCall_go rfl succeed

/-- Without a region the operation ends at its first access (R203, R262). -/
theorem exec_allocate_noRegion {s : State} (hq : s.agenda = []) (hl : s.env.locksRegion = false) (n : Int) :
    exec (.allocate n) s = .next (s.answer (.error .mapError)) := by
  have hregion : perform .makeRegion Scratch.empty s = .ended (.error .mapError) s := by
    simp only [perform, hl, Bool.false_eq_true, if_false]
  rw [exec_allocate, regionActions_eq]
  exact (Leads.nil Scratch.empty s).ended hq hregion _ _

/-- What the operation keeps once `pages` are resolved. -/
def regionScratch (s : State) (pages : List Word) : Scratch :=
  { Scratch.empty with virtBase := s.env.virtBase, pages := pages }

theorem region_leads {s : State} {pages : List Word} (hq : s.agenda = []) (hl : s.env.locksRegion = true)
    (hr : PagesResolve s pages) :
    Leads (regionActions pages.length) Scratch.empty s (regionScratch s pages) s := by
  rw [regionActions_eq]
  exact regionActions_leads hq hl hr Scratch.empty

/-- The pages all resolved, they are cleared and handed over (R203). -/
theorem exec_allocate_pages {s : State} {pages : List Word} (hq : s.agenda = []) (hb : BoardOk s.board)
    (hl : s.env.locksRegion = true) (hr : PagesResolve s pages) :
    exec (.allocate pages.length) s =
      .next (State.answer { s with mem := Memory.clearPages s.board s.mem pages } (.arena s.env.virtBase pages)) := by
  have hhand : perform .handArena (regionScratch s pages) s =
      .ended (.arena s.env.virtBase pages) { s with mem := Memory.clearPages s.board s.mem pages } :=
    if_pos (hr.exact hb)
  rw [exec_allocate, Int.toNat_natCast]
  exact (region_leads hq hl hr).ended hq hhand _ _

/-- With more pages asked for than the page table gives, the accesses lead up to the next page's resolution. -/
theorem exec_allocate_past {s : State} {pages : List Word} (hq : s.agenda = []) (hl : s.env.locksRegion = true)
    (hr : PagesResolve s pages) {n : Nat} (hn : pages.length < n) : ∃ todo rest,
    exec (.allocate n) s = runActions [] succeed (todo ++ .resolvePage pages.length :: rest) Scratch.empty s ∧
      Leads todo Scratch.empty s (regionScratch s pages) s := by
  obtain ⟨rest, hsplit⟩ := regionActions_split hn
  refine ⟨regionActions pages.length ++ [.touchPage pages.length], rest ++ [.handArena], ?_,
    (region_leads hq hl hr).append (Leads.one hq rfl)⟩
  rw [exec_allocate, Int.toNat_natCast, hsplit, ← regionActions_eq]
  simp only [List.append_assoc, List.cons_append, List.nil_append]

/-- Settles O37: the accesses lead through the pages the table gives; there the pages are handed over, or the next page
ends the operation. -/
theorem allocateReturnsZeroedPagesOrFails : Obligations.AllocateReturnsZeroedPagesOrFails := by
  intro s pages hq hb
  refine ⟨fun hl hr => ⟨_, exec_allocate_pages hq hb hl hr, rfl, fun a ha => ?_, fun a ha => ?_⟩,
    fun n hl => exec_allocate_noRegion hq hl n, fun n hn hl hr => ?_⟩
  · exact (Memory.read_clearPages s.board s.mem pages a).trans (if_pos ha)
  · exact (Memory.read_clearPages s.board s.mem pages a).trans (if_neg ha)
  · obtain ⟨todo, rest, hexec, hleads⟩ := exec_allocate_past hq hl hr hn
    rw [hexec]
    refine ⟨fun hun => hleads.ended hq ?_ _ _, fun habove => hleads.refused hq ?_ _ _⟩
    · simp only [perform, resolve, regionScratch, hun]
    · simp only [perform, resolve, regionScratch, habove]

end Sys2Proof.Machine

/-!
PROOFS. What a write leaves where it lands, and what an access leaves of the threads; locks (O55) and the accesses of two
threads to different tables (O54).
-/

namespace Sys2Proof.Machine

/-! ## A write reaches the hardware alone (R80) -/

/-- The hardware of `s`, that is what a write can reach and read, in the surroundings of `e`: its host, its writes under
way, its threads, its agenda, its visibility. -/
def State.inside (s e : State) : State :=
  { e with
    dma := s.dma, pwm := s.pwm, clk := s.clk, gpio := s.gpio, mem := s.mem, trace := s.trace, draws := s.draws
    board := { s.board with visibility := e.board.visibility } }

theorem State.inside_self (s : State) : s.inside s = s := rfl

theorem resolveInFlight_inside (c : Chan) (s e : State) :
    resolveInFlight c (s.inside e) = (resolveInFlight c s).inside e := by
  have heng : (s.inside e).eng c = s.eng c := rfl
  have hdraws : (s.inside e).draws = s.draws := rfl
  unfold resolveInFlight
  rw [heng, hdraws]
  split
  · have hrecognise : recognise (s.inside e).board (s.eng c).loaded = recognise s.board (s.eng c).loaded := rfl
    have hdreq : dreq (s.inside e) = dreq s := rfl
    unfold inFlightWrite
    rw [heng, hrecognise, hdreq]
    split
    · rfl
    · split <;> rfl
    · rfl
  · rfl

/-- WHAT A WRITE DOES is the same in any surroundings, and leaves them. -/
theorem land_inside (w : HostWrite) (s e : State) :
    land w (s.inside e) = andThen (land w s) fun t => .next (t.inside e) := by
  cases w with
  | dmaReset c =>
    change logged _ _ _ (resetChannel c (resolveInFlight c (s.inside e))) = _
    rw [resolveInFlight_inside]
    rfl
  | dmaSetcb c a =>
    have heng : (s.inside e).eng c = s.eng c := rfl
    simp only [land, heng]
    split
    · rfl
    · rfl
  | dmaClrdbg | dmaStart => rfl
  | pwmOff | clkSrc | clkDiv | clkOn | pwmRng | pwmDmac | pwmClrf | pwmOn => rfl
  | fsel | gpio | arena => rfl

/-- A write that lands leaves its surroundings. -/
theorem land_keeps {w : HostWrite} {s t : State} (h : land w s = .next t) : t = t.inside s := by
  have hin := land_inside w s s
  rw [State.inside_self, h, andThen_next] at hin
  exact Host.Outcome.next.inj hin

/-! ## What an access leaves of the threads (R274) -/

theorem issue_threads {w : HostWrite} {s t : State} (h : issue w s = .next t) : t.threads = s.threads := by
  unfold issue at h
  split at h
  · exact (congrArg State.threads (land_keeps h) :)
  · cases h; rfl

theorem command_threads {w : HostWrite} {s t : State} (h : command w s = .next t) : t.threads = s.threads := by
  unfold command throughWindow at h
  split at h
  · obtain ⟨u, hu, ht⟩ := andThen_eq_next.mp h
    cases ht
    exact issue_threads hu
  · cases h

theorem setHeadTo_threads {c : Chan} {a : Word} {s t : State} (h : setHeadTo c a s = .next t) :
    t.threads = s.threads := by
  unfold setHeadTo at h
  split at h
  · exact command_threads h
  · cases h

theorem arenaWrite_threads {c : Chan} {off : Nat} {v : Word} {s t : State} (h : arenaWrite c off v s = .next t) :
    t.threads = s.threads := by
  unfold arenaWrite atArena at h
  split at h
  · cases h
  · split at h
    · exact issue_threads h
    · cases h

theorem takePages_threads {x : Scratch} {s t : State} {k : State → Did}
    (hk : ∀ u, u.threads = s.threads → (k u).state = some t → t.threads = s.threads)
    (h : (takePages x s k).state = some t) :
    t.threads = s.threads := by
  unfold takePages at h
  split at h
  · refine hk _ ?_ h
    rfl
  · cases h

/-- An access leaves the threads to their turns. -/
theorem perform_threads {a : Action} {x : Scratch} {s t : State} (h : (perform a x s).state = some t) :
    t.threads = s.threads := by
  cases a with
  | write | writeSelect => exact command_threads ((Did.state_of _ _ _).mp h)
  | setSample | clearSample | retarget => exact arenaWrite_threads ((Did.state_of _ _ _).mp h)
  | recordClaim | recordWindows | touchPage => cases h; rfl
  | readSelect | readRegister =>
    simp only [perform, throughWindowDid] at h
    split at h <;> cases h
    rfl
  | readSample =>
    simp only [perform, arenaRead] at h
    split at h
    · cases h
    · split at h <;> cases h
      rfl
  | mapWindow | makeRegion =>
    simp only [perform] at h
    split at h <;> (cases h; rfl)
  | resolvePage =>
    simp only [perform, resolve] at h
    split at h <;> cases h <;> rfl
  | recordClock | recordChannel =>
    simp only [perform] at h
    split at h <;> cases h
    rfl
  | handArena => exact takePages_threads (fun u hu ht => by cases ht; exact hu) h
  | recordArena =>
    simp only [perform, recordArena] at h
    split at h
    · cases h
    · split at h
      · cases h
      · exact takePages_threads (fun u hu ht => by cases ht; exact hu) h
  | writeField =>
    simp only [perform] at h
    split at h
    · cases h
    · exact arenaWrite_threads ((Did.state_of _ _ _).mp h)
  | setHead =>
    simp only [perform] at h
    split at h
    · cases h
    · exact setHeadTo_threads ((Did.state_of _ _ _).mp h)

/-! ## Threads among the others -/

theorem setThread_threads (s : State) (k : Nat) (th : Thread) : (s.setThread k th).threads = s.threads.set k th := rfl

theorem getElem?_setThread_same {s : State} {k : Nat} {th : Thread} (h : s.threads[k]? = some th) (th' : Thread) :
    (s.setThread k th').threads[k]? = some th' := by
  obtain ⟨hk, -⟩ := List.getElem?_eq_some_iff.mp h
  rw [setThread_threads, List.getElem?_set_self hk]

theorem getElem?_setThread_other {s : State} {k l : Nat} (hkl : k ≠ l) (th : Thread) :
    (s.setThread k th).threads[l]? = s.threads[l]? := by
  rw [setThread_threads, List.getElem?_set_ne hkl]

/-- WHAT A TURN OF A THREAD WITH A CALL IN PROGRESS DOES: the call's next access, after which the thread goes on or has
returned. -/
theorem threadTurn_access {busy : List Resource} {k : Nat} {s t : State} {th : Thread} {a : Action} {todo : List Action}
    (hth : s.threads[k]? = some th) (htodo : th.todo = a :: todo) :
    threadTurn busy k s = .next t ↔
      (∃ x u, perform a th.scratch s = .went x u ∧ t = u.setThread k (th.goesOn todo x)) ∨
      (∃ r u, perform a th.scratch s = .ended r u ∧ t = u.setThread k (th.returned r)) := by
  simp only [threadTurn, hth, htodo]
  cases perform a th.scratch s <;> simp [eq_comm]

/-! ## Locks (R83, R240, R306, R309; log 36) -/

/-- A call may begin where no other holds what it needs. -/
theorem mayBegin_iff (locks : List Resource) (s : State) :
    mayBegin [] locks s = true ↔ ∀ need ∈ locks, ∀ other ∈ s.threads, need ∉ other.holds := by
  simp [mayBegin]

theorem mayBegin_clash {locks : List Resource} {s : State}
    (h : ∃ need ∈ locks, ∃ other ∈ s.threads, need ∈ other.holds) : mayBegin [] locks s = false := by
  obtain ⟨need, hneed, other, hother, hheld⟩ := h
  exact Bool.eq_false_iff.mpr fun hfree => (mayBegin_iff locks s).mp hfree need hneed other hother hheld

/-- A call that takes locks is run by the main thread as a call. -/
theorem exec_of_locking {i : Instr} {s : State} {locks : List Resource} {todo : List Action}
    (h : callOfInstr i s = .go locks todo) (hl : locks ≠ []) :
    ∃ finish, exec i s = runCall finish (.go locks todo) s := by
  have unlocked {acts : List Action} {P : Prop} (h : Call.go [] acts = .go locks todo) : P := by
    cases h; exact absurd rfl hl
  cases i with
  | cba | cbb | cbx | settle => cases h
  | dmaReset | dmaClrdbg | dmaStart => exact unlocked h
  | pwmOff | clkSrc | clkDiv | clkOn | pwmRng | pwmDmac | pwmClrf | pwmOn => exact unlocked h
  | gpioSet | gpioClr | gpioFselRd => exact unlocked h
  | dmaSetcb =>
    simp only [callOfInstr] at h
    split at h
    · exact unlocked h
    · cases h
  | gpioFselOut => exact ⟨fun t => .next t, by rw [← h]; rfl⟩
  | initEngine | initChannel | addChannelPulse | setChannelPercent | clearChannelGpio => exact ⟨succeed, by rw [← h]; rfl⟩
  | map | allocate | compile | configureGlobalClock | claim => exact ⟨succeed, by rw [← h]; rfl⟩

/-- How a call begins does not depend on the agenda. -/
theorem callOfInstr_withAgenda (i : Instr) (s : State) (turns : List Turn) :
    callOfInstr i { s with agenda := turns } = callOfInstr i s := by
  cases i <;> rfl

/-- WHAT A TURN OF AN IDLE THREAD DOES where its stream decodes to a call that goes on: the call begins, or is refused. -/
theorem step_thread_begins {s : State} {k : Nat} {turns : List Turn} {th : Thread} {i : Instr} {rest : List Word}
    {locks : List Resource} {todo : List Action} (hs : s.agenda = .thread k :: turns) (hth : s.threads[k]? = some th)
    (hidle : th.todo = []) (hdecode : decode s.board .host th.program = .ok (i, rest))
    (hcall : callOfInstr i s = .go locks todo) :
    step s = if mayBegin [] locks s then .next (State.setThread { s with agenda := turns } k
      { th with program := rest, todo := todo, holds := locks, scratch := Scratch.empty })
      else .refused .notSerialized := by
  rw [step_thread hs]
  simp only [threadTurn, hth, hidle, beginNext, fetchCall_decodes hdecode, callOfInstr_withAgenda, hcall]
  rfl

/-- A call holds the claims' lock only while its claim has accesses left, and its other locks to its end. -/
theorem mem_goesOn_holds {th : Thread} {todo : List Action} (x : Scratch) (r : Resource) :
    r ∈ (th.goesOn todo x).holds ↔
      r ∈ th.holds ∧ todo ≠ [] ∧ (r ≠ .functionSelects ∨ todo.any ofClaim = true) := by
  cases todo with
  | nil => simp [Thread.goesOn, Thread.returned]
  | cons a todo => simp [Thread.goesOn, stillHeld]

theorem goesOn_todo (th : Thread) (todo : List Action) (x : Scratch) : (th.goesOn todo x).todo = todo := by
  cases todo <;> rfl

theorem any_ofClaim_eq_false {todo : List Action}
    (h : ∀ p, .readSelect p ∉ todo ∧ .writeSelect p ∉ todo ∧ .recordClaim p ∉ todo) : todo.any ofClaim = false := by
  rw [List.any_eq_false]
  intro a ha hclaim
  cases a with
  | readSelect p => exact (h p).1 ha
  | writeSelect p => exact (h p).2.1 ha
  | recordClaim p => exact (h p).2.2 ha
  | _ => cases hclaim

/-- Settles O55: a call begins exactly where its locks are free, and an access leaves of its locks what the accesses left
need. -/
theorem clashingCallsAreRefusedUntilReleased : Obligations.ClashingCallsAreRefusedUntilReleased := by
  refine ⟨fun i s locks todo hcall => ⟨fun hclash => ?_, fun k th rest turns hth hidle hdecode hs => ?_⟩,
    fun s t k th a todo turns hs hth htodo hstep hclaim => ?_⟩
  · obtain ⟨need, hneed, -⟩ := id hclash
    obtain ⟨finish, hexec⟩ := exec_of_locking hcall (List.ne_nil_of_mem hneed)
    simp only [hexec, runCall, mayBegin_clash hclash, Bool.false_eq_true, if_false]
  · rw [step_thread_begins hs hth hidle hdecode hcall]
    refine ⟨fun hclash => ?_, fun hfree => if_pos ((mayBegin_iff locks s).mpr hfree)⟩
    rw [mayBegin_clash hclash]
    rfl
  · rw [step_thread hs, threadTurn_access (s := { s with agenda := turns }) hth htodo] at hstep
    have hthreads {u : State} (hu : (perform a th.scratch { s with agenda := turns }).state = some u) :
        u.threads[k]? = some th := by rw [perform_threads hu]; exact hth
    rcases hstep with ⟨x, u, hp, rfl⟩ | ⟨r, u, hp, rfl⟩
    · refine ⟨_, getElem?_setThread_same (hthreads (by rw [hp]; rfl)) _, ?_, fun c => ?_⟩
      · simp [mem_goesOn_holds, any_ofClaim_eq_false hclaim]
      · simp [mem_goesOn_holds, goesOn_todo]
    · exact ⟨_, getElem?_setThread_same (hthreads (by rw [hp]; rfl)) _, by simp [Thread.returned],
        fun c => by simp [Thread.returned]⟩

end Sys2Proof.Machine

/-!
PROOFS. Accesses to the tables of different channels commute (O54): each reads or writes one aligned word of its own
channel's arena, and words of two arenas have disjoint bytes.
-/

namespace Sys2Proof.Machine

/-! ## An access to a word of an arena (R71, R80) -/

/-- Where an offset has an address, the channel has a sound arena. -/
theorem ArenasOk.of_phys {s : State} (h : ArenasOk s) {c : Chan} {off : Nat} {w : Word}
    (hw : phys s.board (s.chan c) off = some w) : ArenaOk s.board (s.chan c) := by
  obtain ⟨page, hpage, -⟩ := phys_some hw
  exact h.each c (List.ne_nil_of_mem (List.mem_of_getElem? hpage))

theorem arenaRead_state {c : Chan} {off : Nat} {x : Scratch} {s t : State}
    (h : (arenaRead c off x s).state = some t) : ∃ w, phys s.board (s.chan c) off = some w := by
  unfold arenaRead at h
  split at h
  · cases h
  · next w hw => exact ⟨w, hw⟩

theorem arenaWrite_address {c : Chan} {off : Nat} {v : Word} {s t : State} (h : arenaWrite c off v s = .next t) :
    ∃ w, phys s.board (s.chan c) off = some w := by
  unfold arenaWrite atArena at h
  split at h
  · cases h
  · next w hw => exact ⟨w, hw⟩

/-- A table access goes to an aligned offset of its channel's arena: what it reads there, or writes there, having read
`old` before. -/
inductive TableWord (b : Board) (ch : ChanRec) (c : Chan) (old : Word) : Action → Nat → Option Word → Prop
  | read (i : Nat) : TableWord b ch c old (.readSample c i) (sampleOffset i) none
  | set (p : Pin) (i : Nat) : TableWord b ch c old (.setSample c p i) (sampleOffset i) (some (old ||| pinBit p.val))
  | clear (p : Pin) (i : Nat) :
      TableWord b ch c old (.clearSample c p i) (sampleOffset i) (some (old &&& ~~~(pinBit p.val)))
  | retarget (i : Nat) (reg : GpioReg) :
      TableWord b ch c old (.retarget c i reg) (dstOffset b ch (2 * i)) (some (reg.busAddress b))
  | field (k : Nat) (f : Fin 6) (blk : ControlBlock) : compiledBlock b ch k = some blk →
      TableWord b ch c old (.writeField c k f) (blockOffset b ch k + 4 * f.val) (some (blockField blk f))

/-- WHAT A TABLE ACCESS IS: a read or a write of an arena word. -/
theorem TableWord.perform {b : Board} {ch : ChanRec} {c : Chan} {x : Scratch} {a : Action} {off : Nat}
    {wr : Option Word} (h : TableWord b ch c x.word a off wr) {s : State} (hb : s.board = b) (hc : s.chan c = ch) :
    perform a x s = match wr with
      | none => arenaRead c off x s
      | some v => .of x (arenaWrite c off v s) := by
  subst hb hc
  cases h with
  | field k f blk hblk => simp only [Machine.perform, hblk]
  | _ => rfl

/-- Its offset is aligned in a sound arena (R74). -/
theorem TableWord.mod_four {b : Board} {ch : ChanRec} {c : Chan} {old : Word} {a : Action} {off : Nat}
    {wr : Option Word} (h : TableWord b ch c old a off wr) (hok : ArenaOk b ch) : off % 4 = 0 := by
  cases h with
  | read | set | clear => unfold sampleOffset; omega
  | retarget i =>
    have := hok.blockOffset_mod_four (2 * i)
    unfold dstOffset; omega
  | field k =>
    have := hok.blockOffset_mod_four k
    omega

/-- A table access that goes on has its word, at an address. -/
theorem tableAccess_word {c : Chan} {a : Action} (ha : tableAccess c a) {x : Scratch} {s t : State}
    (h : (perform a x s).state = some t) : ∃ off wr w, TableWord s.board (s.chan c) c x.word a off wr ∧
      phys s.board (s.chan c) off = some w := by
  have wrote {off : Nat} {v : Word} (hw : (Did.of x (arenaWrite c off v s)).state = some t) :=
    arenaWrite_address ((Did.state_of _ _ _).mp hw)
  cases a with
  | readSample d i =>
    cases ha
    obtain ⟨w, hw⟩ := arenaRead_state h
    exact ⟨_, _, w, .read i, hw⟩
  | setSample d p i =>
    cases ha
    obtain ⟨w, hw⟩ := wrote h
    exact ⟨_, _, w, .set p i, hw⟩
  | clearSample d p i =>
    cases ha
    obtain ⟨w, hw⟩ := wrote h
    exact ⟨_, _, w, .clear p i, hw⟩
  | retarget d i reg =>
    cases ha
    obtain ⟨w, hw⟩ := wrote h
    exact ⟨_, _, w, .retarget i reg, hw⟩
  | writeField d k f =>
    cases ha
    simp only [perform] at h
    split at h
    · cases h
    · next blk hblk =>
      obtain ⟨w, hw⟩ := wrote h
      exact ⟨_, _, w, .field k f blk hblk, hw⟩
  | _ => exact ha.elim

/-! ## The access on memory -/

/-- Memory with the word at an address written, or as it was. -/
def stored (m : Memory) (pa : Nat) : Option Word → Memory
  | none => m
  | some v => Memory.writeWord m pa v

/-- What a read or a write of a word leaves in the scratch. -/
def fetched (m : Memory) (pa : Nat) (x : Scratch) : Option Word → Scratch
  | none => { x with word := Memory.readWord m pa }
  | some _ => x

/-- A word of another arena reads as before. -/
theorem fetched_stored {m : Memory} (h : Memory.wf m = true) {pa pa' : Nat} (hd : pa' + 4 ≤ pa ∨ pa + 4 ≤ pa')
    (x : Scratch) (wr wr' : Option Word) : fetched (stored m pa wr) pa' x wr' = fetched m pa' x wr' := by
  cases wr with
  | none => rfl
  | some v =>
    cases wr' with
    | none => simp only [fetched, stored, Memory.readWord_writeWord_other h v hd]
    | some v' => rfl

/-- Writes of two words apart commute. -/
theorem Memory.writeWord_comm {m : Memory} (h : Memory.wf m = true) {pa pa' : Nat} (hd : pa' + 4 ≤ pa ∨ pa + 4 ≤ pa')
    (v v' : Word) : Memory.writeWord (Memory.writeWord m pa v) pa' v' =
      Memory.writeWord (Memory.writeWord m pa' v') pa v := by
  have hwf := Memory.wf_writeWord h pa v
  have hwf' := Memory.wf_writeWord h pa' v'
  refine Memory.ext_of_read (Memory.wf_writeWord hwf pa' v') (Memory.wf_writeWord hwf' pa v) fun y => ?_
  by_cases hy : y < pa ∨ pa + 4 ≤ y
  · rw [Memory.read_writeWord_other hwf' v hy, Memory.read_writeWord hwf, Memory.read_writeWord_other h v hy,
      Memory.read_writeWord h]
  · have hy' : y < pa' ∨ pa' + 4 ≤ y := by omega
    rw [Memory.read_writeWord_other hwf v' hy', Memory.read_writeWord hwf', Memory.read_writeWord_other h v' hy',
      Memory.read_writeWord h]

theorem stored_comm {m : Memory} (h : Memory.wf m = true) {pa pa' : Nat} (hd : pa' + 4 ≤ pa ∨ pa + 4 ≤ pa')
    (wr wr' : Option Word) : stored (stored m pa wr) pa' wr' = stored (stored m pa' wr') pa wr := by
  cases wr with
  | none => rfl
  | some v =>
    cases wr' with
    | none => rfl
    | some v' => exact Memory.writeWord_comm h hd v v'

/-- Where writes land at once, a table access of a sound arena reads or writes its word of memory, and nothing else. -/
theorem TableWord.perform_eq {s : State} {c : Chan} {x : Scratch} {a : Action} {off : Nat} {wr : Option Word} {w : Word}
    (h : TableWord s.board (s.chan c) c x.word a off wr) (hok : ArenaOk s.board (s.chan c))
    (hw : phys s.board (s.chan c) off = some w) (hv : s.board.visibility = .sc) :
    Machine.perform a x s = .went (fetched s.mem (physicalOf s.board w) x wr)
      { s with mem := stored s.mem (physicalOf s.board w) wr } := by
  rw [h.perform rfl rfl]
  cases wr with
  | none => exact (arenaRead_eq hok hw x).trans (by rw [seenWord_sc hv]; rfl)
  | some v =>
    simp only [arenaWrite_eq hok hv hw v]
    rfl

/-! ## Two turns -/

/-- A run that goes through has a first step. -/
theorem run_succ_inv {s u : State} {k : Nat} (h : Host.Core.run Sys2Proof.core (k + 1) s = .next u) :
    ∃ t, step s = .next t ∧ Host.Core.run Sys2Proof.core k t = .next u := by
  have hcore : Sys2Proof.core.step s = step s := rfl
  cases hs : step s with
  | next t => exact ⟨t, rfl, by rwa [run_succ hs] at h⟩
  | fault r =>
    rw [hs] at hcore
    simp only [Host.Core.run, hcore] at h
    cases h
  | refused r =>
    rw [hs] at hcore
    simp only [Host.Core.run, hcore] at h
    cases h

section
variable {s t : State} {k : Nat} {th : Thread} {a : Action} {todo : List Action} {turns : List Turn} {c : Chan}

/-- A thread's turn at a table access that goes through has its word. -/
theorem step_tableAccess_word (hs : s.agenda = .thread k :: turns) (hth : s.threads[k]? = some th)
    (htodo : th.todo = a :: todo) (ha : tableAccess c a) (h : step s = .next t) : ∃ off wr w,
      TableWord s.board (s.chan c) c th.scratch.word a off wr ∧ phys s.board (s.chan c) off = some w := by
  rw [step_thread hs, threadTurn_access (s := { s with agenda := turns }) hth htodo] at h
  have word {u : State} (hu : (perform a th.scratch { s with agenda := turns }).state = some u) :=
    tableAccess_word ha hu
  rcases h with ⟨x, u, hp, -⟩ | ⟨r, u, hp, -⟩
  · exact word (by rw [hp]; rfl)
  · exact word (by rw [hp]; rfl)

/-- A thread's turn at a table access of a sound arena, where writes land at once. -/
theorem step_tableAccess (hs : s.agenda = .thread k :: turns) (hth : s.threads[k]? = some th)
    (htodo : th.todo = a :: todo) (hv : s.board.visibility = .sc) (hok : ArenaOk s.board (s.chan c)) {off : Nat}
    {wr : Option Word} {w : Word} (hword : TableWord s.board (s.chan c) c th.scratch.word a off wr)
    (hw : phys s.board (s.chan c) off = some w) :
    step s = .next (State.setThread
      { s with mem := stored s.mem (physicalOf s.board w) wr, agenda := turns } k
      (th.goesOn todo (fetched s.mem (physicalOf s.board w) th.scratch wr))) := by
  rw [step_thread hs, threadTurn_access (s := { s with agenda := turns }) hth htodo]
  exact .inl ⟨_, _, hword.perform_eq (s := { s with agenda := turns }) hok hw hv, rfl⟩

end

/-- The other thread is as it was after a turn at a table access. -/
theorem getElem?_after_tableAccess {s : State} {k l : Nat} (hkl : k ≠ l) {th' : Thread} (h : s.threads[l]? = some th')
    (m : Memory) (turns : List Turn) (th : Thread) :
    (State.setThread { s with mem := m, agenda := turns } k th).threads[l]? = some th' :=
  (getElem?_setThread_other hkl th).trans h

/-- Settles O54: each turn reads or writes its own word, and the words have disjoint bytes. -/
theorem accessesOfDifferentChannelsCommute : Obligations.AccessesOfDifferentChannelsCommute := by
  intro s u k l c d th th' a a' todo todo' turns hkl hcd harenas hwf hv hth hth' htodo htodo' ha ha' hrun
  obtain ⟨s1, hstep1, hrun1⟩ := run_succ_inv hrun
  obtain ⟨off, wr, w, hword, hw⟩ := step_tableAccess_word (s := { s with agenda := _ }) rfl hth htodo ha hstep1
  have hok : ArenaOk s.board (s.chan c) := harenas.of_phys hw
  rw [step_tableAccess (s := { s with agenda := _ }) rfl hth htodo hv hok hword hw] at hstep1
  cases hstep1
  have hth1 := getElem?_after_tableAccess hkl hth' (stored s.mem (physicalOf s.board w) wr) (.thread l :: turns)
    (th.goesOn todo (fetched s.mem (physicalOf s.board w) th.scratch wr))
  obtain ⟨s2, hstep2, hrun2⟩ := run_succ_inv hrun1
  obtain ⟨off', wr', w', hword', hw'⟩ := step_tableAccess_word rfl hth1 htodo' ha' hstep2
  have hok' : ArenaOk s.board (s.chan d) := harenas.of_phys hw'
  rw [step_tableAccess rfl hth1 htodo' hv hok' hword' hw'] at hstep2
  cases hstep2
  cases hrun2
  have hapart := harenas.words_apart hcd hw hw' (hword.mod_four hok) (hword'.mod_four hok')
  have hth2 := getElem?_after_tableAccess hkl.symm hth (stored s.mem (physicalOf s.board w') wr') (.thread k :: turns)
    (th'.goesOn todo' (fetched s.mem (physicalOf s.board w') th'.scratch wr'))
  rw [run_succ (step_tableAccess (s := { s with agenda := _ }) rfl hth' htodo' hv hok' hword' hw'),
    run_succ (step_tableAccess rfl hth2 htodo hv hok hword hw), run_zero]
  simp only [State.setThread, fetched_stored hwf hapart, fetched_stored hwf hapart.symm, stored_comm hwf hapart,
    List.set_comm _ _ hkl]

end Sys2Proof.Machine

/-!
PROOFS. One lap of an engine over a compiled chain (O21): each slot's seven turns are six steps of the engine, two blocks'
worth, and a pace tick; they leave the engine at the next slot, and the latch and the trace a slot further.
-/

namespace Sys2Proof.Machine

/-! ## A block of the chain, step by step (R131, R132, R133) -/

/-- The CBA of a slot is admitted (R103, R113). -/
theorem ArenaOk.admittedA {b : Board} {ch : ChanRec} (h : ArenaOk b ch) {i : Nat} (hi : i < ch.sampleCount)
    {a src next : Word} (ha : blockAddress b ch (2 * i) = some a) (hsrc : phys b ch (sampleOffset i) = some src)
    (hnext : blockAddress b ch (nextBlock ch (2 * i)) = some next) : admittedA b ch a src next = true := by
  have hk : 2 * i / 2 = i := by omega
  simp [Machine.admittedA, admittedNext, h.blockIndex_blockAddress (by omega) ha, (h.blockAddress_aligned ha).1, hk, hsrc,
    hnext]

/-- The CBB of a slot is admitted (R104, R113). -/
theorem ArenaOk.admittedB {b : Board} {ch : ChanRec} (h : ArenaOk b ch) {i : Nat} (hi : i < ch.sampleCount)
    {a src next : Word} (ha : blockAddress b ch (2 * i + 1) = some a) (hsrc : phys b ch (sampleOffset 0) = some src)
    (hnext : blockAddress b ch (nextBlock ch (2 * i + 1)) = some next) : admittedB b ch a src next = true := by
  have hk : (2 * i + 1) % 2 = 1 := by omega
  simp [Machine.admittedB, admittedNext, h.blockIndex_blockAddress (by omega) ha, (h.blockAddress_aligned ha).1, hk, hsrc,
    hnext]

/-- The source and the next block of a chain's block are aligned (R74). -/
theorem ArenaOk.blockAligned {b : Board} {ch : ChanRec} (h : ArenaOk b ch) {i k : Nat} {src next : Word}
    (hsrc : phys b ch (sampleOffset i) = some src) (hnext : blockAddress b ch k = some next) :
    blockAligned b src next :=
  ⟨h.phys_mod_four hsrc (by unfold sampleOffset; omega), (h.blockAddress_aligned hnext).1⟩

theorem exec_cba_fetch {s : State} {c : Chan} (hr : (s.eng c).runs = true) (hp : (s.eng c).phase = .fetch) (src : Word)
    (dst : GpioReg) (next : Word) : exec (.cba c src dst next) s =
      fetchHalf c (cbaWords s.board src dst next) (admittedA s.board (s.chan c) (s.eng c).conblkAd src next) s := by
  simp only [exec, execCba, hr, hp, if_true]

theorem exec_cbb_fetch {s : State} {c : Chan} (hr : (s.eng c).runs = true) (hp : (s.eng c).phase = .fetch)
    (src next : Word) : exec (.cbb c src next) s =
      fetchHalf c (cbbWords s.board src next) (admittedB s.board (s.chan c) (s.eng c).conblkAd src next) s := by
  simp only [exec, execCbb, hr, hp, if_true]

/-- The engine is about to load block `k` of the chain, its control and status `cs`. -/
structure AtBlock (b : Board) (ch : ChanRec) (k : Nat) (cs : Cs) (e : DmaEngine) : Prop where
  runs : e.runs = true
  phase : e.phase = .fetch
  address : blockAddress b ch k = some e.conblkAd
  cs : e.cs = cs

/-- The engine with the block `blk` loaded and its source word read. -/
def DmaEngine.ready (e : DmaEngine) (blk : ControlBlock) (data : Word) : DmaEngine :=
  { e.load blk with data := data, phase := .write }

/-- Past its write the engine is at the next block (R135). -/
theorem AtBlock.advanced {b : Board} {ch : ChanRec} {k k' : Nat} {cs : Cs} {e : DmaEngine} (h : AtBlock b ch k cs e)
    (blk : ControlBlock) (data : Word) {next : Word} (hnext : blockAddress b ch k' = some next) :
    AtBlock b ch k' cs { e.ready blk data with conblkAd := next, phase := .fetch } :=
  ⟨h.runs, rfl, hnext, h.cs⟩

section
variable {s : State} {c : Chan} {cs : Cs} {turns : List Turn} {k i : Nat} {src next : Word}

/-- Two turns of an engine at a block that stands in memory: it is loaded, and its source read into the latch. -/
theorem run_load_read (hok : ArenaOk s.board (s.chan c)) (hs : s.agenda = .engine c :: .engine c :: turns)
    (hat : AtBlock s.board (s.chan c) k cs (s.eng c)) {blk : ControlBlock}
    (hblk : blockAt s (s.chan c) (blockOffset s.board (s.chan c) k) = some blk)
    (hsrc : phys s.board (s.chan c) (sampleOffset i) = some src)
    (hload : ∀ u : State, u.eng c = s.eng c → u.board = s.board → u.chan c = s.chan c →
      exec ((recognise s.board blk).toInstr c) u = fetchHalf c blk true u)
    (hread : ∀ u : State, (u.eng c).runs = true → (u.eng c).phase = .exec →
      exec ((recognise s.board blk).toInstr c) u = readHalf c src u) :
    Host.Core.run Sys2Proof.core 2 s =
      .next (State.setEng { s with agenda := turns } c ((s.eng c).ready blk (busWord s src))) := by
  set u := State.setEng { s with agenda := .engine c :: turns } c ((s.eng c).load blk) with hu
  have heng : u.eng c = (s.eng c).load blk := (eng_setEng ..).trans (if_pos rfl)
  have hstep : step s = .next u := by
    rw [step_fetch hs hat.runs hat.phase (hok.blockAddress_aligned hat.address).2
      (loadBlock_of_blockAt hok hat.address hblk), hload { s with agenda := .engine c :: turns } rfl rfl rfl]
    rfl
  have hrecognise : recognise u.board (u.eng c).loaded = recognise s.board blk := by rw [heng]; rfl
  have hstep' : step u = .next (State.setEng { s with agenda := turns } c ((s.eng c).ready blk (busWord s src))) := by
    have hruns : (u.eng c).runs = true := by rw [heng]; exact hat.runs
    have hphase : (u.eng c).phase = .exec := by rw [heng]; rfl
    have hfetch : (u.eng c).phase ≠ .fetch := by rw [hphase]; decide
    rw [step_loaded (turns := turns) rfl hruns hfetch, hrecognise, hread { u with agenda := turns } hruns hphase,
      readHalf_arena (s := { u with agenda := turns }) hok hsrc (by unfold sampleOffset; omega), eng_withAgenda, heng, hu]
    simp only [State.setEng, Vector.set_set]
    rfl
  rw [run_succ hstep, run_succ hstep', run_zero]

/-! ## A slot's two blocks (R81, R135) -/

/-- `s` with engine `c` at `e`, the latch at `out` and `events` more in the trace: what a lap's turns leave. -/
def lapState (c : Chan) (e : DmaEngine) (out : Word) (events : List Event) (turns : List Turn) (s : State) : State :=
  State.setEng { s with gpio := { s.gpio with out := out }, trace := s.trace ++ events, agenda := turns } c e

theorem eng_lapState (c : Chan) (e : DmaEngine) (out : Word) (events : List Event) (turns : List Turn) (s : State) :
    (lapState c e out events turns s).eng c = e := (eng_setEng ..).trans (if_pos rfl)

theorem lapState_lapState (c : Chan) (e e' : DmaEngine) (out out' : Word) (events events' : List Event)
    (turns turns' : List Turn) (s : State) : lapState c e' out' events' turns' (lapState c e out events turns s) =
      lapState c e' out' (events ++ events') turns' s := by
  simp only [lapState, State.setEng, Vector.set_set, List.append_assoc]

/-- The slot's CBA: its sample to its register (R132). -/
theorem run_cba (hok : ArenaOk s.board (s.chan c)) (hi : i < (s.chan c).sampleCount)
    (hs : s.agenda = .engine c :: .engine c :: .engine c :: turns)
    (hat : AtBlock s.board (s.chan c) (2 * i) cs (s.eng c)) {reg : GpioReg} (hslot : SlotBlocks s (s.chan c) i reg)
    {sample : Word} (hsample : sampleWord s c i = some sample) :
    ∃ e, AtBlock s.board (s.chan c) (2 * i + 1) cs e ∧ Host.Core.run Sys2Proof.core 3 s =
      .next (lapState c e (latchAfter reg s.gpio.out sample) [.gpioWrite (.dma c) reg sample] turns s) := by
  obtain ⟨src, next, hsrc, hnext, hblk⟩ := hslot.formA
  have hword : busWord s src = sample := by
    unfold sampleWord arenaWordOf at hsample
    rw [hsrc] at hsample
    exact Option.some.inj hsample
  have hform := recognise_cbaWords hok.board.registers (hok.blockAligned hsrc hnext) reg
  have hnextBlock : nextBlock (s.chan c) (2 * i) = 2 * i + 1 := Nat.mod_eq_of_lt (by omega)
  have hadmitted := hok.admittedA hi hat.address hsrc (by rw [hnextBlock]; exact hnext)
  have hrun := run_load_read hok hs hat hblk hsrc
    (fun u he hb hc => by
      rw [hform, Block.toInstr, exec_cba_fetch (by rw [he]; exact hat.runs) (by rw [he]; exact hat.phase), he, hb, hc,
        hadmitted])
    (fun u hr hp => by rw [hform]; exact exec_cba_exec hr hp src reg next)
  rw [hword] at hrun
  set e := (s.eng c).ready (cbaWords s.board src reg next) sample
  set u := State.setEng { s with agenda := .engine c :: turns } c e with hu
  have heng : u.eng c = e := (eng_setEng ..).trans (if_pos rfl)
  refine ⟨_, hat.advanced (cbaWords s.board src reg next) sample hnext, ?_⟩
  rw [run_add hrun 1]
  have hstep : step u = .next (lapState c { e with conblkAd := next, phase := .fetch } (latchAfter reg s.gpio.out sample)
      [.gpioWrite (.dma c) reg sample] turns s) := by
    have hruns : (u.eng c).runs = true := by rw [heng]; exact hat.runs
    have hphase : (u.eng c).phase = .write := by rw [heng]; rfl
    have hrecognise : recognise u.board (u.eng c).loaded = .formA src reg next := by rw [heng]; exact hform
    rw [step_loaded (turns := turns) rfl hruns (by rw [hphase]; decide), hrecognise, Block.toInstr,
      exec_cba_write (s := { u with agenda := turns }) hruns hphase,
      writeHalf_gpio (s := { u with agenda := turns }) c reg next hok.board.registers, eng_withAgenda, heng, hu]
    simp only [advance, gpioWrite_eng, eng_withAgenda, eng_setEng, if_true]
    simp only [lapState, gpioWrite, State.emit, State.setEng, Vector.set_set]
    rfl
  rw [run_succ hstep, run_zero]

/-- The slot's CBB and a pace tick: a word into the FIFO and out of it (R133, R138). -/
theorem run_cbb_tick (hok : ArenaOk s.board (s.chan c)) (hi : i < (s.chan c).sampleCount)
    (hs : s.agenda = .engine c :: .engine c :: .engine c :: .pacer :: turns)
    (hat : AtBlock s.board (s.chan c) (2 * i + 1) cs (s.eng c)) {reg : GpioReg} (hslot : SlotBlocks s (s.chan c) i reg)
    (hpacer : pacerRunning s = true) (hdreq : dreq s = true) :
    ∃ e, AtBlock s.board (s.chan c) (2 * (i + 1) % (2 * (s.chan c).sampleCount)) cs e ∧
      Host.Core.run Sys2Proof.core 4 s = .next (lapState c e s.gpio.out [.fifoWrite c, .paceTick] turns s) := by
  obtain ⟨src, next, hsrc, hnext, hblk⟩ := hslot.formB
  have hform := recognise_cbbWords hok.board.registers (hok.blockAligned hsrc hnext)
  have hadmitted := hok.admittedB hi hat.address hsrc hnext
  have hrun := run_load_read hok hs hat hblk hsrc
    (fun u he hb hc => by
      rw [hform, Block.toInstr, exec_cbb_fetch (by rw [he]; exact hat.runs) (by rw [he]; exact hat.phase), he, hb, hc,
        hadmitted])
    (fun u hr hp => by rw [hform]; exact exec_cbb_exec hr hp src next)
  set data := busWord s src
  set e := (s.eng c).ready (cbbWords s.board src next) data
  set u := State.setEng { s with agenda := .engine c :: .pacer :: turns } c e with hu
  have heng : u.eng c = e := (eng_setEng ..).trans (if_pos rfl)
  refine ⟨_, hat.advanced (cbbWords s.board src next) data hnext, ?_⟩
  rw [run_add hrun 2]
  set v := advance c next (pushed c { u with agenda := .pacer :: turns }) with hv
  have hstep : step u = .next v := by
    have hruns : (u.eng c).runs = true := by rw [heng]; exact hat.runs
    have hphase : (u.eng c).phase = .write := by rw [heng]; rfl
    have hrecognise : recognise u.board (u.eng c).loaded = .formB src next := by rw [heng]; exact hform
    have hdreq' : dreq { u with agenda := .pacer :: turns } = true := hdreq
    rw [step_loaded (turns := .pacer :: turns) rfl hruns (by rw [hphase]; decide), hrecognise, Block.toInstr,
      exec_cbb_write (s := { u with agenda := .pacer :: turns }) hruns hphase, if_pos hdreq']
    exact writeHalf_fifo (s := { u with agenda := .pacer :: turns }) hok.board next hdreq'
  have hstep' : step v = .next (lapState c { e with conblkAd := next, phase := .fetch } s.gpio.out
      [.fifoWrite c, .paceTick] turns s) := by
    have hrunning : pacerRunning { v with agenda := turns } = true := hpacer
    rw [step_pacer (turns := turns) rfl, paceTurn, if_pos hrunning, hv]
    simp only [advance, pushed_eng, eng_withAgenda, heng]
    simp only [hu, lapState, paceTick, pushed, State.emit, State.setEng, Vector.set_set, Nat.add_sub_cancel,
      List.append_assoc]
    rfl
  rw [run_succ hstep, run_succ hstep', run_zero]

end

/-! ## A lap (R137, R147) -/

theorem SlotBlocks.of_mem {s t : State} {ch : ChanRec} {i : Nat} {reg : GpioReg} (h : SlotBlocks s ch i reg)
    (hm : t.mem = s.mem) (hb : t.board = s.board) : SlotBlocks t ch i reg := by
  have hat (off : Nat) : blockAt t ch off = blockAt s ch off := by
    unfold blockAt arenaWordOf
    rw [hm, hb]
  exact ⟨by rw [hb, hat]; exact h.formA, by rw [hb, hat]; exact h.formB⟩

/-- The turns of one slot, at a slot of the chain. -/
theorem run_slot {s : State} {c : Chan} {cs : Cs} {turns : List Turn} {i : Nat} (hok : ArenaOk s.board (s.chan c))
    (hi : i < (s.chan c).sampleCount) (hs : s.agenda = slotTurns c ++ turns)
    (hat : AtBlock s.board (s.chan c) (2 * i) cs (s.eng c)) {reg : GpioReg} (hslot : SlotBlocks s (s.chan c) i reg)
    {sample : Word} (hsample : sampleWord s c i = some sample) (hpacer : pacerRunning s = true) (hdreq : dreq s = true) :
    ∃ e, AtBlock s.board (s.chan c) (2 * (i + 1) % (2 * (s.chan c).sampleCount)) cs e ∧
      Host.Core.run Sys2Proof.core 7 s = .next (lapState c e (latchAfter reg s.gpio.out sample)
        [.gpioWrite (.dma c) reg sample, .fifoWrite c, .paceTick] turns s) := by
  obtain ⟨e, hat', hrun⟩ := run_cba hok hi hs hat hslot hsample
  set u := lapState c e (latchAfter reg s.gpio.out sample) [.gpioWrite (.dma c) reg sample]
    (.engine c :: .engine c :: .engine c :: .pacer :: turns) s with hu
  have heng : u.eng c = e := eng_lapState ..
  obtain ⟨e', hat'', hrun'⟩ := run_cbb_tick (s := u) (c := c) (cs := cs) hok hi rfl (by rw [heng]; exact hat')
    (hslot.of_mem rfl rfl) hpacer hdreq
  refine ⟨e', hat'', ?_⟩
  rw [run_add hrun 4]
  refine hrun'.trans ?_
  rw [hu, lapState_lapState]
  rfl

/-- The turns of `n` slots from slot `i` on, the last at most the chain's last. -/
theorem run_slots {c : Chan} {cs : Cs} {turns : List Turn} {regs : Nat → GpioReg} {samples : Nat → Word} (n : Nat)
    {s : State} {i : Nat} (hok : ArenaOk s.board (s.chan c)) (hn : i + n ≤ (s.chan c).sampleCount)
    (hslots : ∀ j, j < (s.chan c).sampleCount → SlotBlocks s (s.chan c) j (regs j) ∧ sampleWord s c j = some (samples j))
    (hs : s.agenda = lapTurns c n ++ turns)
    (hat : AtBlock s.board (s.chan c) (2 * i % (2 * (s.chan c).sampleCount)) cs (s.eng c))
    (hpacer : pacerRunning s = true) (hdreq : dreq s = true) :
    ∃ e, AtBlock s.board (s.chan c) (2 * (i + n) % (2 * (s.chan c).sampleCount)) cs e ∧
      Host.Core.run Sys2Proof.core (7 * n) s = .next (lapState c e (replay s.gpio.out (lapEvents c regs samples n i))
        (lapEvents c regs samples n i) turns s) := by
  induction n generalizing s i with
  | zero =>
    refine ⟨s.eng c, hat, ?_⟩
    have hagenda : s.agenda = turns := hs
    have hsame : lapState c (s.eng c) s.gpio.out [] turns s = s := by
      simp only [lapState, List.append_nil, ← hagenda]
      exact setEng_eng_self s c
    rw [Nat.mul_zero, run_zero]
    exact congrArg _ hsame.symm
  | succ n ih =>
    have hi : i < (s.chan c).sampleCount := by omega
    obtain ⟨hslot, hsample⟩ := hslots i hi
    have hagenda : s.agenda = slotTurns c ++ (lapTurns c n ++ turns) := hs
    rw [Nat.mod_eq_of_lt (by omega)] at hat
    obtain ⟨e, hat', hrun⟩ := run_slot hok hi hagenda hat hslot hsample hpacer hdreq
    set u := lapState c e (latchAfter (regs i) s.gpio.out (samples i))
      [.gpioWrite (.dma c) (regs i) (samples i), .fifoWrite c, .paceTick] (lapTurns c n ++ turns) s with hu
    have heng : u.eng c = e := eng_lapState ..
    obtain ⟨e', hat'', hrun'⟩ := ih (s := u) (i := i + 1) hok (by change i + 1 + n ≤ (s.chan c).sampleCount; omega)
      (fun j hj => ⟨(hslots j hj).1.of_mem rfl rfl, (hslots j hj).2⟩) rfl (by rw [heng]; exact hat') hpacer hdreq
    refine ⟨e', by rw [show i + (n + 1) = i + 1 + n by omega]; exact hat'', ?_⟩
    rw [show 7 * (n + 1) = 7 + 7 * n by omega, run_add hrun]
    refine hrun'.trans ?_
    rw [hu, lapState_lapState]
    rfl

/-- Settles O21: the turns of all the slots from slot 0 on, after which the next block is the head. -/
theorem lapReplaysTheTables : Obligations.LapReplaysTheTables := by
  intro s c regs samples turns hok hslots hr hp hhead hpacer henab hlevel hs
  have hat : AtBlock s.board (s.chan c) (2 * 0 % (2 * (s.chan c).sampleCount)) (s.eng c).cs (s.eng c) :=
    ⟨hr, hp, by rw [Nat.mul_zero, Nat.zero_mod]; exact hhead, rfl⟩
  obtain ⟨e, ⟨-, hphase, haddress, hcs⟩, hrun⟩ := run_slots (s.chan c).sampleCount hok (by omega) hslots hs hat hpacer
    ((dreq_iff s).mpr ⟨henab, hlevel⟩)
  rw [Nat.zero_add, Nat.mod_self, hhead] at haddress
  have heng := eng_lapState c e (replay s.gpio.out (lapEvents c regs samples (s.chan c).sampleCount 0))
    (lapEvents c regs samples (s.chan c).sampleCount 0) turns s
  refine ⟨_, hrun, rfl, rfl, ?_, ?_, ?_, fun d hd => eng_setEng_other _ hd, rfl, rfl, rfl, rfl, rfl⟩
  · rw [heng]; exact (Option.some.inj haddress).symm
  · rw [heng]; exact hphase
  · rw [heng]; exact hcs

end Sys2Proof.Machine

/-!
PROOFS. Writes that land late end where direct ones do (O52). A state of the direct run is compared with one whose writes
are still under way: landing them makes the two the same (`Delayed`), and every access of a call keeps it so.
-/

namespace Sys2Proof.Machine

/-! ## Landing all the writes under way -/

/-- The writes land, the oldest first. -/
def landAll : List HostWrite → State → Outcome
  | [], s => .next s
  | w :: ws, s => andThen (land w s) (landAll ws)

theorem landAll_append (ws ws' : List HostWrite) (s : State) :
    landAll (ws ++ ws') s = andThen (landAll ws s) (landAll ws') := by
  induction ws generalizing s with
  | nil => rfl
  | cons w ws ih =>
    simp only [List.cons_append, landAll, andThen_assoc]
    exact congrArg _ (funext ih)

/-- Writes do the same in any surroundings, and leave them. -/
theorem landAll_inside (ws : List HostWrite) (s e : State) :
    landAll ws (s.inside e) = andThen (landAll ws s) fun t => .next (t.inside e) := by
  induction ws generalizing s with
  | nil => rfl
  | cons w ws ih =>
    simp only [landAll, land_inside, andThen_assoc, andThen_next]
    exact congrArg _ (funext ih)

theorem landAll_keeps {ws : List HostWrite} {s t : State} (h : landAll ws s = .next t) : t = t.inside s := by
  have hin := landAll_inside ws s s
  rw [State.inside_self, h, andThen_next] at hin
  exact Host.Outcome.next.inj hin

/-- Under `buffered` as many landing turns as there are writes under way land them all (R80). -/
theorem run_landAll {ws : List HostWrite} {s t : State} (hv : s.board.visibility = .buffered) (hl : s.landing = ws)
    (hs : s.agenda = List.replicate ws.length .land) (h : landAll ws s = .next t) :
    Host.Core.run Sys2Proof.core ws.length s = .next { t with landing := [], agenda := [] } := by
  induction ws generalizing s t with
  | nil =>
    cases h
    obtain ⟨⟩ := s
    cases hl
    cases hs
    rfl
  | cons w ws ih =>
    obtain ⟨u, hu, ht⟩ := andThen_eq_next.mp h
    set e : State := { s with agenda := List.replicate ws.length .land, landing := ws }
    have hstep : step s = .next (u.inside e) := by
      refine (step_land (turns := List.replicate ws.length .land) hs).trans
        ((landOldest_cons (rest := ws) (by exact hv) (by exact hl)).trans ?_)
      change land w (s.inside e) = _
      rw [land_inside, hu, andThen_next]
    have hrest : landAll ws (u.inside e) = .next (t.inside e) := by rw [landAll_inside, ht, andThen_next]
    rw [List.length_cons, run_succ hstep, ih (s := u.inside e) hv rfl rfl hrest]
    have hkeeps := landAll_keeps h
    conv => rhs; rw [hkeeps]
    rfl

/-! ## What writes do to a word, a function-select register, the free values -/

/-- Memory after a write. -/
def HostWrite.onMem (m : Memory) : HostWrite → Memory
  | .arena pa v => Memory.writeWord m pa v
  | _ => m

/-- A function-select register after a write. -/
def HostWrite.onSelect (n : Fin 6) (v : Word) : HostWrite → Word
  | .fsel m x => if m = n then x else v
  | _ => v

/-- The arena word at an address after a write to that word or to another. -/
def HostWrite.onWord (pa : Nat) (v : Word) : HostWrite → Word
  | .arena a x => if a = pa then x else v
  | _ => v

theorem land_mem_fsel {w : HostWrite} {s t : State} (h : land w s = .next t) :
    t.mem = w.onMem s.mem ∧ ∀ n, t.fsel n = w.onSelect n (s.fsel n) := by
  cases w with
  | dmaReset c =>
    obtain ⟨-, -, -, -, hmem, -, hfsel, -⟩ := resolveInFlight_keeps c s
    cases h
    exact ⟨hmem, fun n => congrArg (Vector.get · n) hfsel⟩
  | dmaSetcb c a =>
    simp only [land] at h
    split at h <;> cases h
    exact ⟨rfl, fun _ => rfl⟩
  | fsel m v =>
    cases h
    exact ⟨rfl, fun n => fsel_setFsel s m n v⟩
  | dmaClrdbg | dmaStart => cases h; exact ⟨rfl, fun _ => rfl⟩
  | pwmOff | clkSrc | clkDiv | clkOn | pwmRng | pwmDmac | pwmClrf | pwmOn => cases h; exact ⟨rfl, fun _ => rfl⟩
  | gpio | arena => cases h; exact ⟨rfl, fun _ => rfl⟩

/-- The arena words among the writes are aligned, so that two of them are one word or have disjoint bytes. -/
def alignedWrites (ws : List HostWrite) : Prop := ∀ pa v, .arena pa v ∈ ws → pa % 4 = 0

theorem alignedWrites.tail {w : HostWrite} {ws : List HostWrite} (h : alignedWrites (w :: ws)) : alignedWrites ws :=
  fun pa v hm => h pa v (List.mem_cons_of_mem _ hm)

theorem onMem_wf {m : Memory} (h : Memory.wf m = true) (w : HostWrite) : Memory.wf (w.onMem m) = true := by
  cases w with
  | arena pa v => exact Memory.wf_writeWord h pa v
  | _ => exact h

theorem onMem_readWord {m : Memory} (h : Memory.wf m = true) {w : HostWrite} {ws : List HostWrite}
    (hw : alignedWrites (w :: ws)) {pa : Nat} (hpa : pa % 4 = 0) :
    Memory.readWord (w.onMem m) pa = w.onWord pa (Memory.readWord m pa) := by
  cases w with
  | arena a v =>
    have ha : a % 4 = 0 := hw a v (by simp)
    simp only [HostWrite.onMem, HostWrite.onWord]
    split
    · next he => subst he; exact Memory.readWord_writeWord_same h a v
    · next he => exact Memory.readWord_writeWord_other h v (by omega)
  | _ => rfl

/-- What memory and the function-select registers read once the writes have landed. -/
theorem landAll_reads {ws : List HostWrite} {s t : State} (h : landAll ws s = .next t) (hm : Memory.wf s.mem = true)
    (hw : alignedWrites ws) :
    (∀ pa, pa % 4 = 0 → Memory.readWord t.mem pa = ws.foldl (HostWrite.onWord pa) (Memory.readWord s.mem pa)) ∧
      ∀ n, t.fsel n = ws.foldl (HostWrite.onSelect n) (s.fsel n) := by
  induction ws generalizing s with
  | nil => cases h; exact ⟨fun _ _ => rfl, fun _ => rfl⟩
  | cons w ws ih =>
    obtain ⟨u, hu, ht⟩ := andThen_eq_next.mp h
    obtain ⟨hmem, hfsel⟩ := land_mem_fsel hu
    obtain ⟨hword, hselect⟩ := ih ht (by rw [hmem]; exact onMem_wf hm w) hw.tail
    refine ⟨fun pa hpa => ?_, fun n => ?_⟩
    · rw [hword pa hpa, hmem, onMem_readWord hm hw hpa, List.foldl_cons]
    · rw [hselect n, hfsel n, List.foldl_cons]

/-- Some write is a channel reset, which draws free values (R160). -/
def HostWrite.resets : HostWrite → Bool
  | .dmaReset _ => true
  | _ => false

/-- A write but a channel reset draws nothing and reads no count of draws. -/
theorem land_withDraws {w : HostWrite} (hw : w.resets = false) (s : State) (n : Nat) :
    land w { s with draws := n } = andThen (land w s) fun t => .next { t with draws := n } := by
  cases w with
  | dmaReset => cases hw
  | dmaSetcb c a =>
    have heng : State.eng { s with draws := n } c = s.eng c := rfl
    simp only [land, heng]
    split
    · rfl
    · rfl
  | dmaClrdbg | dmaStart => rfl
  | pwmOff | clkSrc | clkDiv | clkOn | pwmRng | pwmDmac | pwmClrf | pwmOn => rfl
  | fsel | gpio | arena => rfl

theorem landAll_withDraws {ws : List HostWrite} (hw : ∀ w ∈ ws, w.resets = false) (s : State) (n : Nat) :
    landAll ws { s with draws := n } = andThen (landAll ws s) fun t => .next { t with draws := n } := by
  induction ws generalizing s with
  | nil => rfl
  | cons w ws ih =>
    change andThen (land w { s with draws := n }) (landAll ws) = andThen (andThen (land w s) (landAll ws)) _
    rw [land_withDraws (hw w (by simp)) s n, andThen_assoc, andThen_assoc]
    exact congrArg _ (funext fun u => ih (fun v hv => hw v (by simp [hv])) u)

/-! ## A run whose writes are under way -/

/-- The surroundings of `s` under `buffered`, the hardware as `r` has it, the writes `l` under way. -/
def State.behind (s r : State) (l : List HostWrite) : State :=
  { s with
    dma := r.dma, pwm := r.pwm, clk := r.clk, gpio := r.gpio, mem := r.mem, trace := r.trace, draws := r.draws
    landing := l, board := { s.board with visibility := .buffered } }

/-- `s`, where writes land at once, is where the run with hardware `r` and the writes `l` under way will be once these
have landed. -/
structure Delayed (s r : State) (l : List HostWrite) : Prop where
  lands : landAll l (s.behind r l) = .next (s.behind s l)
  direct : s.board.visibility = .sc
  settled : s.landing = []
  quiet : s.agenda = []
  wf : Memory.wf r.mem = true
  aligned : alignedWrites l

/-- What landing comes to is a matter of the hardware and the parameters alone. -/
theorem landAll_behind {ws l l' : List HostWrite} {s s' r t : State} (hb : s'.board = s.board)
    (h : landAll ws (s.behind r l) = .next (s.behind t l)) : landAll ws (s'.behind r l') = .next (s'.behind t l') := by
  have hin (q : State) : s'.behind q l' = (s.behind q l).inside (s'.behind r l') := by
    simp only [State.behind, State.inside, hb]
  rw [hin r, landAll_inside, h, andThen_next, hin t]

theorem Changes.board {s t : State} (h : Changes s t) : t.board = s.board := by
  induction h with
  | refl => rfl
  | tail _ hlast ih => exact hlast.board.trans ih

/-- With nothing under way the two runs have the same hardware. -/
theorem Delayed.behind_nil {s r : State} (h : Delayed s r []) : s.behind r [] = s.behind s [] :=
  Host.Outcome.next.inj h.lands

theorem Delayed.start {s : State} (hv : s.board.visibility = .sc) (hl : s.landing = []) (hq : s.agenda = [])
    (hm : Memory.wf s.mem = true) : Delayed s s [] :=
  ⟨rfl, hv, hl, hq, hm, nofun⟩

/-- A write that lands on one side joins the writes under way on the other. -/
theorem Delayed.issue {s r t : State} {l : List HostWrite} (h : Delayed s r l) {w : HostWrite} (hl : land w s = .next t)
    (hw : ∀ pa v, w = .arena pa v → pa % 4 = 0) : Delayed t r (l ++ [w]) := by
  have hkeeps := land_keeps hl
  have hb : t.board = s.board := (land_changes w s t hl).board
  refine ⟨?_, by rw [hb]; exact h.direct, by rw [hkeeps]; exact h.settled, by rw [hkeeps]; exact h.quiet, h.wf,
    fun pa v hm => ?_⟩
  · have hin : t.behind s (l ++ [w]) = s.inside (t.behind s (l ++ [w])) := by
      simp only [State.behind, State.inside, hb]
    rw [landAll_append, landAll_behind hb h.lands, andThen_next, landAll, hin, land_inside, hl]
    rfl
  · rcases List.mem_append.mp hm with hm | hm
    · exact h.aligned pa v hm
    · exact hw pa v (List.mem_singleton.mp hm).symm

/-- An entry in the host's context is made on both sides. -/
theorem Delayed.withHost {s r : State} {l : List HostWrite} (h : Delayed s r l) (c : HostContext) :
    Delayed { s with host := c } r l :=
  ⟨by exact landAll_behind (s := s) (t := s) rfl h.lands, h.direct, h.settled, h.quiet, h.wf, h.aligned⟩

/-- With no reset under way, free values are drawn alike. -/
theorem Delayed.drawn {s r : State} {l : List HostWrite} (h : Delayed s r l) (hr : ∀ w ∈ l, w.resets = false) :
    s.draws = r.draws ∧ Delayed s.drawn r.drawn l := by
  have hdraws : s.draws = r.draws := by
    have hsame := landAll_withDraws hr (s.behind r l) r.draws
    change landAll l (s.behind r l) = _ at hsame
    rw [h.lands, andThen_next] at hsame
    exact (congrArg State.draws (Host.Outcome.next.inj hsame) :)
  refine ⟨hdraws, ?_, h.direct, h.settled, h.quiet, h.wf, h.aligned⟩
  change landAll l { s.behind r l with draws := r.draws + 1 } = _
  rw [landAll_withDraws hr, h.lands, andThen_next, ← hdraws]
  rfl

/-! ## What the host reads (R80, program order) -/

theorem pending_behind (s r : State) (l : List HostWrite) : pending (s.behind r l) = l := rfl

theorem seenWord_eq (s : State) (pa : Nat) :
    seenWord s pa = (pending s).foldl (HostWrite.onWord pa) (Memory.readWord s.mem pa) := rfl

theorem seenSelect_eq (s : State) (n : Fin 6) :
    seenSelect s n = (pending s).foldl (HostWrite.onSelect n) (s.fsel n) := rfl

/-- The host reads an arena word as it will be. -/
theorem Delayed.seenWord {s r : State} {l : List HostWrite} (h : Delayed s r l) {pa : Nat} (hpa : pa % 4 = 0) :
    seenWord (s.behind r l) pa = seenWord s pa := by
  rw [seenWord_sc h.direct, seenWord_eq, pending_behind]
  exact ((landAll_reads h.lands h.wf h.aligned).1 pa hpa).symm

/-- The host reads a function-select register as it will be. -/
theorem Delayed.selectRead {s r : State} {l : List HostWrite} (h : Delayed s r l) (hr : ∀ w ∈ l, w.resets = false)
    (n : Fin 6) : selectRead (s.behind r l) n = selectRead s n := by
  have hseen : seenSelect (s.behind r l) n = seenSelect s n := by
    rw [seenSelect_sc h.direct, seenSelect_eq, pending_behind]
    exact ((landAll_reads h.lands h.wf h.aligned).2 n).symm
  have hdraws : (s.behind r l).draws = s.draws := (h.drawn hr).1.symm
  have hfields : fselFields (s.behind r l).board = fselFields s.board := rfl
  simp only [Machine.selectRead, hseen, hdraws, hfields]

end Sys2Proof.Machine

/-!
PROOFS. Every access keeps a run whose writes are under way behind the direct one (O52).
-/

namespace Sys2Proof.Machine

/-! ## What may come while writes are under way -/

/-- The access makes a host write. -/
def Action.issues : Action → Bool
  | .write _ | .writeSelect _ | .setSample _ _ _ | .clearSample _ _ _ | .retarget _ _ _ | .writeField _ _ _
  | .setHead _ => true
  | _ => false

/-- The write is DMA_RESET, which draws free values where it lands. -/
def Action.resets : Action → Bool
  | .write w => w.resets
  | _ => false

/-- The access clears pages, at once (log 21). -/
def Action.takesPages : Action → Bool
  | .recordArena _ _ _ | .handArena => true
  | _ => false

/-- The access draws a free value. -/
def Action.draws : Action → Bool
  | .readSelect _ | .readRegister _ => true
  | _ => false

/-- A write of an arena word that names its address itself: no operation makes one. -/
def Action.writesRaw : Action → Bool
  | .write (.arena _ _) => true
  | _ => false

/-- No page is cleared while a write is under way, and no free value drawn while a reset is. -/
def mayFollow (a b : Action) : Prop := (a.issues = true → b.takesPages = false) ∧ (a.resets = true → b.draws = false)

/-- The accesses of an operation are in such an order. -/
structure Orderly (todo : List Action) : Prop where
  words : ∀ a ∈ todo, a.writesRaw = false
  order : todo.Pairwise mayFollow

/-- The writes under way after an access: the same unless it makes one, and no reset but its own. -/
structure Grows (a : Action) (l l' : List HostWrite) : Prop where
  same : a.issues = false → l' = l
  resets : ∀ w ∈ l', w.resets = true → w ∈ l ∨ a.resets = true

theorem Grows.refl (a : Action) (l : List HostWrite) : Grows a l l := ⟨fun _ => rfl, fun _ h _ => .inl h⟩

theorem Grows.append {a : Action} (ha : a.issues = true) {w : HostWrite} (hw : w.resets = true → a.resets = true)
    (l : List HostWrite) : Grows a l (l ++ [w]) := by
  refine ⟨fun h => absurd (ha.symm.trans h) nofun, fun v hv hr => ?_⟩
  rcases List.mem_append.mp hv with hv | hv
  · exact .inl hv
  · rw [List.mem_singleton.mp hv] at hr
    exact .inr (hw hr)

/-! ## One access on both sides -/

/-- The access that leads the direct run from `s` to `t` comes to the same in the run behind it, which stays behind. -/
def Tracks (a : Action) (x : Scratch) (s r : State) (l : List HostWrite) (t : State) : Prop :=
  ∃ r' l', perform a x (s.behind r l) = (perform a x s).withState (t.behind r' l') ∧ Delayed t r' l' ∧ Grows a l l'

/-- A write leaves the surroundings. -/
theorem behind_of_land {w : HostWrite} {s t : State} (h : land w s = .next t) (r : State) (l : List HostWrite) :
    t.behind r l = s.behind r l := by
  have hb : t.board = s.board := (land_changes w s t h).board
  rw [land_keeps h]
  simp only [State.behind, State.inside, hb]

theorem command_mapped {w : HostWrite} {s t : State} (h : command w s = .next t) : s.host.windowsMapped = true := by
  unfold command throughWindow at h
  split at h
  · next hm => exact hm
  · cases h

/-- A register command that lands on one side joins the writes under way on the other. -/
theorem Delayed.command {s r t : State} {l : List HostWrite} (h : Delayed s r l) {w : HostWrite}
    (hw : ∀ pa v, w = .arena pa v → pa % 4 = 0) (hc : command w s = .next t) :
    command w (s.behind r l) = .next (t.behind r (l ++ [w])) ∧ Delayed t r (l ++ [w]) := by
  have hm := command_mapped hc
  rw [command_eq h.direct hm] at hc
  refine ⟨?_, h.issue hc hw⟩
  rw [command_buffered (s := s.behind r l) rfl hm, behind_of_land hc]
  rfl

section
variable {a : Action} {x : Scratch} {s r t : State} {l : List HostWrite}

theorem Tracks.command (h : Delayed s r l) {w : HostWrite} (hw : ∀ pa v, w = .arena pa v → pa % 4 = 0)
    (ha : a.issues = true) (hr : w.resets = true → a.resets = true) (hs : perform a x s = .of x (command w s))
    (hbehind : perform a x (s.behind r l) = .of x (Machine.command w (s.behind r l)))
    (hp : (perform a x s).state = some t) : Tracks a x s r l t := by
  rw [hs, Did.state_of] at hp
  obtain ⟨hc, hd⟩ := h.command hw hp
  exact ⟨r, l ++ [w], by rw [hbehind, hs, hc, hp]; rfl, hd, .append ha hr l⟩

/-- An access that changes at most the host's context. -/
theorem Tracks.context (h : Delayed s r l) (c : HostContext) (ht : t = { s with host := c })
    (hp : perform a x (s.behind r l) = (perform a x s).withState (t.behind r l)) : Tracks a x s r l t :=
  ⟨r, l, hp, ht ▸ h.withHost c, .refl a l⟩

/-- A page-aligned view offset leaves a word's physical address aligned (R73, R74). -/
theorem ArenaOk.physicalOf_mod_four {b : Board} {ch : ChanRec} (h : ArenaOk b ch) {off : Nat} {w : Word}
    (hw : phys b ch off = some w) (ha : off % 4 = 0) : physicalOf b w % 4 = 0 := by
  have hword := h.phys_mod_four hw ha
  have hoffset := h.board.four_dvd_pageSize.trans h.board.pageSize_dvd_offset
  unfold physicalOf
  omega

/-- A table access reads the word as it will be, or its write joins those under way. -/
theorem Tracks.table (h : Delayed s r l) (harenas : ArenasOk s) {c : Chan} (ha : tableAccess c a)
    (hp : (perform a x s).state = some t) : Tracks a x s r l t := by
  obtain ⟨off, wr, w, hword, hw⟩ := tableAccess_word ha hp
  have hok := harenas.of_phys hw
  have hoff := hword.mod_four hok
  have hpa := hok.physicalOf_mod_four hw hoff
  have hmem : inBusMemory s.board w = true := hok.phys_inBusMemory hw
  have hword' : TableWord (s.behind r l).board ((s.behind r l).chan c) c x.word a off wr := by
    cases hword with
    | read i => exact .read i
    | set p i => exact .set p i
    | clear p i => exact .clear p i
    | retarget i reg => exact .retarget i reg
    | field k f blk hblk => exact .field k f blk hblk
  rw [hword.perform_eq hok hw h.direct] at hp
  cases hp
  have hw' : phys (s.behind r l).board ((s.behind r l).chan c) off = some w := hw
  have hmem' : inBusMemory (s.behind r l).board w = true := hmem
  rw [Tracks, hword.perform_eq hok hw h.direct, hword'.perform rfl rfl]
  cases wr with
  | none =>
    refine ⟨r, l, ?_, h, .refl a l⟩
    have hseen : Machine.seenWord (s.behind r l) (physicalOf (s.behind r l).board w) =
        Memory.readWord s.mem (physicalOf s.board w) := (h.seenWord hpa).trans (seenWord_sc h.direct _)
    simp only [arenaRead, hw', hmem', if_true, hseen]
    rfl
  | some v =>
    have hland : land (.arena (physicalOf s.board w) v) s =
        .next { s with mem := stored s.mem (physicalOf s.board w) (some v) } := rfl
    refine ⟨r, l ++ [.arena (physicalOf s.board w) v], ?_,
      h.issue hland (fun pa v' he => by cases he; exact hpa), .append ?_ (fun hr => by cases hr) l⟩
    · simp only [arenaWrite, atArena, hw', hmem', if_true]
      rfl
    · cases hword <;> rfl

/-- With nothing under way both sides do the same. -/
theorem Tracks.fresh (h : Delayed s r []) (hwf : Memory.wf t.mem = true) (hb : t.board = s.board)
    (hl : t.landing = s.landing) (hq : t.agenda = s.agenda)
    (hp : perform a x (s.behind s []) = (perform a x s).withState (t.behind t [])) : Tracks a x s r [] t :=
  ⟨t, [], by rw [h.behind_nil, hp], .start (by rw [hb]; exact h.direct) (hl.trans h.settled) (hq.trans h.quiet) hwf,
    .refl a []⟩

/-- Clearing pages does not depend on the visibility of writes. -/
theorem clearPages_behind (s r : State) (l : List HostWrite) (m : Memory) (pages : List Word) :
    Memory.clearPages (s.behind r l).board m pages = Memory.clearPages s.board m pages := by
  induction pages generalizing m with
  | nil => rfl
  | cons page pages ih => exact ih _

/-- Pages are cleared alike while nothing is under way. -/
theorem Tracks.takePages {k : State → Did} (h : Delayed s r []) (hs : perform a x s = takePages x s k)
    (hbehind : perform a x (s.behind s []) = Machine.takePages x (s.behind s []) k)
    (hk : ∀ m, Memory.wf m = true → (k { s with mem := m }).state = some t →
      Memory.wf t.mem = true ∧ t.board = s.board ∧ t.landing = s.landing ∧ t.agenda = s.agenda ∧
        k { s.behind s [] with mem := m } = (k { s with mem := m }).withState (t.behind t []))
    (hp : (perform a x s).state = some t) : Tracks a x s r [] t := by
  have hexact : exactPages (s.behind s []) x.pages = exactPages s x.pages := rfl
  have hsame : r.mem = s.mem := (congrArg State.mem h.behind_nil :)
  rw [hs] at hp
  unfold Machine.takePages at hp
  split at hp
  · next he =>
    obtain ⟨hwf, hb, hl, hq, hdid⟩ := hk _ (Memory.wf_clearPages (hsame ▸ h.wf) _) hp
    refine .fresh h hwf hb hl hq ?_
    rw [hbehind, hs]
    unfold Machine.takePages
    rw [hexact, if_pos he, if_pos he, clearPages_behind]
    exact hdid
  · cases hp

/-- DMA_SETCB with the head of the chain is a register command. -/
theorem Tracks.setHead {c : Chan} (h : Delayed s r l) (hp : (perform (.setHead c) x s).state = some t) :
    Tracks (.setHead c) x s r l t := by
  cases hhead : blockAddress s.board (s.chan c) 0 with
  | none => simp only [perform, hhead] at hp; cases hp
  | some head =>
    by_cases halign : head.toNat % s.board.cbAlign = 0
    · have hhead' : blockAddress (s.behind r l).board ((s.behind r l).chan c) 0 = some head := hhead
      refine .command h (w := .dmaSetcb c head) nofun rfl nofun ?_ ?_ hp
      · simp only [perform, hhead, setHeadTo_aligned halign]
      · simp only [perform, hhead', setHeadTo_aligned (s := s.behind r l) halign]
    · simp only [perform, hhead, setHeadTo_misaligned halign] at hp
      cases hp

/-- A read of a function-select register returns the same, and draws the same. -/
theorem Tracks.select (h : Delayed s r l) (hr : ∀ w ∈ l, w.resets = false) {did : Word → State → Did} {n : Fin 6}
    (hdid : ∀ v u u', (did v u).withState u' = did v u') (hstate : ∀ v u, (did v u).state = some u)
    (hs : perform a x s = throughWindowDid s (did (selectRead s n) s.drawn))
    (hbehind : perform a x (s.behind r l) =
      throughWindowDid (s.behind r l) (did (selectRead (s.behind r l) n) (s.behind r l).drawn))
    (hp : (perform a x s).state = some t) : Tracks a x s r l t := by
  rw [hs] at hp
  unfold throughWindowDid at hp
  split at hp
  · next hm =>
    have hm' : (s.behind r l).host.windowsMapped = true := hm
    rw [hstate] at hp
    cases hp
    refine ⟨r.drawn, l, ?_, (h.drawn hr).2, .refl a l⟩
    rw [hs, hbehind, h.selectRead hr]
    unfold throughWindowDid
    rw [if_pos hm, if_pos hm', hdid]
    rfl
  · cases hp

/-- WHAT AN ACCESS COMES TO while writes are under way: what it comes to where they land at once. -/
theorem perform_tracks (h : Delayed s r l) (harenas : ArenasOk s) (hword : a.writesRaw = false)
    (hpages : a.takesPages = true → l = []) (hdraws : a.draws = true → ∀ w ∈ l, w.resets = false)
    (hp : (perform a x s).state = some t) : Tracks a x s r l t := by
  cases a with
  | write w => exact .command h (fun pa v hw => by subst hw; cases hword) rfl (fun hr => hr) rfl rfl hp
  | writeSelect p => exact .command h (fun _ _ he => by cases he) rfl (fun hr => by cases hr) rfl rfl hp
  | setHead c => exact .setHead h hp
  | readSample | setSample | clearSample | retarget | writeField => exact .table h harenas rfl hp
  | readSelect p =>
    exact .select h (hdraws rfl) (did := fun v u => .went { x with word := v } u) (fun _ _ _ => rfl) (fun _ _ => rfl)
      rfl rfl hp
  | readRegister n =>
    exact .select h (hdraws rfl) (did := fun v u => .ended (.word v) u) (fun _ _ _ => rfl) (fun _ _ => rfl) rfl rfl hp
  | recordClaim | recordWindows | touchPage => cases hp; exact .context h _ rfl rfl
  | mapWindow base =>
    have hmap : mapSucceeds base (s.behind r l) = mapSucceeds base s := rfl
    simp only [perform] at hp
    split at hp
    · next hm => cases hp; exact .context h _ rfl (by simp only [perform, hmap, hm]; rfl)
    · next hm => cases hp; exact .context h _ rfl (by simp only [perform, hmap, hm]; rfl)
  | makeRegion =>
    have henv : (s.behind r l).env = s.env := rfl
    simp only [perform] at hp
    split at hp
    · next hm => cases hp; exact .context h _ rfl (by simp only [perform, henv, hm]; rfl)
    · next hm => cases hp; exact .context h _ rfl (by simp only [perform, henv, hm]; rfl)
  | resolvePage j =>
    have hframe (v : Nat) : resolveFrame (s.behind r l).board (s.behind r l).env (virtualPage (s.behind r l).board v j) =
        resolveFrame s.board s.env (virtualPage s.board v j) := rfl
    simp only [perform, resolve] at hp
    split at hp
    · next hm => cases hp; exact .context h _ rfl (by simp only [perform, resolve, hframe, hm]; rfl)
    · cases hp
    · next hm => cases hp; exact .context h _ rfl (by simp only [perform, resolve, hframe, hm]; rfl)
  | recordClock inc =>
    have hhost : (s.behind r l).host = s.host := rfl
    simp only [perform] at hp
    split at hp
    · cases hp
    · next hm => cases hp; exact .context h _ rfl (by simp only [perform, hhost, if_neg hm]; rfl)
  | recordChannel c =>
    have hchan : (s.behind r l).chan c = s.chan c := rfl
    simp only [perform] at hp
    split at hp
    · cases hp
    · next hm => cases hp; exact .context h _ rfl (by simp only [perform, hchan, if_neg hm]; rfl)
  | recordArena c sub n =>
    obtain rfl := hpages rfl
    by_cases hi : (s.chan c).initialized = true
    · simp only [perform, recordArena, if_pos hi] at hp
      cases hp
    · by_cases hn : n = 0 ∨ x.pages.length ≠ pageCountOf s.board n
      · simp only [perform, recordArena, if_neg hi, if_pos hn] at hp
        cases hp
      · exact .takePages h ((if_neg hi).trans (if_neg hn)) ((if_neg hi).trans (if_neg hn))
          (fun m hm hk => by cases hk; exact ⟨hm, rfl, rfl, rfl, rfl⟩) hp
  | handArena =>
    obtain rfl := hpages rfl
    exact .takePages h rfl rfl (fun m hm hk => by cases hk; exact ⟨hm, rfl, rfl, rfl, rfl⟩) hp

end

end Sys2Proof.Machine

/-!
PROOFS. Calls and instructions whose writes land late (O52).
-/

namespace Sys2Proof.Machine

/-! ## A call's accesses -/

theorem Changes.arenasOk {s t : State} (h : Changes s t) (hs : ArenasOk s) : ArenasOk t := by
  induction h with
  | refl => exact hs
  | tail _ hlast ih => exact hlast.arenasOk ih

/-- The accesses `todo` may come while the writes `l` are under way. -/
structure Admits (l : List HostWrite) (todo : List Action) : Prop where
  pages : l = [] ∨ ∀ a ∈ todo, a.takesPages = false
  draws : (∀ w ∈ l, w.resets = false) ∨ ∀ a ∈ todo, a.draws = false

theorem Admits.nil (todo : List Action) : Admits [] todo := ⟨.inl rfl, .inl nofun⟩

theorem Admits.head {l : List HostWrite} {a : Action} {todo : List Action} (h : Admits l (a :: todo)) :
    (a.takesPages = true → l = []) ∧ (a.draws = true → ∀ w ∈ l, w.resets = false) :=
  ⟨fun ha => h.pages.resolve_right fun hno => absurd ((hno a (by simp)).symm.trans ha) nofun,
    fun ha => h.draws.resolve_right fun hno => absurd ((hno a (by simp)).symm.trans ha) nofun⟩

/-- What may come after an access, with its own write under way too. -/
theorem Admits.tail {l l' : List HostWrite} {a : Action} {todo : List Action} (h : Admits l (a :: todo))
    (hg : Grows a l l') (hfollow : ∀ b ∈ todo, mayFollow a b) : Admits l' todo where
  pages := by
    cases hi : a.issues with
    | true => exact .inr fun b hb => (hfollow b hb).1 hi
    | false => exact h.pages.imp (hg.same hi).trans fun hno b hb => hno b (by simp [hb])
  draws := by
    cases hr : a.resets with
    | true => exact .inr fun b hb => (hfollow b hb).2 hr
    | false =>
      refine h.draws.imp (fun hl w hw => Bool.eq_false_iff.mpr fun hres => ?_) fun hno b hb => hno b (by simp [hb])
      rcases hg.resets w hw hres with hmem | ha
      · exact absurd ((hl w hmem).symm.trans hres) nofun
      · exact absurd (hr.symm.trans ha) nofun

/-- Where the direct run goes from `s` to `t` by `f`, the run behind it goes on by `f` too and stays behind. -/
def TracksTo (f : State → Outcome) (s r : State) (l : List HostWrite) (t : State) : Prop :=
  ∃ r' l', f (s.behind r l) = .next (t.behind r' l') ∧ Delayed t r' l'

theorem Delayed.answer {s r : State} {l : List HostWrite} (h : Delayed s r l) (res : HostResult) :
    Delayed (s.answer res) r l := h.withHost _

/-- Accesses in order keep a run whose writes are under way behind the direct one. -/
theorem runActions_tracks {busy : List Resource} {finish : State → Outcome}
    (hf : ∀ s r l t, Delayed s r l → finish s = .next t → TracksTo finish s r l t) {todo : List Action}
    (ho : Orderly todo) {x : Scratch} {s r t : State} {l : List HostWrite} (h : Delayed s r l) (harenas : ArenasOk s)
    (ha : Admits l todo) (hr : runActions busy finish todo x s = .next t) :
    TracksTo (runActions busy finish todo x) s r l t := by
  induction todo generalizing busy x s r l with
  | nil => exact hf s r l t h hr
  | cons a todo ih =>
    have hquiet : (s.behind r l).agenda = [] := h.quiet
    unfold TracksTo
    unfold runActions at hr ⊢
    rw [hostTurn_quiet h.quiet, andThen_next] at hr
    simp only [hostTurn_quiet hquiet, andThen_next]
    have tracks {u : State} (hu : (perform a x s).state = some u) : Tracks a x s r l u :=
      perform_tracks h harenas (ho.words a (by simp)) ha.head.1 ha.head.2 hu
    obtain ⟨hfollow, horder⟩ := List.pairwise_cons.mp ho.order
    split at hr
    · next y u hu =>
      obtain ⟨r', l', hp, hd, hg⟩ := tracks (by rw [hu]; rfl)
      rw [hu] at hp
      simp only [hp, Did.withState]
      exact ih ⟨fun b hb => ho.words b (by simp [hb]), horder⟩ hd
        ((perform_changes a (by rw [hu]; rfl)).arenasOk harenas) (ha.tail hg hfollow) hr
    · next res u hu =>
      obtain ⟨r', l', hp, hd, -⟩ := tracks (by rw [hu]; rfl)
      rw [hu] at hp
      cases hr
      simp only [hp, Did.withState]
      exact ⟨r', l', rfl, hd.answer res⟩
    · cases hr
    · cases hr

/-! ## The order of each operation's accesses -/

/-- Accesses that may come in any order: they reset no engine and take no page. -/
def Action.loose (a : Action) : Bool := !a.writesRaw && !a.takesPages && !a.resets

/-- Accesses that may come in any order: they draw no value and take no page. -/
def Action.settled (a : Action) : Bool := !a.writesRaw && !a.takesPages && !a.draws

theorem Orderly.of_loose {todo : List Action} (h : todo.all Action.loose = true) : Orderly todo := by
  simp only [List.all_eq_true, Action.loose, Bool.and_eq_true, Bool.not_eq_true'] at h
  exact ⟨fun a ha => (h a ha).1.1, List.pairwise_of_forall_mem_list fun a ha b hb =>
    ⟨fun _ => (h b hb).1.2, fun hr => absurd ((h a ha).2.symm.trans hr) nofun⟩⟩

theorem Orderly.of_settled {todo : List Action} (h : todo.all Action.settled = true) : Orderly todo := by
  simp only [List.all_eq_true, Action.settled, Bool.and_eq_true, Bool.not_eq_true'] at h
  exact ⟨fun a ha => (h a ha).1.1, List.pairwise_of_forall_mem_list fun a ha b hb =>
    ⟨fun _ => (h b hb).1.2, fun _ => (h b hb).2⟩⟩

/-- An access that makes no write may come before any other. -/
theorem mayFollow_of_silent {a : Action} (h : a.issues = false) (b : Action) : mayFollow a b := by
  cases a with
  | write => cases h
  | _ => exact ⟨fun hi => absurd (h.symm.trans hi) nofun, nofun⟩

/-- Accesses that make no write, and then others in order. -/
theorem Orderly.silent_append {todo todo' : List Action} (h : todo.all (fun a => !a.issues) = true)
    (h' : Orderly todo') : Orderly (todo ++ todo') := by
  simp only [List.all_eq_true, Bool.not_eq_true'] at h
  refine ⟨fun a ha => ?_, List.pairwise_append.mpr ⟨List.pairwise_of_forall_mem_list fun a ha b _ =>
    mayFollow_of_silent (h a ha) b, h'.order, fun a ha b _ => mayFollow_of_silent (h a ha) b⟩⟩
  rcases List.mem_append.mp ha with ha | ha
  · cases a with
    | write => cases h _ ha
    | _ => rfl
  · exact h'.words a ha

theorem all_append_of {p : Action → Bool} {todo todo' : List Action} (h : todo.all p = true) (h' : todo'.all p = true) :
    (todo ++ todo').all p = true := by
  rw [List.all_append, h, h', Bool.and_self]

theorem all_flatMap_of {α : Type} {p : Action → Bool} {f : α → List Action} (h : ∀ x, (f x).all p = true)
    (xs : List α) : (xs.flatMap f).all p = true := by
  rw [List.all_flatMap, List.all_eq_true]
  exact fun x _ => h x

theorem clearActions_loose (c : Chan) (p : Pin) (i n : Nat) : (clearActions c p i n).all Action.loose = true :=
  all_flatMap_of (fun _ => rfl) _

theorem pulseActions_loose (c : Chan) (p : Pin) (start width maxWidth : Nat) :
    (pulseActions c p start width maxWidth).all Action.loose = true := by
  have hset : ([.readSample c start, .setSample c p start, .retarget c start .set0] : List Action).all Action.loose =
    true := rfl
  refine all_append_of (all_append_of hset (clearActions_loose ..)) ?_
  split
  · exact all_append_of (clearActions_loose ..) rfl
  · rfl

theorem chainActions_settled (c : Chan) (n : Nat) : (chainActions c n).all Action.settled = true :=
  all_flatMap_of (fun _ => rfl) _

theorem regionActions_silent (n : Nat) : (regionActions n).all (fun a => !a.issues) = true :=
  all_append_of (todo := [.makeRegion]) rfl (all_flatMap_of (fun _ => rfl) _)

/-- A call whose accesses are in order. -/
def Call.orderly : Call → Prop
  | .answer _ | .refuse _ => True
  | .go _ todo => Orderly todo

theorem onChannel_orderly (channel : Int) (s : State) {k : Chan → Call} (h : ∀ c, (k c).orderly) :
    (onChannel channel s k).orderly := by
  unfold onChannel
  split
  · trivial
  · split
    · exact h _
    · trivial

theorem pulseCall_orderly (c : Chan) (gpio start width : Int) (s : State) : (pulseCall c gpio start width s).orderly := by
  unfold pulseCall
  split
  · trivial
  · next p _ =>
    have hpulse := pulseActions_loose c p start.toNat width.toNat (s.chan c).maxWidth
    split_ifs
    · trivial
    · trivial
    · exact .of_loose hpulse
    · exact .of_loose (all_append_of (todo := claimActions p) rfl hpulse)

/-- Bringing a channel up takes its pages before its first write (R205). -/
theorem bringUpActions_orderly (b : Board) (c : Chan) (sub : Int) (n : Nat) : Orderly (bringUpActions b c sub n) := by
  have hsilent : (Action.mapWindow (windowBase b (.dma c)) :: regionActions (pageCountOf b n) ++
      [Action.recordArena c sub n]).all
      (fun a => !a.issues) = true :=
    all_append_of (all_append_of (todo := [_]) rfl (regionActions_silent _)) rfl
  have hsettled : (chainActions c n ++ startActions c ++ [Action.recordChannel c]).all Action.settled = true :=
    all_append_of (all_append_of (chainActions_settled c n) rfl) rfl
  have h := Orderly.silent_append hsilent (.of_settled hsettled)
  simpa only [bringUpActions, List.append_assoc] using h

/-- EVERY CALL makes its accesses in an order in which its writes may land late. -/
theorem callOfInstr_orderly (i : Instr) (s : State) : (callOfInstr i s).orderly := by
  cases i with
  | cba | cbb | cbx | settle => trivial
  | dmaReset | dmaClrdbg | dmaStart => exact .of_settled rfl
  | pwmOff | clkSrc | clkDiv | clkOn | pwmRng | pwmDmac | pwmClrf | pwmOn => exact .of_settled rfl
  | gpioSet | gpioClr => exact .of_settled rfl
  | gpioFselRd => exact .of_loose rfl
  | dmaSetcb =>
    simp only [callOfInstr]
    split
    · exact .of_settled rfl
    · trivial
  | gpioFselOut p =>
    simp only [callOfInstr, callSelectOutput]
    split
    · exact .of_loose rfl
    · trivial
  | initEngine inc =>
    simp only [callOfInstr, callInitialize]
    split_ifs
    · trivial
    · trivial
    · exact .of_loose rfl
  | initChannel channel sub =>
    simp only [callOfInstr, callInitChannel]
    split
    · trivial
    · split
      · trivial
      · split_ifs
        · trivial
        · trivial
        · trivial
        · trivial
        · exact bringUpActions_orderly ..
  | addChannelPulse channel g a w => exact onChannel_orderly channel s fun c => pulseCall_orderly c g a w s
  | setChannelPercent channel g p => exact onChannel_orderly channel s fun c => pulseCall_orderly c g 0 _ s
  | clearChannelGpio channel g =>
    refine onChannel_orderly channel s fun c => ?_
    split
    · trivial
    · split
      · exact .of_loose (all_append_of (clearActions_loose ..) rfl)
      · trivial
  | map base len =>
    simp only [callOfInstr, callMap]
    split <;> trivial
  | allocate n =>
    have h := Orderly.silent_append (all_append_of (regionActions_silent n.toNat) (todo' := [.handArena]) rfl)
      (.of_loose (todo := []) rfl)
    rwa [List.append_nil] at h
  | compile channel =>
    simp only [callOfInstr, callCompile]
    split
    · trivial
    · split
      · trivial
      · exact .of_settled (all_append_of (chainActions_settled ..) rfl)
  | configureGlobalClock inc =>
    simp only [callOfInstr, callConfigureGlobalClock]
    split
    · exact .of_loose rfl
    · trivial
  | claim g =>
    simp only [callOfInstr, callClaim]
    split
    · trivial
    · split
      · trivial
      · exact .of_loose rfl

/-! ## A call -/

theorem next_tracks (s r : State) (l : List HostWrite) (t : State) (h : Delayed s r l) (ht : (.next s : Outcome) = .next t) :
    TracksTo (fun u => .next u) s r l t := by
  cases ht
  exact ⟨r, l, rfl, h⟩

theorem succeed_tracks (s r : State) (l : List HostWrite) (t : State) (h : Delayed s r l) (ht : succeed s = .next t) :
    TracksTo succeed s r l t := by
  cases ht
  exact ⟨r, l, rfl, h.answer .ok⟩

/-- A call that the main thread runs whole, from a state with nothing under way. -/
theorem runCall_tracks {finish : State → Outcome}
    (hf : ∀ s r l t, Delayed s r l → finish s = .next t → TracksTo finish s r l t) {call : Call} (hc : call.orderly)
    {s t : State} (h : Delayed s s []) (harenas : ArenasOk s) (hr : runCall finish call s = .next t) :
    TracksTo (runCall finish call) s s [] t := by
  cases call with
  | answer res => cases hr; exact ⟨s, [], rfl, h.answer res⟩
  | refuse r => cases hr
  | go locks todo =>
    simp only [runCall] at hr
    split at hr
    · next hb =>
      have hb' : mayBegin [] locks (s.behind s []) = true := hb
      obtain ⟨r', l', hrun, hd⟩ := runActions_tracks hf hc h harenas (.nil todo) hr
      exact ⟨r', l', by simp only [runCall, hb', if_true, hrun], hd⟩
    · cases hr

end Sys2Proof.Machine

/-!
PROOFS. Instructions whose writes land late (O52): a control block makes no host write and does not read the model's own
fields, a register command makes one write, an operation is a call.
-/

namespace Sys2Proof.Machine

/-! ## Control blocks -/

/-- `s` with another visibility, other writes under way and another agenda. -/
def State.recast (v : Visibility) (l : List HostWrite) (a : List Turn) (s : State) : State :=
  { s with board := { s.board with visibility := v }, landing := l, agenda := a }

/-- `f` neither reads nor writes the visibility of writes, the writes under way, the agenda. -/
def IgnoresWrites (f : State → Outcome) : Prop :=
  ∀ s v l a, f (s.recast v l a) = andThen (f s) fun t => .next (t.recast v l a)

theorem fetchHalf_ignoresWrites (c : Chan) (b : ControlBlock) (ok : Bool) : IgnoresWrites (fetchHalf c b ok) := by
  intro s v l a
  cases ok <;> rfl

/-- Where an address lies in an arena is not a matter of the visibility of writes. -/
theorem offsetFrom_visibility (b : Board) (v : Visibility) (w : Word) (pages : List Word) (j : Nat) :
    offsetFrom { b with visibility := v } w j pages = offsetFrom b w j pages := by
  induction pages generalizing j with
  | nil => rfl
  | cons page pages ih => exact congrArg (ite _ _) (ih (j + 1))

theorem busReadable_recast (s : State) (v : Visibility) (l : List HostWrite) (a : List Turn) (ba : Word) :
    busReadable (s.recast v l a) ba = busReadable s ba := by
  have harena (ch : ChanRec) : arenaOffset (s.recast v l a).board ch ba = arenaOffset s.board ch ba :=
    offsetFrom_visibility ..
  unfold busReadable inAnArena
  simp only [harena]
  rfl

theorem blockIndex_visibility (b : Board) (v : Visibility) (ch : ChanRec) (w : Word) :
    blockIndex { b with visibility := v } ch w = blockIndex b ch w := by
  unfold blockIndex arenaOffset
  rw [offsetFrom_visibility]

theorem admittedA_visibility (b : Board) (v : Visibility) (ch : ChanRec) (w src next : Word) :
    admittedA { b with visibility := v } ch w src next = admittedA b ch w src next := by
  unfold admittedA
  rw [blockIndex_visibility]
  rfl

theorem admittedB_visibility (b : Board) (v : Visibility) (ch : ChanRec) (w src next : Word) :
    admittedB { b with visibility := v } ch w src next = admittedB b ch w src next := by
  unfold admittedB
  rw [blockIndex_visibility]
  rfl

theorem readHalf_ignoresWrites (c : Chan) (src : Word) : IgnoresWrites (readHalf c src) := by
  intro s v l a
  unfold readHalf busRead
  rw [busReadable_recast]
  split <;> rfl

theorem busWrite_ignoresWrites (c : Chan) (ba v : Word) : IgnoresWrites (busWrite c ba v) := by
  intro s vis l a
  have hset : (s.recast vis l a).board.gpSet = s.board.gpSet := rfl
  have hclr : (s.recast vis l a).board.gpClr = s.board.gpClr := rfl
  have hfifo : (s.recast vis l a).board.fifo = s.board.fifo := rfl
  have hlevel : (s.recast vis l a).pwm.fifoLevel < (s.recast vis l a).board.fifoCap ↔
      s.pwm.fifoLevel < s.board.fifoCap := .rfl
  unfold busWrite fifoPush
  simp only [hset, hclr, hfifo, hlevel]
  split_ifs <;> rfl

theorem writeHalf_ignoresWrites (c : Chan) (dst next : Word) : IgnoresWrites (writeHalf c dst next) := by
  intro s v l a
  have hdata : ((s.recast v l a).eng c).data = (s.eng c).data := rfl
  unfold writeHalf
  rw [hdata, busWrite_ignoresWrites, andThen_assoc, andThen_assoc]
  rfl

theorem execCba_ignoresWrites (c : Chan) (src : Word) (dst : GpioReg) (next : Word) :
    IgnoresWrites (execCba c src dst next) := by
  intro s v l a
  have heng : (s.recast v l a).eng c = s.eng c := rfl
  unfold execCba
  rw [heng]
  split
  · cases (s.eng c).phase with
    | idle => rfl
    | fetch =>
      dsimp only [State.recast]
      rw [admittedA_visibility]
      exact fetchHalf_ignoresWrites ..
    | exec => exact readHalf_ignoresWrites ..
    | write => exact writeHalf_ignoresWrites ..
  · rfl

theorem execCbb_ignoresWrites (c : Chan) (src next : Word) : IgnoresWrites (execCbb c src next) := by
  intro s v l a
  have heng : (s.recast v l a).eng c = s.eng c := rfl
  have hdreq : dreq (s.recast v l a) = dreq s := rfl
  unfold execCbb
  rw [heng, hdreq]
  split
  · cases (s.eng c).phase with
    | idle => rfl
    | fetch =>
      dsimp only [State.recast]
      rw [admittedB_visibility]
      exact fetchHalf_ignoresWrites ..
    | exec => exact readHalf_ignoresWrites ..
    | write =>
      dsimp only
      split
      · exact writeHalf_ignoresWrites ..
      · rfl
  · rfl

theorem execCbx_ignoresWrites (c : Chan) (raw : ControlBlock) : IgnoresWrites (execCbx c raw) := by
  intro s v l a
  have heng : (s.recast v l a).eng c = s.eng c := rfl
  unfold execCbx
  rw [heng]
  split
  · cases (s.eng c).phase with
    | fetch => dsimp only; split <;> rfl
    | idle | exec | write => rfl
  · rfl

/-- Every elementary change keeps memory in its canonical form. -/
theorem Changes.wf {s t : State} (h : Changes s t) (hm : Memory.wf s.mem = true) : Memory.wf t.mem = true := by
  induction h with
  | refl => exact hm
  | tail _ hlast ih =>
    cases hlast with
    | foreignWord | word => exact Memory.wf_writeWord ih _ _
    | clear => exact Memory.wf_clearPages ih _
    | _ => exact ih

/-- A control block leaves the two runs alike. -/
theorem IgnoresWrites.tracks {f : State → Outcome} (hf : IgnoresWrites f) (hc : MakesChanges f) {s t : State}
    (h : Delayed s s []) (ht : f s = .next t) : TracksTo f s s [] t := by
  have hkeeps : t = t.recast s.board.visibility s.landing s.agenda := by
    have hself := hf s s.board.visibility s.landing s.agenda
    change f s = _ at hself
    rw [ht, andThen_next] at hself
    exact Host.Outcome.next.inj hself
  have hbehind : f (s.behind s []) = .next (t.recast .buffered [] s.agenda) := by
    change f (s.recast .buffered [] s.agenda) = _
    rw [hf, ht, andThen_next]
  have hagenda : t.agenda = s.agenda := (congrArg State.agenda hkeeps :)
  have hlanding : t.landing = s.landing := (congrArg State.landing hkeeps :)
  refine ⟨t, [], ?_, .start ?_ (hlanding.trans h.settled) (hagenda.trans h.quiet) ((hc s t ht).wf h.wf)⟩
  · rw [hbehind, ← hagenda]
    rfl
  · rw [(hc s t ht).board]
    exact h.direct

/-! ## Register commands -/

theorem command_tracks {w : HostWrite} (hw : ∀ pa v, w = .arena pa v → pa % 4 = 0) {s t : State} (h : Delayed s s [])
    (hc : command w s = .next t) : TracksTo (command w) s s [] t :=
  ⟨s, [w], h.command hw hc⟩

theorem setHeadTo_tracks {c : Chan} {a : Word} {s t : State} (h : Delayed s s []) (hc : setHeadTo c a s = .next t) :
    TracksTo (setHeadTo c a) s s [] t := by
  by_cases halign : a.toNat % s.board.cbAlign = 0
  · rw [setHeadTo_aligned halign] at hc
    obtain ⟨hbehind, hd⟩ := h.command (w := .dmaSetcb c a) nofun hc
    exact ⟨s, _, (setHeadTo_aligned (s := s.behind s []) halign c).trans hbehind, hd⟩
  · rw [setHeadTo_misaligned halign] at hc
    cases hc

theorem execGpioFselRd_tracks {n : Fin 4} {s t : State} (h : Delayed s s []) (hc : execGpioFselRd n s = .next t) :
    TracksTo (execGpioFselRd n) s s [] t := by
  unfold execGpioFselRd throughWindow at hc
  split at hc
  · next hm =>
    cases hc
    have hm' : (s.behind s []).host.windowsMapped = true := hm
    refine ⟨s.drawn, [], ?_, ((h.answer _).drawn nofun).2⟩
    unfold execGpioFselRd throughWindow
    rw [if_pos hm']
    dsimp only
    rw [h.selectRead nofun]
    rfl
  · cases hc

/-! ## Every instruction -/

/-- EVERY INSTRUCTION run alone leaves under `buffered` a state behind the one it leaves under `sc`. -/
theorem exec_tracks (i : Instr) {s t : State} (h : Delayed s s []) (harenas : ArenasOk s) (ht : exec i s = .next t) :
    TracksTo (exec i) s s [] t := by
  have call (f : State → Outcome) (hf : ∀ s r l t, Delayed s r l → f s = .next t → TracksTo f s r l t)
      (ht : runCall f (callOfInstr i s) s = .next t) : TracksTo (runCall f (callOfInstr i s)) s s [] t :=
    runCall_tracks hf (callOfInstr_orderly i s) h harenas ht
  cases i with
  | cba c src dst next => exact (execCba_ignoresWrites c src dst next).tracks (execCba_changes c src dst next) h ht
  | cbb c src next => exact (execCbb_ignoresWrites c src next).tracks (execCbb_changes c src next) h ht
  | cbx c raw => exact (execCbx_ignoresWrites c raw).tracks (execCbx_changes c raw) h ht
  | dmaReset | dmaClrdbg | dmaStart => exact command_tracks (fun _ _ he => by cases he) h ht
  | pwmOff | clkSrc | clkDiv | clkOn | pwmRng | pwmDmac | pwmClrf | pwmOn => exact command_tracks (fun _ _ he => by cases he) h ht
  | gpioSet | gpioClr => exact command_tracks (fun _ _ he => by cases he) h ht
  | dmaSetcb => exact setHeadTo_tracks h ht
  | gpioFselRd => exact execGpioFselRd_tracks h ht
  | settle => exact next_tracks s s [] t h ht
  | gpioFselOut => exact call _ next_tracks ht
  | initEngine | initChannel | addChannelPulse | setChannelPercent | clearChannelGpio => exact call _ succeed_tracks ht
  | map | allocate | compile | configureGlobalClock | claim => exact call _ succeed_tracks ht

/-- Behind a state, the landing turns reach it. -/
theorem Delayed.run_lands {s r : State} {l : List HostWrite} (h : Delayed s r l) :
    Host.Core.run Sys2Proof.core l.length { s.behind r l with agenda := List.replicate l.length .land } =
      .next { s with board := { s.board with visibility := .buffered } } := by
  set e : State := { s.behind r l with agenda := List.replicate l.length .land }
  have hlands : landAll l e = .next ((s.behind s l).inside e) := by
    change landAll l ((s.behind r l).inside e) = _
    rw [landAll_inside, h.lands, andThen_next]
  have hsame : { (s.behind s l).inside e with landing := [], agenda := [] } =
      { s with board := { s.board with visibility := .buffered }, landing := s.landing, agenda := s.agenda } := by
    rw [h.settled, h.quiet]
    rfl
  exact (run_landAll (s := e) rfl rfl rfl hlands).trans (congrArg Host.Outcome.next hsame)

/-- Settles O52: the instruction under `buffered` stays behind the instruction under `sc`, and landing catches up. -/
theorem bufferedWritesEndWhereDirectOnesDo : Obligations.BufferedWritesEndWhereDirectOnesDo := by
  intro i s t hv hl hq harenas hm ht
  obtain ⟨r, l, hexec, hd⟩ := exec_tracks i (.start hv hl hq hm) harenas ht
  have hstart : s.behind s [] = { s with board := { s.board with visibility := .buffered } } := by
    rw [← hl]
    rfl
  rw [hstart] at hexec
  exact ⟨_, hexec, hd.run_lands⟩

end Sys2Proof.Machine

/-!
PROOFS. The host's call stream (O1, O2): an argument's digits, the arguments and the selector of a call, the table of the
register commands. Each decoder is characterised by an equivalence, read from right to left for O1 and from left to right
for O2.
-/

namespace Sys2Proof.Machine

/-! ## Arguments (R8, log 6) -/

theorem intOfNat_natOfInt (x : Int) : intOfNat (natOfInt x) = x := by
  cases x with
  | ofNat n =>
    have heven : 2 * n % 2 = 0 := by omega
    have hhalf : 2 * n / 2 = n := by omega
    simp only [natOfInt, intOfNat, heven, hhalf, if_true]
  | negSucc n =>
    have hodd : ¬ (2 * n + 1) % 2 = 0 := by omega
    have hhalf : (2 * n + 1) / 2 = n := by omega
    simp only [natOfInt, intOfNat, hodd, hhalf, if_false]

theorem natOfInt_intOfNat (n : Nat) : natOfInt (intOfNat n) = n := by
  unfold intOfNat
  split
  · change 2 * (n / 2) = n
    omega
  · change 2 * (n / 2) + 1 = n
    omega

/-- A number of one digit. -/
theorem digitsOf_short {n : Nat} (h : n < 2 ^ 31) (fuel : Nat) : digitsOf fuel n = [BitVec.ofNat 32 n] := by
  cases fuel with
  | zero => rfl
  | succ fuel => exact if_pos h

/-- A number of more digits: its first, marked, and those of the rest. -/
theorem digitsOf_long {d m : Nat} (hd : d < 2 ^ 31) (hm : m ≠ 0) (fuel : Nat) :
    digitsOf (fuel + 1) (d + 2 ^ 31 * m) = BitVec.ofNat 32 (2 ^ 31 + d) :: digitsOf fuel m := by
  have hlong : ¬ d + 2 ^ 31 * m < 2 ^ 31 := by omega
  have hfirst : (d + 2 ^ 31 * m) % 2 ^ 31 = d := by omega
  have hrest : (d + 2 ^ 31 * m) / 2 ^ 31 = m := by omega
  rw [digitsOf, if_neg hlong, hfirst, hrest]

theorem decodeDigits_short {n : Nat} (h : n < 2 ^ 31) (rest : List Word) :
    decodeDigits (BitVec.ofNat 32 n :: rest) = .ok (n, rest) := by
  have hvalue : (BitVec.ofNat 32 n).toNat = n := by rw [BitVec.toNat_ofNat]; omega
  rw [decodeDigits, hvalue, if_pos h]

theorem decodeDigits_long {d m : Nat} (hd : d < 2 ^ 31) (hm : m ≠ 0) {ws rest : List Word}
    (h : decodeDigits ws = .ok (m, rest)) :
    decodeDigits (BitVec.ofNat 32 (2 ^ 31 + d) :: ws) = .ok (d + 2 ^ 31 * m, rest) := by
  have hvalue : (BitVec.ofNat 32 (2 ^ 31 + d)).toNat = 2 ^ 31 + d := by rw [BitVec.toNat_ofNat]; omega
  have hmarked : ¬ 2 ^ 31 + d < 2 ^ 31 := by omega
  simp only [decodeDigits, hvalue, if_neg hmarked, h, if_neg hm, Nat.add_sub_cancel_left]

/-- Decoding a number's digits gives it back. -/
theorem decodeDigits_digitsOf {fuel n : Nat} (h : n ≤ fuel) (rest : List Word) :
    decodeDigits (digitsOf fuel n ++ rest) = .ok (n, rest) := by
  induction fuel generalizing n with
  | zero =>
    obtain rfl : n = 0 := by omega
    exact decodeDigits_short (by omega) rest
  | succ fuel ih =>
    by_cases hshort : n < 2 ^ 31
    · rw [digitsOf_short hshort]
      exact decodeDigits_short hshort rest
    · have hrest : n / 2 ^ 31 ≠ 0 := by omega
      have hfirst : n % 2 ^ 31 < 2 ^ 31 := by omega
      rw [← Nat.mod_add_div n (2 ^ 31), digitsOf_long hfirst hrest]
      exact decodeDigits_long hfirst hrest (ih (by omega))

/-- Only a number's own digits decode to it: the shortest ones. -/
theorem eq_digitsOf_of_decodeDigits {ws rest : List Word} {n : Nat} (h : decodeDigits ws = .ok (n, rest)) {fuel : Nat}
    (hfuel : n ≤ fuel) : ws = digitsOf fuel n ++ rest := by
  induction ws generalizing n fuel with
  | nil => cases h
  | cons w ws ih =>
    rw [decodeDigits] at h
    split at h
    · next hshort =>
      cases h
      rw [digitsOf_short hshort, BitVec.ofNat_toNat, BitVec.setWidth_eq]
      rfl
    · next hlong =>
      split at h
      · next m rest' hrest =>
        split at h
        · cases h
        · next hm =>
          cases h
          have hw := w.isLt
          obtain ⟨fuel, rfl⟩ : ∃ f, fuel = f + 1 := ⟨fuel - 1, by omega⟩
          have hmark : 2 ^ 31 + (w.toNat - 2 ^ 31) = w.toNat := by omega
          rw [digitsOf_long (by omega) hm, hmark, BitVec.ofNat_toNat, BitVec.setWidth_eq, List.cons_append,
            ← ih hrest (by omega)]
      · cases h

/-- WHAT DECODES TO A NUMBER: its digits. -/
theorem decodeDigits_eq_ok_iff {ws rest : List Word} {n : Nat} :
    decodeDigits ws = .ok (n, rest) ↔ ws = digitsOf n n ++ rest :=
  ⟨fun h => eq_digitsOf_of_decodeDigits h le_rfl, fun h => h ▸ decodeDigits_digitsOf le_rfl rest⟩

/-- WHAT DECODES TO ARGUMENTS: the words of each in turn. -/
theorem decodeArgs_eq_ok_iff {n : Nat} {ws rest : List Word} {args : List Int} :
    decodeArgs n ws = .ok (args, rest) ↔ args.length = n ∧ ws = args.flatMap argWords ++ rest := by
  induction n generalizing ws args with
  | zero =>
    rw [decodeArgs]
    constructor
    · intro h
      cases h
      exact ⟨rfl, rfl⟩
    · rintro ⟨hlen, rfl⟩
      rw [List.length_eq_zero_iff.mp hlen]
      rfl
  | succ n ih =>
    rw [decodeArgs]
    constructor
    · intro h
      split at h
      · cases h
      · next a rest' ha =>
        split at h
        · next as rest'' has =>
          cases h
          obtain ⟨hlen, rfl⟩ := ih.mp has
          refine ⟨congrArg (· + 1) hlen, ?_⟩
          rw [decodeDigits_eq_ok_iff.mp ha, List.flatMap_cons, argWords, natOfInt_intOfNat, List.append_assoc]
        · cases h
    · rintro ⟨hlen, rfl⟩
      cases args with
      | nil => cases hlen
      | cons x args =>
        have hx : decodeDigits (argWords x ++ (args.flatMap argWords ++ rest)) =
            .ok (natOfInt x, args.flatMap argWords ++ rest) := decodeDigits_eq_ok_iff.mpr rfl
        have hargs : decodeArgs n (args.flatMap argWords ++ rest) = .ok (args, rest) :=
          ih.mpr ⟨Nat.succ.inj hlen, rfl⟩
        rw [List.flatMap_cons, List.append_assoc, hx]
        simp only [hargs, intOfNat_natOfInt]

/-! ## Host operations (R107) -/

/-- A selector that decodes to an operation takes as many arguments as it has. -/
theorem argCount_of_callOf {selector : Nat} {args : List Int} {i : Instr} (h : callOf selector args = some i) :
    argCount selector = some args.length := by
  unfold callOf at h
  split at h
  all_goals cases h
  all_goals rfl

/-- An operation is written by its selector and arguments, and is the host's. -/
theorem encode_of_callOf {selector : Nat} {args : List Int} {i : Instr} (h : callOf selector args = some i) (b : Board) :
    encode b i = encodeCall selector args ∧ WellFormed b i ∧ i.decoder = .host := by
  unfold callOf at h
  split at h
  all_goals cases h
  all_goals exact ⟨rfl, trivial, rfl⟩

/-- WHAT DECODES TO A HOST OPERATION: its arguments after its selector. -/
theorem decodeCall_eq_ok_iff {selector : Word} {ws rest : List Word} {i : Instr} :
    decodeCall selector ws = .ok (i, rest) ↔
      ∃ args, callOf selector.toNat args = some i ∧ ws = args.flatMap argWords ++ rest := by
  unfold decodeCall
  constructor
  · intro h
    split at h
    · cases h
    · split at h
      · cases h
      · next args rest' hargs =>
        split at h
        · next j hcall =>
          cases h
          exact ⟨args, hcall, (decodeArgs_eq_ok_iff.mp hargs).2⟩
        · cases h
  · rintro ⟨args, hcall, rfl⟩
    have hargs : decodeArgs args.length (args.flatMap argWords ++ rest) = .ok (args, rest) :=
      decodeArgs_eq_ok_iff.mpr ⟨rfl, rfl⟩
    simp only [argCount_of_callOf hcall, hargs, hcall]

/-- A zero word after the selector makes the words a call's (log 6). -/
theorem decode_call (b : Board) (selector : Word) (ws : List Word) :
    decode b .host (selector :: 0 :: ws) = decodeCall selector ws := by
  rw [decode, decodeHostWords, if_pos rfl]

/-- A call's words decode to the operation of its selector. -/
theorem decode_encodeCall (b : Board) {selector : Nat} (hsel : selector < 2 ^ 32) {args : List Int} {i : Instr}
    (h : callOf selector args = some i) (rest : List Word) :
    decode b .host (encodeCall selector args ++ rest) = .ok (i, rest) := by
  have hvalue : (BitVec.ofNat 32 selector).toNat = selector := by rw [BitVec.toNat_ofNat]; omega
  have hdecode : decodeCall (BitVec.ofNat 32 selector) (args.flatMap argWords ++ rest) = .ok (i, rest) :=
    decodeCall_eq_ok_iff.mpr ⟨args, by rw [hvalue]; exact h, rfl⟩
  exact (decode_call b _ _).trans hdecode

/-! ## Register words (log 6) -/

/-- WHICH WINDOW A NUMBER NAMES: the one whose number it is. -/
theorem windowOf_eq_some_iff {n : Nat} {w : Window} : windowOf n = some w ↔ n = w.code := by
  constructor
  · intro h
    unfold windowOf at h
    split_ifs at h with h1 h2 h3 h4 h5
    · cases h; exact h1
    · cases h; exact h2
    · cases h; exact h3
    · cases h; exact h4
    · cases h
      change n = 16 + (n - 16)
      omega
  · rintro rfl
    cases w with
    | pwm | clk | gpio | pcm => rfl
    | dma c =>
      have hc : 16 ≤ 16 + c.val ∧ 16 + c.val - 16 < Config.channelCount := ⟨by omega, by simp⟩
      have hnumber : (⟨16 + c.val - 16, hc.2⟩ : Chan) = c := Fin.ext (Nat.add_sub_cancel_left ..)
      change windowOf (16 + c.val) = _
      rw [windowOf, if_neg (by omega), if_neg (by omega), if_neg (by omega), if_neg (by omega), dif_pos hc, hnumber]

theorem code_bounds (w : Window) : 1 ≤ w.code ∧ w.code < 2 ^ 16 := by
  cases w with
  | pwm | clk | gpio | pcm => decide
  | dma c =>
    have hc : c.val < 15 := c.isLt
    change 1 ≤ 16 + c.val ∧ 16 + c.val < 2 ^ 16
    omega

/-- Where a register may lie in a window: at a multiple of 4 that 16 bits hold. -/
def offsetOk (off : Nat) : Prop := off % 4 = 0 ∧ off + 4 ≤ 2 ^ 16

theorem registerWord_toNat (w : Window) {off tag : Nat} (hoff : offsetOk off) (htag : tag < 4) :
    (registerWord w off tag).toNat = w.code * 65536 + off + tag := by
  obtain ⟨-, hlt⟩ := hoff
  have hcode := (code_bounds w).2
  rw [registerWord, BitVec.toNat_ofNat]
  omega

/-- The kinds of access of a register word, each with its decoder. -/
def decodeAccess (b : Board) (w : Window) (off tag : Nat) (t v : Word) : Except DecodeError Instr :=
  if tag = 0 then decodeWrite b w off t v
  else if tag = tagRead then decodeRead b w off t v
  else if tag = tagModify then decodeModify b w off t v
  else .error (.noSuchRegister t)

/-- A register word is read as the access it was written for. -/
theorem decodeCommand_registerWord (b : Board) (v : Word) (w : Window) {off tag : Nat} (hoff : offsetOk off)
    (htag : tag < 4) :
    decodeCommand b v (registerWord w off tag) = decodeAccess b w off tag (registerWord w off tag) v := by
  have hvalue := registerWord_toNat w hoff htag
  obtain ⟨hcode, -⟩ := code_bounds w
  obtain ⟨hmod, hlt⟩ := hoff
  have hsettle : ¬ w.code * 65536 + off + tag = tagSettle := by unfold tagSettle; omega
  have hwindow : windowOf ((w.code * 65536 + off + tag) / 65536) = some w := windowOf_eq_some_iff.mpr (by omega)
  have hkind : (w.code * 65536 + off + tag) % 4 = tag := by omega
  have hplace : (w.code * 65536 + off + tag) % 65536 = off + tag := by omega
  unfold decodeCommand decodeAccess
  rw [hvalue, if_neg hsettle, hwindow]
  dsimp only
  rw [hkind, hplace]
  by_cases h0 : tag = 0
  · subst h0; rfl
  by_cases h1 : tag = tagRead
  · subst h1; rfl
  by_cases h3 : tag = tagModify
  · subst h3; rfl
  simp only [h0, h1, h3, if_false]

/-- Every word but a settle delay's that decodes is a register word. -/
theorem eq_registerWord_of_decodeCommand {b : Board} {v t : Word} {i : Instr} (h : decodeCommand b v t = .ok i) :
    (t = BitVec.ofNat 32 tagSettle ∧ i = .settle v.toNat) ∨
      ∃ w off tag, offsetOk off ∧ tag < 4 ∧ t = registerWord w off tag := by
  unfold decodeCommand at h
  split at h
  · next hsettle =>
    cases h
    exact .inl ⟨BitVec.eq_of_toNat_eq hsettle, rfl⟩
  · split at h
    · cases h
    · next w hw =>
      have hcode := windowOf_eq_some_iff.mp hw
      have hplace : offsetOk (t.toNat % 65536 - t.toNat % 4) := ⟨by omega, by omega⟩
      have hkind : t.toNat % 4 < 4 := by omega
      refine .inr ⟨w, _, _, hplace, hkind, BitVec.eq_of_toNat_eq ?_⟩
      rw [registerWord_toNat w hplace hkind]
      omega

/-! ## The function-select fields (R33, R111) -/

/-- A pin's place among the fields of its register. -/
theorem fselShift_lt {b : Board} (hb : RegistersOk b) (p : Nat) : fselShift b p + b.regs.fselBits ≤ 32 := by
  obtain ⟨-, hfields, hpins⟩ := hb.fields
  have hmod : p % b.regs.fselPins < b.regs.fselPins := Nat.mod_lt _ (by omega)
  calc fselShift b p + b.regs.fselBits = b.regs.fselBits * (p % b.regs.fselPins + 1) := by unfold fselShift; ring
    _ ≤ b.regs.fselBits * b.regs.fselPins := Nat.mul_le_mul_left _ hmod
    _ ≤ 32 := hfields

theorem fselOutValue_toNat {b : Board} (hb : RegistersOk b) (p : Nat) :
    (fselOutValue b p).toNat = b.regs.fselOutput * 2 ^ fselShift b p := by
  have hout := hb.output.2
  have hshift := fselShift_lt hb p
  have hlt : b.regs.fselOutput * 2 ^ fselShift b p < 2 ^ 32 :=
    calc b.regs.fselOutput * 2 ^ fselShift b p < 2 ^ b.regs.fselBits * 2 ^ fselShift b p :=
          Nat.mul_lt_mul_of_pos_right hout (Nat.two_pow_pos _)
      _ = 2 ^ (fselShift b p + b.regs.fselBits) := by rw [Nat.add_comm, Nat.pow_add]
      _ ≤ 2 ^ 32 := Nat.pow_le_pow_right (by omega) hshift
  have hle : b.regs.fselOutput ≤ b.regs.fselOutput * 2 ^ fselShift b p := Nat.le_mul_of_pos_right _ (Nat.two_pow_pos _)
  rw [fselOutValue, BitVec.toNat_shiftLeft, BitVec.toNat_ofNat, Nat.shiftLeft_eq, Nat.mod_eq_of_lt (hle.trans_lt hlt),
    Nat.mod_eq_of_lt hlt]

/-- The register and the value of a function-select command tell its pin. -/
theorem fsel_injective {b : Board} (hb : RegistersOk b) {p q : Nat}
    (hoff : fselOff b (fselIndex b p) = fselOff b (fselIndex b q)) (hvalue : fselOutValue b p = fselOutValue b q) :
    p = q := by
  have hindex : p / b.regs.fselPins = q / b.regs.fselPins := by
    unfold fselOff fselIndex at hoff
    omega
  have hpow : 2 ^ fselShift b p = 2 ^ fselShift b q := by
    have := congrArg BitVec.toNat hvalue
    rw [fselOutValue_toNat hb, fselOutValue_toNat hb] at this
    exact Nat.eq_of_mul_eq_mul_left hb.output.1 this
  have hplace : p % b.regs.fselPins = q % b.regs.fselPins :=
    Nat.eq_of_mul_eq_mul_left hb.fields.1 (Nat.pow_right_injective le_rfl hpow)
  rw [← Nat.div_add_mod p b.regs.fselPins, hindex, hplace, Nat.div_add_mod]

/-- WHICH PIN IS FOUND below `k`: the one with this register and value. -/
theorem pinOfFsel_eq_some_iff {b : Board} (hb : RegistersOk b) {off : Nat} {v : Word} {k : Nat}
    (hk : k ≤ Config.gpioCount) {p : Pin} : pinOfFsel b off v k = some p ↔
      p.val < k ∧ fselOff b (fselIndex b p.val) = off ∧ fselOutValue b p.val = v := by
  induction k with
  | zero => simp [pinOfFsel]
  | succ k ih =>
    rw [pinOfFsel, dif_pos (Nat.lt_of_succ_le hk)]
    split
    · next hfound =>
      constructor
      · intro h
        cases h
        exact ⟨Nat.lt_succ_self k, hfound⟩
      · rintro ⟨-, hoff, hvalue⟩
        have hpin := fsel_injective hb (hfound.1.trans hoff.symm) (hfound.2.trans hvalue.symm)
        exact congrArg some (Fin.ext hpin)
    · next hother =>
      rw [ih (by omega)]
      constructor
      · rintro ⟨hlt, hfound⟩
        exact ⟨Nat.lt_succ_of_lt hlt, hfound⟩
      · rintro ⟨hlt, hfound⟩
        have hne : p.val ≠ k := fun he => hother (he ▸ hfound)
        exact ⟨by omega, hfound⟩

/-! ## The table of the register commands (R106) -/

/-- THE REGISTER COMMANDS: the window, the byte offset, the kind of access and the value of each. -/
inductive RegisterCommand (b : Board) : Window → Nat → Nat → Word → Instr → Prop
  | dmaReset (c : Chan) : RegisterCommand b (.dma c) b.regs.dmaCs 0 b.regs.dmaReset (.dmaReset c)
  | dmaStart (c : Chan) : RegisterCommand b (.dma c) b.regs.dmaCs 0 b.regs.dmaStart (.dmaStart c)
  | dmaSetcb (c : Chan) (a : Word) : a.toNat % b.cbAlign = 0 →
      RegisterCommand b (.dma c) b.regs.dmaConblk 0 a (.dmaSetcb c a)
  | dmaClrdbg (c : Chan) : RegisterCommand b (.dma c) b.regs.dmaDebug 0 b.regs.dmaClrdbg (.dmaClrdbg c)
  | pwmOff : RegisterCommand b .pwm b.regs.pwmCtl 0 b.regs.pwmOff .pwmOff
  | pwmClrf : RegisterCommand b .pwm b.regs.pwmCtl 0 b.regs.pwmClrf .pwmClrf
  | pwmOn : RegisterCommand b .pwm b.regs.pwmCtl 0 b.regs.pwmOn .pwmOn
  | pwmDmac : RegisterCommand b .pwm b.regs.pwmDmac 0 b.regs.pwmEnable .pwmDmac
  | pwmRng (v : Word) : RegisterCommand b .pwm b.regs.pwmRng1 0 v (.pwmRng v)
  | clkSrc : RegisterCommand b .clk b.regs.clkCntl 0 b.regs.clkStopped .clkSrc
  | clkOn : RegisterCommand b .clk b.regs.clkCntl 0 b.regs.clkRunning .clkOn
  | clkDiv : RegisterCommand b .clk b.regs.clkDiv 0 b.clkDivValue .clkDiv
  | gpioSet (m : Word) : RegisterCommand b .gpio b.regs.gpioSet0 0 m (.gpioSet m)
  | gpioClr (m : Word) : RegisterCommand b .gpio b.regs.gpioClr0 0 m (.gpioClr m)
  | gpioFselRd (n : Fin 4) : RegisterCommand b .gpio (fselOff b n.val) tagRead 0 (.gpioFselRd n)
  | gpioFselOut (p : Pin) : RegisterCommand b .gpio (fselOff b (fselIndex b p.val)) tagModify (fselOutValue b p.val)
      (.gpioFselOut p)

/-- The function-select registers of the pins lie in the GPIO window. -/
theorem fselOff_ok {b : Board} (hb : RegistersOk b) {n : Nat} (hn : n ≤ 5) : offsetOk (fselOff b n) := by
  have hfirst := hb.gpio b.regs.gpioFsel (by simp)
  have hlast := hb.gpio (b.regs.gpioFsel + 20) (by simp)
  have hlen := hb.short b.gpioLen (by simp)
  unfold fselOff
  exact ⟨by omega, by omega⟩

theorem fselIndex_le {b : Board} (hb : RegistersOk b) (p : Pin) : fselIndex b p.val ≤ 3 := by
  have hp : p.val < 32 := p.isLt
  have hpins := hb.fields.2.2
  have : p.val / b.regs.fselPins < 4 := Nat.div_lt_of_lt_mul (by omega)
  exact Nat.le_of_lt_succ this

/-- Every command's register has a register word. -/
theorem RegisterCommand.placed {b : Board} (hb : RegistersOk b) {w : Window} {off tag : Nat} {v : Word} {i : Instr}
    (h : RegisterCommand b w off tag v i) : offsetOk off ∧ tag < 4 := by
  have dma : ∀ off ∈ [b.regs.dmaCs, b.regs.dmaConblk, b.regs.dmaDebug], offsetOk off := fun off hoff =>
    ⟨(hb.dma off hoff).1, (hb.dma off hoff).2.trans (hb.short b.dmaLen (by simp))⟩
  have pwm : ∀ off ∈ [b.regs.pwmCtl, b.regs.pwmDmac, b.regs.pwmRng1, b.regs.pwmFif1], offsetOk off := fun off hoff =>
    ⟨(hb.pwm off hoff).1, (hb.pwm off hoff).2.trans (hb.short b.pwmLen (by simp))⟩
  have clk : ∀ off ∈ [b.regs.clkCntl, b.regs.clkDiv], offsetOk off := fun off hoff =>
    ⟨(hb.clk off hoff).1, (hb.clk off hoff).2.trans (hb.short b.clkLen (by simp))⟩
  have gpio : ∀ off ∈ [b.regs.gpioFsel, b.regs.gpioFsel + 20, b.regs.gpioSet0, b.regs.gpioClr0], offsetOk off :=
    fun off hoff => ⟨(hb.gpio off hoff).1, (hb.gpio off hoff).2.trans (hb.short b.gpioLen (by simp))⟩
  cases h with
  | dmaReset | dmaStart | dmaSetcb | dmaClrdbg => exact ⟨dma _ (by simp), by decide⟩
  | pwmOff | pwmClrf | pwmOn | pwmDmac | pwmRng => exact ⟨pwm _ (by simp), by decide⟩
  | clkSrc | clkOn | clkDiv => exact ⟨clk _ (by simp), by decide⟩
  | gpioSet | gpioClr => exact ⟨gpio _ (by simp), by decide⟩
  | gpioFselRd n => exact ⟨fselOff_ok hb (by omega), by decide⟩
  | gpioFselOut p => exact ⟨fselOff_ok hb ((fselIndex_le hb p).trans (by omega)), by decide⟩

/-- A register command's words are its value and its register word. -/
theorem RegisterCommand.encode_eq {b : Board} {w : Window} {off tag : Nat} {v : Word} {i : Instr}
    (h : RegisterCommand b w off tag v i) : encode b i = [v, registerWord w off tag] := by
  cases h <;> rfl

theorem RegisterCommand.wellFormed {b : Board} {w : Window} {off tag : Nat} {v : Word} {i : Instr}
    (h : RegisterCommand b w off tag v i) : WellFormed b i ∧ i.decoder = .host := by
  cases h with
  | dmaSetcb c a ha => exact ⟨ha, rfl⟩
  | _ => exact ⟨trivial, rfl⟩

/-- What a write decodes to is in the table. -/
theorem registerCommand_of_decodeWrite {b : Board} {w : Window} {off : Nat} {t v : Word} {i : Instr}
    (h : decodeWrite b w off t v = .ok i) : RegisterCommand b w off 0 v i := by
  cases w with
  | dma c =>
    simp only [decodeWrite, decodeDmaWrite] at h
    split_ifs at h with hoff hv hv hoff hv hoff hv <;> subst hoff <;> cases h
    · subst hv; exact .dmaReset c
    · subst hv; exact .dmaStart c
    · exact .dmaSetcb c v hv
    · subst hv; exact .dmaClrdbg c
  | pwm =>
    simp only [decodeWrite, decodePwmWrite] at h
    split_ifs at h with hoff hv hv hv hoff hv hoff <;> subst hoff <;> cases h
    · subst hv; exact .pwmOff
    · subst hv; exact .pwmClrf
    · subst hv; exact .pwmOn
    · subst hv; exact .pwmDmac
    · exact .pwmRng v
  | clk =>
    simp only [decodeWrite, decodeClkWrite] at h
    split_ifs at h with hoff hv hv hoff hv <;> subst hoff <;> cases h <;> subst hv
    · exact .clkSrc
    · exact .clkOn
    · exact .clkDiv
  | gpio =>
    simp only [decodeWrite, decodeGpioWrite] at h
    split_ifs at h with hoff hoff <;> subst hoff <;> cases h
    · exact .gpioSet v
    · exact .gpioClr v
  | pcm => cases h

theorem registerCommand_of_decodeRead {b : Board} {w : Window} {off : Nat} {t v : Word} {i : Instr}
    (h : decodeRead b w off t v = .ok i) : RegisterCommand b w off tagRead v i := by
  simp only [decodeRead, ne_eq] at h
  split_ifs at h with hw hv h0 h1 h2 h3 <;> cases h <;> subst hw <;> subst hv
  · subst h0; exact .gpioFselRd 0
  · subst h1; exact .gpioFselRd 1
  · subst h2; exact .gpioFselRd 2
  · subst h3; exact .gpioFselRd 3

theorem registerCommand_of_decodeModify {b : Board} (hb : RegistersOk b) {w : Window} {off : Nat} {t v : Word} {i : Instr}
    (h : decodeModify b w off t v = .ok i) : RegisterCommand b w off tagModify v i := by
  unfold decodeModify at h
  split at h
  · next hw =>
    subst hw
    split at h
    · next p hp =>
      cases h
      obtain ⟨-, rfl, rfl⟩ := (pinOfFsel_eq_some_iff hb le_rfl).mp hp
      exact .gpioFselOut p
    · cases h
  · cases h

/-- What the table holds decodes: its registers and values are told apart (R79, R106). -/
theorem RegisterCommand.decodes {b : Board} (hb : RegistersOk b) {w : Window} {off tag : Nat} {v : Word} {i : Instr}
    (h : RegisterCommand b w off tag v i) (t : Word) : decodeAccess b w off tag t v = .ok i := by
  have hdma := hb.dmaApart
  have hpwm := hb.pwmApart
  have hvalues := hb.pwmValues
  simp only [List.nodup_cons, List.mem_cons, List.not_mem_nil, or_false, not_or] at hdma hpwm hvalues
  obtain ⟨⟨hcsConblk, hcsDebug⟩, hconblkDebug, -⟩ := hdma
  obtain ⟨⟨hctlDmac, hctlRng, -⟩, ⟨hdmacRng, -⟩, -⟩ := hpwm
  obtain ⟨⟨hoffClrf, hoffOn⟩, hclrfOn, -⟩ := hvalues
  cases h with
  | dmaReset | pwmOff | clkSrc | gpioSet =>
    simp [decodeAccess, decodeWrite, decodeDmaWrite, decodePwmWrite, decodeClkWrite, decodeGpioWrite]
  | dmaStart => simp [decodeAccess, decodeWrite, decodeDmaWrite, hb.dmaValues.symm]
  | dmaSetcb c a ha => simp [decodeAccess, decodeWrite, decodeDmaWrite, Ne.symm hcsConblk, ha]
  | dmaClrdbg => simp [decodeAccess, decodeWrite, decodeDmaWrite, Ne.symm hcsDebug, Ne.symm hconblkDebug]
  | pwmClrf => simp [decodeAccess, decodeWrite, decodePwmWrite, Ne.symm hoffClrf]
  | pwmOn => simp [decodeAccess, decodeWrite, decodePwmWrite, Ne.symm hoffOn, Ne.symm hclrfOn]
  | pwmDmac => simp [decodeAccess, decodeWrite, decodePwmWrite, Ne.symm hctlDmac]
  | pwmRng => simp [decodeAccess, decodeWrite, decodePwmWrite, Ne.symm hctlRng, Ne.symm hdmacRng]
  | clkOn => simp [decodeAccess, decodeWrite, decodeClkWrite, hb.clkValues.symm]
  | clkDiv => simp [decodeAccess, decodeWrite, decodeClkWrite, hb.clkApart.symm]
  | gpioClr => simp [decodeAccess, decodeWrite, decodeGpioWrite, hb.gpioApart.symm]
  | gpioFselRd n =>
    match n with
    | 0 | 1 | 2 | 3 => simp [decodeAccess, decodeRead, fselOff, tagRead]
  | gpioFselOut p =>
    have hpin := (pinOfFsel_eq_some_iff hb le_rfl).mpr ⟨p.isLt, rfl, rfl⟩
    simp [decodeAccess, decodeModify, hpin, tagModify, tagRead]

/-- WHAT DECODES AS AN ACCESS of a register word: the commands of the table. -/
theorem decodeAccess_eq_ok_iff {b : Board} (hb : RegistersOk b) {w : Window} {off tag : Nat} {t v : Word} {i : Instr} :
    decodeAccess b w off tag t v = .ok i ↔ RegisterCommand b w off tag v i := by
  refine ⟨fun h => ?_, fun h => h.decodes hb t⟩
  unfold decodeAccess at h
  split_ifs at h with h0 h1 h3
  · subst h0; exact registerCommand_of_decodeWrite h
  · subst h1; exact registerCommand_of_decodeRead h
  · subst h3; exact registerCommand_of_decodeModify hb h

/-- WHAT DECODES AS A REGISTER COMMAND: a settle delay, or a command of the table on its register word. -/
theorem decodeCommand_eq_ok_iff {b : Board} (hb : RegistersOk b) {v t : Word} {i : Instr} :
    decodeCommand b v t = .ok i ↔ (t = BitVec.ofNat 32 tagSettle ∧ i = .settle v.toNat) ∨
      ∃ w off tag, RegisterCommand b w off tag v i ∧ t = registerWord w off tag := by
  constructor
  · intro h
    obtain hsettle | ⟨w, off, tag, hoff, htag, rfl⟩ := eq_registerWord_of_decodeCommand h
    · exact .inl hsettle
    · rw [decodeCommand_registerWord b v w hoff htag, decodeAccess_eq_ok_iff hb] at h
      exact .inr ⟨w, off, tag, h, rfl⟩
  · rintro (⟨rfl, rfl⟩ | ⟨w, off, tag, h, rfl⟩)
    · rfl
    · obtain ⟨hoff, htag⟩ := h.placed hb
      rw [decodeCommand_registerWord b v w hoff htag, decodeAccess_eq_ok_iff hb]
      exact h

end Sys2Proof.Machine

/-!
PROOFS. Decoding and encoding are inverse (O1, O2).
-/

namespace Sys2Proof.Machine

/-! ## The host's decoder -/

/-- A register word is no zero word, which a call has there (log 6). -/
theorem registerWord_ne_zero (w : Window) {off tag : Nat} (hoff : offsetOk off) (htag : tag < 4) :
    registerWord w off tag ≠ 0 := by
  intro h
  have hvalue := registerWord_toNat w hoff htag
  have hcode := (code_bounds w).1
  rw [h] at hvalue
  change 0 = _ at hvalue
  omega

/-- A value and a register word decode as a register command. -/
theorem decode_command {b : Board} {v t : Word} {i : Instr} (ht : t ≠ 0) (h : decodeCommand b v t = .ok i)
    (rest : List Word) : decode b .host (v :: t :: rest) = .ok (i, rest) := by
  rw [decode, decodeHostWords, if_neg ht, h]

theorem RegisterCommand.decode_encode {b : Board} (hb : RegistersOk b) {w : Window} {off tag : Nat} {v : Word} {i : Instr}
    (h : RegisterCommand b w off tag v i) (rest : List Word) :
    decode b i.decoder (encode b i ++ rest) = .ok (i, rest) := by
  obtain ⟨hoff, htag⟩ := h.placed hb
  rw [h.encode_eq, h.wellFormed.2]
  exact decode_command (registerWord_ne_zero w hoff htag)
    ((decodeCommand_eq_ok_iff hb).mpr (.inr ⟨w, off, tag, h, rfl⟩)) rest

theorem decode_encode_settle (b : Board) {us : Nat} (h : us < 2 ^ 32) (rest : List Word) :
    decode b .host (encode b (.settle us) ++ rest) = .ok (.settle us, rest) := by
  have hvalue : (BitVec.ofNat 32 us).toNat = us := by rw [BitVec.toNat_ofNat]; omega
  have hsettle : decodeCommand b (BitVec.ofNat 32 us) (BitVec.ofNat 32 tagSettle) = .ok (.settle us) := by
    rw [decodeCommand, if_pos (by decide), hvalue]
  exact decode_command (by decide) hsettle rest

/-- WHAT DECODES TO A HOST INSTRUCTION: the words of a call, of a settle delay, or of a register command. -/
inductive HostWords (b : Board) : List Word → Instr → Prop
  | call {selector : Word} {args : List Int} {i : Instr} : callOf selector.toNat args = some i →
      HostWords b (selector :: 0 :: args.flatMap argWords) i
  | settle (v : Word) : HostWords b [v, BitVec.ofNat 32 tagSettle] (.settle v.toNat)
  | command {w : Window} {off tag : Nat} {v : Word} {i : Instr} : RegisterCommand b w off tag v i →
      HostWords b [v, registerWord w off tag] i

theorem hostWords_of_decode {b : Board} (hb : RegistersOk b) {ws rest : List Word} {i : Instr}
    (h : decode b .host ws = .ok (i, rest)) : ∃ own, HostWords b own i ∧ ws = own ++ rest := by
  match ws with
  | [] | [_] => cases h
  | v :: t :: ws =>
    rw [decode, decodeHostWords] at h
    split at h
    · next ht =>
      subst ht
      obtain ⟨args, hcall, rfl⟩ := decodeCall_eq_ok_iff.mp h
      exact ⟨_, .call hcall, rfl⟩
    · split at h
      · next j hcommand =>
        cases h
        obtain ⟨rfl, rfl⟩ | ⟨w, off, tag, htable, rfl⟩ := (decodeCommand_eq_ok_iff hb).mp hcommand
        · exact ⟨_, .settle v, rfl⟩
        · exact ⟨_, .command htable, rfl⟩
      · cases h

/-- A host instruction's words are what its encoder writes. -/
theorem HostWords.encoded {b : Board} {own : List Word} {i : Instr} (h : HostWords b own i) :
    WellFormed b i ∧ i.decoder = .host ∧ own = encode b i := by
  cases h with
  | @call selector args _ hcall =>
    obtain ⟨hencode, hwf, hhost⟩ := encode_of_callOf hcall b
    refine ⟨hwf, hhost, ?_⟩
    rw [hencode, encodeCall, BitVec.ofNat_toNat, BitVec.setWidth_eq]
  | settle v =>
    refine ⟨v.isLt, rfl, ?_⟩
    rw [encode, BitVec.ofNat_toNat, BitVec.setWidth_eq]
  | command htable => exact ⟨htable.wellFormed.1, htable.wellFormed.2, htable.encode_eq.symm⟩

/-! ## The engines' decoder -/

theorem decode_toWords (b : Board) (c : Chan) (blk : ControlBlock) (rest : List Word) :
    decode b (.engine c) (blk.toWords ++ rest) = .ok ((recognise b blk).toInstr c, rest) := rfl

/-- A block's instruction is well formed, and has the words the block was read from. -/
theorem recognise_encoded {b : Board} (c : Chan) (blk : ControlBlock) :
    WellFormed b ((recognise b blk).toInstr c) ∧ ((recognise b blk).toInstr c).decoder = .engine c ∧
      encode b ((recognise b blk).toInstr c) = blk.toWords := by
  have hr := recognise_recognised b blk
  generalize hrec : recognise b blk = r at hr ⊢
  cases hr with
  | formA src dst next hwords haligned => exact ⟨haligned, rfl, by rw [hwords]; rfl⟩
  | formB src next hwords haligned => exact ⟨haligned, rfl, by rw [hwords]; rfl⟩
  | formX => exact ⟨hrec, rfl, rfl⟩

/-! ## Both ways -/

/-- Settles O1: a control block is recognised from its words, a register command is in the table, a call's arguments are
read digit by digit. -/
theorem encodeThenDecodeReturnsTheInstruction : Obligations.EncodeThenDecodeReturnsTheInstruction := by
  intro b i rest hb hwf
  cases i with
  | cba c src dst next => exact (decode_toWords ..).trans (by rw [recognise_cbaWords hb hwf dst]; rfl)
  | cbb c src next => exact (decode_toWords ..).trans (by rw [recognise_cbbWords hb hwf]; rfl)
  | cbx c raw => exact (decode_toWords ..).trans (by rw [show recognise b raw = .formX raw from hwf]; rfl)
  | dmaReset c => exact (RegisterCommand.dmaReset c).decode_encode hb rest
  | dmaClrdbg c => exact (RegisterCommand.dmaClrdbg c).decode_encode hb rest
  | dmaSetcb c a => exact (RegisterCommand.dmaSetcb c a hwf).decode_encode hb rest
  | dmaStart c => exact (RegisterCommand.dmaStart c).decode_encode hb rest
  | pwmOff => exact RegisterCommand.pwmOff.decode_encode hb rest
  | clkSrc => exact RegisterCommand.clkSrc.decode_encode hb rest
  | clkDiv => exact RegisterCommand.clkDiv.decode_encode hb rest
  | clkOn => exact RegisterCommand.clkOn.decode_encode hb rest
  | pwmRng v => exact (RegisterCommand.pwmRng v).decode_encode hb rest
  | pwmDmac => exact RegisterCommand.pwmDmac.decode_encode hb rest
  | pwmClrf => exact RegisterCommand.pwmClrf.decode_encode hb rest
  | pwmOn => exact RegisterCommand.pwmOn.decode_encode hb rest
  | gpioFselOut p => exact (RegisterCommand.gpioFselOut p).decode_encode hb rest
  | gpioSet m => exact (RegisterCommand.gpioSet m).decode_encode hb rest
  | gpioClr m => exact (RegisterCommand.gpioClr m).decode_encode hb rest
  | gpioFselRd n => exact (RegisterCommand.gpioFselRd n).decode_encode hb rest
  | settle us => exact decode_encode_settle b hwf rest
  | initEngine | initChannel | addChannelPulse | setChannelPercent | clearChannelGpio =>
    exact decode_encodeCall b (by decide) rfl rest
  | map | allocate | compile | configureGlobalClock | claim => exact decode_encodeCall b (by decide) rfl rest

/-- Settles O2: what a decoder read is what the encoder writes; an engine's two pad words are read over. -/
theorem decodedWordsHaveOneMeaning : Obligations.DecodedWordsHaveOneMeaning := by
  refine fun b hb => ⟨fun ws rest i h => ?_, fun c ws rest i h => ?_⟩
  · obtain ⟨own, hown, rfl⟩ := hostWords_of_decode hb h
    obtain ⟨hwf, hhost, rfl⟩ := hown.encoded
    exact ⟨hwf, hhost, rfl⟩
  · rw [decode, decodeBlockWords.eq_def] at h
    split at h
    · next info src dst length stride next pad0 pad1 rest' =>
      cases h
      obtain ⟨hwf, hengine, hencode⟩ := recognise_encoded (b := b) c { info, src, dst, length, stride, next }
      exact ⟨hwf, hengine, pad0, pad1, by rw [hencode]; rfl⟩
    · cases h

end Sys2Proof.Machine

/-!
PROOFS. The host's step (O5) and what an engine loads (O8, O9).
-/

namespace Sys2Proof.Machine

/-- Settles O5: with the host next, the step is the host's, on the stream that decodes. -/
theorem stepRunsTheHostCall : Obligations.StepRunsTheHostCall := fun s _ _ h =>
  ⟨fun hq => (step_quiet hq).trans (hostStep_call h),
    fun turns hs => (step_host hs).trans (hostStep_call (s := { s with agenda := turns }) h)⟩

/-! ## Admission (R103, R104, R113) -/

/-- The next block of a CBA is its slot's CBB (R137). -/
theorem nextBlock_even {ch : ChanRec} {i : Nat} (hi : i < ch.sampleCount) : nextBlock ch (2 * i) = 2 * i + 1 :=
  Nat.mod_eq_of_lt (by omega)

theorem admittedNext_iff (b : Board) (ch : ChanRec) (k : Nat) (next : Word) :
    admittedNext b ch k next = true ↔ next = 0 ∨ blockAddress b ch (nextBlock ch k) = some next := by
  simp only [admittedNext, Bool.or_eq_true, beq_iff_eq]

/-- WHICH CBAs ARE ADMITTED: those of the chain's slots. -/
theorem ArenaOk.admittedA_iff {b : Board} {ch : ChanRec} (h : ArenaOk b ch) {a src next : Word} :
    Machine.admittedA b ch a src next = true ↔ ∃ i, i < ch.sampleCount ∧ blockAddress b ch (2 * i) = some a ∧
      phys b ch (sampleOffset i) = some src ∧ (next = 0 ∨ blockAddress b ch (2 * i + 1) = some next) := by
  constructor
  · intro hadm
    unfold Machine.admittedA at hadm
    split at hadm
    · cases hadm
    · next k hk =>
      simp only [Bool.and_eq_true, decide_eq_true_eq, beq_iff_eq, admittedNext_iff] at hadm
      obtain ⟨⟨⟨-, heven⟩, hsrc⟩, hnext⟩ := hadm
      obtain ⟨hlt, haddr⟩ := blockAddress_of_blockIndex hk
      obtain ⟨i, rfl⟩ : ∃ i, k = 2 * i := ⟨k / 2, by omega⟩
      rw [Nat.mul_div_cancel_left i (by omega)] at hsrc
      rw [nextBlock_even (by omega)] at hnext
      exact ⟨i, by omega, haddr, hsrc, hnext⟩
  · rintro ⟨i, hi, haddr, hsrc, hnext⟩
    rw [← nextBlock_even hi, ← admittedNext_iff] at hnext
    have hk : 2 * i / 2 = i := by omega
    simp [Machine.admittedA, h.blockIndex_blockAddress (by omega) haddr, (h.blockAddress_aligned haddr).1, hk, hsrc, hnext]

/-- WHICH CBBs ARE ADMITTED: those of the chain's slots. -/
theorem ArenaOk.admittedB_iff {b : Board} {ch : ChanRec} (h : ArenaOk b ch) {a src next : Word} :
    Machine.admittedB b ch a src next = true ↔ ∃ i, i < ch.sampleCount ∧ blockAddress b ch (2 * i + 1) = some a ∧
      phys b ch (sampleOffset 0) = some src ∧
      (next = 0 ∨ blockAddress b ch ((2 * i + 2) % (2 * ch.sampleCount)) = some next) := by
  constructor
  · intro hadm
    unfold Machine.admittedB at hadm
    split at hadm
    · cases hadm
    · next k hk =>
      simp only [Bool.and_eq_true, decide_eq_true_eq, beq_iff_eq, admittedNext_iff] at hadm
      obtain ⟨⟨⟨-, hodd⟩, hsrc⟩, hnext⟩ := hadm
      obtain ⟨hlt, haddr⟩ := blockAddress_of_blockIndex hk
      obtain ⟨i, rfl⟩ : ∃ i, k = 2 * i + 1 := ⟨k / 2, by omega⟩
      exact ⟨i, by omega, haddr, hsrc, hnext⟩
  · rintro ⟨i, hi, haddr, hsrc, hnext⟩
    have hnext' : admittedNext b ch (2 * i + 1) next = true := (admittedNext_iff b ch _ next).mpr hnext
    have hk : (2 * i + 1) % 2 = 1 := by omega
    simp [Machine.admittedB, h.blockIndex_blockAddress (by omega) haddr, (h.blockAddress_aligned haddr).1, hk, hsrc, hnext']

/-! ## FETCH (R131, R134) -/

theorem fetchHalf_admitted (c : Chan) (blk : ControlBlock) (s : State) :
    fetchHalf c blk true s = .next (s.setEng c ((s.eng c).load blk)) := if_pos rfl

theorem fetchHalf_refused (c : Chan) (blk : ControlBlock) (s : State) :
    fetchHalf c blk false s = .refused (.notAdmitted c) := rfl

/-- Settles O8: a load copies the words of the form exactly when its block is admitted. -/
theorem fetchLoadsExactlyTheChainsBlocks : Obligations.FetchLoadsExactlyTheChainsBlocks := by
  intro s c harena hr hp
  refine ⟨fun src dst next => ⟨fun h => ?_, fun h => ?_⟩, fun src next => ⟨fun h => ?_, fun h => ?_⟩⟩
  · rw [exec_cba_fetch hr hp, harena.admittedA_iff.mpr h, fetchHalf_admitted]
    cases dst <;> rfl
  · rw [exec_cba_fetch hr hp, Bool.eq_false_iff.mpr fun hadm => h (harena.admittedA_iff.mp hadm), fetchHalf_refused]
  · rw [exec_cbb_fetch hr hp, harena.admittedB_iff.mpr h, fetchHalf_admitted]
    rfl
  · rw [exec_cbb_fetch hr hp, Bool.eq_false_iff.mpr fun hadm => h (harena.admittedB_iff.mp hadm), fetchHalf_refused]

theorem exec_cbx_fetch {s : State} {c : Chan} (hr : (s.eng c).runs = true) (hp : (s.eng c).phase = .fetch)
    (h0 : (s.eng c).conblkAd ≠ 0) (raw : ControlBlock) : exec (.cbx c raw) s = .refused (.notAdmitted c) := by
  simp only [exec, execCbx, hr, hp, if_true, if_neg h0]

/-- Settles O9: the block that is loaded runs as the CBX it is recognised as. -/
theorem otherBlocksAreRefused : Obligations.OtherBlocksAreRefused := by
  intro s c turns hs hr hp h0
  refine ⟨exec_cbx_fetch hr hp h0, fun blk hload hform => ?_⟩
  rw [step_fetch hs hr hp h0 hload, hform]
  exact exec_cbx_fetch (s := { s with agenda := turns }) hr hp h0 blk

end Sys2Proof.Machine

/-!
PROOFS. The percent conversion (O45) and what `setPercent` writes (O46).
-/

namespace Sys2Proof.Machine

/-! ## Percent to width (R109) -/

/-- A percentage clamped to 0..100, as a natural number. -/
def clampedPercent (percent : Int) : Nat := (max (min percent 100) 0).toNat

theorem percentWidth_eq (percent : Int) (maxWidth : Nat) :
    percentWidth percent maxWidth = (clampedPercent percent * maxWidth + 50) / 100 := rfl

theorem clampedPercent_cast (percent : Int) : (clampedPercent percent : Int) = min (max percent 0) 100 := by
  unfold clampedPercent
  omega

theorem clampedPercent_le (percent : Int) : clampedPercent percent ≤ 100 := by
  unfold clampedPercent
  omega

theorem clampedPercent_mono {percent percent' : Int} (h : percent ≤ percent') :
    clampedPercent percent ≤ clampedPercent percent' := by
  unfold clampedPercent
  omega

theorem percentWidth_le (percent : Int) (maxWidth : Nat) : percentWidth percent maxWidth ≤ maxWidth := by
  have hprod := Nat.mul_le_mul_right maxWidth (clampedPercent_le percent)
  rw [percentWidth_eq]
  omega

/-- Settles O45: the clamped percentage is at most 100 and grows with the percentage, and so does its share. -/
theorem percentToWidthIsMonotone : Obligations.PercentToWidthIsMonotone := by
  refine fun percent maxWidth => ⟨?_, percentWidth_le percent maxWidth, fun h => ?_, fun h => ?_, fun percent' h => ?_⟩
  · rw [percentWidth_eq, ← clampedPercent_cast]
    norm_cast
  · have hzero : clampedPercent percent = 0 := by unfold clampedPercent; omega
    rw [percentWidth_eq, hzero]
    omega
  · have hfull : clampedPercent percent = 100 := by unfold clampedPercent; omega
    rw [percentWidth_eq, hfull]
    omega
  · exact Nat.div_le_div_right (Nat.add_le_add_right (Nat.mul_le_mul_right _ (clampedPercent_mono h)) _)

/-! ## Arguments -/

theorem pinIndex_val (p : Pin) : pinIndex (p.val : Int) = some p := by
  have hp : (0 : Int) ≤ p.val ∧ (p.val : Int) < (Config.gpioCount : Int) := ⟨by omega, by exact_mod_cast p.isLt⟩
  simp [pinIndex, hp]

theorem pinIndex_none {gpio : Int} (h : gpio < 0 ∨ 32 ≤ gpio) : pinIndex gpio = none :=
  dif_neg fun ⟨hlow, hhigh⟩ => by
    change gpio < 32 at hhigh
    omega

theorem chanIndex_none {channel : Int} (h : channel < 0 ∨ 15 ≤ channel) : chanIndex channel = none :=
  dif_neg fun ⟨hlow, hhigh⟩ => by
    change channel < 15 at hhigh
    omega

theorem onChannel_initialized {c : Chan} {s : State} (h : (s.chan c).initialized = true) (k : Chan → Call) :
    onChannel c.val s k = k c := by
  simp only [onChannel, chanIndex_val, h, if_true]

/-- A channel outside the pool, or not initialized, is turned away (R231 to R233, steps 1 and 2). -/
theorem onChannel_rejected {channel : Int} {s : State}
    (h : channel < 0 ∨ 15 ≤ channel ∨ ∃ c : Chan, channel = (c.val : Int) ∧ (s.chan c).initialized = false)
    (k : Chan → Call) : onChannel channel s k = .raise .channelStateError := by
  rw [← or_assoc] at h
  rcases h with hout | ⟨c, rfl, hinit⟩
  · simp only [onChannel, chanIndex_none hout]
  · simp only [onChannel, chanIndex_val, hinit, Bool.false_eq_true, if_false]

/-! ## A pulse's effect (R231, R234) -/

/-- What a pulse's writes make of a sample word. -/
theorem pulseWord_sample {b : Board} {ch : ChanRec} (h : ArenaOk b ch) (p : Pin) {start width i : Nat}
    (hi : i < ch.sampleCount) (x : Word) : pulseWord b ch p start width (sampleOffset i) x =
      if i = start ∧ width ≠ 0 then x ||| pinBit p.val
      else if start ≤ i ∧ i ≤ start + width then x &&& ~~~(pinBit p.val) else x := by
  have hsample (j : Nat) : sampleOffset i = sampleOffset j ↔ i = j := by unfold sampleOffset; omega
  have hbehind : (sampleOffset start < sampleOffset i ∧ sampleOffset i ≤ sampleOffset (start + width) ∧
      sampleOffset i < 4 * ch.sampleCount) ↔ start < i ∧ i ≤ start + width := by unfold sampleOffset; omega
  have hdst (k : Nat) : sampleOffset i ≠ dstOffset b ch k := (h.dst_ne_sample hi).symm
  unfold pulseWord
  simp only [hsample, hbehind, hdst, and_false, if_false]
  by_cases hstart : i = start
  · by_cases hwidth : width = 0
    · rw [if_pos hstart, if_pos hwidth, if_neg (by omega), if_pos (by omega)]
    · rw [if_pos hstart, if_neg hwidth, if_pos ⟨hstart, hwidth⟩]
  · have hrange : (start < i ∧ i ≤ start + width) ↔ (start ≤ i ∧ i ≤ start + width) := by omega
    have hset : ¬ (i = start ∧ width ≠ 0) := fun h => hstart h.1
    simp only [if_neg hstart, if_neg hset, hrange]

/-- What a pulse's writes make of a slot's register. -/
theorem pulseWord_dst {b : Board} {ch : ChanRec} (h : ArenaOk b ch) (p : Pin) {start width : Nat}
    (hs : start < ch.sampleCount) (i : Nat) (x : Word) : pulseWord b ch p start width (dstOffset b ch (2 * i)) x =
      if start + width < ch.sampleCount ∧ i = start + width then b.gpClr else if i = start then b.gpSet else x := by
  have hbound := dst_bounds h (2 * i)
  have hdst (j : Nat) : dstOffset b ch (2 * i) = dstOffset b ch (2 * j) ↔ i = j :=
    ⟨fun he => by have := dstOffset_inj h.board he; omega, fun he => he ▸ rfl⟩
  have hbehind : ¬ (sampleOffset start < dstOffset b ch (2 * i) ∧
      dstOffset b ch (2 * i) ≤ sampleOffset (start + width) ∧ dstOffset b ch (2 * i) < 4 * ch.sampleCount) := by omega
  unfold pulseWord
  rw [if_neg (h.dst_ne_sample hs), if_neg hbehind]
  simp only [hdst]

/-- What writes to the arena make of one of its words, read through the channel's record. -/
theorem Wrote.arenaWordOf_eq {s t : State} {ch : ChanRec} {v : Nat → Word → Word} {T : Nat → Prop}
    (h : Wrote s.board ch v T s.mem t.mem) (hboard : t.board = s.board) {o : Nat} (ho : o % 4 = 0) :
    arenaWordOf t ch o = (arenaWordOf s ch o).map (v o) := by
  unfold arenaWordOf
  rw [hboard]
  cases hw : phys s.board ch o with
  | none => rfl
  | some w => exact congrArg some (h.word o w ho hw)

/-- The tables after a pulse's writes. -/
theorem Wrote.pulseTables {s t : State} {c : Chan} {p : Pin} {start width : Nat} (hok : ArenaOk s.board (s.chan c))
    (hs : start < (s.chan c).sampleCount) (hchan : t.chan c = s.chan c) (hboard : t.board = s.board)
    (h : Wrote s.board (s.chan c) (pulseWord s.board (s.chan c) p start width)
      (pulseOffsets s.board (s.chan c) start width) s.mem t.mem) : PulseTables s t c p start width := by
  have hdst {i : Nat} (hi : i < (s.chan c).sampleCount) : ∃ x, dstWord t c (2 * i) =
      some (if start + width < (s.chan c).sampleCount ∧ i = start + width then s.board.gpClr
        else if i = start then s.board.gpSet else x) := by
    have hmod := hok.blockOffset_mod_four (2 * i)
    have hsize := hok.board.le_cbSize
    obtain ⟨w, hw, -⟩ := hok.phys_exists (hok.block_lt (k := 2 * i) (f := 8) (by omega) (by omega))
    refine ⟨Memory.readWord s.mem (physicalOf s.board w), ?_⟩
    rw [← pulseWord_dst hok p hs i, dstWord, hchan, hboard, h.arenaWordOf_eq hboard (by unfold dstOffset; omega)]
    unfold arenaWordOf
    rw [show phys s.board (s.chan c) (dstOffset s.board (s.chan c) (2 * i)) = some w from hw]
    rfl
  refine ⟨fun i w hi hw => ?_, fun hwidth => ?_, fun hend => ?_, fun a hsamples hstart hend => h.frame a ?_⟩
  · rw [sampleWord, hchan, h.arenaWordOf_eq hboard (by unfold sampleOffset; omega), ← pulseWord_sample hok p hi]
    exact congrArg (Option.map _) hw
  · obtain ⟨x, hx⟩ := hdst hs
    rw [hx, if_neg (by omega), if_pos rfl]
  · obtain ⟨x, hx⟩ := hdst hend
    rw [hx, if_pos ⟨hend, rfl⟩]
  · rintro o (⟨j, hlow, hhigh, hj, rfl⟩ | rfl | ⟨hlt, rfl⟩)
    · exact hsamples j hlow hhigh hj
    · exact hstart
    · exact hend hlt

/-! ## A pulse call (R231) -/

/-- The claim of a pin that is not claimed, before a pulse's table writes (R231 step 6). -/
def claimFirst (s : State) (p : Pin) : List Action := if claimed s p then [] else claimActions p

/-- A pulse call whose checks pass makes its claim and its table writes. -/
theorem pulseCall_go {s : State} {c : Chan} {start width : Nat} (p : Pin) (hs : start < (s.chan c).maxWidth)
    (he : start + width ≤ (s.chan c).maxWidth) : pulseCall c p.val start width s =
      .go (pulseLocks s c p) (claimFirst s p ++ pulseActions c p start width (s.chan c).maxWidth) := by
  have hrange : ¬ ((start : Int) < 0 ∨ (width : Int) < 0 ∨ ((s.chan c).maxWidth : Int) < start + width) := by omega
  have hstart : ¬ ((s.chan c).maxWidth : Int) ≤ start := by omega
  unfold pulseCall pulseLocks claimFirst
  simp only [pinIndex_val, if_neg hrange, if_neg hstart, Int.toNat_natCast]
  split <;> rfl

/-- Where the claim, if any, leads: to the state after it, the tables and the arena as they were. -/
theorem claimFirst_leads {s : State} {p : Pin} (hb : RegistersOk s.board) (hq : s.agenda = [])
    (hv : s.board.visibility = .sc) (hw : s.host.windowsMapped = true ∨ claimed s p = true) :
    ∃ x u, Leads (claimFirst s p) Scratch.empty s x u ∧ AfterClaim s u p ∧ u.agenda = s.agenda ∧ u.board = s.board ∧
      u.mem = s.mem ∧ ∀ c, u.chan c = s.chan c := by
  unfold claimFirst
  by_cases hc : claimed s p = true
  · rw [if_pos hc]
    exact ⟨_, s, Leads.nil _ s, .inl ⟨hc, rfl⟩, rfl, rfl, rfl, fun _ => rfl⟩
  · rw [if_neg hc]
    exact ⟨_, _, claimActions_leads hb hq hv (hw.resolve_right hc) p _,
      .inr ⟨Bool.eq_false_iff.mpr hc, _, claimWord_selects hb hv p, rfl⟩, rfl, rfl, rfl, fun _ => rfl⟩

/-- WHAT A PULSE CALL RUN ALONE DOES, its checks passed. -/
theorem runCall_pulse {s : State} {c : Chan} {p : Pin} {start width : Nat} (hq : Quiet (pulseLocks s c p) s)
    (hok : ArenaOk s.board (s.chan c)) (hm : Memory.wf s.mem = true)
    (hw : s.host.windowsMapped = true ∨ claimed s p = true) (hs : start < (s.chan c).maxWidth)
    (he : start + width ≤ (s.chan c).maxWidth) :
    ∃ t, runCall succeed (pulseCall c p.val start width s) s = .next t ∧ PulseApplied s t c p start width := by
  obtain ⟨x, u, hclaim, hafter, hagenda, hboard, hmem, hchan⟩ :=
    claimFirst_leads hok.board.registers hq.agenda hq.direct hw
  rw [hok.width] at hs he
  obtain ⟨m, y, hpulse, hwrote⟩ := pulseActions_leads (s := u) (c := c) (p := p) (start := start) (width := width)
    (hagenda.trans hq.agenda) (by rw [hboard]; exact hq.direct) (by rw [hboard, hchan]; exact hok) (by rw [hmem]; exact hm)
    (by rw [hchan]; exact hs) (by rw [hchan]; exact he) x
  rw [hchan] at hpulse
  rw [hboard, hchan, hmem] at hwrote
  refine ⟨State.answer { u with mem := m } .ok, ?_, hwrote.pulseTables hok hs (hchan c) hboard, u, hafter, rfl⟩
  rw [pulseCall_go p (by rw [hok.width]; exact hs) (by rw [hok.width]; exact he), runCall_go hq.free,
    (hclaim.append hpulse).finish]
  rfl

/-- A call that raises an error kind changes nothing but the answer (R268). -/
theorem runCall_raise (finish : State → Outcome) (e : ErrorKind) (s : State) :
    runCall finish (.raise e) s = .next (s.answer (.error e)) := rfl

theorem exec_setChannelPercent_initialized {s : State} {c : Chan} (h : (s.chan c).initialized = true)
    (g percent : Int) : exec (.setChannelPercent c.val g percent) s =
      runCall succeed (pulseCall c g 0 (percentWidth percent (s.chan c).maxWidth) s) s := by
  change runCall succeed (onChannel c.val s _) s = _
  rw [onChannel_initialized h]

/-- Settles O46: past the channel's checks the call is the pulse call of the percentage's width, which fits the table. -/
theorem setPercentWritesThePulse : Obligations.SetPercentWritesThePulse := by
  refine ⟨fun s c p percent hq hinit hok hm hw => ?_, fun s channel g percent => ⟨fun h => ?_, ?_⟩⟩
  · have hpos : 0 < (s.chan c).maxWidth := by rw [hok.width]; exact hok.nonempty
    have hfits := percentWidth_le percent (s.chan c).maxWidth
    rw [exec_setChannelPercent_initialized hinit]
    exact runCall_pulse (start := 0) hq hok hm hw hpos (by rwa [Nat.zero_add])
  · change runCall succeed (onChannel channel s _) s = _
    rw [onChannel_rejected h]
    rfl
  · rintro c rfl hinit hpin
    rw [exec_setChannelPercent_initialized hinit, pulseCall, pinIndex_none hpin]
    rfl

end Sys2Proof.Machine

/-!
PROOFS. `InitChannel`: its checks (O39), and the channel it starts (O40).
-/

namespace Sys2Proof.Machine

/-! ## The checks (R205 steps 1 to 6) -/

theorem exec_initChannel_raised {channel sub : Int} {s : State} {e : ErrorKind}
    (h : callInitChannel channel sub s = .raise e) :
    exec (.initChannel channel sub) s = .next { s with host := { s.host with result := .error e } } := by
  change runCall succeed (callInitChannel channel sub s) s = _
  rw [h]
  rfl

theorem exec_initChannel_refused {channel sub : Int} {s : State} {r : Refusal}
    (h : callInitChannel channel sub s = .refuse r) : exec (.initChannel channel sub) s = .refused r := by
  change runCall succeed (callInitChannel channel sub s) s = _
  rw [h]
  rfl

/-- Before `Initialize` (R205 step 1). -/
theorem callInitChannel_early {s : State} (h : s.host.windowsMapped = false ∨ s.host.clockConfigured = false)
    (channel sub : Int) : callInitChannel channel sub s = .raise .channelStateError := by
  have hearly : (!(s.host.windowsMapped && s.host.clockConfigured)) = true := by
    rcases h with h | h <;> simp [h]
  rw [callInitChannel, if_pos hearly]

section
variable {s : State} (hmapped : s.host.windowsMapped = true) (hclock : s.host.clockConfigured = true)
include hmapped hclock

/-- After `Initialize`, a channel outside the pool (R205 step 2). -/
theorem callInitChannel_outside {channel : Int} (h : channel < 0 ∨ 15 ≤ channel) (sub : Int) :
    callInitChannel channel sub s = .raise .channelStateError := by
  simp [callInitChannel, hmapped, hclock, chanIndex_none h]

/-- After `Initialize`, a channel of the pool: the checks of its record, the subcycle and the sample count (R205 steps 3
to 6). -/
theorem callInitChannel_inside (c : Chan) (sub : Int) : callInitChannel c.val sub s =
    if (s.chan c).initialized = true then .raise .channelStateError
    else if sub < s.board.subcycleUsMin then .raise .channelStateError
    else if s.board.subcycleUsMax < sub then .refuse .subcycleAboveMax
    else if sampleCountOf sub s.host.incrementUs < 1 then .raise .channelStateError
    else .go [.channel c] (bringUpActions s.board c sub (sampleCountOf sub s.host.incrementUs).toNat) := by
  simp [callInitChannel, hmapped, hclock, chanIndex_val]

end

/-- Settles O39: the call's branches, in order. -/
theorem initChannelChecksInOrder : Obligations.InitChannelChecksInOrder := by
  refine fun s channel sub => ⟨fun h => exec_initChannel_raised (callInitChannel_early h channel sub),
    fun hmapped hclock => ⟨fun h => exec_initChannel_raised (callInitChannel_outside hmapped hclock h sub), ?_⟩,
    fun hsub hinc => if_pos ⟨hsub, hinc⟩⟩
  rintro c rfl
  have hcall := callInitChannel_inside hmapped hclock c sub
  refine ⟨fun h => exec_initChannel_raised (hcall.trans ?_), fun hinit hmin hmax =>
    exec_initChannel_refused (hcall.trans ?_), fun hinit hmin hmax hcount => exec_initChannel_raised (hcall.trans ?_)⟩
  · rcases h with hinit | hmin
    · rw [if_pos hinit]
    · rw [if_pos hmin, ite_self]
  · rw [hinit, if_neg Bool.false_ne_true, if_neg (by omega), if_pos hmax]
  · rw [hinit, if_neg Bool.false_ne_true, if_neg (by omega), if_neg (by omega), if_pos hcount]

/-! ## A new arena (R203, R205 steps 8 to 10) -/

/-- Every byte of an arena's word is in one of its pages. -/
theorem ArenaOk.inPages_of_inArenaWord {b : Board} {ch : ChanRec} (h : ArenaOk b ch) {off a : Nat} (ho : off % 4 = 0)
    (ha : inArenaWord b ch off a) : inPages b ch.pageMap a := by
  obtain ⟨w, hw, hlow, hhigh⟩ := ha
  obtain ⟨page, hpage, -, hplace, hroom, -⟩ := h.word_place hw ho
  have hphys : physicalOf b page = page.toNat - b.dmaBusOffset := rfl
  exact ⟨page, List.mem_of_getElem? hpage, by omega, by omega⟩

/-- Every word of an arena's cleared pages reads 0. -/
theorem ArenaOk.readWord_clearPages {b : Board} {ch : ChanRec} (h : ArenaOk b ch) (m : Memory) {off : Nat} {w : Word}
    (ho : off % 4 = 0) (hw : phys b ch off = some w) :
    Memory.readWord (Memory.clearPages b m ch.pageMap) (physicalOf b w) = 0 := by
  have hbyte (r : Nat) (hr : r < 4) : Memory.read (Memory.clearPages b m ch.pageMap) (physicalOf b w + r) = 0 :=
    (Memory.read_clearPages b m ch.pageMap _).trans
      (if_pos (h.inPages_of_inArenaWord ho ⟨w, hw, by omega, by omega⟩))
  have hbyte0 := hbyte 0 (by omega)
  rw [Nat.add_zero] at hbyte0
  rw [Memory.readWord, hbyte 3 (by omega), hbyte 2 (by omega), hbyte 1 (by omega), hbyte0]
  rfl

/-- The state once channel `c` has its arena on `pages`: they are cleared, the layout recorded, the channel not yet
initialized (R205 step 10). -/
def laidOut (c : Chan) (sub : Int) (n : Nat) (pages : List Word) (s : State) : State :=
  State.setChan { s with mem := Memory.clearPages s.board s.mem pages } c
    (layoutOf s.board c sub n s.env.virtBase pages)

theorem laidOut_chan (c : Chan) (sub : Int) (n : Nat) (pages : List Word) (s : State) :
    (laidOut c sub n pages s).chan c = layoutOf s.board c sub n s.env.virtBase pages :=
  (chan_setChan ..).trans (if_pos rfl)

/-- The accesses up to the record of the arena, run alone on pages that the export gives. -/
theorem layout_leads {s : State} {c : Chan} {n : Nat} {pages : List Word} (hb : BoardOk s.board) (hq : s.agenda = [])
    (hinit : (s.chan c).initialized = false) (hn : 1 ≤ n)
    (hmap : mapSucceeds (windowBase s.board (.dma c) : Nat) s = true) (hl : s.env.locksRegion = true)
    (hr : PagesResolve s pages) (hlen : pages.length = pageCountOf s.board n) (sub : Int) :
    Leads (.mapWindow (windowBase s.board (.dma c)) :: regionActions (pageCountOf s.board n) ++ [.recordArena c sub n])
      Scratch.empty s (regionScratch s pages) (laidOut c sub n pages s) := by
  have hmapped : perform (.mapWindow (windowBase s.board (.dma c))) Scratch.empty s = .went Scratch.empty s := if_pos hmap
  have hcount : ¬ (n = 0 ∨ (regionScratch s pages).pages.length ≠ pageCountOf s.board n) := by
    rintro (h0 | hne)
    · omega
    · exact hne hlen
  have hrecorded : perform (.recordArena c sub n) (regionScratch s pages) s =
      .went (regionScratch s pages) (laidOut c sub n pages s) := by
    change recordArena c sub n (regionScratch s pages) s = _
    rw [recordArena, hinit, if_neg Bool.false_ne_true, if_neg hcount]
    exact if_pos (hr.exact hb)
  rw [← hlen]
  exact (Leads.cons hq hmapped (region_leads hq hl hr)).append (Leads.one hq hrecorded)

/-! ## The channel started (R205 steps 11 and 12, R206, R207) -/

/-- The state `InitChannel` leaves: the one `compile` leaves of the new arena, with the channel initialized. -/
def startedState (c : Chan) (sub : Int) (n : Nat) (pages : List Word) (head : Word) (m : Memory) (s : State) : State :=
  markInitialized c (compiledState c head m (laidOut c sub n pages s))

theorem compiledState_chan (c : Chan) (head : Word) (m : Memory) (s : State) (d : Chan) :
    (compiledState c head m s).chan d = s.chan d := by
  obtain ⟨-, -, -, hhost, -⟩ := compiledState_frame c head m s
  unfold State.chan
  rw [hhost]

/-- With no write under way nothing but the engine's own writes shows (R160). -/
theorem compiledState_noWriteInFlight {c : Chan} {s : State} (h : noWriteInFlight (s.eng c)) (head : Word) (m : Memory) :
    (compiledState c head m s).gpio = s.gpio ∧ (compiledState c head m s).pwm = s.pwm ∧
      (compiledState c head m s).trace = s.trace ++ startEvents s.board c head := by
  have hresolved : resolveInFlight c { s with mem := m } = { s with mem := m } := resolveInFlight_none h
  unfold compiledState
  rw [hresolved]
  exact ⟨rfl, rfl, rfl⟩

section
variable {s : State} {c : Chan} {sub : Int} {n : Nat} {pages : List Word} {head : Word} {m : Memory}

/-- The accesses after the record of the arena: the chain, the start sequence, the channel's last record. -/
theorem started_leads (hq : s.agenda = []) (hv : s.board.visibility = .sc) (hw : s.host.windowsMapped = true)
    (hpages : pages ≠ []) (x : Scratch)
    (hchain : Leads (chainActions c n) x (laidOut c sub n pages s) x { laidOut c sub n pages s with mem := m })
    (hhead : blockAddress s.board (layoutOf s.board c sub n s.env.virtBase pages) 0 = some head)
    (halign : head.toNat % s.board.cbAlign = 0) :
    ∃ u, Leads (chainActions c n ++ startActions c ++ [.recordChannel c]) x (laidOut c sub n pages s) x u ∧
      u.answer .ok = startedState c sub n pages head m s := by
  rw [← laidOut_chan] at hhead
  have hstart := startActions_leads (s := { laidOut c sub n pages s with mem := m }) (c := c) (head := head) hq hv hw hhead
    halign x
  obtain ⟨-, -, -, -, -, -, -, -, -, hagenda, -⟩ := compiledState_frame c head m (laidOut c sub n pages s)
  have hpageMap : ((compiledState c head m (laidOut c sub n pages s)).chan c).pageMap ≠ [] := by
    rw [compiledState_chan, laidOut_chan]
    exact hpages
  exact ⟨_, (hchain.append hstart).append (Leads.one (hagenda.trans hq) (if_neg hpageMap)), rfl⟩

/-- `InitChannel` run alone, its checks passed and its environment willing. -/
theorem exec_initChannel_started (hq : Quiet [.channel c] s)
    (hcall : callInitChannel c.val sub s = .go [.channel c] (bringUpActions s.board c sub n)) {x : Scratch} {u : State}
    (hlayout : Leads
      (.mapWindow (windowBase s.board (.dma c)) :: regionActions (pageCountOf s.board n) ++ [.recordArena c sub n])
      Scratch.empty s x (laidOut c sub n pages s))
    (hstarted : Leads (chainActions c n ++ startActions c ++ [.recordChannel c]) x (laidOut c sub n pages s) x u) :
    exec (.initChannel c.val sub) s = .next (u.answer .ok) := by
  have hall := hlayout.append hstarted
  change runCall succeed (callInitChannel c.val sub s) s = _
  rw [hcall, runCall_go hq.free, bringUpActions]
  simp only [List.append_assoc, List.cons_append] at hall ⊢
  rw [hall.finish]
  rfl

end

/-- The record of a started channel: its layout, initialized. -/
theorem startedState_chan (c : Chan) (sub : Int) (n : Nat) (pages : List Word) (head : Word) (m : Memory) (s : State) :
    (startedState c sub n pages head m s).chan c =
      { layoutOf s.board c sub n s.env.virtBase pages with initialized := true } := by
  rw [startedState, chan_markInitialized, if_pos rfl, compiledState_chan, laidOut_chan]

/-- The host's context after a channel is started: the channel's record and the answer. -/
theorem startedState_host (c : Chan) (sub : Int) (n : Nat) (pages : List Word) (head : Word) (m : Memory) (s : State) :
    (startedState c sub n pages head m s).host = { s.host with
      chan := s.host.chan.set c.val ((startedState c sub n pages head m s).chan c) c.isLt, result := .ok } := by
  obtain ⟨-, -, -, hhost, -⟩ := compiledState_frame c head m (laidOut c sub n pages s)
  have hset (u : State) : (markInitialized c u).host =
      { u.host with chan := u.host.chan.set c.val ((markInitialized c u).chan c) c.isLt } := by
    rw [chan_markInitialized, if_pos rfl]
    rfl
  unfold startedState
  rw [hset, hhost]
  simp only [laidOut, State.setChan, Vector.set_set]

/-- A compiled chain is not a matter of the channel's being initialized. -/
theorem ChainCompiled.initialized {s : State} {ch : ChanRec} (h : ChainCompiled s ch) :
    ChainCompiled s { ch with initialized := true } := fun i hi => ⟨(h i hi).formA, (h i hi).formB⟩

/-- Settles O40: the accesses lead through the new arena, its chain and the start sequence to the state that holds the
channel started; memory outside the pages is written by none of them. -/
theorem initChannelStartsTheChannel : Obligations.InitChannelStartsTheChannel := by
  intro s c sub n pages hb hq hw hclock hinit hmin hmax hcount hn hopens hmap hl hr hlen hm
  have hcall : callInitChannel c.val sub s = .go [.channel c] (bringUpActions s.board c sub n) := by
    rw [callInitChannel_inside hw hclock, hinit, if_neg Bool.false_ne_true, if_neg (by omega), if_neg (by omega), hcount,
      if_neg (by omega), Int.toNat_natCast]
  have hlayout := layout_leads hb hq.agenda hinit hn ((mapSucceeds_iff _ s).mpr ⟨hopens, hmap⟩) hl hr hlen sub
  have harena : ArenaOk s.board (layoutOf s.board c sub n s.env.virtBase pages) :=
    arenaOk_layoutOf hb c sub s.env.virtBase hn hlen (hr.exact hb)
  obtain ⟨head, hhead, halign⟩ := harena.head_exists
  have hchan := laidOut_chan c sub n pages s
  obtain ⟨m, hchain, -, hcompiled, hsamples, hbytes⟩ := chainActions_leads (s := laidOut c sub n pages s) (c := c) hq.agenda
    hq.direct (by rw [hchan]; exact harena) (Memory.wf_clearPages hm pages) (regionScratch s pages)
  rw [hchan] at hchain hcompiled hsamples hbytes
  obtain ⟨u, hstarted, hu⟩ := started_leads hq.agenda hq.direct hw harena.pageMap_ne_nil _ hchain hhead halign
  obtain ⟨hmem, heng, hothers, -, hclk, hfsel, -, -, -, -, hboard, hlanding, hthreads⟩ :=
    compiledState_frame c head m (laidOut c sub n pages s)
  have hrecord := startedState_chan c sub n pages head m s
  have hmem' : (startedState c sub n pages head m s).mem = m := hmem
  have hboard' : (startedState c sub n pages head m s).board = s.board := hboard
  refine ⟨startedState c sub n pages head m s, head, _, hu ▸ exec_initChannel_started hq hcall hlayout hstarted,
    hrecord.trans (by rw [hlen]; rfl), startedState_host c sub n pages head m s, fun i hi => ?_, ?_, ?_, heng, hothers,
    fun a ha => ?_, hclk, hfsel, hboard, hlanding, hthreads, fun hnone => ?_⟩
  · obtain ⟨hbefore, hin⟩ := harena.sample_lt hi
    obtain ⟨w, hphys, -⟩ := harena.phys_exists hin
    have hmod : sampleOffset i % 4 = 0 := by unfold sampleOffset; omega
    have hzero := (hsamples _ w hmod hbefore hphys).trans (harena.readWord_clearPages s.mem hmod hphys)
    rw [sampleWord, hrecord, arenaWordOf, hboard', hmem']
    exact (congrArg (Option.map _) hphys).trans (congrArg some hzero)
  · rw [hrecord]
    exact (hcompiled.of_mem hmem' hboard').initialized
  · rw [hrecord, hboard']
    exact hhead
  · have houtside (k f : Nat) (hf : f ∈ [0, 4, 8, 12, 16, 20]) : ¬ inArenaWord s.board
        (layoutOf s.board c sub n s.env.virtBase pages)
        (blockOffset s.board (layoutOf s.board c sub n s.env.virtBase pages) k + f) a := fun hin => by
      have hblock := harena.blockOffset_mod_four k
      have hfield : f % 4 = 0 := by
        simp only [List.mem_cons, List.not_mem_nil, or_false] at hf
        omega
      exact ha (harena.inPages_of_inArenaWord (by omega) hin)
    rw [hmem', hbytes a fun k f _ hf => houtside k f hf]
    exact (Memory.read_clearPages s.board s.mem pages a).trans (if_neg ha)
  · exact compiledState_noWriteInFlight (s := laidOut c sub n pages s) hnone head m

end Sys2Proof.Machine

/-!
PROOFS. An engine's steps by the block it is at (O6, O7, O10), its holds (O15, O16, O17) and a slot's CBA (O20).
-/

namespace Sys2Proof.Machine

/-! ## Which block a step runs (R45, R84, R131; log 12) -/

/-- Eight words decode to the block their first six are recognised as, and the pads are ignored (R101). -/
theorem decode_block_eq_ok {b : Board} {c : Chan} {blk : ControlBlock} {pad0 pad1 : Word} {i : Instr}
    (h : decode b (.engine c) [blk.info, blk.src, blk.dst, blk.length, blk.stride, blk.next, pad0, pad1] =
      .ok (i, [])) : i = (recognise b blk).toInstr c := by
  cases h
  rfl

/-- Word `k` of the control block at address `a`. -/
def wordAt (s : State) (a : Word) (k : Nat) : Word := busWord s (a + BitVec.ofNat 32 (4 * k))

/-- The control block whose words stand at address `a`. -/
def blockInMemory (s : State) (a : Word) : ControlBlock :=
  { info := wordAt s a 0, src := wordAt s a 1, dst := wordAt s a 2, length := wordAt s a 3, stride := wordAt s a 4
    next := wordAt s a 5 }

/-- A load whose six reads all answer finds the block that stands there. -/
theorem loadBlock_of_readable {s : State} {a : Word}
    (h : ∀ k, k < 6 → busReadable s (a + BitVec.ofNat 32 (4 * k)) = true) :
    loadBlock s a = some (blockInMemory s a) := by
  have h0 := h 0 (by omega)
  rw [Nat.mul_zero, BitVec.add_zero] at h0
  have hreads : (busReadable s a && busReadable s (a + 4) && busReadable s (a + 8) && busReadable s (a + 12) &&
      busReadable s (a + 16) && busReadable s (a + 20)) = true := by
    simp only [Bool.and_eq_true]
    exact ⟨⟨⟨⟨⟨h0, h 1 (by omega)⟩, h 2 (by omega)⟩, h 3 (by omega)⟩, h 4 (by omega)⟩, h 5 (by omega)⟩
  unfold loadBlock blockInMemory wordAt
  rw [if_pos hreads, Nat.mul_zero, BitVec.add_zero]
  rfl

/-- Settles O6: the words a fetch decodes are those the load reads; afterwards the registers hold the loaded block. -/
theorem stepRunsTheControlBlock : Obligations.StepRunsTheControlBlock := by
  intro s c turns hs hr
  refine ⟨fun hp h0 i pad0 pad1 hread hdec => ?_, step_null hs hr, fun hp i pad0 pad1 hdec => ?_⟩
  · rw [decode_block_eq_ok (blk := blockInMemory s (s.eng c).conblkAd) hdec]
    exact step_fetch hs hr hp h0 (loadBlock_of_readable hread)
  · rw [decode_block_eq_ok (blk := (s.eng c).loaded) hdec]
    exact step_loaded hs hr hp

/-! ## No step (R130; log 4, log 15, log 37) -/

theorem DmaEngine.runs_eq_false_iff (e : DmaEngine) : e.runs = false ↔ e.cs.active = false ∨ e.foreign = true := by
  simp [DmaEngine.runs, ← Bool.not_eq_true, imp_iff_not_or]

theorem exec_cba_inactive {s : State} {c : Chan} (h : (s.eng c).runs = false) (src : Word) (dst : GpioReg)
    (next : Word) : exec (.cba c src dst next) s = .next s := by
  simp only [exec, execCba, h, Bool.false_eq_true, if_false]

theorem exec_cbb_inactive {s : State} {c : Chan} (h : (s.eng c).runs = false) (src next : Word) :
    exec (.cbb c src next) s = .next s := by
  simp only [exec, execCbb, h, Bool.false_eq_true, if_false]

theorem exec_cbx_inactive {s : State} {c : Chan} (h : (s.eng c).runs = false) (raw : ControlBlock) :
    exec (.cbx c raw) s = .next s := by
  simp only [exec, execCbx, h, Bool.false_eq_true, if_false]

/-- Settles O7: such an engine does not run, and each meaning asks for one that does. -/
theorem inactiveEngineHasNoStep : Obligations.InactiveEngineHasNoStep := by
  intro s c turns hs h
  have hr := (s.eng c).runs_eq_false_iff.mpr h
  exact ⟨step_inactive hs hr, exec_cba_inactive hr, exec_cbb_inactive hr, exec_cbx_inactive hr⟩

/-! ## The stop (R136) -/

theorem exec_cbx_null {s : State} {c : Chan} (hr : (s.eng c).runs = true) (hp : (s.eng c).phase = .fetch)
    (h0 : (s.eng c).conblkAd = 0) (raw : ControlBlock) : exec (.cbx c raw) s = .next (stopEngine c s) := by
  simp only [exec, execCbx, hr, hp, h0, if_true]

theorem stopEngine_runs (c : Chan) (s : State) : ((stopEngine c s).eng c).runs = false := by
  rw [eng_stopEngine, if_pos rfl]
  rfl

/-- Settles O10: the load at address 0 is the null block's, and the stopped engine has no step. -/
theorem zeroNextStopsTheEngine : Obligations.ZeroNextStopsTheEngine := by
  intro s c raw turns hr hp h0
  refine ⟨exec_cbx_null hr hp h0 raw, fun hs => ?_⟩
  have hstop : step s = .next (stopEngine c { s with agenda := .engine c :: turns }) :=
    (step_null hs hr hp h0).trans (exec_cbx_null (s := { s with agenda := .engine c :: turns }) hr hp h0 nullBlock)
  rw [run_succ hstop, run_succ (step_inactive rfl (stopEngine_runs c _)), run_zero]
  rfl

/-! ## A CBB whose write is due (R133, R148) -/

/-- While the request is deasserted the turn changes nothing. -/
theorem step_paced_waits {s : State} {c : Chan} {src next : Word} {turns : List Turn}
    (hs : s.agenda = .engine c :: turns) (hr : (s.eng c).runs = true) (hp : (s.eng c).phase = .write)
    (hform : recognise s.board (s.eng c).loaded = .formB src next) (hd : dreq s = false) :
    step s = .next { s with agenda := turns } := by
  have hd' : ¬ dreq { s with agenda := turns } = true := Bool.eq_false_iff.mp hd
  rw [step_loaded hs hr (by rw [hp]; decide), hform, Block.toInstr,
    exec_cbb_write (s := { s with agenda := turns }) hr hp, if_neg hd']

/-- While it is asserted the turn pushes a word and advances. -/
theorem step_paced_pushes {s : State} {c : Chan} {src next : Word} {turns : List Turn} (hb : BoardOk s.board)
    (hs : s.agenda = .engine c :: turns) (hr : (s.eng c).runs = true) (hp : (s.eng c).phase = .write)
    (hform : recognise s.board (s.eng c).loaded = .formB src next) (hd : dreq s = true) :
    step s = .next (advance c next (pushed c { s with agenda := turns })) := by
  have hd' : dreq { s with agenda := turns } = true := hd
  rw [step_loaded hs hr (by rw [hp]; decide), hform, Block.toInstr,
    exec_cbb_write (s := { s with agenda := turns }) hr hp, if_pos hd']
  exact writeHalf_fifo (s := { s with agenda := turns }) hb next hd'

theorem step_tick {s : State} {turns : List Turn} (hs : s.agenda = .pacer :: turns) (hp : pacerRunning s = true) :
    step s = .next (paceTick { s with agenda := turns }) := by
  have hp' : pacerRunning { s with agenda := turns } = true := hp
  rw [step_pacer hs, paceTurn, if_pos hp']

theorem dreq_eq_false_iff (s : State) :
    dreq s = false ↔ dmacEnab s = false ∨ s.board.dreqLevel ≤ s.pwm.fifoLevel := by
  simp [dreq, imp_iff_not_or]

/-- Settles O15: the tick takes the level below the request level, and the push takes it back. -/
theorem paceTickLiftsTheHold : Obligations.PaceTickLiftsTheHold := by
  intro s c src next turns hb hs hr hp hform hpacer henab hlevel
  have hwait := step_paced_waits hs hr hp hform ((dreq_eq_false_iff s).mpr (.inr (by omega)))
  refine ⟨hwait, ?_⟩
  set w : State := { s with agenda := .pacer :: .engine c :: turns } with hw
  have htick : step w = .next (paceTick { s with agenda := .engine c :: turns }) := step_tick rfl hpacer
  set u := paceTick { s with agenda := .engine c :: turns } with hu
  have hdreq : dreq u = true := (dreq_iff u).mpr ⟨henab, by
    change s.pwm.fifoLevel - 1 < s.board.dreqLevel
    have := hb.level.1
    omega⟩
  have hpush : step u = .next (advance c next (pushed c { u with agenda := turns })) :=
    step_paced_pushes hb rfl hr hp hform hdreq
  have hback : s.pwm.fifoLevel - 1 + 1 = s.pwm.fifoLevel := by
    have := hb.level.1
    omega
  rw [run_succ hwait, run_succ htick, run_succ hpush, run_zero, hu]
  simp only [advance, pushed_eng, eng_withAgenda, paceTick_eng]
  simp only [paceTick, pushed, State.emit, State.setEng, hback, List.append_assoc, List.cons_append, List.nil_append]

/-! ## The holds by name (R136, R148) -/

theorem atPacedWrite_iff (b : Board) (e : DmaEngine) : atPacedWrite b e = true ↔
    e.runs = true ∧ e.phase = .write ∧ ∃ src next, recognise b e.loaded = .formB src next := by
  unfold atPacedWrite
  simp only [Bool.and_eq_true, decide_eq_true_eq, and_assoc]
  cases recognise b e.loaded <;> simp

theorem holdOf_eq_stopped_iff (s : State) (c : Chan) :
    holdOf s c = some .stopped ↔ (s.eng c).cs.active = false ∧ (s.eng c).cs.endFlag = true := by
  unfold holdOf
  split_ifs with hstop <;> simp_all

/-- An engine with its write due is active, so it is not stopped. -/
theorem holdOf_atPacedWrite {s : State} {c : Chan} (h : atPacedWrite s.board (s.eng c) = true) : holdOf s c =
    if dreq s then none else if pacerRunning s && dmacEnab s then some .dreqHold else some .pacerDead := by
  have hactive := DmaEngine.active_of_runs ((atPacedWrite_iff _ _).mp h).1
  simp only [holdOf, hactive, h]
  cases dreq s <;> rfl

/-- An engine whose paced write is not due can only be stopped. -/
theorem holdOf_notAtPacedWrite {s : State} {c : Chan} (h : atPacedWrite s.board (s.eng c) = false) :
    holdOf s c = if !(s.eng c).cs.active && (s.eng c).cs.endFlag then some .stopped else none := by
  simp only [holdOf, h, Bool.false_and, Bool.false_eq_true, if_false]

/-- The two waiting holds are a paced write with the request deasserted, told apart by whether ticks may come. -/
theorem holdOf_waits_iff (s : State) (c : Chan) {hold : Hold} (hne : hold ≠ .stopped) : holdOf s c = some hold ↔
    atPacedWrite s.board (s.eng c) = true ∧ dreq s = false ∧
      (pacerRunning s && dmacEnab s) = decide (hold = .dreqHold) := by
  by_cases h : atPacedWrite s.board (s.eng c) = true
  · rw [holdOf_atPacedWrite h]
    cases hold <;> split_ifs <;> simp_all
  · rw [holdOf_notAtPacedWrite (Bool.eq_false_iff.mpr h)]
    split_ifs <;> simp [h, hne.symm]

/-- A paced write that waits, by either hold, has no step. -/
theorem step_atPacedWrite {s : State} {c : Chan} {turns : List Turn} (hs : s.agenda = .engine c :: turns)
    (hw : atPacedWrite s.board (s.eng c) = true) (hd : dreq s = false) : step s = .next { s with agenda := turns } := by
  obtain ⟨hr, hp, src, next, hform⟩ := (atPacedWrite_iff _ _).mp hw
  exact step_paced_waits hs hr hp hform hd

/-- Settles O17: a stopped engine does not run, and the other two holds are a paced write that waits. -/
theorem holdsAreNamedAndChangeNothing : Obligations.HoldsAreNamedAndChangeNothing := by
  intro s c
  refine ⟨holdOf_eq_stopped_iff s c, ?_, ?_, fun turns hs hhold => ?_⟩
  · rw [holdOf_waits_iff s c (by decide), atPacedWrite_iff]
    rfl
  · rw [holdOf_waits_iff s c (by decide), atPacedWrite_iff]
    rfl
  · obtain ⟨hold, hhold⟩ := Option.ne_none_iff_exists'.mp hhold
    cases hold with
    | stopped =>
      obtain ⟨hinactive, -⟩ := (holdOf_eq_stopped_iff s c).mp hhold
      exact step_inactive hs ((s.eng c).runs_eq_false_iff.mpr (.inl hinactive))
    | dreqHold | pacerDead =>
      obtain ⟨hw, hd, -⟩ := (holdOf_waits_iff s c (by decide)).mp hhold
      exact step_atPacedWrite hs hw hd

/-! ## A dead pacer (R133, R148) -/

/-- While the request is deasserted no engine pushes, so the PWM's registers stay. -/
theorem EngineDid.pwm_of_dreq {d : Chan} {s t : State} (h : EngineDid d s t) (hd : dreq s = false) : t.pwm = s.pwm := by
  cases h with
  | nothing | load | stop | latch | mask => rfl
  | fifoIsGpio src next reg _ _ _ hd' | push src next _ _ _ hd' => exact absurd hd' (Bool.eq_false_iff.mp hd)

/-- While the request is deasserted no turn of an engine moves one that waits to write a CBB. -/
theorem EngineDid.eng_waiting {c d : Chan} {s t : State} {src next : Word} (h : EngineDid d s t) (hd : dreq s = false)
    (hp : (s.eng c).phase = .write) (hform : recognise s.board (s.eng c).loaded = .formB src next) :
    t.eng c = s.eng c := by
  by_cases hcd : c = d
  · subst hcd
    cases h with
    | nothing => rfl
    | load _ _ hp' | stop _ hp' | latch _ _ hp' => rw [hp] at hp'; cases hp'
    | mask _ _ _ _ _ _ hform' => rw [hform] at hform'; cases hform'
    | fifoIsGpio _ _ _ _ _ _ hd' | push _ _ _ _ _ hd' => exact absurd hd' (Bool.eq_false_iff.mp hd)
  · exact h.frame.others c hcd

/-- A running pacer without the request signal cannot assert the request. -/
theorem dreq_paceTick_of_disabled {s : State} (h : dmacEnab s = false) : dreq (paceTick s) = false :=
  (dreq_eq_false_iff _).mpr (.inl h)

/-- Settles O16: an engine's turn keeps the PWM's registers and the waiting engine; a tick keeps everything but the
level, and comes only where the request signal is off. -/
theorem deadPacerNeverLiftsTheHold : Obligations.DeadPacerNeverLiftsTheHold := by
  rintro s t turns (hs | ⟨d, hs⟩) hd hdead hstep
  · rw [step_pacer hs, paceTurn] at hstep
    cases hstep
    split
    · next hrun =>
      have hrun' : pacerRunning s = true := hrun
      have henab : dmacEnab s = false := by rwa [hrun', Bool.true_and] at hdead
      exact ⟨dreq_paceTick_of_disabled henab, hdead, fun _ _ _ _ _ => rfl⟩
    · exact ⟨hd, hdead, fun _ _ _ _ _ => rfl⟩
  · rw [step_engine hs] at hstep
    have hdid := engineTurn_did hstep
    have hpwm : t.pwm = s.pwm := hdid.pwm_of_dreq hd
    have hclk : t.clk = s.clk := hdid.frame.clk
    have hboard : t.board = s.board := hdid.frame.board
    refine ⟨(dreq_of_pwm hpwm hboard).trans hd, ?_, fun c src next hp hform => hdid.eng_waiting hd hp hform⟩
    unfold pacerRunning pwen1 usef1 dmacEnab at hdead ⊢
    rw [hpwm, hclk, hboard]
    exact hdead

/-! ## A slot's CBA (R132, R144, R147) -/

/-- A pin goes to the register's level where its bit is set in the mask, and keeps its own elsewhere (R34, R35). -/
theorem latchAfter_getLsbD (reg : GpioReg) (out m : Word) (p : Pin) : (latchAfter reg out m).getLsbD p.val =
    if m.getLsbD p.val then decide (reg = .set0) else out.getLsbD p.val := by
  have hp : p.val < 32 := p.isLt
  cases reg with
  | set0 =>
    rw [latchAfter, BitVec.getLsbD_or]
    cases m.getLsbD p.val <;> simp
  | clr0 =>
    rw [latchAfter, BitVec.getLsbD_and, BitVec.getLsbD_not, decide_eq_true hp]
    cases m.getLsbD p.val <;> simp

/-- Settles O20: the three turns are the slot's CBA, of which a lap is made. -/
theorem slotWritesItsSample : Obligations.SlotWritesItsSample := by
  intro s c i reg sample turns hok hi hslot hsample hr hp haddr hs
  obtain ⟨e, ⟨-, hphase, hnext, hcs⟩, hrun⟩ := run_cba hok hi hs ⟨hr, hp, haddr, rfl⟩ hslot hsample
  have heng := eng_lapState c e (latchAfter reg s.gpio.out sample) [.gpioWrite (.dma c) reg sample] turns s
  refine ⟨_, hrun, latchAfter_getLsbD reg s.gpio.out sample, rfl, ?_, ?_, ?_, rfl, rfl, rfl, rfl⟩
  · rw [heng]; exact hnext
  · rw [heng]; exact hphase
  · rw [heng]; exact hcs

end Sys2Proof.Machine

/-!
PROOFS. Two pulses on one channel (O49): a pulse leaves the channel ready for the next, and what it makes of a slot's
register and of a slot's sample is a function of the slot.
-/

namespace Sys2Proof.Machine

/-! ## A pulse call after another (R231, R236) -/

/-- Channel `c` takes pulse calls of the main thread alone, of any pin. -/
structure TakesPulses (s : State) (c : Chan) : Prop where
  quiet : Quiet [.channel c, .functionSelects] s
  initialized : (s.chan c).initialized = true
  arena : ArenaOk s.board (s.chan c)
  memory : Memory.wf s.mem = true
  windows : s.host.windowsMapped = true

theorem Quiet.mono {locks locks' : List Resource} {s : State} (h : Quiet locks s) (hsub : locks' ⊆ locks) :
    Quiet locks' s :=
  ⟨h.agenda, h.direct, (mayBegin_iff locks' s).mpr fun need hneed => (mayBegin_iff locks s).mp h.free need (hsub hneed)⟩

theorem pulseLocks_subset (s : State) (c : Chan) (p : Pin) : pulseLocks s c p ⊆ [.channel c, .functionSelects] := by
  unfold pulseLocks
  split <;> simp

theorem exec_addChannelPulse_initialized {s : State} {c : Chan} (h : (s.chan c).initialized = true)
    (g start width : Int) : exec (.addChannelPulse c.val g start width) s =
      runCall succeed (pulseCall c g start width s) s := by
  change runCall succeed (onChannel c.val s _) s = _
  rw [onChannel_initialized h]

/-- A pulse touches neither the board nor what the host knows of the channels, nor the agenda or the other threads. -/
theorem PulseApplied.keeps {s t : State} {c : Chan} {p : Pin} {start width : Nat}
    (h : PulseApplied s t c p start width) : t.board = s.board ∧ (∀ d, t.chan d = s.chan d) ∧
      t.agenda = s.agenda ∧ t.threads = s.threads ∧ t.host.windowsMapped = s.host.windowsMapped := by
  obtain ⟨u, hafter, ht⟩ := h.rest
  rw [ht]
  obtain ⟨-, rfl⟩ | ⟨-, w, -, rfl⟩ := hafter <;> exact ⟨rfl, fun _ => rfl, rfl, rfl, rfl⟩

/-- A channel that takes pulses runs one, and takes pulses after it. -/
theorem TakesPulses.pulse {s : State} {c : Chan} (h : TakesPulses s c) (p : Pin) {start width : Nat}
    (hs : start < (s.chan c).maxWidth) (he : start + width ≤ (s.chan c).maxWidth) :
    ∃ t, exec (.addChannelPulse (c.val : Int) (p.val : Int) (start : Int) (width : Int)) s = .next t ∧
      PulseTables s t c p start width ∧ TakesPulses t c ∧ t.chan c = s.chan c ∧ t.board = s.board := by
  obtain ⟨t, hrun, happlied⟩ :=
    runCall_pulse (h.quiet.mono (pulseLocks_subset s c p)) h.arena h.memory (.inl h.windows) hs he
  rw [← exec_addChannelPulse_initialized h.initialized] at hrun
  obtain ⟨hboard, hchan, hagenda, hthreads, hwindows⟩ := happlied.keeps
  refine ⟨t, hrun, happlied.tables, ⟨⟨?_, ?_, ?_⟩, ?_, ?_, ?_, ?_⟩, hchan c, hboard⟩
  · rw [hagenda]; exact h.quiet.agenda
  · rw [hboard]; exact h.quiet.direct
  · have hfree := h.quiet.free
    rw [mayBegin_iff] at hfree ⊢
    rwa [hthreads]
  · rw [hchan]; exact h.initialized
  · rw [hboard, hchan]; exact h.arena
  · exact (exec_changes _ hrun).wf h.memory
  · rw [hwindows]; exact h.windows

/-! ## A slot's register (R234, R236) -/

/-- Bytes of one aligned word of an arena are bytes of no other. -/
theorem ArenaOk.inArenaWord_apart {b : Board} {ch : ChanRec} (h : ArenaOk b ch) {o o' a : Nat} (ho : o % 4 = 0)
    (ho' : o' % 4 = 0) (hne : o ≠ o') (ha : inArenaWord b ch o a) : ¬ inArenaWord b ch o' a := by
  rintro ⟨w', hw', hlow', hhigh'⟩
  obtain ⟨w, hw, hlow, hhigh⟩ := ha
  rcases h.words_apart hw hw' ho ho' hne with hapart | hapart <;> omega

/-- A word of an arena whose bytes are as before is as before. -/
theorem arenaWordOf_of_bytes {s t : State} {ch : ChanRec} {o : Nat} (hboard : t.board = s.board)
    (h : ∀ a, inArenaWord s.board ch o a → Memory.read t.mem a = Memory.read s.mem a) :
    arenaWordOf t ch o = arenaWordOf s ch o := by
  unfold arenaWordOf
  rw [hboard]
  cases hw : phys s.board ch o with
  | none => rfl
  | some w =>
    have hbyte (r : Nat) (hr : r < 4) : Memory.read t.mem (physicalOf s.board w + r) =
        Memory.read s.mem (physicalOf s.board w + r) := h _ ⟨w, hw, by omega, by omega⟩
    have hbyte0 := hbyte 0 (by omega)
    rw [Nat.add_zero] at hbyte0
    simp only [Option.map_some, Memory.readWord, hbyte0, hbyte 1 (by omega), hbyte 2 (by omega), hbyte 3 (by omega)]

/-- WHAT A PULSE MAKES OF A SLOT'S REGISTER: the end slot clears, the start slot sets, any other keeps its own. -/
theorem PulseTables.dstWord_eq {s t : State} {c : Chan} {p : Pin} {start width j : Nat}
    (h : PulseTables s t c p start width) (hok : ArenaOk s.board (s.chan c)) (hchan : t.chan c = s.chan c)
    (hboard : t.board = s.board) (hj : j < (s.chan c).sampleCount) :
    dstWord t c (2 * j) = if j = start + width then some s.board.gpClr else if j = start then some s.board.gpSet
      else dstWord s c (2 * j) := by
  split_ifs with hend hstart
  · subst hend
    exact h.endSlot hj
  · subst hstart
    exact h.startSlot fun h0 => hend (by omega)
  · have hmod (k : Nat) : dstOffset s.board (s.chan c) k % 4 = 0 := by
      have := hok.blockOffset_mod_four k
      unfold dstOffset
      omega
    have hother {i : Nat} (hne : j ≠ i) :
        dstOffset s.board (s.chan c) (2 * j) ≠ dstOffset s.board (s.chan c) (2 * i) := fun he => by
      have := dstOffset_inj hok.board he
      omega
    rw [dstWord, dstWord, hchan, hboard]
    refine arenaWordOf_of_bytes hboard fun a ha => h.frame a (fun i _ _ hi => ?_) ?_ fun _ => ?_
    · exact hok.inArenaWord_apart (hmod _) (by unfold sampleOffset; omega) (hok.dst_ne_sample hi) ha
    · exact hok.inArenaWord_apart (hmod _) (hmod _) (hother hstart) ha
    · exact hok.inArenaWord_apart (hmod _) (hmod _) (hother hend) ha

/-! ## A slot's sample (R144, R234) -/

/-- What a pulse of pin `p` makes of slot `i`'s sample. -/
def pulsedSample (p : Pin) (start width i : Nat) (w : Word) : Word :=
  if i = start ∧ width ≠ 0 then w ||| pinBit p.val
  else if start ≤ i ∧ i ≤ start + width then w &&& ~~~(pinBit p.val) else w

theorem PulseTables.sampleWord_eq {s t : State} {c : Chan} {p : Pin} {start width i : Nat} {w : Word}
    (h : PulseTables s t c p start width) (hi : i < (s.chan c).sampleCount) (hw : sampleWord s c i = some w) :
    sampleWord t c i = some (pulsedSample p start width i w) := h.samples i w hi hw

theorem pinBit_getLsbD (g : Nat) {k : Nat} (hk : k < 32) : (pinBit g).getLsbD k = decide (g = k) := by
  change (BitVec.twoPow 32 g).getLsbD k = _
  rw [BitVec.getLsbD_twoPow, ← Bool.decide_and]
  exact decide_eq_decide.mpr ⟨And.right, fun hgk => ⟨hgk ▸ hk, hgk⟩⟩

/-- A pulse writes its own pin's bit in its own slots, and no other. -/
theorem pulsedSample_getLsbD (p : Pin) (start width i : Nat) (w : Word) {k : Nat} (hk : k < 32) :
    (pulsedSample p start width i w).getLsbD k =
      if p.val = k ∧ start ≤ i ∧ i ≤ start + width then decide (i = start ∧ width ≠ 0) else w.getLsbD k := by
  unfold pulsedSample
  by_cases hset : i = start ∧ width ≠ 0
  · rw [if_pos hset, BitVec.getLsbD_or, pinBit_getLsbD _ hk]
    by_cases hp : p.val = k <;> simp [hp, hset]
  · rw [if_neg hset]
    by_cases hin : start ≤ i ∧ i ≤ start + width
    · rw [if_pos hin, BitVec.getLsbD_and, BitVec.getLsbD_not, pinBit_getLsbD _ hk]
      by_cases hp : p.val = k <;> simp [hp, hin, hset, hk]
    · rw [if_neg hin, if_neg fun h => hin h.2]

/-- Pulses of different pins write different bits, so their order does not matter. -/
theorem pulsedSample_comm {p q : Pin} (hpq : p ≠ q) (start width start' width' i : Nat) (w : Word) :
    pulsedSample q start' width' i (pulsedSample p start width i w) =
      pulsedSample p start width i (pulsedSample q start' width' i w) := by
  apply BitVec.eq_of_getLsbD_eq
  intro k hk
  simp only [pulsedSample_getLsbD _ _ _ _ _ hk]
  by_cases hp : p.val = k
  · have hq : q.val ≠ k := fun hq => hpq (Fin.ext (hp.trans hq.symm))
    simp only [hq, false_and, if_false]
  · simp only [hp, false_and, if_false]

/-! ## Two pulses -/

/-- Settles O49: each pulse is read off its tables, the second's from the first's; the samples by the pins' bits. -/
theorem lastCallDecidesASlotsRegister : Obligations.LastCallDecidesASlotsRegister := by
  intro s c p q start width start' width' hq hinit hok hm hw hs he hs' he'
  have h : TakesPulses s c := ⟨hq, hinit, hok, hm, hw⟩
  obtain ⟨t, hrunt, htablest, ht, hchant, hboardt⟩ := h.pulse p hs he
  obtain ⟨u, hrunu, htablesu, -, hchanu, hboardu⟩ := ht.pulse q (hchant ▸ hs') (hchant ▸ he')
  obtain ⟨t', hrunt', htablest', ht', hchant', -⟩ := h.pulse q hs' he'
  obtain ⟨u', hrunu', htablesu', -⟩ := ht'.pulse p (hchant' ▸ hs) (hchant' ▸ he)
  refine ⟨t, u, t', u', hrunt, hrunu, hrunt', hrunu', fun j hj => ?_, fun hpq i hi => ?_⟩
  · rw [htablesu.dstWord_eq ht.arena hchanu hboardu (by rw [hchant]; exact hj),
      htablest.dstWord_eq hok hchant hboardt hj, hboardt]
  · obtain ⟨a, ha, -⟩ := hok.phys_exists (hok.sample_lt hi).2
    have hsample : sampleWord s c i = some (Memory.readWord s.mem (physicalOf s.board a)) := congrArg (Option.map _) ha
    rw [htablesu.sampleWord_eq (hchant ▸ hi) (htablest.sampleWord_eq hi hsample),
      htablesu'.sampleWord_eq (hchant' ▸ hi) (htablest'.sampleWord_eq hi hsample), pulsedSample_comm hpq]

end Sys2Proof.Machine

/-!
PROOFS. The register commands before the windows are mapped (O27), and the host's direct writes of the GPIO latch (O30,
O31).
-/

namespace Sys2Proof.Machine

/-! ## Before the windows are mapped (R177) -/

theorem throughWindow_unmapped {s : State} (hw : s.host.windowsMapped = false) (access : State → Outcome) :
    throughWindow s access = .refused .windowsNotMapped := if_neg (Bool.eq_false_iff.mp hw)

theorem command_unmapped {s : State} (hw : s.host.windowsMapped = false) (w : HostWrite) :
    command w s = .refused .windowsNotMapped := throughWindow_unmapped hw _

theorem callSelectOutput_unmapped {s : State} (hw : s.host.windowsMapped = false) (p : Pin) :
    callSelectOutput p s = .refuse .windowsNotMapped := if_neg (Bool.eq_false_iff.mp hw)

/-- Settles O27: a register command is one write or one read through a window, but for GPIO_FSEL_OUT, which is refused as a
call before its first access. -/
theorem registerAccessNeedsTheWindows : Obligations.RegisterAccessNeedsTheWindows := by
  intro s i hw hregister
  have refused := command_unmapped hw
  cases i with
  | dmaReset | dmaClrdbg | dmaStart => exact refused _
  | dmaSetcb c a => exact (setHeadTo_aligned hregister c).trans (refused _)
  | pwmOff | pwmRng | pwmDmac | pwmClrf | pwmOn => exact refused _
  | clkSrc | clkDiv | clkOn => exact refused _
  | gpioSet | gpioClr => exact refused _
  | gpioFselRd n =>
    change execGpioFselRd n s = _
    exact throughWindow_unmapped hw _
  | gpioFselOut p => exact congrArg (runCall _ · s) (callSelectOutput_unmapped hw p)
  | _ => exact hregister.elim

/-! ## The host's writes of the latch (R173, R174) -/

/-- Where writes land at once, GPIO_SET and GPIO_CLR are the write of their register. -/
theorem command_gpio {s : State} (hv : s.board.visibility = .sc) (hw : s.host.windowsMapped = true) (reg : GpioReg)
    (m : Word) : command (.gpio reg m) s = .next (gpioWrite .host reg m s) := command_eq hv hw _

/-- Settles O30: the command is the host's write of the set register. -/
theorem hostSetsTheLatch : Obligations.HostSetsTheLatch := fun _ m hw hv => command_gpio hv hw .set0 m

/-- Settles O31: the command is the host's write of the clear register. -/
theorem hostClearsTheLatch : Obligations.HostClearsTheLatch := fun _ m hw hv => command_gpio hv hw .clr0 m

end Sys2Proof.Machine

/-!
PROOFS. Bring-up: `map` (O33), the clock (O34), `Initialize` (O35), and an `InitChannel` that fails past its checks (O41).
-/

namespace Sys2Proof.Machine

/-! ## map (R200) -/

/-- A window is not mapped where the device does not open or the mapping fails (R200). -/
theorem mapSucceeds_eq_false_iff (base : Int) (s : State) :
    mapSucceeds base s = false ↔ s.env.physMemOpens = false ∨ base ∈ s.env.unmappable := by
  rw [← Bool.not_eq_true, mapSucceeds_iff, not_and_or, Bool.not_eq_true, not_not]

/-- Settles O33: the call answers at once, by whether the mapping succeeds. -/
theorem mapAnswersAsTheEnvironmentSays : Obligations.MapAnswersAsTheEnvironmentSays := by
  intro s base length
  change runCall succeed (callMap base length s) s = _
  unfold callMap
  simp only [mapSucceeds_iff]
  split <;> rfl

/-! ## Windows mapped in a row (R201, R205 step 8) -/

/-- The accesses that map windows at the bases, in order. -/
def mapActions (bases : List Nat) : List Action := bases.map fun base => .mapWindow base

section
variable {s : State} {bases : List Nat}

theorem perform_mapWindow {base : Nat} (h : mapSucceeds base s = true) (x : Scratch) :
    perform (.mapWindow base) x s = .went x s := if_pos h

theorem perform_mapWindow_fails {base : Nat} (h : mapSucceeds base s = false) (x : Scratch) :
    perform (.mapWindow base) x s = .ended (.error .mapError) s := if_neg (Bool.eq_false_iff.mp h)

/-- Where every mapping succeeds nothing changes. -/
theorem mapActions_leads (hq : s.agenda = []) (h : ∀ base ∈ bases, mapSucceeds base s = true) (x : Scratch) :
    Leads (mapActions bases) x s x s := by
  induction bases with
  | nil => exact Leads.nil x s
  | cons base bases ih =>
    exact Leads.cons hq (perform_mapWindow (h base List.mem_cons_self) x) (ih fun b hb => h b (List.mem_cons_of_mem base hb))

/-- At the first mapping that fails the operation ends, whatever follows (R208, R261). -/
theorem mapActions_ended (hq : s.agenda = []) (h : ∃ base ∈ bases, mapSucceeds base s = false)
    (busy : List Resource) (finish : State → Outcome) (rest : List Action) (x : Scratch) :
    runActions busy finish (mapActions bases ++ rest) x s = .next (s.answer (.error .mapError)) := by
  obtain ⟨base, hmem, hfails⟩ := h
  induction bases generalizing busy with
  | nil => cases hmem
  | cons first bases ih =>
    cases hfirst : mapSucceeds first s with
    | false => exact (Leads.nil x s).ended hq (perform_mapWindow_fails hfirst x) busy finish
    | true =>
      have hlater : base ∈ bases := (List.mem_cons.mp hmem).resolve_left fun he => by
        rw [he, hfirst] at hfails
        cases hfails
      have hgoes : Leads [.mapWindow first] x s x s := Leads.one hq (perform_mapWindow hfirst x)
      obtain ⟨busy', hnext⟩ := hgoes busy finish (mapActions bases ++ rest)
      exact hnext.trans (ih busy' hlater)

end

/-! ## The clock (R202) -/

/-- The state `configureGlobalClock` leaves: the pacer's registers written, the increment recorded. -/
def clockedState (inc : Int) (s : State) : State :=
  State.answer { s with
    pwm := { ctl := s.board.regs.pwmOn, dmac := s.board.regs.pwmEnable, rng1 := rangeValue s.board inc, fifoLevel := 0 }
    clk := { src := s.board.regs.clkSource, enab := true, divi := BitVec.ofNat 12 s.board.clkDivi }
    host := { s.host with incrementUs := inc, clockConfigured := true }
    trace := s.trace ++ [.regWrite .pwm s.board.regs.pwmCtl s.board.regs.pwmOff,
      .regWrite .clk s.board.regs.clkCntl s.board.regs.clkStopped, .regWrite .clk s.board.regs.clkDiv s.board.clkDivValue,
      .regWrite .clk s.board.regs.clkCntl s.board.regs.clkRunning, .regWrite .pwm s.board.regs.pwmRng1 (rangeValue s.board inc),
      .regWrite .pwm s.board.regs.pwmDmac s.board.regs.pwmEnable, .regWrite .pwm s.board.regs.pwmCtl s.board.regs.pwmClrf,
      .regWrite .pwm s.board.regs.pwmCtl s.board.regs.pwmOn] } .ok

/-- The pacer runs once the clock is configured (R202, R138). -/
theorem pacerRunning_clockedState {s : State} (hb : RegistersOk s.board) (inc : Int) :
    pacerRunning (clockedState inc s) = true := pacerRunning_of_pwmOn (s := clockedState inc s) hb rfl

section
variable {s : State}

theorem exec_configureGlobalClock (hq : Quiet [.clock] s) (hw : s.host.windowsMapped = true)
    (hc : s.host.clockConfigured = false) (inc : Int) :
    exec (.configureGlobalClock inc) s = .next (clockedState inc s) := by
  have hcall : callConfigureGlobalClock inc s = .go [.clock] (clockActions s.board inc) := if_pos (by rw [hw, hc]; rfl)
  change runCall succeed (callConfigureGlobalClock inc s) s = _
  rw [hcall, runCall_go hq.free, (clockActions_leads hq.agenda hq.direct hw hc inc Scratch.empty).finish]
  rfl

theorem exec_configureGlobalClock_refused (h : s.host.windowsMapped = false ∨ s.host.clockConfigured = true) (inc : Int) :
    exec (.configureGlobalClock inc) s = .refused .clockNotConfigurable := by
  have hcall : callConfigureGlobalClock inc s = .refuse .clockNotConfigurable :=
    if_neg (by rcases h with h | h <;> simp [h])
  change runCall succeed (callConfigureGlobalClock inc s) s = _
  rw [hcall]
  rfl

end

/-- Settles O34: the eight writes lead to the clocked state. -/
theorem configureClockRunsThePacer : Obligations.ConfigureClockRunsThePacer :=
  ⟨fun _ inc => ⟨fun hq hw hc => ⟨_, exec_configureGlobalClock hq hw hc inc, fun hb => pacerRunning_clockedState hb inc, rfl⟩,
    fun h => exec_configureGlobalClock_refused h inc⟩, by decide⟩

/-! ## Initialize (R201) -/

/-- The windows `Initialize` maps, in its order (R201). -/
def processWindows (b : Board) : List Nat := [b.pwmBaseHost, b.pcmBaseHost, b.clkBaseHost, b.gpioBaseHost]

section
variable {s : State}

theorem exec_initEngine_second (h : s.host.windowsMapped = true ∨ s.host.clockConfigured = true) (inc : Int) :
    exec (.initEngine inc) s = .refused .secondInitialize := by
  have hcall : callInitialize inc s = .refuse .secondInitialize := if_pos (by rcases h with h | h <;> simp [h])
  change runCall succeed (callInitialize inc s) s = _
  rw [hcall]
  rfl

/-- WHAT `Initialize` ANSWERS the first time: an increment below 1 is an error, any other goes on to its accesses. -/
theorem callInitialize_first (hw : s.host.windowsMapped = false) (hc : s.host.clockConfigured = false) (inc : Int) :
    callInitialize inc s = if inc < 1 then .raise .channelStateError
      else .go [.clock] (mapActions (processWindows s.board) ++ (.recordWindows :: clockActions s.board inc)) :=
  if_neg (by simp [hw, hc])

theorem exec_initEngine_increment (hw : s.host.windowsMapped = false) (hc : s.host.clockConfigured = false) {inc : Int}
    (hinc : inc < 1) : exec (.initEngine inc) s = .next (s.answer (.error .channelStateError)) := by
  change runCall succeed (callInitialize inc s) s = _
  rw [callInitialize_first hw hc, if_pos hinc]
  rfl

/-- The accesses of a first `Initialize` under the clock's lock. -/
theorem exec_initEngine_go (hq : Quiet [.clock] s) (hw : s.host.windowsMapped = false) (hc : s.host.clockConfigured = false)
    {inc : Int} (hinc : 1 ≤ inc) : exec (.initEngine inc) s = runActions [.clock] succeed
      (mapActions (processWindows s.board) ++ (.recordWindows :: clockActions s.board inc)) Scratch.empty s := by
  change runCall succeed (callInitialize inc s) s = _
  rw [callInitialize_first hw hc, if_neg (by omega), runCall_go hq.free]

/-- Every window mapped, the clock is configured with the mapping recorded. -/
theorem exec_initEngine_mapped (hq : Quiet [.clock] s) (hw : s.host.windowsMapped = false)
    (hc : s.host.clockConfigured = false) {inc : Int} (hinc : 1 ≤ inc)
    (hmap : ∀ base ∈ processWindows s.board, mapSucceeds base s = true) :
    exec (.initEngine inc) s = .next (clockedState inc (markMapped s)) := by
  have hclock := clockActions_leads (s := markMapped s) hq.agenda hq.direct rfl hc inc Scratch.empty
  have hrecorded := Leads.cons (a := .recordWindows) (s := s) hq.agenda rfl hclock
  have hall := (mapActions_leads hq.agenda hmap Scratch.empty).append hrecorded
  exact (exec_initEngine_go hq hw hc hinc).trans (hall.finish [.clock] succeed)

theorem exec_initEngine_unmapped (hq : Quiet [.clock] s) (hw : s.host.windowsMapped = false)
    (hc : s.host.clockConfigured = false) {inc : Int} (hinc : 1 ≤ inc)
    (hmap : ∃ base ∈ processWindows s.board, mapSucceeds base s = false) :
    exec (.initEngine inc) s = .next (s.answer (.error .mapError)) :=
  (exec_initEngine_go hq hw hc hinc).trans (mapActions_ended hq.agenda hmap _ _ _ _)

end

/-- Settles O35: the mappings lead through to the clock, or the first that fails ends the operation. -/
theorem initializeMapsAndConfiguresOrFails : Obligations.InitializeMapsAndConfiguresOrFails := by
  refine fun s inc => ⟨fun h => exec_initEngine_second h inc, fun hw hc => ⟨exec_initEngine_increment hw hc,
    fun hinc hq => ⟨fun hopens hall => ?_, fun hfails => exec_initEngine_unmapped hq hw hc hinc ?_⟩⟩⟩
  · have hmap : ∀ base ∈ processWindows s.board, mapSucceeds base s = true := fun base hbase =>
      (mapSucceeds_iff base s).mpr ⟨hopens, hall base hbase⟩
    have hclock : exec (.configureGlobalClock inc) (markMapped s) = .next (clockedState inc (markMapped s)) :=
      exec_configureGlobalClock (s := markMapped s) ⟨hq.agenda, hq.direct, hq.free⟩ rfl hc inc
    exact ⟨_, exec_initEngine_mapped hq hw hc hinc hmap, fun hb => pacerRunning_clockedState (s := markMapped s) hb inc,
      hclock, rfl, rfl, rfl, rfl, rfl⟩
  · rcases hfails with hshut | ⟨base, hbase, hun⟩
    · exact ⟨_, List.mem_cons_self, (mapSucceeds_eq_false_iff _ s).mpr (.inl hshut)⟩
    · exact ⟨base, hbase, (mapSucceeds_eq_false_iff base s).mpr (.inr hun)⟩

/-! ## InitChannel past its checks (R205 steps 8 and 9) -/

section
variable {s : State}

/-- A region the environment does not make ends the operation (R203, R262). -/
theorem perform_makeRegion_fails (hl : s.env.locksRegion = false) (x : Scratch) :
    perform .makeRegion x s = .ended (.error .mapError) s := if_neg (Bool.eq_false_iff.mp hl)

/-- A page that does not resolve ends the operation (R72, R203). -/
theorem perform_resolvePage_unresolved {x : Scratch} {j : Nat}
    (h : resolveFrame s.board s.env (virtualPage s.board x.virtBase j) = .unresolved) :
    perform (.resolvePage j) x s = .ended (.error .pageResolutionError) s := by
  simp only [perform, resolve, h]

/-- With more pages asked for than resolve, a region's accesses lead up to the next page's resolution. -/
theorem region_leads_past {pages : List Word} (hq : s.agenda = []) (hl : s.env.locksRegion = true)
    (hr : PagesResolve s pages) {n : Nat} (hn : pages.length < n) : ∃ todo rest,
    regionActions n = todo ++ .resolvePage pages.length :: rest ∧
      Leads todo Scratch.empty s (regionScratch s pages) s := by
  obtain ⟨rest, hsplit⟩ := regionActions_split hn
  refine ⟨regionActions pages.length ++ [.touchPage pages.length], rest, ?_,
    (region_leads hq hl hr).append (Leads.one hq rfl)⟩
  rw [hsplit, ← regionActions_eq, List.append_assoc, List.singleton_append]

/-- The accesses past the checks begin with the window and the region. -/
theorem bringUpActions_eq (b : Board) (c : Chan) (sub : Int) (n : Nat) : ∃ later, bringUpActions b c sub n =
    mapActions [windowBase b (.dma c)] ++ (regionActions (pageCountOf b n) ++ later) := by
  refine ⟨[.recordArena c sub n] ++ chainActions c n ++ startActions c ++ [.recordChannel c], ?_⟩
  simp only [bringUpActions, mapActions, List.map_cons, List.map_nil, List.append_assoc, List.cons_append, List.nil_append]

/-- `InitChannel` run alone, its checks passed: its window, its region, and what follows. -/
theorem exec_initChannel_go {c : Chan} (hq : Quiet [.channel c] s) (hw : s.host.windowsMapped = true)
    (hc : s.host.clockConfigured = true) (hinit : (s.chan c).initialized = false) {sub : Int}
    (hmin : s.board.subcycleUsMin ≤ sub) (hmax : sub ≤ s.board.subcycleUsMax)
    (hn : 1 ≤ sampleCountOf sub s.host.incrementUs) : ∃ later,
    exec (.initChannel c.val sub) s = runActions [.channel c] succeed (mapActions [windowBase s.board (.dma c)] ++
      (regionActions (pageCountOf s.board (sampleCountOf sub s.host.incrementUs).toNat) ++ later)) Scratch.empty s := by
  have hcall := callInitChannel_inside hw hc c sub
  rw [hinit, if_neg Bool.false_ne_true, if_neg (by omega), if_neg (by omega), if_neg (by omega)] at hcall
  obtain ⟨later, hactions⟩ := bringUpActions_eq s.board c sub (sampleCountOf sub s.host.incrementUs).toNat
  refine ⟨later, ?_⟩
  change runCall succeed (callInitChannel c.val sub s) s = _
  rw [hcall, runCall_go hq.free, hactions]

end

/-- Settles O41: the operation ends at the access that fails, and none before it changes anything. -/
theorem initChannelFailsCleanly : Obligations.InitChannelFailsCleanly := by
  intro s c sub pages hq hw hc hinit hmin hmax hn
  obtain ⟨later, hexec⟩ := exec_initChannel_go hq hw hc hinit hmin hmax hn
  have hwindow (h : mapSucceeds (windowBase s.board (.dma c)) s = true) :
      Leads (mapActions [windowBase s.board (.dma c)]) Scratch.empty s Scratch.empty s :=
    mapActions_leads hq.agenda (List.forall_mem_singleton.mpr h) Scratch.empty
  rw [hexec]
  refine ⟨fun hfails => ?_, fun hopens hmap hl hr hlt hun => ?_⟩
  · cases hmap : mapSucceeds (windowBase s.board (.dma c)) s with
    | false => exact mapActions_ended hq.agenda ⟨_, List.mem_singleton_self _, hmap⟩ _ _ _ _
    | true =>
      obtain ⟨hopens, hmappable⟩ := (mapSucceeds_iff _ s).mp hmap
      have hl : s.env.locksRegion = false := by
        rcases hfails with hshut | hunmappable | hl
        · rw [hopens] at hshut
          cases hshut
        · exact absurd hunmappable hmappable
        · exact hl
      exact (hwindow hmap).ended hq.agenda (perform_makeRegion_fails hl _) _ _
  · obtain ⟨todo, rest, hsplit, hpages⟩ := region_leads_past hq.agenda hl hr hlt
    have hreached := (hwindow ((mapSucceeds_iff _ s).mpr ⟨hopens, hmap⟩)).append hpages
    have hended := hreached.ended (rest := rest ++ later) hq.agenda
      (perform_resolvePage_unresolved (x := regionScratch s pages) hun) [.channel c] succeed
    rw [hsplit]
    simp only [List.append_assoc, List.cons_append] at hended ⊢
    exact hended

end Sys2Proof.Machine

/-!
PROOFS. The claim called alone (O42), `addPulse` (O43) and what is rejected (O44), `clearGpio` (O47), and a pulse
followed by a clear (O48).
-/

namespace Sys2Proof.Machine

/-! ## A pin's bit of a mask (R34, R35, R39) -/

theorem or_pinBit_getLsbD (x : Word) (p q : Pin) :
    (x ||| pinBit p.val).getLsbD q.val = (x.getLsbD q.val || decide (p = q)) := by
  rw [BitVec.getLsbD_or, pinBit_getLsbD _ q.isLt]
  simp only [Fin.ext_iff]

theorem andNot_pinBit_getLsbD (x : Word) (p q : Pin) :
    (x &&& ~~~(pinBit p.val)).getLsbD q.val = (x.getLsbD q.val && !decide (p = q)) := by
  have hq : q.val < 32 := q.isLt
  rw [BitVec.getLsbD_and, BitVec.getLsbD_not, pinBit_getLsbD _ q.isLt]
  simp only [hq, decide_true, Bool.true_and, Fin.ext_iff]

/-! ## The claim (R230, R322) -/

theorem claimed_claimedState (p q : Pin) (w : Word) (s : State) :
    claimed (claimedState p w s) q = (claimed s q || decide (p = q)) := or_pinBit_getLsbD s.host.gpioSetup p q

theorem claimedState_out (p q : Pin) (w : Word) (s : State) :
    (claimedState p w s).gpio.out.getLsbD q.val = (s.gpio.out.getLsbD q.val && !decide (p = q)) :=
  andNot_pinBit_getLsbD s.gpio.out p q

/-- The claim procedure run alone, on a pin that is not claimed. -/
theorem exec_claim {s : State} {p : Pin} (hb : RegistersOk s.board) (hq : Quiet [.functionSelects] s)
    (hw : s.host.windowsMapped = true) (hp : claimed s p = false) :
    exec (.claim p.val) s = .next ((claimedState p (claimWord p s) s).answer .ok) := by
  have hcall : callClaim p.val s = .go [.functionSelects] (claimActions p) := by
    simp only [callClaim, pinIndex_val, hp, Bool.false_eq_true, if_false]
  change runCall succeed (callClaim p.val s) s = _
  rw [hcall, runCall_go hq.free, (claimActions_leads hb hq.agenda hq.direct hw p Scratch.empty).finish]
  rfl

theorem exec_claim_noSuchPin {g : Int} (h : g < 0 ∨ 32 ≤ g) (s : State) :
    exec (.claim g) s = .refused (.noSuchPin g) := by
  change runCall succeed (callClaim g s) s = _
  rw [callClaim, pinIndex_none h]
  rfl

theorem exec_claim_alreadyClaimed {s : State} {p : Pin} (hp : claimed s p = true) :
    exec (.claim p.val) s = .refused (.alreadyClaimed p) := by
  have hcall : callClaim p.val s = .refuse (.alreadyClaimed p) := by simp only [callClaim, pinIndex_val, hp, if_true]
  change runCall succeed (callClaim p.val s) s = _
  rw [hcall]
  rfl

/-- Settles O42: the word written selects the pin as an output and no other, the two masks name the pin's bit alone. -/
theorem claimMakesALowOutput : Obligations.ClaimMakesALowOutput := by
  refine ⟨fun s p hb hq hw hp => ?_, fun s g h => exec_claim_noSuchPin h s, fun s p hp => exec_claim_alreadyClaimed hp⟩
  have hselects := claimWord_selects hb hq.direct p
  obtain ⟨hout, hothers⟩ :=
    fselField_selected (t := (claimedState p (claimWord p s) s).answer .ok) hb hselects rfl rfl
  refine ⟨_, claimWord p s, exec_claim hb hq hw hp, hselects, rfl, ?_, (if_pos hout).trans (congrArg some ?_),
    fun q hqp => ⟨?_, hothers q hqp, ?_⟩⟩
  · exact (claimed_claimedState p p (claimWord p s) s).trans (by simp)
  · exact (claimedState_out p p _ s).trans (by simp)
  · exact (claimed_claimedState p q (claimWord p s) s).trans (by simp [hqp.symm])
  · exact (claimedState_out p q _ s).trans (by simp [hqp.symm])

/-! ## addPulse (R231) -/

/-- Settles O43: past the channel's checks the call is the pulse call. -/
theorem addPulseWritesThePulse : Obligations.AddPulseWritesThePulse := by
  intro s c p start width hq hinit hok hm hw hs he
  rw [exec_addChannelPulse_initialized hinit]
  exact runCall_pulse hq hok hm hw hs he

/-- Out of range, a pulse call raises before its first access (R231 steps 3 to 5). -/
theorem pulseCall_rejected {s : State} {c : Chan} {g start width : Int} (h : g < 0 ∨ 32 ≤ g ∨ start < 0 ∨ width < 0 ∨
    ((s.chan c).maxWidth : Int) < start + width ∨ ((s.chan c).maxWidth : Int) ≤ start) :
    pulseCall c g start width s = .raise .pulseRangeError := by
  unfold pulseCall
  split
  next => rfl
  next p hp =>
    have hpin : ¬ (g < 0 ∨ 32 ≤ g) := fun hout => by
      rw [pinIndex_none hout] at hp
      cases hp
    by_cases hrange : start < 0 ∨ width < 0 ∨ ((s.chan c).maxWidth : Int) < start + width
    · rw [if_pos hrange]
    · rw [if_neg hrange, if_pos (by omega)]

/-! ## clearGpio (R233) -/

/-- Where the call of every channel raises the error of the channel's checks, so does the whole. -/
theorem onChannel_raise {s : State} {k : Chan → Call} (h : ∀ c, k c = .raise .channelStateError) (channel : Int) :
    onChannel channel s k = .raise .channelStateError := by
  unfold onChannel
  split
  next => rfl
  next c _ => rw [h c, ite_self]

/-- `clearGpio` turns away a pin outside 0..31 and a pin that is not claimed (R233 step 3). -/
theorem callClearGpio_pin {s : State} {g : Int}
    (h : (g < 0 ∨ 32 ≤ g) ∨ ∃ p : Pin, g = (p.val : Int) ∧ claimed s p = false) (channel : Int) : callClearGpio channel g s = .raise .channelStateError := by
  refine onChannel_raise (fun c => ?_) channel
  rcases h with hout | ⟨p, rfl, hp⟩
  · rw [pinIndex_none hout]
  · simp only [pinIndex_val, hp, Bool.false_eq_true, if_false]

/-- Settles O44: each check that fails raises before the first access. -/
theorem rejectedPulseOperationsChangeNothing : Obligations.RejectedPulseOperationsChangeNothing := by
  refine fun s channel g start width => ⟨fun hout => ?_, fun c hc => ⟨fun hinit => ?_, fun hinit hrange => ?_⟩,
    fun h => ?_⟩
  · change runCall succeed (onChannel channel s _) s = _
    rw [onChannel_rejected (by omega)]
    rfl
  · change runCall succeed (onChannel channel s _) s = _
    rw [onChannel_rejected (.inr (.inr ⟨c, hc, hinit⟩))]
    rfl
  · rw [hc, exec_addChannelPulse_initialized hinit, pulseCall_rejected hrange]
    rfl
  · have hcall : callClearGpio channel g s = .raise .channelStateError := by
      rcases h with hout | hinit | hpin
      · exact onChannel_rejected (by omega) _
      · exact onChannel_rejected (.inr (.inr hinit)) _
      · exact callClearGpio_pin hpin channel
    change runCall succeed (callClearGpio channel g s) s = _
    rw [hcall]
    rfl

/-- The call on a claimed pin: its bit plane, then the pin low. -/
theorem callClearGpio_go {s : State} {c : Chan} {p : Pin} (hinit : (s.chan c).initialized = true)
    (hp : claimed s p = true) : callClearGpio c.val p.val s = .go [.channel c]
      (clearActions c p 0 (s.chan c).sampleCount ++ [.write (.gpio .clr0 (pinBit p.val))]) := by
  unfold callClearGpio
  rw [onChannel_initialized hinit]
  simp only [pinIndex_val, hp, if_true]

/-- WHAT `clearGpio` RUN ALONE DOES, its checks passed. -/
theorem exec_clearChannelGpio {s : State} {c : Chan} {p : Pin} (hq : Quiet [.channel c] s)
    (hinit : (s.chan c).initialized = true) (hok : ArenaOk s.board (s.chan c)) (hm : Memory.wf s.mem = true)
    (hw : s.host.windowsMapped = true) (hp : claimed s p = true) :
    ∃ t, exec (.clearChannelGpio c.val p.val) s = .next t ∧ PlaneCleared s t c p := by
  obtain ⟨m, y, hclears, hwrote⟩ := clearActions_leads (c := c) (p := p) (i := 0) (n := (s.chan c).sampleCount)
    hq.agenda hq.direct hok hm (by omega) Scratch.empty
  have hlow : Leads [.write (.gpio .clr0 (pinBit p.val))] y { s with mem := m } y
      (gpioWrite .host .clr0 (pinBit p.val) { s with mem := m }) :=
    Leads.one hq.agenda (perform_write (by exact hq.direct) (by exact hw) rfl y)
  refine ⟨(gpioWrite .host .clr0 (pinBit p.val) { s with mem := m }).answer .ok, ?_,
    fun i w hi hsample => ?_, fun a ha => hwrote.frame a ?_, rfl⟩
  · change runCall succeed (callClearGpio c.val p.val s) s = _
    rw [callClearGpio_go hinit hp, runCall_go hq.free, (hclears.append hlow).finish]
    rfl
  · have hword := Wrote.arenaWordOf_eq (s := s)
      (t := (gpioWrite .host .clr0 (pinBit p.val) { s with mem := m }).answer .ok) hwrote rfl
      (o := sampleOffset i) (by unfold sampleOffset; omega)
    have hin : 4 * 0 ≤ sampleOffset i ∧ sampleOffset i < 4 * (0 + (s.chan c).sampleCount) := by
      unfold sampleOffset
      omega
    refine hword.trans ?_
    rw [show arenaWordOf s (s.chan c) (sampleOffset i) = some w from hsample, Option.map_some, if_pos hin]
  · rintro o ⟨j, -, hj, rfl⟩
    exact ha j (by omega)

/-- A clear keeps the board, what the host knows of the channels and the claims, and the engines; its pin is low. -/
theorem PlaneCleared.keeps {s t : State} {c : Chan} {p : Pin} (h : PlaneCleared s t c p) : t.board = s.board ∧
    (∀ d, t.chan d = s.chan d) ∧ (∀ q, claimed t q = claimed s q) ∧ t.dma = s.dma ∧
    t.gpio.out.getLsbD p.val = false := by
  rw [h.rest]
  exact ⟨rfl, fun _ => rfl, fun _ => rfl, rfl, (andNot_pinBit_getLsbD s.gpio.out p p).trans (by simp)⟩

/-- A clear of a pin's samples writes no control block. -/
theorem PlaneCleared.dstWord_eq {s t : State} {c : Chan} {p : Pin} (h : PlaneCleared s t c p)
    (hok : ArenaOk s.board (s.chan c)) (k : Nat) : dstWord t c k = dstWord s c k := by
  obtain ⟨hboard, hchan, -⟩ := h.keeps
  rw [dstWord, dstWord, hchan, hboard]
  refine arenaWordOf_of_bytes hboard fun a ha => h.frame a fun i hi => ?_
  have hmod := hok.blockOffset_mod_four k
  exact hok.inArenaWord_apart (by unfold dstOffset; omega) (by unfold sampleOffset; omega) (hok.dst_ne_sample hi) ha

/-- Settles O47: the accesses clear the samples and then the pin; a control block lies apart from every sample. -/
theorem clearGpioClearsTheBitPlane : Obligations.ClearGpioClearsTheBitPlane := by
  intro s c p hq hinit hok hm hw hp
  obtain ⟨t, hrun, hcleared⟩ := exec_clearChannelGpio hq hinit hok hm hw hp
  obtain ⟨-, -, hclaims, -⟩ := hcleared.keeps
  exact ⟨t, hrun, hcleared, fun k _ => hcleared.dstWord_eq hok k, (hclaims p).trans hp⟩

/-! ## A pulse, then a clear (R231, R233) -/

/-- A pin is claimed after its pulse. -/
theorem PulseApplied.claimed_eq_true {s t : State} {c : Chan} {p : Pin} {start width : Nat}
    (h : PulseApplied s t c p start width) : claimed t p = true := by
  obtain ⟨u, hafter, ht⟩ := h.rest
  refine (congrArg (claimed · p) ht).trans ?_
  obtain ⟨hp, rfl⟩ | ⟨-, w, -, rfl⟩ := hafter
  · exact hp
  · exact (claimed_claimedState p p w s).trans (by simp)

/-- A pulse leaves the engines alone. -/
theorem PulseApplied.dma_eq {s t : State} {c : Chan} {p : Pin} {start width : Nat}
    (h : PulseApplied s t c p start width) : t.dma = s.dma := by
  obtain ⟨u, hafter, ht⟩ := h.rest
  rw [ht]
  obtain ⟨-, rfl⟩ | ⟨-, w, -, rfl⟩ := hafter <;> rfl

/-- In a sample without the pin's bit, a clear takes back what a pulse of the pin wrote. -/
theorem clear_pulsedSample {p : Pin} {w : Word} (h : w.getLsbD p.val = false) (start width i : Nat) :
    pulsedSample p start width i w &&& ~~~(pinBit p.val) = w := by
  apply BitVec.eq_of_getLsbD_eq
  intro k hk
  rw [show k = (⟨k, hk⟩ : Pin).val from rfl, andNot_pinBit_getLsbD, pulsedSample_getLsbD _ _ _ _ _ hk]
  by_cases hp : p = ⟨k, hk⟩
  · subst hp
    simp [h]
  · have hval : p.val ≠ k := fun hval => hp (Fin.ext hval)
    simp [hp, hval]

/-- Settles O48: the channel takes the clear after the pulse, and the clear takes the pulse's bits back. -/
theorem pulseThenClearRestoresTheSamples : Obligations.PulseThenClearRestoresTheSamples := by
  intro s c p start width hq hinit hok hm hw hs he hplane
  have hready : TakesPulses s c := ⟨hq, hinit, hok, hm, hw⟩
  obtain ⟨t, hrun, htables, ht, hchan, -⟩ := hready.pulse p hs he
  have happlied : PulseApplied s t c p start width := by
    obtain ⟨t', hrun', happlied⟩ :=
      addPulseWritesThePulse s c p start width (hq.mono (pulseLocks_subset s c p)) hinit hok hm (.inl hw) hs he
    cases hrun.symm.trans hrun'
    exact happlied
  obtain ⟨u, hrunu, hcleared⟩ := exec_clearChannelGpio (ht.quiet.mono (by simp)) ht.initialized ht.arena ht.memory
    ht.windows happlied.claimed_eq_true
  obtain ⟨-, -, hclaims, hengines, hout⟩ := hcleared.keeps
  refine ⟨t, u, hrun, hrunu, fun i hi => ?_, fun k _ => hcleared.dstWord_eq ht.arena k,
    (hclaims p).trans happlied.claimed_eq_true, hout, hengines.trans happlied.dma_eq⟩
  obtain ⟨a, ha, -⟩ := hok.phys_exists (hok.sample_lt hi).2
  have hsample : sampleWord s c i = some (Memory.readWord s.mem (physicalOf s.board a)) := congrArg (Option.map _) ha
  rw [hcleared.samples i _ (hchan ▸ hi) (htables.sampleWord_eq hi hsample),
    clear_pulsedSample (hplane i _ hi hsample), hsample]

end Sys2Proof.Machine

/-!
PROOFS. An engine that an earlier process left running (O22): its write goes to one word of memory outside every arena, or
to the bus as an engine's own write does.
-/

namespace Sys2Proof.Machine

/-! ## Addresses of an arena's pages (R71, R73) -/

/-- A DMA-view address in a page of a sound arena is one of the arenas'. -/
theorem inAnArena_of_page {s : State} (hs : ArenasOk s) {d : Chan} {page a : Word} (hp : page ∈ (s.chan d).pageMap)
    (hlo : page.toNat ≤ a.toNat) (hhi : a.toNat < page.toNat + pageSize s.board) : inAnArena s a = true := by
  have hok : ArenaOk s.board (s.chan d) := hs.each d (List.ne_nil_of_mem hp)
  obtain ⟨n, hn⟩ := List.mem_iff_getElem?.mp hp
  have ha : a.toNat = page.toNat + (a.toNat - page.toNat) := by omega
  have hoff : arenaOffset s.board (s.chan d) a = some ((0 + n) * pageSize s.board + (a.toNat - page.toNat)) :=
    offsetFrom_of_getElem hs.board hok.pages hok.distinct hn ha (by omega) 0
  exact inAnArena_of_phys hok (phys_of_arenaOffset hoff)

/-- The word an engine of an earlier process may write has no byte in an arena's page: page and word are aligned. -/
theorem foreignWritable_apart {s : State} (hs : ArenasOk s) {a : Word} (hw : foreignWritable s a = true) {d : Chan}
    {x : Nat} (hx : inPages s.board (s.chan d).pageMap x) :
    x < physicalOf s.board a ∨ physicalOf s.board a + 4 ≤ x := by
  simp only [foreignWritable, inBusMemory, Bool.and_eq_true, Bool.not_eq_true', decide_eq_true_eq] at hw
  obtain ⟨⟨⟨⟨hbus, -⟩, haligned⟩, -⟩, houtside⟩ := hw
  obtain ⟨page, hp, hlo, hhi⟩ := hx
  obtain ⟨hpage, hview, -⟩ := pageOk_bounds hs.board ((hs.each d (List.ne_nil_of_mem hp)).pages page hp)
  have hfour := hs.board.four_dvd_pageSize
  have hpage4 := hfour.trans hpage
  unfold physicalOf at *
  by_contra hmeet
  refine Bool.false_ne_true (houtside.symm.trans (inAnArena_of_page hs hp ?_ ?_)) <;> omega

/-! ## What its turn does (R275, R306, R314; log 37) -/

theorem foreignWrite_absent {c : Chan} {s : State} (h : ¬((s.eng c).cs.active = true ∧ (s.eng c).foreign = true))
    (a v : Word) : foreignWrite c a v s = .next s := by
  unfold foreignWrite
  rw [if_neg fun hf => h (by rwa [Bool.and_eq_true] at hf)]

section
variable {c : Chan} {s : State} (hactive : (s.eng c).cs.active = true) (hforeign : (s.eng c).foreign = true)
include hactive hforeign

theorem foreignWrite_memory {a : Word} (hw : foreignWritable s a = true) (v : Word) :
    foreignWrite c a v s = .next { s with mem := Memory.writeWord s.mem (physicalOf s.board a) v } := by
  simp only [foreignWrite, hactive, hforeign, hw, Bool.and_self, if_true]

theorem foreignWrite_bus {a : Word} (hw : foreignWritable s a = false) (v : Word) :
    foreignWrite c a v s = busWrite c a v s := by
  simp only [foreignWrite, hactive, hforeign, hw, Bool.and_self, if_true, Bool.false_eq_true, if_false]

end

/-- WHAT SUCH A TURN CAN DO: nothing, a write of its word of memory, a mask to a GPIO register, or a push. -/
theorem foreignWrite_eq_next {c : Chan} {a v : Word} {s t : State} (h : foreignWrite c a v s = .next t) :
    t = s ∨
    (foreignWritable s a = true ∧ t = { s with mem := Memory.writeWord s.mem (physicalOf s.board a) v }) ∨
    (∃ reg, t = gpioWrite (.dma c) reg v s) ∨ t = pushed c s := by
  by_cases hf : (s.eng c).cs.active = true ∧ (s.eng c).foreign = true
  · obtain ⟨hactive, hforeign⟩ := hf
    cases hw : foreignWritable s a with
    | true =>
      rw [foreignWrite_memory hactive hforeign hw] at h
      cases h
      exact .inr (.inl ⟨rfl, rfl⟩)
    | false =>
      rw [foreignWrite_bus hactive hforeign hw] at h
      obtain hmask | ⟨-, -, hpush⟩ := busWrite_eq_next h
      · exact .inr (.inr (.inl hmask))
      · exact .inr (.inr (.inr hpush))
  · rw [foreignWrite_absent hf] at h
    cases h
    exact .inl rfl

/-- Settles O22: the turn is one of four writes, and the only one that reaches memory misses every page. -/
theorem foreignEngineSparesTheArenas : Obligations.ForeignEngineSparesTheArenas := by
  intro s c a v turns hs
  rw [step_foreign hs]
  refine ⟨fun h => foreignWrite_absent (s := { s with agenda := turns }) h a v, fun hactive hforeign =>
    ⟨fun hw => foreignWrite_memory (s := { s with agenda := turns }) hactive hforeign hw v,
      fun reg hb hw ha => ?_⟩, fun t harenas hm ht => ?_⟩
  · have hreg : a = reg.busAddress s.board := by rw [ha]; cases reg <;> rfl
    subst hreg
    rw [foreignWrite_bus (s := { s with agenda := turns }) hactive hforeign hw]
    refine (busWrite_busAddress (s := { s with agenda := turns }) c reg v hb.registers).trans ?_
    cases reg <;> rfl
  · obtain rfl | ⟨hw, rfl⟩ | ⟨reg, rfl⟩ | rfl := foreignWrite_eq_next ht
    · exact ⟨fun _ _ _ => rfl, rfl, rfl, rfl, rfl, rfl, rfl, rfl, rfl, rfl, rfl, rfl⟩
    · exact ⟨fun d x hx => Memory.read_writeWord_other hm v (foreignWritable_apart harenas hw hx), rfl, rfl, rfl, rfl, rfl,
        rfl, rfl, rfl, rfl, rfl, rfl⟩
    · exact ⟨fun _ _ _ => rfl, rfl, rfl, rfl, rfl, rfl, rfl, rfl, rfl, rfl, rfl, rfl⟩
    · exact ⟨fun _ _ _ => rfl, rfl, rfl, rfl, rfl, rfl, rfl, rfl, rfl, rfl, rfl, rfl⟩

end Sys2Proof.Machine

/-!
PROOFS. A thread's call does what the main thread's call does (O53). An access neither reads nor writes what differs
between the two: the last answer of the main thread, the threads, the agenda. So the thread's turns make the accesses the
main thread's call makes.
-/

namespace Sys2Proof.Machine

/-! ## Around an access: the main thread's answer, the threads, the agenda -/

/-- `s` with another last answer of the main thread, other threads and another agenda. -/
def State.among (r : HostResult) (ths : List Thread) (turns : List Turn) (s : State) : State :=
  { s with host := { s.host with result := r }, threads := ths, agenda := turns }

theorem among_self (s : State) : s.among s.host.result s.threads s.agenda = s := rfl

/-- `f` neither reads nor writes the main thread's answer, the threads, the agenda. -/
def IgnoresCaller (f : State → Outcome) : Prop :=
  ∀ s r ths turns, f (s.among r ths turns) = andThen (f s) fun t => .next (t.among r ths turns)

theorem land_ignoresCaller (w : HostWrite) : IgnoresCaller (land w) := by
  intro s r ths turns
  change land w (s.inside (s.among r ths turns)) = _
  rw [land_inside]
  cases h : land w s with
  | next t =>
    rw [andThen_next, andThen_next, land_keeps h]
    rfl
  | fault | refused => rfl

theorem issue_ignoresCaller (w : HostWrite) : IgnoresCaller (issue w) := by
  intro s r ths turns
  have hboard : (s.among r ths turns).board = s.board := rfl
  unfold issue
  rw [hboard]
  split
  · exact land_ignoresCaller w s r ths turns
  · rfl

theorem command_ignoresCaller (w : HostWrite) : IgnoresCaller (command w) := by
  intro s r ths turns
  have hmapped : (s.among r ths turns).host.windowsMapped = s.host.windowsMapped := rfl
  unfold command throughWindow
  rw [hmapped]
  split
  · change andThen (issue w (s.among r ths turns)) _ = _
    rw [issue_ignoresCaller, andThen_assoc, andThen_assoc]
    rfl
  · rfl

theorem setHeadTo_ignoresCaller (c : Chan) (a : Word) : IgnoresCaller (setHeadTo c a) := by
  intro s r ths turns
  have hboard : (s.among r ths turns).board = s.board := rfl
  unfold setHeadTo
  rw [hboard]
  split
  · exact command_ignoresCaller _ s r ths turns
  · rfl

theorem arenaWrite_ignoresCaller (c : Chan) (off : Nat) (v : Word) : IgnoresCaller (arenaWrite c off v) := by
  intro s r ths turns
  have hphys : phys (s.among r ths turns).board ((s.among r ths turns).chan c) off = phys s.board (s.chan c) off := rfl
  have hboard : (s.among r ths turns).board = s.board := rfl
  unfold arenaWrite atArena
  rw [hphys, hboard]
  split
  · rfl
  · split
    · exact issue_ignoresCaller _ s r ths turns
    · rfl

/-- What an access came to, its state changed by `f`. -/
def Did.map (f : State → State) : Did → Did
  | .went x s => .went x (f s)
  | .ended r s => .ended r (f s)
  | .fault e => .fault e
  | .refused e => .refused e

theorem IgnoresCaller.didOf {f : State → Outcome} (hf : IgnoresCaller f) (x : Scratch) (s : State) (r : HostResult)
    (ths : List Thread) (turns : List Turn) :
    Did.of x (f (s.among r ths turns)) = (Did.of x (f s)).map (State.among r ths turns) := by
  rw [hf]
  cases f s <;> rfl

theorem takePages_among {x : Scratch} {s : State} {r : HostResult} {ths : List Thread} {turns : List Turn}
    {k : State → Did} (hk : ∀ u, k (u.among r ths turns) = (k u).map (State.among r ths turns)) :
    takePages x (s.among r ths turns) k = (takePages x s k).map (State.among r ths turns) := by
  have hexact : exactPages (s.among r ths turns) x.pages = exactPages s x.pages := rfl
  unfold takePages
  rw [hexact]
  split
  · exact hk { s with mem := Memory.clearPages s.board s.mem x.pages }
  · rfl

/-- AN ACCESS DOES THE SAME whoever makes it. -/
theorem perform_among (a : Action) (x : Scratch) (s : State) (r : HostResult) (ths : List Thread) (turns : List Turn) :
    perform a x (s.among r ths turns) = (perform a x s).map (State.among r ths turns) := by
  have hboard : (s.among r ths turns).board = s.board := rfl
  have hchan (c : Chan) : (s.among r ths turns).chan c = s.chan c := rfl
  have henv : (s.among r ths turns).env = s.env := rfl
  cases a with
  | write w => exact (command_ignoresCaller w).didOf x s r ths turns
  | writeSelect p => exact (command_ignoresCaller _).didOf x s r ths turns
  | setSample | clearSample | retarget => exact (arenaWrite_ignoresCaller _ _ _).didOf x s r ths turns
  | recordClaim | recordWindows | touchPage => rfl
  | readSelect | readRegister =>
    have hmapped : (s.among r ths turns).host.windowsMapped = s.host.windowsMapped := rfl
    simp only [perform, throughWindowDid, hmapped]
    split <;> rfl
  | readSample c i =>
    simp only [perform, arenaRead, hboard, hchan]
    split
    · rfl
    · split <;> rfl
  | mapWindow base =>
    have hmap : mapSucceeds base (s.among r ths turns) = mapSucceeds base s := rfl
    simp only [perform, hmap]
    split <;> rfl
  | makeRegion =>
    simp only [perform, henv]
    split <;> rfl
  | resolvePage j =>
    simp only [perform, resolve, hboard, henv]
    split <;> rfl
  | recordArena c sub n =>
    simp only [perform, recordArena, hboard, hchan]
    split
    · rfl
    · split
      · rfl
      · exact takePages_among fun _ => rfl
  | handArena => exact takePages_among fun _ => rfl
  | writeField c k f =>
    simp only [perform, hboard, hchan]
    split
    · rfl
    · exact (arenaWrite_ignoresCaller _ _ _).didOf x s r ths turns
  | setHead c =>
    simp only [perform, hboard, hchan]
    split
    · rfl
    · exact (setHeadTo_ignoresCaller _ _).didOf x s r ths turns
  | recordClock inc =>
    have hclock : (s.among r ths turns).host.clockConfigured = s.host.clockConfigured := rfl
    simp only [perform, hclock]
    split <;> rfl
  | recordChannel c =>
    simp only [perform, hchan]
    split <;> rfl

/-- An access leaves the main thread's answer, the threads and the agenda. -/
theorem perform_keeps {a : Action} {x : Scratch} {s t : State} (h : (perform a x s).state = some t) :
    t.host.result = s.host.result ∧ t.agenda = s.agenda := by
  have hself := perform_among a x s s.host.result s.threads s.agenda
  rw [among_self] at hself
  have ht : t = t.among s.host.result s.threads s.agenda := by
    cases hp : perform a x s with
    | went y u =>
      rw [hp] at h hself
      cases h
      exact (Did.went.inj hself).2
    | ended res u =>
      rw [hp] at h hself
      cases h
      exact (Did.ended.inj hself).2
    | fault | refused => rw [hp] at h; cases h
  exact ⟨(congrArg (·.host.result) ht :), (congrArg State.agenda ht :)⟩

/-! ## The turns of a thread's call -/

/-- The thread is about to make these accesses, having read `x`; with none left its call has returned `ok`. -/
def Thread.about (th : Thread) : List Action → Scratch → Prop
  | [], _ => th = th.returned .ok
  | a :: todo, x => th.todo = a :: todo ∧ th.scratch = x

theorem goesOn_about (th : Thread) (todo : List Action) (x : Scratch) : (th.goesOn todo x).about todo x := by
  cases todo with
  | nil => rfl
  | cons a todo => exact ⟨rfl, rfl⟩

theorem goesOn_returned (th : Thread) (todo : List Action) (x : Scratch) (r : HostResult) :
    (th.goesOn todo x).returned r = th.returned r := by
  cases todo <;> rfl

/-- What a thread answers where the main thread's call goes from `s` to `t`: the same, or `ok` where that answers nothing. -/
def Answers (s t : State) (r : HostResult) : Prop :=
  r = t.host.result ∨ r = .ok ∧ t.host.result = s.host.result

/-- Turns of thread `k` alone, which stands in its call as `th`, do what leads the main thread from `s` to `t`, and the
thread returns. -/
def ThreadDoes (k : Nat) (th : Thread) (s t : State) : Prop :=
  ∀ r ths, ths[k]? = some th → ∃ n res, Answers s t res ∧
    Host.Core.run Sys2Proof.core n (s.among r ths (List.replicate n (.thread k))) =
      .next (t.among r (ths.set k (th.returned res)) t.agenda)

/-- The thread has returned: no turn is left to take. -/
theorem ThreadDoes.done {k : Nat} {th : Thread} {s t : State} {res : HostResult} (hq : s.agenda = [])
    (hth : th = th.returned res) (ht : t = s ∨ t = s.answer res) (hres : Answers s t res) : ThreadDoes k th s t := by
  intro r ths hk
  refine ⟨0, res, hres, ?_⟩
  obtain ⟨hlt, hget⟩ := List.getElem?_eq_some_iff.mp hk
  rw [run_zero, ← hth, ← hget, List.set_getElem_self, List.replicate_zero, ← hq]
  obtain rfl | rfl := ht
  · rfl
  · rfl

/-- A turn of the thread, and then the others. -/
theorem ThreadDoes.turn {k : Nat} {th th' : Thread} {s u t : State}
    (hstep : ∀ r ths turns, ths[k]? = some th →
      threadTurn [] k (s.among r ths turns) = .next (u.among r (ths.set k th') turns))
    (hresult : u.host.result = s.host.result) (hreturned : ∀ res, th'.returned res = th.returned res)
    (h : ThreadDoes k th' u t) : ThreadDoes k th s t := by
  intro r ths hk
  obtain ⟨hlt, -⟩ := List.getElem?_eq_some_iff.mp hk
  obtain ⟨n, res, hres, hrun⟩ := h r (ths.set k th') (List.getElem?_set_self hlt)
  refine ⟨n + 1, res, hres.imp_right fun ⟨hok, ht⟩ => ⟨hok, ht.trans hresult⟩, ?_⟩
  have hfirst : step (s.among r ths (List.replicate (n + 1) (.thread k))) =
      .next (u.among r (ths.set k th') (List.replicate n (.thread k))) :=
    (step_thread rfl).trans (hstep r ths _ hk)
  rw [run_succ hfirst, hrun, List.set_set, hreturned]

section
variable {k : Nat} {th : Thread} {a : Action} {todo : List Action} {s u : State} (htodo : th.todo = a :: todo)
include htodo

theorem threadTurn_went {y : Scratch} (hu : perform a th.scratch s = .went y u) (r : HostResult) (ths : List Thread)
    (turns : List Turn) (hk : ths[k]? = some th) :
    threadTurn [] k (s.among r ths turns) = .next (u.among r (ths.set k (th.goesOn todo y)) turns) :=
  (threadTurn_access (s := s.among r ths turns) hk htodo).mpr
    (.inl ⟨y, u.among r ths turns, by rw [perform_among, hu]; rfl, rfl⟩)

theorem threadTurn_ended {res : HostResult} (hu : perform a th.scratch s = .ended res u) (r : HostResult)
    (ths : List Thread) (turns : List Turn) (hk : ths[k]? = some th) :
    threadTurn [] k (s.among r ths turns) = .next (u.among r (ths.set k (th.returned res)) turns) :=
  (threadTurn_access (s := s.among r ths turns) hk htodo).mpr
    (.inr ⟨res, u.among r ths turns, by rw [perform_among, hu]; rfl, rfl⟩)

end

/-- How the main thread ends a call whose accesses are made. -/
def Closes (finish : State → Outcome) : Prop := ∀ s t, finish s = .next t → t = s ∨ t = s.answer .ok

theorem closes_next : Closes fun t => .next t := fun _ _ h => by cases h; exact .inl rfl

theorem closes_succeed : Closes succeed := fun _ _ h => by cases h; exact .inr rfl

/-- The accesses that lead the main thread from `s` to `t` are turns of a thread about to make them. -/
theorem threadDoes_of_runActions {k : Nat} {finish : State → Outcome} (hf : Closes finish) {todo : List Action}
    {busy : List Resource} {x : Scratch} {s t : State} {th : Thread} (hq : s.agenda = []) (hth : th.about todo x)
    (h : runActions busy finish todo x s = .next t) : ThreadDoes k th s t := by
  induction todo generalizing busy x s th with
  | nil =>
    have ht := hf s t h
    refine .done hq hth ht ?_
    obtain rfl | rfl := ht
    · exact .inr ⟨rfl, rfl⟩
    · exact .inl rfl
  | cons a todo ih =>
    obtain ⟨htodo, rfl⟩ := hth
    unfold runActions at h
    rw [hostTurn_quiet hq, andThen_next] at h
    split at h
    · next y u hu =>
      obtain ⟨hresult, hagenda⟩ := perform_keeps (t := u) (by rw [hu]; rfl)
      exact .turn (threadTurn_went htodo hu) hresult (goesOn_returned th todo y)
        (ih (hagenda.trans hq) (goesOn_about th todo y) h)
    · next res u hu =>
      obtain ⟨hresult, hagenda⟩ := perform_keeps (t := u) (by rw [hu]; rfl)
      cases h
      exact .turn (threadTurn_ended htodo hu) hresult (fun _ => rfl)
        (.done (hagenda.trans hq) rfl (.inr rfl) (.inl rfl))
    · cases h
    · cases h

/-! ## Calls -/

/-- A call that goes on has an access to make. -/
def Call.acts : Call → Prop
  | .answer _ | .refuse _ => True
  | .go _ todo => todo ≠ []

theorem onChannel_acts (channel : Int) (s : State) {k : Chan → Call} (h : ∀ c, (k c).acts) :
    (onChannel channel s k).acts := by
  unfold onChannel
  split
  · trivial
  · split
    · exact h _
    · trivial

theorem pulseCall_acts (c : Chan) (gpio start width : Int) (s : State) : (pulseCall c gpio start width s).acts := by
  unfold pulseCall
  split
  · trivial
  · split_ifs
    · trivial
    · trivial
    · exact List.cons_ne_nil _ _
    · exact List.cons_ne_nil _ _

theorem callOfInstr_acts (i : Instr) (s : State) : (callOfInstr i s).acts := by
  cases i with
  | cba | cbb | cbx | settle => trivial
  | dmaReset | dmaClrdbg | dmaStart => exact List.cons_ne_nil _ _
  | pwmOff | clkSrc | clkDiv | clkOn | pwmRng | pwmDmac | pwmClrf | pwmOn => exact List.cons_ne_nil _ _
  | gpioSet | gpioClr | gpioFselRd | allocate => exact List.cons_ne_nil _ _
  | dmaSetcb =>
    simp only [callOfInstr]
    split
    · exact List.cons_ne_nil _ _
    · trivial
  | gpioFselOut =>
    simp only [callOfInstr, callSelectOutput]
    split
    · exact List.cons_ne_nil _ _
    · trivial
  | initEngine =>
    simp only [callOfInstr, callInitialize]
    split_ifs
    · trivial
    · trivial
    · exact List.cons_ne_nil _ _
  | initChannel =>
    simp only [callOfInstr, callInitChannel]
    split
    · trivial
    · split
      · trivial
      · split_ifs
        · trivial
        · trivial
        · trivial
        · trivial
        · exact List.cons_ne_nil _ _
  | addChannelPulse channel g a w => exact onChannel_acts channel s fun c => pulseCall_acts c g a w s
  | setChannelPercent channel g p => exact onChannel_acts channel s fun c => pulseCall_acts c g 0 _ s
  | clearChannelGpio channel =>
    refine onChannel_acts channel s fun c => ?_
    split
    · trivial
    · split
      · exact List.append_ne_nil_of_right_ne_nil _ (List.cons_ne_nil _ _)
      · trivial
  | map =>
    simp only [callOfInstr, callMap]
    split <;> trivial
  | compile =>
    simp only [callOfInstr, callCompile]
    split
    · trivial
    · split
      · trivial
      · exact List.append_ne_nil_of_right_ne_nil _ (List.cons_ne_nil _ _)
  | configureGlobalClock =>
    simp only [callOfInstr, callConfigureGlobalClock]
    split
    · exact List.cons_ne_nil _ _
    · trivial
  | claim =>
    simp only [callOfInstr, callClaim]
    split
    · trivial
    · split
      · trivial
      · exact List.cons_ne_nil _ _

/-- A thread whose call begins. -/
def Thread.begun (th : Thread) (rest : List Word) (locks : List Resource) (todo : List Action) : Thread :=
  { th with program := rest, todo := todo, holds := locks, scratch := Scratch.empty }

theorem begun_about {todo : List Action} (h : todo ≠ []) (th : Thread) (rest : List Word) (locks : List Resource) :
    (th.begun rest locks todo).about todo Scratch.empty := by
  obtain ⟨a, todo, rfl⟩ := List.exists_cons_of_ne_nil h
  exact ⟨rfl, rfl⟩

/-- A register command of the main thread, nobody else stepping, is the call of its one write. -/
theorem command_eq_runCall {s : State} (hq : s.agenda = []) (w : HostWrite) :
    command w s = runCall (fun t => .next t) (.go [] [.write w]) s := by
  rw [runCall_go rfl, runActions, hostTurn_quiet hq, andThen_next]
  simp only [perform]
  cases command w s <;> rfl

theorem execGpioFselRd_eq_runCall {s : State} (hq : s.agenda = []) (n : Fin 4) :
    execGpioFselRd n s = runCall (fun t => .next t) (.go [] [.readRegister n]) s := by
  rw [runCall_go rfl, runActions, hostTurn_quiet hq, andThen_next]
  simp only [perform, throughWindowDid, execGpioFselRd, throughWindow]
  split <;> rfl

/-- EVERY HOST INSTRUCTION but a settle delay, which answers nothing, is the main thread's run of its call. -/
theorem exec_eq_runCall {i : Instr} {s : State} (hhost : i.decoder = .host) (hsettle : ∀ us, i ≠ .settle us)
    (hq : s.agenda = []) : ∃ finish, Closes finish ∧ exec i s = runCall finish (callOfInstr i s) s := by
  cases i with
  | cba | cbb | cbx => cases hhost
  | settle us => exact absurd rfl (hsettle us)
  | dmaReset | dmaClrdbg | dmaStart => exact ⟨_, closes_next, command_eq_runCall hq _⟩
  | pwmOff | clkSrc | clkDiv | clkOn | pwmRng | pwmDmac | pwmClrf | pwmOn =>
    exact ⟨_, closes_next, command_eq_runCall hq _⟩
  | gpioSet | gpioClr => exact ⟨_, closes_next, command_eq_runCall hq _⟩
  | gpioFselRd n => exact ⟨_, closes_next, execGpioFselRd_eq_runCall hq n⟩
  | dmaSetcb c a =>
    refine ⟨_, closes_next, ?_⟩
    change setHeadTo c a s = _
    simp only [setHeadTo, callOfInstr]
    split
    · exact command_eq_runCall hq _
    · rfl
  | gpioFselOut => exact ⟨_, closes_next, rfl⟩
  | initEngine | initChannel | addChannelPulse | setChannelPercent | clearChannelGpio => exact ⟨_, closes_succeed, rfl⟩
  | map | allocate | compile | configureGlobalClock | claim => exact ⟨_, closes_succeed, rfl⟩

/-! ## What the host decodes (R100) -/

/-- What a decoder answers, if anything, is an instruction of the host. -/
def AnswersHost (r : Except DecodeError Instr) : Prop := ∀ i, r = .ok i → i.decoder = .host

theorem AnswersHost.ok {i : Instr} (h : i.decoder = .host) : AnswersHost (.ok i) := fun _ hi => by cases hi; exact h

theorem AnswersHost.error (e : DecodeError) : AnswersHost (.error e) := nofun

theorem AnswersHost.ite {p : Prop} [Decidable p] {r r' : Except DecodeError Instr} (h : AnswersHost r)
    (h' : AnswersHost r') : AnswersHost (if p then r else r') := by
  split
  · exact h
  · exact h'

theorem decodeWrite_answersHost (b : Board) (w : Window) (off : Nat) (t v : Word) :
    AnswersHost (decodeWrite b w off t v) := by
  cases w with
  | dma c =>
    exact .ite (.ite (.ok rfl) (.ite (.ok rfl) (.error _)))
      (.ite (.ite (.ok rfl) (.error _)) (.ite (.ite (.ok rfl) (.error _)) (.error _)))
  | pwm =>
    exact .ite (.ite (.ok rfl) (.ite (.ok rfl) (.ite (.ok rfl) (.error _))))
      (.ite (.ite (.ok rfl) (.error _)) (.ite (.ok rfl) (.error _)))
  | clk => exact .ite (.ite (.ok rfl) (.ite (.ok rfl) (.error _))) (.ite (.ite (.ok rfl) (.error _)) (.error _))
  | gpio => exact .ite (.ok rfl) (.ite (.ok rfl) (.error _))
  | pcm => exact .error _

theorem decodeRead_answersHost (b : Board) (w : Window) (off : Nat) (t v : Word) :
    AnswersHost (decodeRead b w off t v) :=
  .ite (.ite (.error _) (.ite (.ok rfl) (.ite (.ok rfl) (.ite (.ok rfl) (.ite (.ok rfl) (.error _)))))) (.error _)

theorem decodeModify_answersHost (b : Board) (w : Window) (off : Nat) (t v : Word) :
    AnswersHost (decodeModify b w off t v) := by
  refine .ite ?_ (.error _)
  split
  · exact .ok rfl
  · exact .error _

theorem decodeCommand_answersHost (b : Board) (v t : Word) : AnswersHost (decodeCommand b v t) := by
  refine .ite (.ok rfl) ?_
  split
  · exact .error _
  · exact .ite (decodeWrite_answersHost b _ _ t v)
      (.ite (decodeRead_answersHost b _ _ t v) (.ite (decodeModify_answersHost b _ _ t v) (.error _)))

/-- No control block comes from the host's decoder, on any board. -/
theorem decoder_of_decode_host {b : Board} {ws rest : List Word} {i : Instr} (h : decode b .host ws = .ok (i, rest)) :
    i.decoder = .host := by
  match ws with
  | [] | [_] => cases h
  | v :: t :: ws =>
    rw [decode, decodeHostWords] at h
    split at h
    · obtain ⟨args, hcall, -⟩ := decodeCall_eq_ok_iff.mp h
      exact (encode_of_callOf hcall b).2.2
    · split at h
      · next j hcommand =>
        cases h
        exact decodeCommand_answersHost b v t i hcommand
      · cases h

/-! ## An idle thread's call -/

/-- WHAT A TURN OF AN IDLE THREAD DOES where its stream decodes to a call that answers at its checks. -/
theorem step_thread_answers {s : State} {k : Nat} {turns : List Turn} {th : Thread} {i : Instr} {rest : List Word}
    {r : HostResult} (hs : s.agenda = .thread k :: turns) (hth : s.threads[k]? = some th) (hidle : th.todo = [])
    (hdecode : decode s.board .host th.program = .ok (i, rest)) (hcall : callOfInstr i s = .answer r) :
    step s = .next (State.setThread { s with agenda := turns } k { th.returned r with program := rest }) := by
  rw [step_thread hs]
  simp only [threadTurn, hth, hidle, beginNext, fetchCall_decodes hdecode, callOfInstr_withAgenda, hcall]

/-- A thread that has taken its call from the stream, and then does what the main thread does, has done the call. -/
theorem ThreadDoes.called {k : Nat} {th th' : Thread} {s t : State} (hk : s.threads[k]? = some th)
    (hstep : ∀ turns, step (s.among s.host.result s.threads (.thread k :: turns)) =
      .next (s.among s.host.result (s.threads.set k th') turns)) (h : ThreadDoes k th' s t) :
    ∃ n res, Answers s t res ∧
      Host.Core.run Sys2Proof.core n (s.among s.host.result s.threads (List.replicate n (.thread k))) =
        .next (t.among s.host.result (s.threads.set k (th'.returned res)) t.agenda) := by
  obtain ⟨hlt, -⟩ := List.getElem?_eq_some_iff.mp hk
  obtain ⟨n, res, hres, hrun⟩ := h s.host.result (s.threads.set k th') (List.getElem?_set_self hlt)
  refine ⟨n + 1, res, hres, ?_⟩
  rw [List.replicate_succ, run_succ (hstep _), hrun, List.set_set]

/-- Settles O53: the thread takes the call from its stream, and its turns make the accesses of the main thread's call. -/
theorem threadCallsDoWhatHostCallsDo : Obligations.ThreadCallsDoWhatHostCallsDo := by
  intro i s t k th rest hk hidle _ hdecode hq hexec
  have answered {r : HostResult} (hcall : callOfInstr i s = .answer r) (ht : t = s ∨ t = s.answer r)
      (hres : Answers s t r) :=
    ThreadDoes.called (th' := { th.returned r with program := rest }) hk
      (fun turns => step_thread_answers (s := { s with agenda := .thread k :: turns }) rfl hk hidle hdecode
        ((callOfInstr_withAgenda i s _).trans hcall))
      (.done hq rfl ht hres)
  by_cases hsettle : ∃ us, i = .settle us
  · obtain ⟨us, rfl⟩ := hsettle
    cases hexec
    exact answered rfl (.inl rfl) (.inr ⟨rfl, rfl⟩)
  · obtain ⟨finish, hf, hrun⟩ := exec_eq_runCall (decoder_of_decode_host hdecode) (not_exists.mp hsettle) hq
    rw [hrun] at hexec
    have hacts := callOfInstr_acts i s
    cases hcall : callOfInstr i s with
    | answer r =>
      rw [hcall] at hexec
      cases hexec
      exact answered hcall (.inr rfl) (.inl rfl)
    | refuse r => rw [hcall] at hexec; cases hexec
    | go locks todo =>
      rw [hcall] at hexec hacts
      simp only [runCall] at hexec
      split at hexec
      · next hfree =>
        refine ThreadDoes.called (th' := th.begun rest locks todo) hk (fun turns => ?_)
          (threadDoes_of_runActions hf hq (begun_about hacts th rest locks) hexec)
        exact (step_thread_begins (s := { s with agenda := .thread k :: turns }) rfl hk hidle hdecode
          ((callOfInstr_withAgenda i s _).trans hcall)).trans (if_pos hfree)
      · cases hexec

end Sys2Proof.Machine
